-- ==== Sys2Proof/Word.lean ====
section
/-! DEFINITION. The words the part works in (00_scope.md 5) and the six-lane record every per-lane table uses. -/

namespace Sys2Proof

/-- One byte of a ring cell (13_cell_formats_and_connections.md). -/
abbrev Byte := BitVec 8

/-- A web position: a 32-bit count that wraps (00_scope.md 5, "Positions"). -/
abbrev Position := BitVec 32

/-- A repeat sequence number: a 16-bit number that wraps (00_scope.md 5). -/
abbrev Rsn := BitVec 16

/-- Lanes are numbered 0 to 5 (00_scope.md 5, "Lanes"). -/
abbrev Lane := Fin 6

/-- One value for each of the six lanes. -/
structure Lanes (α : Type) where
  l0 : α
  l1 : α
  l2 : α
  l3 : α
  l4 : α
  l5 : α
  deriving DecidableEq, Repr

/-- The value of one lane. -/
def Lanes.get {α : Type} (x : Lanes α) (i : Lane) : α :=
  match i with
  | 0 => x.l0
  | 1 => x.l1
  | 2 => x.l2
  | 3 => x.l3
  | 4 => x.l4
  | 5 => x.l5

/-- The record whose value in each lane is given by `f`. -/
def Lanes.ofFn {α : Type} (f : Lane → α) : Lanes α :=
  ⟨f 0, f 1, f 2, f 3, f 4, f 5⟩

/-- `x` with lane `i` holding `v`. -/
def Lanes.set {α : Type} (x : Lanes α) (i : Lane) (v : α) : Lanes α :=
  Lanes.ofFn fun j => if j = i then v else x.get j

/-- The same value in every lane. -/
def Lanes.all {α : Type} (v : α) : Lanes α :=
  ⟨v, v, v, v, v, v⟩

/-- The six values in ascending lane order. -/
def Lanes.toList {α : Type} (x : Lanes α) : List α :=
  [x.l0, x.l1, x.l2, x.l3, x.l4, x.l5]

end Sys2Proof
end

