-- ==== Sys2Proof/Config.lean ====
section
/-! DEFINITION. What the manual leaves open and the part supplies: the free values. No proof can see what one is. -/

namespace Sys2Proof

/-- The reply value of a refusal for which no rule of the manual states one: the STATE and RANGE refusals of R13, R16,
R21, R24, R27, R28, R115, R123, R153, R158, R164, R169 and R172 and the ADDRESS refusals of R123 name a result and no
value.  DESIGN CHOICE: a free value, drawn anew for each such reply (log 6).  Safe: a claim holds whatever it is. -/
opaque Config.refusalValue : Nat → BitVec 32

end Sys2Proof
end

