-- ==== Sys2Proof/Syntax.lean ====
section
/-! DEFINITION. The commands: one constructor for each row of spec/opcode_table.json, and the ring cells they carry. -/

namespace Sys2Proof

/-- The ten payload bytes of a cell, bytes 4 to 13 (chapter 13). -/
structure Payload where
  b4 : Byte
  b5 : Byte
  b6 : Byte
  b7 : Byte
  b8 : Byte
  b9 : Byte
  b10 : Byte
  b11 : Byte
  b12 : Byte
  b13 : Byte
  deriving DecidableEq, Repr

/-- A cell without its type code: bytes 1 to 13 and the check of bytes 14 and 15, high byte in byte 14 (chapter 13). -/
structure CellBody where
  source  : Byte
  dest    : Byte
  status  : Byte
  payload : Payload
  check   : BitVec 16
  deriving DecidableEq, Repr

/-- A 16-byte ring cell: the type code of byte 0 and the rest (chapter 13). -/
structure Cell where
  kind : Byte
  body : CellBody
  deriving DecidableEq, Repr

/-- The order in which the three watching blocks take the crossings of ONE advance of HW.  R4 lets each take its own
crossing and fixes no order, and R65 gives the outcome of either.  DESIGN CHOICE: the order is an operand (log 4). -/
inductive CrossingOrder where
  | mruKsqTrc
  | mruTrcKsq
  | ksqMruTrc
  | ksqTrcMru
  | trcMruKsq
  | trcKsqMru
  deriving DecidableEq, Repr

/-- What can fall together with an advance of HW and has a meaning that depends on HW: an edge of MARK (R5, R54) and the
end of a speed window (R87). -/
inductive Meeting where
  | mark
  | windowEnd
  deriving DecidableEq, Repr

/-- In what turn the occurrences of one advance of HW are taken: the order of the three crossings, and what falls together
with the count and is taken AFTER the count and BEFORE the first, the second and the third of them.  R54 and R87 let the
mark and the window end be first; what is taken before the count, or after every crossing, is a command of its own.
DESIGN CHOICE: it is an operand (log 4). -/
structure Turns where
  order  : CrossingOrder
  first  : List Meeting
  second : List Meeting
  third  : List Meeting
  deriving DecidableEq, Repr

/-- The crossings alone in their order: nothing else falls together with the count. -/
def CrossingOrder.alone (o : CrossingOrder) : Turns := { order := o, first := [], second := [], third := [] }

/-- One constructor per row of spec/opcode_table.json, in the table's order.
The rows from READ to BAD_OP that start a request carry no operand: they start the head of the request queue, whose
bytes came in with its MGMT_REQUEST (R161, log 7). -/
inductive Instr where
  /-- ENCODER_TRANSITION (R1): the new levels of ENC_A and ENC_B, and the turn in which what happens at the count is taken
  (log 4). -/
  | encoderTransition (encA encB : Bool) (turns : Turns)
  /-- MARK_EDGE (R5). -/
  | markEdge
  /-- SPEED_WINDOW_EXPIRY (R8). -/
  | speedWindowExpiry
  /-- KNIFE_INHIBIT_ASSERTED (R92). -/
  | knifeInhibitAsserted
  /-- PULSE_TIMER_EXPIRY (R90). -/
  | pulseTimerExpiry
  /-- RECOVERY_TIMER_EXPIRY (R91). -/
  | recoveryTimerExpiry
  /-- HEARTBEAT_TIMER_EXPIRY (R138). -/
  | heartbeatTimerExpiry
  /-- STATUS_TIMER_EXPIRY (R131) of one lane. -/
  | statusTimerExpiry (lane : Lane)
  /-- LINK_TIMER_EXPIRY (R148). -/
  | linkTimerExpiry
  /-- FRAME_HEADER (R147): a cell of type 10h. -/
  | frameHeader (body : CellBody)
  /-- INVALID_HEADER (R147). -/
  | invalidHeader (cell : Cell)
  /-- BAD_CHECK_CELL (R149). -/
  | badCheckCell (cell : Cell)
  /-- VERDICT (R69): a cell of type 21h. -/
  | verdict (body : CellBody)
  /-- HEARTBEAT (R137): a cell of type 22h. -/
  | heartbeat (body : CellBody)
  /-- STACKER_STATUS (R130): a cell of type 23h. -/
  | stackerStatus (body : CellBody)
  /-- MGMT_REQUEST (R160): a cell of type 30h. -/
  | mgmtRequest (body : CellBody)
  /-- CELL_REPEATED (R150). -/
  | cellRepeated (cell : Cell)
  /-- OWNED_SLOT_START (R154): the cell is the one arriving in the slot, which R151 consumes. -/
  | ownedSlotStart (arriving : Cell)
  /-- SLOT_END (R154). -/
  | slotEnd
  /-- READ (R163). -/
  | read
  /-- WRITE (R163). -/
  | write
  /-- SPEED_WINDOW_WRITE (R10). -/
  | speedWindowWrite
  /-- STACKER_NODE_WRITE (R133). -/
  | stackerNodeWrite
  /-- POCKET_WRITE (R133). -/
  | pocketWrite
  /-- STATUS_AGE_LIMIT_WRITE (R131). -/
  | statusAgeLimitWrite
  /-- MASK_WRITE (R169). -/
  | maskWrite
  /-- SLOT_MAP_WRITE (R153). -/
  | slotMapWrite
  /-- APPEND_BATCH (R120). -/
  | appendBatch
  /-- JOB_START (R20). -/
  | jobStart
  /-- JOB_STOP (R21). -/
  | jobStop
  /-- JOB_ABORT (R24). -/
  | jobAbort
  /-- TRIM (R27). -/
  | trim
  /-- WASTE (R28). -/
  | waste
  /-- SNAPSHOT (R166). -/
  | snapshot
  /-- CLEAR_EVENTS (R170). -/
  | clearEvents
  /-- RELEASE_STOP (R144). -/
  | releaseStop
  /-- RESET_NODE (R172). -/
  | resetNode
  /-- BAD_OP (R162). -/
  | badOp
  /-- DEVICE_RESET_ASSERT (R176). -/
  | deviceResetAssert
  /-- DEVICE_RESET_END (R176): what the part samples at the rising edge of RST_N: the straps NODE_ID[4:0], whether
  KNIFE_INHIBIT is asserted, and the levels of ENC_A and ENC_B. -/
  | deviceResetEnd (straps : BitVec 5) (inhibitAsserted encA encB : Bool)
  /-- KNIFE_INHIBIT_RELEASED (R92). -/
  | knifeInhibitReleased
  deriving DecidableEq, Repr

end Sys2Proof
end

