-- ==== Sys2Proof/Decode.lean ====
section
/-! DEFINITION. Decoding by the opcode table's bits. -/

namespace Sys2Proof

/-- The command a word spells by the bits of spec/opcode_table.json.  No row of the table gives any bits (98_reader.md:
no row with fixed bits, none with fields), so no word spells a command (log 22). -/
def decodeTableWord (_nbits _w : Nat) : Option Instr := none

end Sys2Proof
end

