-- ==== Sys2Proof/Machine/State.lean ====
section
/-! DEFINITION. The state of the part as plain data: one record per block, holding what the block's chapter says it holds;
the lines; the queue of waiting commands; and the state right after reset. -/

namespace Sys2Proof.Machine

/-! ### PSU, chapter 1 -/

/-- The position unit (01, table of state). -/
structure Psu where
  /-- WPOS, the current web position (R1). -/
  wpos : Position
  /-- HW, the high-water mark (R3). -/
  hw : Position
  /-- Decoder state: the last observed level of ENC_A (R1). -/
  encA : Bool
  /-- Decoder state: the last observed level of ENC_B (R1). -/
  encB : Bool
  /-- Reported flag of the current reverse excursion (R6). -/
  reported : Bool
  /-- Net forward counts of the speed window in progress (R8, log 14). -/
  windowCount : Int
  /-- Length in ms of the window in progress, as selected when it began (R8). -/
  windowMs : Nat
  /-- Clock periods passed in the window in progress (log 2). -/
  windowAge : Nat
  /-- SPD, in 1/16 count per ms (R8). -/
  spd : Nat
  /-- SPD_VALID (R9). -/
  spdValid : Bool
  /-- ENC_FAULTS, saturating (R2). -/
  encFaults : BitVec 16
  deriving DecidableEq, Repr

/-! ### MRU, chapter 4 -/

/-- Registration states (4.1). -/
inductive RegState where
  | idle
  | search
  | capture
  | locked
  deriving DecidableEq, Repr

/-- The mark window: its centre round(E), its opening and its end (R36). -/
structure MarkWindow where
  centre  : Position
  opening : Position
  ending  : Position
  deriving DecidableEq, Repr

/-- The mark registration unit (04, table of state). -/
structure Mru where
  reg : RegState
  /-- Integer part of the expected-mark accumulator E (R35). -/
  eInt : Position
  /-- Fraction of E in units of 1/65536 count (R35). -/
  eFrac : BitVec 16
  /-- The window last computed from E (R36); none until the first accepted mark after a reset (R59). -/
  window : Option MarkWindow
  /-- Window-end watch: whether the window end is armed against HW (R52). -/
  watch : Bool
  /-- In-window run (R50). -/
  run : Nat
  /-- MISS_RUN (R52). -/
  missRun : Nat
  /-- Last mark: the mark position of the last entry created in the current job (R46). -/
  lastMark : Option Position
  /-- LAST_REG_ERR, in signed counts (R49). -/
  lastRegErr : Int
  /-- STRAY_MARKS, saturating (R45). -/
  strayMarks : BitVec 16
  deriving DecidableEq, Repr

/-! ### TRC, chapter 5 -/

inductive MarkKind where
  | seen
  | synth
  deriving DecidableEq, Repr

inductive RegFlag where
  | ok
  | fault
  deriving DecidableEq, Repr

/-- Cut states of an entry (R60, R89). -/
inductive CutState where
  | pending
  | done
  | doneLate
  | lateFault
  | suppressed
  deriving DecidableEq, Repr

inductive LaneVerdict where
  | notInspected
  | pass
  | fail
  deriving DecidableEq, Repr

/-- A verdict record: six lane verdicts and a SPLICE flag (R69). -/
structure VerdictRecord where
  lanes  : Lanes LaneVerdict
  splice : Bool
  deriving DecidableEq, Repr

/-- A track entry (R60). -/
structure Entry where
  rsn : Rsn
  /-- M, the mark position. -/
  mark : Position
  kind : MarkKind
  /-- REG_ERR in signed counts; absent for a synthesized mark. -/
  regErr : Option Int
  regFlag : RegFlag
  /-- T, the cut target (R37). -/
  cutTarget : Position
  /-- S, the decision point (R37). -/
  decisionPoint : Position
  cut : CutState
  /-- VERDICT, absent until a record is pulled or merged. -/
  verdict : Option VerdictRecord
  tail : Bool
  deriving DecidableEq, Repr

/-- A range of the splice list, both ends included (R77). -/
structure SpliceRange where
  first : Rsn
  last  : Rsn
  deriving DecidableEq, Repr

/-- A verdict held in the window under its RSN (R71). -/
structure HeldVerdict where
  rsn    : Rsn
  record : VerdictRecord
  deriving DecidableEq, Repr

/-- The track controller (05, table of state). -/
structure Trc where
  /-- Track queue, oldest first (R61). -/
  queue : List Entry
  /-- NEXT_RSN (R63). -/
  nextRsn : Rsn
  /-- Decision watch: whether the head's S is armed against HW (R64). -/
  watch : Bool
  /-- Decided count, saturating at 32,768 (R66). -/
  decided : Nat
  /-- Entries decided since the last JOB_START or reset, without a limit: the number R110 speaks of.  The MODEL's own field
  (log 28). -/
  decisions : Nat
  /-- Verdict window (R71, R75). -/
  window : List HeldVerdict
  /-- Splice list, ordered by first RSN (R81). -/
  splices : List SpliceRange
  deriving DecidableEq, Repr

/-! ### KSQ, chapter 6 -/

/-- The knife sequencer (06, table of state).  An entry is named by its RSN (log 15). -/
structure Ksq where
  /-- Armed entry (R85). -/
  armed : Option Rsn
  /-- Fire watch: F while it is armed against HW (R86). -/
  fireWatch : Option Position
  /-- Pulse state: true in PULSE, false in LOW (R90). -/
  pulse : Bool
  /-- Pulse owner (R90). -/
  owner : Option Rsn
  /-- Pulse timer: clock periods left, none when stopped (R90). -/
  pulseTimer : Option Nat
  /-- Recovery timer: clock periods left, none when expired (R91). -/
  recoveryTimer : Option Nat
  /-- Inhibit latch (R92). -/
  inhibitLatch : Bool
  deriving DecidableEq, Repr

/-! ### GTU, chapter 7 -/

/-- The ten disposition codes (7.1). -/
inductive Code where
  | stacked
  | rejInspect
  | rejUnknown
  | rejSplice
  | rejRegister
  | rejCut
  | rejLane
  | rejGap
  | rejStacker
  | rejHold
  deriving DecidableEq, Repr

inductive GateSetting where
  | stack
  | reject
  deriving DecidableEq, Repr

/-- The ten counters of one lane, one for each code (R110). -/
structure Tally where
  stacked     : BitVec 32
  rejInspect  : BitVec 32
  rejUnknown  : BitVec 32
  rejSplice   : BitVec 32
  rejRegister : BitVec 32
  rejCut      : BitVec 32
  rejLane     : BitVec 32
  rejGap      : BitVec 32
  rejStacker  : BitVec 32
  rejHold     : BitVec 32
  deriving DecidableEq, Repr

inductive NiPolicy where
  | accept
  | reject
  deriving DecidableEq, Repr

/-- One row of the lane table (7.9). -/
structure LaneRow where
  enable      : Bool
  niPolicy    : NiPolicy
  stackerNode : BitVec 5
  pocket      : Fin 8
  /-- STATUS_AGE_LIMIT in ms. -/
  ageLimit    : Nat
  deriving DecidableEq, Repr

/-- The gate and tally unit (07, table of state). -/
structure Gtu where
  gateWord : Lanes GateSetting
  counters : Lanes Tally
  table    : Lanes LaneRow
  deriving DecidableEq, Repr

/-! ### BSQ, chapter 8 -/

inductive BatchMode where
  | gap
  | flag
  deriving DecidableEq, Repr

/-- One batch of a lane's list (R119). -/
structure Batch where
  target : Nat
  mode   : BatchMode
  gap    : Nat
  tag    : BitVec 16
  loop   : Bool
  deriving DecidableEq, Repr

inductive PocketState where
  | ready
  | changing
  | full
  | fault
  deriving DecidableEq, Repr

/-- What BSQ holds for one lane (08, table of state). -/
structure LanePlan where
  /-- Batch list, the head first (R119). -/
  batches : List Batch
  /-- BATCH_COUNT (R125). -/
  count : Nat
  /-- STACKS_DONE (R126). -/
  stacksDone : BitVec 16
  /-- Gap countdown (R108, R126). -/
  gap : Nat
  /-- Pocket state last reported (R130). -/
  pocketState : PocketState
  /-- Status timer: clock periods since the last renewal, none when stopped (R131). -/
  statusAge : Option Nat
  /-- Stale flag (R131). -/
  stale : Bool
  deriving DecidableEq, Repr

/-! ### JBC, chapters 2 and 9 -/

inductive JobState where
  | idle
  | run
  | drain
  | halt
  deriving DecidableEq, Repr

/-- The job table (2.1).  The seven fields that begin unset hold 0, which is outside their ranges (R14). -/
structure JobTable where
  encScale      : Nat
  repeatLength  : Nat
  knifeDist     : Nat
  gateDist      : Nat
  cutOffset     : Int
  markWindow    : Nat
  markTol       : Nat
  missLimit     : Nat
  lockCount     : Nat
  knifeLag      : Nat
  knifePulse    : Nat
  knifeRecovery : Nat
  lateTol       : Nat
  gateGuard     : Nat
  reverseTol    : Nat
  speedWindow   : Nat
  hbPeriod      : Nat
  verdictNode   : Nat
  firstRsn      : Nat
  spliceBefore  : Nat
  spliceAfter   : Nat
  lanes         : Nat
  deriving DecidableEq, Repr

/-- The quantities computed at JOB_START and held for the job (R32 to R34, R42); rep_counts is the whole part of rep_fx. -/
structure Quantities where
  repFx  : Nat
  w      : Nat
  tol    : Nat
  rev    : Nat
  lt     : Nat
  /-- Effective recovery in microseconds (R42). -/
  recEff : Nat
  deriving DecidableEq, Repr

/-- Heartbeat stages (9.1). -/
inductive HbStage where
  | alive
  | blind
  | expired
  deriving DecidableEq, Repr

/-- Heartbeat tokens (9.1). -/
inductive Token where
  | one
  | two
  deriving DecidableEq, Repr

/-- The job controller (02 and 09, tables of state). -/
structure Jbc where
  table : JobTable
  job : JobState
  tailPending : Bool
  /-- Derived quantities; none held after reset (R29). -/
  held : Option Quantities
  /-- OC_EFF in signed micrometres (R26). -/
  ocEff : Int
  waste : Bool
  hbStage : HbStage
  expected : Token
  /-- Heartbeat timer: clock periods left, none when stopped (R138). -/
  hbTimer : Option Nat
  blind : Bool
  stopLatch : Bool
  deriving DecidableEq, Repr

/-! ### RIF, chapter 10 -/

inductive LinkState where
  | down
  | up
  deriving DecidableEq, Repr

/-- SLOT_0 to SLOT_3 (R153). -/
structure SlotMap where
  s0 : BitVec 5
  s1 : BitVec 5
  s2 : BitVec 5
  s3 : BitVec 5
  deriving DecidableEq, Repr

/-- What a DISPOSITION record carries (R114). -/
structure Disposition where
  rsn    : Rsn
  codes  : Lanes Code
  kind   : MarkKind
  late   : Bool
  blind  : Bool
  regErr : Int
  deriving DecidableEq, Repr

/-- What a STACK_CHANGE record carries (R128). -/
structure StackChange where
  rsn        : Rsn
  lane       : Lane
  tag        : BitVec 16
  count      : Nat
  mode       : BatchMode
  gap        : Nat
  nextTag    : Option (BitVec 16)
  stacksDone : BitVec 16
  deriving DecidableEq, Repr

inductive Record where
  | disposition (d : Disposition)
  | stackChange (c : StackChange)
  deriving DecidableEq, Repr

/-- Result codes (13.3). -/
inductive Result where
  | ok
  | clamped
  | state
  | range
  | access
  | address
  | readonly
  | full
  | incomplete
  | geometry
  | capacity
  | noWork
  | stopped
  | inputActive
  | badOp
  deriving DecidableEq, Repr

/-- A reply awaiting a slot: the source node of the request it answers, and what it carries (11.1). -/
structure Reply where
  dest   : Byte
  tag    : Byte
  op     : Byte
  result : Result
  value  : BitVec 32
  deriving DecidableEq, Repr

/-- An owned slot that has started and not yet ended: the cell arriving in it, and the reply it carries if it carries
one (R151, R154, log 9). -/
structure OwnedSlot where
  arriving : Cell
  reply    : Option Reply
  deriving DecidableEq, Repr

/-- The ring interface (10, table of state, and the ring table 10.6). -/
structure Rif where
  link : LinkState
  /-- Link timer: clock periods since the last valid header, none when expired (R148). -/
  linkTimer : Option Nat
  /-- N; none until the first valid header after a reset (R159). -/
  slots : Option Nat
  /-- Slot counter; none until the first valid header after a reset (R159). -/
  slot : Option Nat
  frameNo : BitVec 16
  nodeId : BitVec 5
  written : SlotMap
  active : SlotMap
  managerNode : BitVec 5
  recordDest : Byte
  noticeDest : Byte
  records : List Record
  replies : List Reply
  /-- Frame status byte; none until the first frame start after a reset (R159). -/
  frameStatus : Option Byte
  crcErrors : BitVec 16
  /-- The owned slot in progress (log 9). -/
  sending : Option OwnedSlot
  /-- RING_TX: the cell last sent or being sent (R150, R154, log 12). -/
  ringTx : Option Cell
  deriving DecidableEq, Repr

/-! ### MGE, chapter 11 -/

/-- A queued request: source node, tag, op and argument bytes 6 to 13 of its cell (R160, 13.2). -/
structure Request where
  source : Byte
  tag    : Byte
  op     : Byte
  a6     : Byte
  a7     : Byte
  a8     : Byte
  a9     : Byte
  a10    : Byte
  a11    : Byte
  a12    : Byte
  a13    : Byte
  deriving DecidableEq, Repr

/-- One lane's row of the snapshot bank (R166). -/
structure SnapRow where
  tally      : Tally
  count      : Nat
  stacksDone : BitVec 16
  deriving DecidableEq, Repr

/-- The management engine (11, table of state). -/
structure Mge where
  requests : List Request
  resetPending : Bool
  /-- Event flags in the layout of 13.4. -/
  flags : BitVec 32
  /-- Mask in the layout of 13.4. -/
  mask : BitVec 32
  /-- Notice mailbox: true when full (R171). -/
  mailbox : Bool
  snap : Lanes SnapRow
  gen : BitVec 16
  deriving DecidableEq, Repr

/-! ### The whole part -/

/-- The whole machine: the nine blocks, the lines it keeps a level of, the model's counter of free values and the
queue of commands that are waiting. -/
structure State where
  psu : Psu
  mru : Mru
  trc : Trc
  ksq : Ksq
  gtu : Gtu
  bsq : Lanes LanePlan
  jbc : Jbc
  rif : Rif
  mge : Mge
  /-- KNIFE_INHIBIT as last sampled: true when asserted (R92). -/
  inhibitLine : Bool
  /-- RST_N is held low (R176). -/
  resetHeld : Bool
  /-- The model's own field: how many free reply values have been drawn (log 6). -/
  draws : Nat
  /-- Commands that are waiting, the next one first. -/
  pending : List Instr
  deriving DecidableEq, Repr

/-- Reasons for which the part stops.  There are none: the manual gives every occurrence of the table an effect in every
state, so no meaning raises a fault and the type has no constructor (log 21). -/
inductive Fault where
  deriving DecidableEq, Repr

/-- Reasons for which the MODEL answers nothing. -/
inductive Refusal where
  /-- Raised by an arm of exec whose command has no meaning yet; no arm is one.  Safe: it proves nothing of the part. -/
  | notModelled (mnemonic : String)
  deriving DecidableEq, Repr

/-! ### After reset -/

/-- R12, with both encoder lines low (DESIGN CHOICE, log 5). -/
def psuAtReset : Psu :=
  { wpos := 0, hw := 0, encA := false, encB := false, reported := false, windowCount := 0, windowMs := 4,
    windowAge := 0, spd := 0, spdValid := false, encFaults := 0 }

/-- R59. -/
def mruAtReset : Mru :=
  { reg := .idle, eInt := 0, eFrac := 0, window := none, watch := false, run := 0, missRun := 0, lastMark := none,
    lastRegErr := 0, strayMarks := 0 }

/-- R84. -/
def trcAtReset : Trc :=
  { queue := [], nextRsn := 0, watch := false, decided := 0, decisions := 0, window := [], splices := [] }

/-- R99, with KNIFE_INHIBIT released (DESIGN CHOICE, log 5). -/
def ksqAtReset : Ksq :=
  { armed := none, fireWatch := none, pulse := false, owner := none, pulseTimer := none, recoveryTimer := none,
    inhibitLatch := false }

/-- R110: the ten counters of a lane after reset. -/
def tallyAtReset : Tally := ⟨0, 0, 0, 0, 0, 0, 0, 0, 0, 0⟩

/-- 7.9, the after-reset column. -/
def laneRowAtReset : LaneRow :=
  { enable := false, niPolicy := .reject, stackerNode := 0, pocket := 0, ageLimit := 20 }

/-- R118. -/
def gtuAtReset : Gtu :=
  { gateWord := Lanes.all .reject, counters := Lanes.all tallyAtReset, table := Lanes.all laneRowAtReset }

/-- R135. -/
def lanePlanAtReset : LanePlan :=
  { batches := [], count := 0, stacksDone := 0, gap := 0, pocketState := .fault, statusAge := none, stale := true }

/-- 2.1, the after-reset column. -/
def jobTableAtReset : JobTable :=
  { encScale := 0, repeatLength := 0, knifeDist := 0, gateDist := 0, cutOffset := 0, markWindow := 0, markTol := 0,
    missLimit := 3, lockCount := 2, knifeLag := 0, knifePulse := 100, knifeRecovery := 0, lateTol := 0, gateGuard := 0,
    reverseTol := 0, speedWindow := 2, hbPeriod := 200, verdictNode := 0, firstRsn := 0, spliceBefore := 0,
    spliceAfter := 0, lanes := 0 }

/-- R29 and R146. -/
def jbcAtReset : Jbc :=
  { table := jobTableAtReset, job := .idle, tailPending := false, held := none, ocEff := 0, waste := false,
    hbStage := .alive, expected := .one, hbTimer := none, blind := false, stopLatch := false }

/-- R159 for a part whose node ID is `node`. -/
def rifAtReset (node : BitVec 5) : Rif :=
  { link := .down, linkTimer := none, slots := none, slot := none, frameNo := 0, nodeId := node,
    written := ⟨node, 0, 0, 0⟩, active := ⟨node, 0, 0, 0⟩, managerNode := 0, recordDest := 0xFF#8,
    noticeDest := 0xFF#8, records := [], replies := [], frameStatus := none, crcErrors := 0, sending := none,
    ringTx := none }

/-- R173: one row of the snapshot bank after reset. -/
def snapRowAtReset : SnapRow := ⟨tallyAtReset, 0, 0⟩

/-- R173. -/
def mgeAtReset : Mge :=
  { requests := [], resetPending := false, flags := 0, mask := 0, mailbox := false, snap := Lanes.all snapRowAtReset,
    gen := 0 }

/-- The machine right after a device reset.  What the manual leaves to the pins is named in log 5: straps 5, the node
ID of the worked sequences, KNIFE_INHIBIT released and both encoder lines low (DESIGN CHOICE).  Every other sampling is
reached by DEVICE_RESET_END. -/
def State.reset : State :=
  { psu := psuAtReset, mru := mruAtReset, trc := trcAtReset, ksq := ksqAtReset, gtu := gtuAtReset,
    bsq := Lanes.all lanePlanAtReset, jbc := jbcAtReset, rif := rifAtReset 5#5, mge := mgeAtReset,
    inhibitLine := false, resetHeld := false, draws := 0, pending := [] }

end Sys2Proof.Machine
end

