-- ==== Sys2Proof/Machine/Flags.lean ====
section
/-! DEFINITION. Event flags, the mask and the notice mailbox (R168, 13.4), and the status summary byte (R157, 13.4). -/

namespace Sys2Proof.Machine

/-- The events of the part (11.7). -/
inductive Event where
  | markMiss
  | lockGained
  | lockLost
  | cutLate
  | cutSuppressed
  | verdictLate
  | verdictAhead
  | verdictConflict
  | spliceEscape
  | blind
  | hbExpired
  | inhibit
  | trackLost
  | stackDone
  | laneDone
  | jobEnded
  | recordDrop
  | requestDrop
  | linkDown
  | encFault
  | stackerStale
  deriving DecidableEq, Repr

/-- The flag position of an event in the flags word and the mask (13.4). -/
def Event.bit : Event → Nat
  | .markMiss => 0
  | .lockGained => 1
  | .lockLost => 2
  | .cutLate => 3
  | .cutSuppressed => 4
  | .verdictLate => 5
  | .verdictAhead => 6
  | .verdictConflict => 7
  | .spliceEscape => 8
  | .blind => 9
  | .hbExpired => 10
  | .inhibit => 11
  | .trackLost => 12
  | .stackDone => 13
  | .laneDone => 14
  | .jobEnded => 15
  | .recordDrop => 16
  | .requestDrop => 17
  | .linkDown => 18
  | .encFault => 19
  | .stackerStale => 20

/-- The word with an event's position alone set. -/
def Event.word (e : Event) : BitVec 32 := BitVec.ofNat 32 (2 ^ e.bit)

/-- The positions that name a flag: bits 0 to 20 (13.4). -/
def flagPositions : BitVec 32 := 0x001FFFFF#32

/-- R168: the flag is set whatever the mask; when it was clear and its enable is on, the mailbox becomes full. -/
def Mge.setEvent (e : Event) (m : Mge) : Mge :=
  { m with
    flags := m.flags ||| e.word
    mailbox := m.mailbox || (!m.flags.getLsbD e.bit && m.mask.getLsbD e.bit) }

/-- An event of the part (R168). -/
def State.setEvent (e : Event) (s : State) : State := { s with mge := s.mge.setEvent e }

/-- The event, when the condition holds. -/
def State.setEventIf (b : Bool) (e : Event) (s : State) : State := if b then s.setEvent e else s

/-- The event flag of `e` as it stands. -/
def State.flag (s : State) (e : Event) : Bool := s.mge.flags.getLsbD e.bit

/-! ### Codes that software sees -/

/-- Job state codes (R15). -/
def JobState.code : JobState → Nat
  | .idle => 0
  | .run => 1
  | .drain => 2
  | .halt => 3

/-- Registration state codes (4.1). -/
def RegState.code : RegState → Nat
  | .idle => 0
  | .search => 1
  | .capture => 2
  | .locked => 3

/-- Heartbeat stage codes (9.1). -/
def HbStage.code : HbStage → Nat
  | .alive => 0
  | .blind => 1
  | .expired => 2

/-- Link state codes (R159). -/
def LinkState.code : LinkState → Nat
  | .down => 0
  | .up => 1

/-- Disposition code values (7.1). -/
def Code.value : Code → Nat
  | .stacked => 0
  | .rejInspect => 1
  | .rejUnknown => 2
  | .rejSplice => 3
  | .rejRegister => 4
  | .rejCut => 5
  | .rejLane => 6
  | .rejGap => 7
  | .rejStacker => 8
  | .rejHold => 9

/-- Result codes (13.3). -/
def Result.code : Result → Byte
  | .ok => 0x00#8
  | .clamped => 0x01#8
  | .state => 0x10#8
  | .range => 0x11#8
  | .access => 0x12#8
  | .address => 0x13#8
  | .readonly => 0x14#8
  | .full => 0x15#8
  | .incomplete => 0x16#8
  | .geometry => 0x17#8
  | .capacity => 0x18#8
  | .noWork => 0x19#8
  | .stopped => 0x1A#8
  | .inputActive => 0x1B#8
  | .badOp => 0x1C#8

/-! ### The status summary byte (R157, 13.4) -/

/-- A byte with bit `k` set when `b` holds. -/
def bitAt (k : Nat) (b : Bool) : Byte := if b then BitVec.ofNat 8 (2 ^ k) else 0

/-- The status summary as sampled now: job state in bits 1 and 0, stop latch, inhibit latch, BLIND, LOCKED, waste mode
and notice pending in bits 2 to 7. -/
def State.statusSummary (s : State) : Byte :=
  BitVec.ofNat 8 s.jbc.job.code ||| bitAt 2 s.jbc.stopLatch ||| bitAt 3 s.ksq.inhibitLatch ||| bitAt 4 s.jbc.blind |||
    bitAt 5 (s.mru.reg == .locked) ||| bitAt 6 s.jbc.waste ||| bitAt 7 s.mge.mailbox

end Sys2Proof.Machine
end

