-- ==== Sys2Proof/Machine/Arith.lean ====
section
/-! DEFINITION. Distance arithmetic (chapter 3): positions, conversion, the quantities of JOB_START, the expected-mark
accumulator, lead and fire point; saturating counters; time in periods of the reference clock. -/

namespace Sys2Proof.Machine

/-! ### Positions and RSNs (R30, 00_scope.md 5) -/

/-- The distance from position `a` to position `b`: b - a modulo 2^32 read as a signed number (R30). -/
def distance (a b : Position) : Int := (b - a).toInt

/-- Position `p` plus a count `d` (R30). -/
def advance (p : Position) (d : Nat) : Position := p + BitVec.ofNat 32 d

/-- Position `a` is behind position `b`: their difference is negative (00_scope.md 5). -/
def isBehind (a b : Position) : Bool := decide (distance b a < 0)

/-- The modular difference `r - base` of two RSNs, read as a signed number (00_scope.md 5). -/
def rsnOffset (base r : Rsn) : Int := (r - base).toInt

/-- The RSN at a signed offset from `base`. -/
def rsnAt (base : Rsn) (offset : Int) : Rsn := base + BitVec.ofInt 16 offset

/-! ### Counters -/

/-- A 16-bit diagnostic counter that saturates at 65535 (00_scope.md 5, "Counters"). -/
def satIncrement (x : BitVec 16) : BitVec 16 := if x = 0xFFFF#16 then x else x + 1

/-! ### Time (00_scope.md 5, "Time"; R90): periods of the 25 MHz reference clock -/

def clockPerUs : Nat := 25

def clockPerMs : Nat := 25000

/-- The link timer runs for 2 ms (R148). -/
def linkTimeout : Nat := 2 * clockPerMs

/-- Length in ms of a speed window (1.5). -/
def windowMsOf (speedWindow : Nat) : Nat :=
  match speedWindow with
  | 0 => 1
  | 1 => 2
  | 2 => 4
  | _ => 8

/-- The greatest SPD (R8). -/
def spdLimit : Nat := 262143

/-- SPD at the expiry of a window: count * 16 / window_ms, 0 for a count of 0 or less, at most 262,143 (R8). -/
def speedOf (count : Int) (windowMs : Nat) : Nat := min (count.toNat * (16 / windowMs)) spdLimit

/-! ### Conversion (R31) -/

/-- conv(d) = floor((d * ENC_SCALE + 500,000) / 1,000,000). -/
def conv (encScale d : Nat) : Nat := (d * encScale + 500000) / 1000000

/-- conv of a sum formed in signed micrometres; the GEOMETRY check makes every such sum non-negative (R31, R37). -/
def convSum (encScale : Nat) (sum : Int) : Nat := conv encScale sum.toNat

/-! ### Quantities fixed at JOB_START (R32 to R34, R42) -/

/-- rep_fx = floor((REPEAT * ENC_SCALE * 65,536 + 500,000) / 1,000,000) (R32). -/
def repFxOf (t : JobTable) : Nat := (t.repeatLength * t.encScale * 65536 + 500000) / 1000000

/-- All the derived quantities (R34). -/
def quantitiesOf (t : JobTable) : Quantities :=
  { repFx := repFxOf t
    w := conv t.encScale t.markWindow
    tol := conv t.encScale t.markTol
    rev := conv t.encScale t.reverseTol
    lt := conv t.encScale t.lateTol
    recEff := max t.knifeRecovery t.knifePulse }

/-- rep_counts = floor(rep_fx / 65,536) (R32). -/
def Quantities.repCounts (q : Quantities) : Nat := q.repFx / 65536

/-- The fraction of rep_fx (R32). -/
def Quantities.repFrac (q : Quantities) : Nat := q.repFx % 65536

/-- No quantity: what `State.quantities` answers while none is held.  No run uses it (R34, log 16). -/
def noQuantities : Quantities := ⟨0, 0, 0, 0, 0, 0⟩

/-- The quantities held for the job. -/
def State.quantities (s : State) : Quantities := s.jbc.held.getD noQuantities

/-! ### The expected-mark accumulator and the window (R35, R36) -/

/-- round(E): the integer part, plus 1 when the fraction is 32,768 or more (R36). -/
def roundE (eInt : Position) (eFrac : BitVec 16) : Position :=
  if 32768 ≤ eFrac.toNat then eInt + 1 else eInt

/-- The window of half-width `w` about round(E) (R36). -/
def windowOf (eInt : Position) (eFrac : BitVec 16) (w : Nat) : MarkWindow :=
  let c := roundE eInt eFrac
  { centre := c, opening := c - BitVec.ofNat 32 w, ending := advance c w }

/-- MRU with E re-anchored at an accepted mark `c`, and the window computed from it (R35, R36). -/
def Mru.anchor (q : Quantities) (c : Position) (m : Mru) : Mru :=
  let eInt := advance c q.repCounts
  let eFrac := BitVec.ofNat 16 q.repFrac
  { m with eInt := eInt, eFrac := eFrac, window := some (windowOf eInt eFrac q.w) }

/-- MRU with rep_fx added to E in full, and the window computed from it (R35, R36). -/
def Mru.stepE (q : Quantities) (m : Mru) : Mru :=
  let sum := m.eFrac.toNat + q.repFrac
  let eInt := advance m.eInt (q.repCounts + sum / 65536)
  let eFrac := BitVec.ofNat 16 (sum % 65536)
  { m with eInt := eInt, eFrac := eFrac, window := some (windowOf eInt eFrac q.w) }

/-! ### Cut target and decision point (R37) -/

/-- T = M + conv(KNIFE_DIST + OC_EFF). -/
def cutTargetOf (t : JobTable) (ocEff : Int) (m : Position) : Position :=
  advance m (convSum t.encScale (t.knifeDist + ocEff))

/-- S = M + conv(GATE_DIST + OC_EFF - GATE_GUARD). -/
def decisionPointOf (t : JobTable) (ocEff : Int) (m : Position) : Position :=
  advance m (convSum t.encScale (t.gateDist + ocEff - t.gateGuard))

/-! ### Lead and fire point (R38, R39) -/

/-- SPD as every block that uses the speed reads it: 0 while SPD_VALID is clear (R9). -/
def State.speed (s : State) : Nat := if s.psu.spdValid then s.psu.spd else 0

/-- lead = floor((SPD * KNIFE_LAG + 8,000) / 16,000) (R38). -/
def leadOf (spd knifeLag : Nat) : Nat := (spd * knifeLag + 8000) / 16000

/-- F = T - min(lead, T - M) (R39). -/
def firePointOf (spd knifeLag : Nat) (e : Entry) : Position :=
  e.cutTarget - BitVec.ofInt 32 (min (leadOf spd knifeLag : Int) (distance e.mark e.cutTarget))

/-- The fire point of an entry at the speed now held (R39). -/
def State.firePoint (s : State) (e : Entry) : Position := firePointOf s.speed s.jbc.table.knifeLag e

/-! ### Trim (R41) -/

/-- The full reach of trim in micrometres (R41). -/
def trimReach : Int := 2000

/-- OC_EFF + delta clamped to CUT_OFFSET - 2,000 to CUT_OFFSET + 2,000 (R41). -/
def clampTrim (cutOffset sum : Int) : Int := max (cutOffset - trimReach) (min sum (cutOffset + trimReach))

end Sys2Proof.Machine
end

