-- ==== Sys2Proof/Machine/Clock.lean ====
section
/-! DEFINITION. The passing of one period of the 25 MHz reference clock (00_scope.md 5, "Time"; log 2). -/

namespace Sys2Proof.Machine

/-- A running timer that counts down to 0, where it has run out: its expiry is a command, taken then or later (log 3). -/
def countDown (t : Option Nat) : Option Nat := t.map (· - 1)

/-- A running timer that counts the time since its start. -/
def countUp (t : Option Nat) : Option Nat := t.map (· + 1)

/-- One lane's plan a clock period later (R131). -/
def LanePlan.tick (p : LanePlan) : LanePlan := { p with statusAge := countUp p.statusAge }

/-- One clock period passes: the speed window (R8), the pulse and recovery timers (R90, R91), the heartbeat timer (R138),
the link timer (R148) and the status timers (R131) run; nothing else changes, and nothing while reset is held. -/
def State.tick (s : State) : State :=
  if s.resetHeld then s
  else
    { s with
      psu := { s.psu with windowAge := s.psu.windowAge + 1 }
      ksq := { s.ksq with pulseTimer := countDown s.ksq.pulseTimer, recoveryTimer := countDown s.ksq.recoveryTimer }
      jbc := { s.jbc with hbTimer := countDown s.jbc.hbTimer }
      rif := { s.rif with linkTimer := countUp s.rif.linkTimer }
      bsq := Lanes.ofFn fun i => (s.bsq.get i).tick }

end Sys2Proof.Machine
end

