-- ==== Sys2Proof/Machine/Cells.lean ====
section
/-! DEFINITION. The cell check and the outer form of a cell (R149, R150, R174; chapter 13, 13.1 and 13.5). -/

namespace Sys2Proof.Machine

/-! ### Type codes (13.1) -/

def kindIdle : Byte := 0x00#8
def kindFrameHeader : Byte := 0x10#8
def kindVerdict : Byte := 0x21#8
def kindHeartbeat : Byte := 0x22#8
def kindStackerStatus : Byte := 0x23#8
def kindMgmtRequest : Byte := 0x30#8
def kindMgmtReply : Byte := 0x31#8
def kindDisposition : Byte := 0x40#8
def kindStackChangeNext : Byte := 0x48#8
def kindStackChangeEmptied : Byte := 0x49#8
def kindNotice : Byte := 0x4A#8

/-- Destination FFh addresses every node (chapter 13, byte 2). -/
def destEveryNode : Byte := 0xFF#8

/-! ### Multi-byte fields, most significant byte first (R174) -/

def word16 (hi lo : Byte) : BitVec 16 := hi ++ lo

def word32 (b3 b2 b1 b0 : Byte) : BitVec 32 := (b3 ++ b2) ++ (b1 ++ b0)

def hiByte (w : BitVec 16) : Byte := w.extractLsb' 8 8

def loByte (w : BitVec 16) : Byte := w.extractLsb' 0 8

/-- Byte `k` of a 32-bit field, byte 0 the least significant. -/
def byteOf (w : BitVec 32) (k : Nat) : Byte := w.extractLsb' (8 * k) 8

def payloadZero : Payload := ⟨0, 0, 0, 0, 0, 0, 0, 0, 0, 0⟩

def payloadBytes (p : Payload) : List Byte :=
  [p.b4, p.b5, p.b6, p.b7, p.b8, p.b9, p.b10, p.b11, p.b12, p.b13]

/-! ### The check (R149, 13.5) -/

/-- One shift of the CRC register: left by one bit, and exclusive-or with 1021h when the bit shifted out was 1. -/
def crcShift (r : BitVec 16) : BitVec 16 :=
  if r.msb then (r <<< 1) ^^^ 0x1021#16 else r <<< 1

/-- One byte taken into the CRC register: exclusive-or into its high eight bits, then eight shifts. -/
def crcByte (r : BitVec 16) (b : Byte) : BitVec 16 :=
  crcShift (crcShift (crcShift (crcShift (crcShift (crcShift (crcShift (crcShift (r ^^^ (b ++ 0#8)))))))))

/-- The CRC-16 of R149 over a list of bytes: register preset to FFFFh, no inversion of the result. -/
def crc16 (bytes : List Byte) : BitVec 16 :=
  bytes.foldl crcByte 0xFFFF#16

/-- Bytes 0 to 13 of a cell, over which the check is made. -/
def checkedBytes (c : Cell) : List Byte :=
  [c.kind, c.body.source, c.body.dest, c.body.status] ++ payloadBytes c.body.payload

/-- A cell's check is good when the CRC-16 of bytes 0 to 13 equals the check it carries (R149). -/
def checkGood (c : Cell) : Bool :=
  crc16 (checkedBytes c) == c.body.check

/-- The cell with its check filled in (R154). -/
def sealCell (kind source dest status : Byte) (p : Payload) : Cell :=
  { kind := kind
    body := { source := source, dest := dest, status := status, payload := p,
              check := crc16 ([kind, source, dest, status] ++ payloadBytes p) } }

/-! ### Headers (10.1) -/

/-- The slot count a header carries in byte 6 (13.2). -/
def headerSlots (c : Cell) : Nat := c.body.payload.b6.toNat

/-- The frame number a header carries in bytes 4 and 5 (13.2). -/
def headerFrameNo (c : Cell) : BitVec 16 := word16 c.body.payload.b4 c.body.payload.b5

/-- A header is valid when its check is good, its type is FRAME_HEADER, its source node is 0 and its N lies from 4 to
32 (10.1); its destination is ignored (R174). -/
def validHeader (c : Cell) : Bool :=
  checkGood c && c.kind == kindFrameHeader && c.body.source == 0 &&
    decide (4 ≤ headerSlots c) && decide (headerSlots c ≤ 32)

/-- A source byte above 31 keeps a cell from being taken in, whatever its type (R150). -/
def sourceIsNode (c : Cell) : Bool := decide (c.body.source.toNat ≤ 31)

end Sys2Proof.Machine
end

