-- ==== Sys2Proof/Machine/Ops.lean ====
section
/-! DEFINITION. Named operations over the state that several blocks share: the output lines, the record queue, the stop
latch, disarming, and leaving a job. -/

namespace Sys2Proof.Machine

/-- The job is in RUN or DRAIN, the states in which the part tracks, cuts, decides and supervises (R15). -/
def JobState.active : JobState → Bool
  | .run => true
  | .drain => true
  | .idle => false
  | .halt => false

/-- The job is in RUN or DRAIN (R15). -/
def State.jobActive (s : State) : Bool := s.jbc.job.active

/-- Lane `i` is below LANES (00_scope.md 5, "Lanes"). -/
def State.laneUsed (s : State) (i : Lane) : Bool := decide (i.val < s.jbc.table.lanes)

/-! ### Output lines (13.6): true is the high level -/

/-- KNIFE_FIRE is high exactly while the pulse state is PULSE (R98); low while reset is held (R176). -/
def State.knifeFire (s : State) : Bool := !s.resetHeld && s.ksq.pulse

/-- STOP_REQ is asserted while the stop latch is set (R143); deasserted while reset is held (R176). -/
def State.stopReq (s : State) : Bool := !s.resetHeld && s.jbc.stopLatch

/-- GATE0 to GATE5: high (STACK) when the gate word holds STACK and no forcing condition of R112 holds; low while reset
is held (R176). -/
def State.gateLine (s : State) (i : Lane) : Bool :=
  !s.resetHeld && !s.jbc.stopLatch && s.jobActive && s.laneUsed i && (s.gtu.gateWord.get i == .stack)

/-! ### The record queue (R155) -/

/-- The record queue holds at most 32 cells (R155). -/
def recordQueueSize : Nat := 32

/-- A record joins the record queue, or is dropped with RECORD_DROP when the queue holds 32 (R155). -/
def State.queueRecord (s : State) (r : Record) : State :=
  if s.rif.records.length < recordQueueSize then { s with rif := { s.rif with records := s.rif.records ++ [r] } }
  else s.setEvent .recordDrop

/-- Records queued one after another (R109). -/
def State.queueRecords (s : State) (rs : List Record) : State := rs.foldl State.queueRecord s

/-! ### Stop latch, disarming, leaving a job -/

/-- JBC sets the stop latch (R142). -/
def State.setStopLatch (s : State) : State := { s with jbc := { s.jbc with stopLatch := true } }

/-- KSQ ends a running pulse: KNIFE_FIRE low, pulse state LOW, pulse timer stopped, owner cleared (R90, R96). -/
def Ksq.endPulse (k : Ksq) : Ksq := { k with pulse := false, pulseTimer := none, owner := none }

/-- KSQ releases the armed entry and disarms the fire watch (R88, R96). -/
def Ksq.release (k : Ksq) : Ksq := { k with armed := none, fireWatch := none }

/-- KSQ disarms (R96, R97): nothing armed, no fire watch, no pulse; the recovery timer and the inhibit latch stay. -/
def State.disarmKnife (s : State) : State := { s with ksq := s.ksq.release.endPulse }

/-- TRC empties the verdict window and the splice list (R76, R82). -/
def State.emptyWindowAndSplices (s : State) : State := { s with trc := { s.trc with window := [], splices := [] } }

/-- MRU enters IDLE and disarms the window-end watch (R43, R56). -/
def State.idleRegistration (s : State) : State := { s with mru := { s.mru with reg := .idle, watch := false } }

/-- JBC enters IDLE or HALT from RUN, DRAIN or HALT, with the effects of R15: MRU to IDLE, KSQ disarmed, heartbeat timer
stopped; the gates are then forced by the job state (R112).  The tail-pending flag is clear (R24, R25). -/
def State.enterStopped (s : State) (target : JobState) : State :=
  let s := s.idleRegistration.disarmKnife
  { s with jbc := { s.jbc with job := target, tailPending := false, hbTimer := none } }

end Sys2Proof.Machine
end

