-- ==== Sys2Proof/Machine/Operands.lean ====
section
/-! DEFINITION. Operands of a management request (R162, R175, 11.3, 13.2): its op and arguments, the address it names, and
the row of the opcode table that its start is. -/

namespace Sys2Proof.Machine

/-- The request a MGMT_REQUEST cell carries (13.2). -/
def requestOf (b : CellBody) : Request :=
  let p := b.payload
  { source := b.source, tag := p.b4, op := p.b5, a6 := p.b6, a7 := p.b7, a8 := p.b8, a9 := p.b9, a10 := p.b10,
    a11 := p.b11, a12 := p.b12, a13 := p.b13 }

/-- The twelve operations (11.4). -/
inductive Op where
  | read
  | write
  | appendBatch
  | jobStart
  | jobStop
  | jobAbort
  | trim
  | waste
  | releaseStop
  | snapshot
  | clearEvents
  | resetNode
  deriving DecidableEq, Repr

/-- Op codes (13.2). -/
def opOf (b : Byte) : Option Op :=
  match b.toNat with
  | 0x01 => some .read
  | 0x02 => some .write
  | 0x03 => some .appendBatch
  | 0x10 => some .jobStart
  | 0x11 => some .jobStop
  | 0x12 => some .jobAbort
  | 0x13 => some .trim
  | 0x14 => some .waste
  | 0x15 => some .releaseStop
  | 0x20 => some .snapshot
  | 0x21 => some .clearEvents
  | 0x2F => some .resetNode
  | _ => none

/-! ### Arguments (13.2, R175) -/

def Request.table (q : Request) : Nat := q.a6.toNat
def Request.row (q : Request) : Nat := q.a7.toNat
def Request.field (q : Request) : Nat := q.a8.toNat

/-- The value of a WRITE, bytes 9 to 12. -/
def Request.value (q : Request) : BitVec 32 := word32 q.a9 q.a10 q.a11 q.a12

/-- The delta of a TRIM and the mask of a CLEAR_EVENTS, bytes 6 to 9. -/
def Request.argument (q : Request) : BitVec 32 := word32 q.a6 q.a7 q.a8 q.a9

/-! ### Addresses (11.3) -/

/-- The valid addresses of the eight tables. -/
def validAddress (table row field : Nat) : Bool :=
  match table with
  | 0 => row == 0 && decide (field ≤ 21)
  | 1 => decide (row ≤ 5) && decide (field ≤ 4)
  | 2 => decide (row ≤ 95) && decide (field ≤ 4)
  | 3 => decide (row ≤ 5) && decide (field ≤ 11)
  | 4 => (row == 0 && field == 0) || (decide (1 ≤ row) && decide (row ≤ 6) && decide (field ≤ 11))
  | 5 => row == 0 && decide (field ≤ 23)
  | 6 => row == 0 && decide (field ≤ 7)
  | 7 => row == 0 && decide (field ≤ 1)
  | _ => false

/-- Fields no WRITE may address (R162): COUNT, SNAP, STATUS, NODE_ID and FLAGS. -/
def readOnlyAddress (table field : Nat) : Bool :=
  match table with
  | 3 => true
  | 4 => true
  | 5 => true
  | 6 => field == 0
  | 7 => field == 0
  | _ => false

/-- The row of spec/opcode_table.json that the start of a request is. -/
inductive StartRow where
  | read
  | write
  | speedWindowWrite
  | stackerNodeWrite
  | pocketWrite
  | statusAgeLimitWrite
  | maskWrite
  | slotMapWrite
  | appendBatch
  | jobStart
  | jobStop
  | jobAbort
  | trim
  | waste
  | snapshot
  | clearEvents
  | releaseStop
  | resetNode
  | badOp
  deriving DecidableEq, Repr

/-- The row of a WRITE by the field it addresses: the fields with a row of their own, else WRITE (log 23). -/
def writeRow (table row field : Nat) : StartRow :=
  if !validAddress table row field then .write
  else match table, field with
    | 0, 15 => .speedWindowWrite
    | 1, 2 => .stackerNodeWrite
    | 1, 3 => .pocketWrite
    | 1, 4 => .statusAgeLimitWrite
    | 6, 1 => .slotMapWrite
    | 6, 2 => .slotMapWrite
    | 6, 3 => .slotMapWrite
    | 6, 4 => .slotMapWrite
    | 7, 1 => .maskWrite
    | _, _ => .write

/-- The row that the start of a request is. -/
def Request.startRow (q : Request) : StartRow :=
  match opOf q.op with
  | none => .badOp
  | some .read => .read
  | some .write => writeRow q.table q.row q.field
  | some .appendBatch => .appendBatch
  | some .jobStart => .jobStart
  | some .jobStop => .jobStop
  | some .jobAbort => .jobAbort
  | some .trim => .trim
  | some .waste => .waste
  | some .releaseStop => .releaseStop
  | some .snapshot => .snapshot
  | some .clearEvents => .clearEvents
  | some .resetNode => .resetNode

/-- A result and a reply value; `none` is a value that no rule states (log 6). -/
structure Answer where
  result : Result
  value  : Option (BitVec 32)
  deriving DecidableEq, Repr

/-- Accepted, with the value the rule gives. -/
def Answer.ok (v : BitVec 32) : Answer := ⟨.ok, some v⟩

/-- Refused, with the value the rule gives. -/
def Answer.refusedWith (r : Result) (v : Nat) : Answer := ⟨r, some (BitVec.ofNat 32 v)⟩

/-- Refused by a rule that states no value (log 6). -/
def Answer.refused (r : Result) : Answer := ⟨r, none⟩

end Sys2Proof.Machine
end

