-- ==== Sys2Proof/Machine/Splices.lean ====
section
/-! DEFINITION. The splice list (R77 to R82), worked in offsets from the oldest undecided RSN, which are plain integers
without wrap (R77). -/

namespace Sys2Proof.Machine

/-- The splice list holds at most 4 ranges (R81). -/
def spliceListSize : Nat := 4

/-- A range as offsets from the oldest undecided RSN, both ends included (R77). -/
structure OffsetRange where
  first : Int
  last  : Int
  deriving DecidableEq, Repr

/-- Two ranges overlap or touch, leaving no RSN between (R79). -/
def OffsetRange.joins (a b : OffsetRange) : Bool := decide (a.first ≤ b.last + 1) && decide (b.first ≤ a.last + 1)

/-- The range from the smaller first to the larger last. -/
def OffsetRange.hull (a b : OffsetRange) : OffsetRange := ⟨min a.first b.first, max a.last b.last⟩

/-- The count of RSNs lying strictly between two disjoint ranges (R80). -/
def OffsetRange.gap (a b : OffsetRange) : Int :=
  if a.last < b.first then b.first - a.last - 1 else a.first - b.last - 1

/-- A range placed in the list in order of first RSN (R79). -/
def placeRange (x : OffsetRange) : List OffsetRange → List OffsetRange
  | [] => [x]
  | r :: rest => if x.first ≤ r.first then x :: r :: rest else r :: placeRange x rest

/-- The smallest gap between `x` and a range of the list. -/
def leastGap (x : OffsetRange) : List OffsetRange → Option Int
  | [] => none
  | r :: rest =>
    match leastGap x rest with
    | none => some (x.gap r)
    | some g => some (min (x.gap r) g)

/-- The list with the range nearest to `x`, the earlier of two equally near, replaced by one that covers both (R80). -/
def coverNearest (x : OffsetRange) (rs : List OffsetRange) : List OffsetRange :=
  match leastGap x rs with
  | none => [x]
  | some g =>
    match rs.find? fun r => x.gap r == g with
    | none => rs
    | some near => placeRange (x.hull near) (rs.filter fun r => r != near)

/-- The new range joined to the list (R79): united with every range it overlaps or touches; and where a fifth range
would result, merged with the nearest (R80). -/
def insertRange (x : OffsetRange) (rs : List OffsetRange) : List OffsetRange :=
  let joined := rs.filter fun r => x.joins r
  let apart := rs.filter fun r => !x.joins r
  let united := joined.foldl OffsetRange.hull x
  if apart.length < spliceListSize then placeRange united apart else coverNearest united apart

/-- A range of the list as offsets from `base`. -/
def SpliceRange.offsets (base : Rsn) (r : SpliceRange) : OffsetRange := ⟨rsnOffset base r.first, rsnOffset base r.last⟩

/-- A range of offsets from `base` as RSNs. -/
def OffsetRange.rsns (base : Rsn) (r : OffsetRange) : SpliceRange := ⟨rsnAt base r.first, rsnAt base r.last⟩

/-- The oldest undecided RSN: that of the head entry, or NEXT_RSN when the queue is empty (chapter 5). -/
def Trc.oldestRsn (t : Trc) : Rsn :=
  match t.queue with
  | [] => t.nextRsn
  | e :: _ => e.rsn

/-- The RSN lies in a range of the splice list (R81). -/
def Trc.inSplice (t : Trc) (r : Rsn) : Bool :=
  t.splices.any fun x => decide (0 ≤ rsnOffset x.first r) && decide (0 ≤ rsnOffset r x.last)

/-- The condemned range around RSN `r` (R77): offsets q - SPLICE_BEFORE to q + SPLICE_AFTER. -/
def condemnedRange (t : JobTable) (q : Int) : OffsetRange := ⟨q - t.spliceBefore, q + t.spliceAfter⟩

/-- The range reaches back to a decided RSN, the decided ones having offsets -n to -1 (R78). -/
def OffsetRange.escapes (x : OffsetRange) (n : Nat) : Bool :=
  decide (x.first ≤ -1) && decide (-(n : Int) ≤ x.last) && decide (1 ≤ n)

/-- The undecided part of the range, from max(f, 0) to l, inserted into the list; nothing when l is negative (R79). -/
def Trc.condemn (x : OffsetRange) (t : Trc) : Trc :=
  if x.last < 0 then t
  else
    let base := t.oldestRsn
    let rs := insertRange ⟨max x.first 0, x.last⟩ (t.splices.map (SpliceRange.offsets base))
    { t with splices := rs.map (OffsetRange.rsns base) }

/-- The SPLICE flag of a record for RSN `r` is processed (R77 to R80). -/
def State.processSplice (r : Rsn) (flag : Bool) (s : State) : State :=
  if flag then
    let x := condemnedRange s.jbc.table (rsnOffset s.trc.oldestRsn r)
    { s.setEventIf (x.escapes s.trc.decided) .spliceEscape with trc := s.trc.condemn x }
  else s

end Sys2Proof.Machine
end

