-- ==== Sys2Proof/Machine/Requests.lean ====
section
/-! DEFINITION. The request queue and the start of a request (R160 to R162); READ, SNAPSHOT, CLEAR_EVENTS, RESET_NODE and
BAD_OP. -/

namespace Sys2Proof.Machine

/-- The request queue holds at most 4 requests (R160). -/
def requestQueueSize : Nat := 4

/-- The reply queue holds at most 8 cells (R156). -/
def replyQueueSize : Nat := 8

/-- A request joins the queue, or is dropped with REQUEST_DROP when the queue holds 4 (R160). -/
def State.enqueueRequest (q : Request) (s : State) : State :=
  if s.mge.requests.length < requestQueueSize then
    { s with mge := { s.mge with requests := s.mge.requests ++ [q] } }
  else s.setEvent .requestDrop

/-- MGE may start a request: room in the reply queue and no reset pending (R161); nothing starts while reset is held. -/
def State.canStart (s : State) : Bool :=
  !s.resetHeld && !s.mge.resetPending && decide (s.rif.replies.length < replyQueueSize)

/-- The reply to `q` joins the reply queue (R161).  A value no rule states is the next free value (log 6). -/
def State.queueReply (q : Request) (a : Answer) (s : State) : State :=
  let push (v : BitVec 32) : Rif :=
    { s.rif with replies := s.rif.replies ++ [{ dest := q.source, tag := q.tag, op := q.op, result := a.result, value := v }] }
  match a.value with
  | some v => { s with rif := push v }
  | none => { s with rif := push (Config.refusalValue s.draws), draws := s.draws + 1 }

/-- The checks of R162 in order: the first that fails. -/
def State.requestCheck (q : Request) (s : State) : Option Result :=
  match opOf q.op with
  | none => some .badOp
  | some op =>
    if op ≠ .read ∧ op ≠ .snapshot ∧ s.rif.managerNode ≠ 0 ∧ q.source.toNat ≠ s.rif.managerNode.toNat then some .access
    else if (op = .read ∨ op = .write) ∧ !validAddress q.table q.row q.field then some .address
    else if op = .write ∧ readOnlyAddress q.table q.field then some .readonly
    else none

/-- The head request removed from the queue at its start (R161). -/
def State.popRequest (s : State) : State := { s with mge := { s.mge with requests := s.mge.requests.tail } }

/-- MGE starts `q`, the head request (R161): removed, checked (R162), carried out by `run` when every check passes, and
answered, all in one occurrence. -/
def State.carryOut (run : Request → State → State × Answer) (q : Request) (s : State) : State :=
  let s := s.popRequest
  match s.requestCheck q with
  | some r => s.queueReply q ⟨r, some 0⟩
  | none => (run q s).1.queueReply q (run q s).2

/-- The start of the head request when it is one of row `row` and can start; else no start of that row occurs
(log 1, log 7). -/
def State.startRequest (row : StartRow) (run : Request → State → State × Answer) (s : State) : State :=
  match s.mge.requests with
  | [] => s
  | q :: _ => if s.canStart && q.startRow == row then s.carryOut run q else s

/-! ### The job table's fields (2.1) -/

/-- The fields of the job table, by name. -/
inductive JobField where
  | encScale
  | repeatLength
  | knifeDist
  | gateDist
  | cutOffset
  | markWindow
  | markTol
  | missLimit
  | lockCount
  | knifeLag
  | knifePulse
  | knifeRecovery
  | lateTol
  | gateGuard
  | reverseTol
  | speedWindow
  | hbPeriod
  | verdictNode
  | firstRsn
  | spliceBefore
  | spliceAfter
  | lanes
  deriving DecidableEq, Repr

/-- The fields in order of number, 0 to 21 (2.1). -/
def jobFields : List JobField :=
  [.encScale, .repeatLength, .knifeDist, .gateDist, .cutOffset, .markWindow, .markTol, .missLimit, .lockCount, .knifeLag,
   .knifePulse, .knifeRecovery, .lateTol, .gateGuard, .reverseTol, .speedWindow, .hbPeriod, .verdictNode, .firstRsn,
   .spliceBefore, .spliceAfter, .lanes]

/-- The value a field holds. -/
def JobTable.get (t : JobTable) : JobField → Int
  | .encScale => t.encScale
  | .repeatLength => t.repeatLength
  | .knifeDist => t.knifeDist
  | .gateDist => t.gateDist
  | .cutOffset => t.cutOffset
  | .markWindow => t.markWindow
  | .markTol => t.markTol
  | .missLimit => t.missLimit
  | .lockCount => t.lockCount
  | .knifeLag => t.knifeLag
  | .knifePulse => t.knifePulse
  | .knifeRecovery => t.knifeRecovery
  | .lateTol => t.lateTol
  | .gateGuard => t.gateGuard
  | .reverseTol => t.reverseTol
  | .speedWindow => t.speedWindow
  | .hbPeriod => t.hbPeriod
  | .verdictNode => t.verdictNode
  | .firstRsn => t.firstRsn
  | .spliceBefore => t.spliceBefore
  | .spliceAfter => t.spliceAfter
  | .lanes => t.lanes

/-- The table with one field holding `v`. -/
def JobTable.set (t : JobTable) (v : Int) : JobField → JobTable
  | .encScale => { t with encScale := v.toNat }
  | .repeatLength => { t with repeatLength := v.toNat }
  | .knifeDist => { t with knifeDist := v.toNat }
  | .gateDist => { t with gateDist := v.toNat }
  | .cutOffset => { t with cutOffset := v }
  | .markWindow => { t with markWindow := v.toNat }
  | .markTol => { t with markTol := v.toNat }
  | .missLimit => { t with missLimit := v.toNat }
  | .lockCount => { t with lockCount := v.toNat }
  | .knifeLag => { t with knifeLag := v.toNat }
  | .knifePulse => { t with knifePulse := v.toNat }
  | .knifeRecovery => { t with knifeRecovery := v.toNat }
  | .lateTol => { t with lateTol := v.toNat }
  | .gateGuard => { t with gateGuard := v.toNat }
  | .reverseTol => { t with reverseTol := v.toNat }
  | .speedWindow => { t with speedWindow := v.toNat }
  | .hbPeriod => { t with hbPeriod := v.toNat }
  | .verdictNode => { t with verdictNode := v.toNat }
  | .firstRsn => { t with firstRsn := v.toNat }
  | .spliceBefore => { t with spliceBefore := v.toNat }
  | .spliceAfter => { t with spliceAfter := v.toNat }
  | .lanes => { t with lanes := v.toNat }

/-- The least value of a field's range (2.1). -/
def JobField.low : JobField → Int
  | .encScale => 10000
  | .repeatLength => 10000
  | .knifeDist => 50000
  | .gateDist => 50000
  | .cutOffset => -500000
  | .markWindow => 100
  | .markTol => 0
  | .missLimit => 1
  | .lockCount => 1
  | .knifeLag => 0
  | .knifePulse => 10
  | .knifeRecovery => 0
  | .lateTol => 0
  | .gateGuard => 0
  | .reverseTol => 0
  | .speedWindow => 0
  | .hbPeriod => 10
  | .verdictNode => 1
  | .firstRsn => 0
  | .spliceBefore => 0
  | .spliceAfter => 0
  | .lanes => 1

/-- The greatest value of a field's range (2.1). -/
def JobField.high : JobField → Int
  | .encScale => 2000000
  | .repeatLength => 1000000
  | .knifeDist => 4000000
  | .gateDist => 4000000
  | .cutOffset => 500000
  | .markWindow => 50000
  | .markTol => 50000
  | .missLimit => 15
  | .lockCount => 8
  | .knifeLag => 20000
  | .knifePulse => 1000
  | .knifeRecovery => 50000
  | .lateTol => 5000
  | .gateGuard => 100000
  | .reverseTol => 200000
  | .speedWindow => 3
  | .hbPeriod => 2000
  | .verdictNode => 31
  | .firstRsn => 65535
  | .spliceBefore => 7
  | .spliceAfter => 7
  | .lanes => 6

/-- A value lies within a field's range (R13). -/
def JobField.inRange (f : JobField) (v : Int) : Bool := decide (f.low ≤ v) && decide (v ≤ f.high)

/-- A field is unset while it holds a value outside its range: the reset value 0 of seven fields (R14). -/
def JobTable.unset (t : JobTable) (f : JobField) : Bool := !f.inRange (t.get f)

/-! ### READ (R163, R165, R167) -/

/-- A flag as a table value. -/
def flagWord (b : Bool) : BitVec 32 := if b then 1 else 0

/-- Row `n` of a six-row table. -/
def laneOf (n : Nat) : Lane := Fin.ofNat 6 n

/-- A lane table field (7.9). -/
def LaneRow.read (r : LaneRow) (field : Nat) : BitVec 32 :=
  match field with
  | 0 => flagWord r.enable
  | 1 => flagWord (r.niPolicy == .reject)
  | 2 => r.stackerNode.zeroExtend 32
  | 3 => BitVec.ofNat 32 r.pocket.val
  | _ => BitVec.ofNat 32 r.ageLimit

/-- A batch entry's field (R123). -/
def Batch.read (b : Batch) (field : Nat) : BitVec 32 :=
  match field with
  | 0 => BitVec.ofNat 32 b.target
  | 1 => flagWord (b.mode == .flag)
  | 2 => BitVec.ofNat 32 b.gap
  | 3 => b.tag.zeroExtend 32
  | _ => flagWord b.loop

/-- Field `f` of a COUNT row: the counter of the code with value `f`, then BATCH_COUNT and STACKS_DONE (R165). -/
def SnapRow.read (r : SnapRow) (field : Nat) : BitVec 32 :=
  match field with
  | 0 => r.tally.stacked
  | 1 => r.tally.rejInspect
  | 2 => r.tally.rejUnknown
  | 3 => r.tally.rejSplice
  | 4 => r.tally.rejRegister
  | 5 => r.tally.rejCut
  | 6 => r.tally.rejLane
  | 7 => r.tally.rejGap
  | 8 => r.tally.rejStacker
  | 9 => r.tally.rejHold
  | 10 => BitVec.ofNat 32 r.count
  | _ => r.stacksDone.zeroExtend 32

/-- A lane's row of the COUNT table as it stands (R165). -/
def State.countRow (s : State) (i : Lane) : SnapRow :=
  { tally := s.gtu.counters.get i, count := (s.bsq.get i).count, stacksDone := (s.bsq.get i).stacksDone }

/-- A STATUS field (11.5); OC_EFF and LAST_REG_ERR are signed (R165). -/
def State.readStatus (s : State) (field : Nat) : BitVec 32 :=
  match field with
  | 0 => BitVec.ofNat 32 s.jbc.job.code
  | 1 => BitVec.ofNat 32 s.mru.reg.code
  | 2 => BitVec.ofNat 32 s.psu.spd
  | 3 => flagWord s.psu.spdValid
  | 4 => s.psu.wpos
  | 5 => s.psu.hw
  | 6 => BitVec.ofNat 32 s.trc.queue.length
  | 7 => BitVec.ofNat 32 s.trc.window.length
  | 8 => s.trc.nextRsn.zeroExtend 32
  | 9 => s.trc.oldestRsn.zeroExtend 32
  | 10 => BitVec.ofInt 32 s.jbc.ocEff
  | 11 => BitVec.ofNat 32 s.mru.missRun
  | 12 => BitVec.ofInt 32 s.mru.lastRegErr
  | 13 => flagWord s.jbc.stopLatch
  | 14 => flagWord s.ksq.inhibitLatch
  | 15 => flagWord s.jbc.blind
  | 16 => flagWord s.jbc.waste
  | 17 => BitVec.ofNat 32 s.jbc.hbStage.code
  | 18 => BitVec.ofNat 32 s.rif.link.code
  | 19 => s.rif.frameNo.zeroExtend 32
  | 20 => BitVec.ofNat 32 (s.rif.slots.getD 0)
  | 21 => s.rif.crcErrors.zeroExtend 32
  | 22 => s.psu.encFaults.zeroExtend 32
  | _ => s.mru.strayMarks.zeroExtend 32

/-- A ring table field (10.6); for the slot map, the written map (R158). -/
def Rif.readRing (r : Rif) (field : Nat) : BitVec 32 :=
  match field with
  | 0 => r.nodeId.zeroExtend 32
  | 1 => r.written.s0.zeroExtend 32
  | 2 => r.written.s1.zeroExtend 32
  | 3 => r.written.s2.zeroExtend 32
  | 4 => r.written.s3.zeroExtend 32
  | 5 => r.managerNode.zeroExtend 32
  | 6 => r.recordDest.zeroExtend 32
  | _ => r.noticeDest.zeroExtend 32

/-- The batch entry that row `row` of the batch table addresses: slot row mod 16 of lane row / 16 (R123). -/
def State.batchAt (s : State) (row : Nat) : Option Batch := (s.bsq.get (laneOf (row / 16))).batches[row % 16]?

/-- The value held at a valid address; none for a batch slot at or beyond its list's length (R123, R163). -/
def State.readAddress (s : State) (table row field : Nat) : Option (BitVec 32) :=
  match table with
  | 0 => (jobFields[field]?).map fun f => BitVec.ofInt 32 (s.jbc.table.get f)
  | 1 => some ((s.gtu.table.get (laneOf row)).read field)
  | 2 => (s.batchAt row).map fun b => b.read field
  | 3 => some ((s.countRow (laneOf row)).read field)
  | 4 => some (if row = 0 then s.mge.gen.zeroExtend 32 else (s.mge.snap.get (laneOf (row - 1))).read field)
  | 5 => some (s.readStatus field)
  | 6 => some (s.rif.readRing field)
  | _ => some (if field = 0 then s.mge.flags else s.mge.mask)

/-- READ (R163): the value held by the owning block, or ADDRESS from BSQ. -/
def State.runRead (q : Request) (s : State) : State × Answer :=
  match s.readAddress q.table q.row q.field with
  | some v => (s, .ok v)
  | none => (s, .refused .address)

/-! ### MGE's own operations -/

/-- SNAPSHOT (R166): the bank replaced, GEN incremented. -/
def State.runSnapshot (_ : Request) (s : State) : State × Answer :=
  let gen := s.mge.gen + 1
  ({ s with mge := { s.mge with snap := Lanes.ofFn s.countRow, gen := gen } }, .ok (gen.zeroExtend 32))

/-- CLEAR_EVENTS (R170): the reply shows the flags as they stood; then the named ones are cleared. -/
def State.runClearEvents (q : Request) (s : State) : State × Answer :=
  ({ s with mge := { s.mge with flags := s.mge.flags &&& ~~~q.argument } }, .ok s.mge.flags)

/-- RESET_NODE (R172): accepted in IDLE, the reset-pending flag set; else refused with STATE. -/
def State.runResetNode (_ : Request) (s : State) : State × Answer :=
  if s.jbc.job = .idle then ({ s with mge := { s.mge with resetPending := true } }, .ok 0)
  else (s, .refused .state)

/-- A request whose op is none of the twelve never gets past check 1 of R162. -/
def State.runBadOp (_ : Request) (s : State) : State × Answer := (s, .refusedWith .badOp 0)

/-! ### Commands -/

/-- READ (R163). -/
def execRead (s : State) : Host.Outcome State Fault Refusal := .next (s.startRequest .read State.runRead)

/-- SNAPSHOT (R166). -/
def execSnapshot (s : State) : Host.Outcome State Fault Refusal := .next (s.startRequest .snapshot State.runSnapshot)

/-- CLEAR_EVENTS (R170). -/
def execClearEvents (s : State) : Host.Outcome State Fault Refusal :=
  .next (s.startRequest .clearEvents State.runClearEvents)

/-- RESET_NODE (R172). -/
def execResetNode (s : State) : Host.Outcome State Fault Refusal := .next (s.startRequest .resetNode State.runResetNode)

/-- BAD_OP (R162). -/
def execBadOp (s : State) : Host.Outcome State Fault Refusal := .next (s.startRequest .badOp State.runBadOp)

end Sys2Proof.Machine
end

