-- ==== Sys2Proof/Machine/Supervision.lean ====
section
/-! DEFINITION. Heartbeat supervision (chapter 9) and its timer's command. -/

namespace Sys2Proof.Machine

/-- The heartbeat timer's period in clock periods (R138). -/
def JobTable.hbTicks (t : JobTable) : Nat := t.hbPeriod * clockPerMs

/-- The token a byte carries (13.2); any other value is no token (R137). -/
def tokenOf (b : Byte) : Option Token :=
  match b.toNat with
  | 1 => some .one
  | 2 => some .two
  | _ => none

/-- The other token. -/
def Token.other : Token → Token
  | .one => .two
  | .two => .one

/-- A heartbeat is accepted (R137): timer restarted, stage 0, BLIND clear, the expected token changed. -/
def Jbc.acceptHeartbeat (j : Jbc) : Jbc :=
  { j with hbTimer := some j.table.hbTicks, hbStage := .alive, blind := false, expected := j.expected.other }

/-- A HEARTBEAT cell handed to JBC (R137): taken in RUN or DRAIN from VERDICT_NODE; accepted when it carries the expected
token, in every stage; else ignored. -/
def State.takeHeartbeat (source : Byte) (p : Payload) (s : State) : State :=
  if s.jobActive && source.toNat == s.jbc.table.verdictNode && tokenOf p.b4 == some s.jbc.expected then
    { s with jbc := s.jbc.acceptHeartbeat }
  else s

/-- The heartbeat timer expires (R138). -/
def State.heartbeatExpiry (s : State) : State :=
  match s.jbc.hbStage with
  | .alive =>
    ({ s with jbc := { s.jbc with blind := true, hbStage := .blind, hbTimer := some s.jbc.table.hbTicks } }).setEvent .blind
  | .blind =>
    ({ s with jbc := { s.jbc with stopLatch := true, hbStage := .expired, hbTimer := none } }).setEvent .hbExpired
  | .expired => { s with jbc := { s.jbc with hbTimer := none } }

/-- HEARTBEAT_TIMER_EXPIRY (R138).  A timer that is stopped or has time left does not expire (log 3): after a heartbeat
taken first the expiry no longer occurs (R139). -/
def execHeartbeatTimerExpiry (s : State) : Host.Outcome State Fault Refusal :=
  .next (if s.resetHeld || s.jbc.hbTimer != some 0 then s else s.heartbeatExpiry)

end Sys2Proof.Machine
end

