-- ==== Sys2Proof/Machine/Stacks.lean ====
section
/-! DEFINITION. The batch sequencer (chapter 8): appending, counting and completion, stacker status. -/

namespace Sys2Proof.Machine

/-- A lane's batch list holds at most 16 entries (R119). -/
def batchListSize : Nat := 16

/-! ### Counting and completion (R124 to R129) -/

/-- The lane's stacker is ready: pocket READY and not stale (R124). -/
def LanePlan.ready (p : LanePlan) : Bool := p.pocketState == .ready && !p.stale

/-- What one decision does to one lane's plan: the plan after it, the STACK_CHANGE record of a completion, and whether
the completion emptied the list. -/
structure LaneOutcome where
  plan    : LanePlan
  record  : Option StackChange
  emptied : Bool
  deriving DecidableEq, Repr

/-- A completion keeps the head only when it loops and is alone in the list (R127). -/
def batchesAfterCompletion (head : Batch) (rest : List Batch) : List Batch :=
  if head.loop && rest.isEmpty then [head] else rest

/-- A STACKED piece is counted into the head batch, and the batch completed when it is full (R125 to R128). -/
def LanePlan.stackPiece (rsn : Rsn) (lane : Lane) (p : LanePlan) : LaneOutcome :=
  match p.batches with
  | [] => ⟨p, none, false⟩
  | head :: rest =>
    if p.count + 1 < head.target then ⟨{ p with count := p.count + 1 }, none, false⟩
    else
      let left := batchesAfterCompletion head rest
      let done := p.stacksDone + 1
      let gap := match head.mode with
        | .gap => head.gap
        | .flag => 0
      { plan := { p with batches := left, count := 0, stacksDone := done, gap := gap }
        record := some { rsn := rsn, lane := lane, tag := head.tag, count := p.count + 1, mode := head.mode, gap := gap,
                         nextTag := left.head?.map Batch.tag, stacksDone := done }
        emptied := left.isEmpty }

/-- Steps 2 and 3 of R109 for one lane: a lane below LANES counts its gap down by one repeat (R108), and then a STACKED
piece is counted (R125).  `none` marks a lane at or above LANES, which is not touched. -/
def LanePlan.afterDecision (rsn : Rsn) (lane : Lane) (code : Option Code) (p : LanePlan) : LaneOutcome :=
  match code with
  | none => ⟨p, none, false⟩
  | some c =>
    let p := { p with gap := p.gap - 1 }
    if c = .stacked then p.stackPiece rsn lane else ⟨p, none, false⟩

/-- The end test of R129: every lane below LANES whose ENABLE is 1 has an empty batch list. -/
def State.everyEnabledListEmpty (s : State) : Bool :=
  (Lanes.ofFn fun i => !s.laneUsed i || !(s.gtu.table.get i).enable || (s.bsq.get i).batches.isEmpty).toList.all id

/-- JBC takes the automatic end report (R23). -/
def State.automaticEnd (s : State) : State :=
  match s.jbc.job with
  | .run => { s with jbc := { s.jbc with stopLatch := true, job := .drain, tailPending := true } }
  | .drain => s.setStopLatch
  | .idle => s
  | .halt => s

/-! ### Stacker status (R130 to R133) -/

/-- BSQ with lane `i`'s plan changed. -/
def State.setPlan (s : State) (i : Lane) (p : LanePlan) : State := { s with bsq := s.bsq.set i p }

/-- A pocket state byte (13.2); any other value is taken as FAULT (R130). -/
def pocketStateOf (b : Byte) : PocketState :=
  match b.toNat with
  | 0 => .ready
  | 1 => .changing
  | 2 => .full
  | _ => .fault

/-- The byte of a STACKER_STATUS cell that reports a pocket: bytes 4 to 11 for pockets 0 to 7 (13.2). -/
def pocketByte (p : Payload) (k : Fin 8) : Byte :=
  match k with
  | 0 => p.b4
  | 1 => p.b5
  | 2 => p.b6
  | 3 => p.b7
  | 4 => p.b8
  | 5 => p.b9
  | 6 => p.b10
  | 7 => p.b11

/-- A renewal (R130): the state reported, fresh, the status timer restarted. -/
def LanePlan.renew (st : PocketState) (p : LanePlan) : LanePlan :=
  { p with pocketState := st, stale := false, statusAge := some 0 }

/-- A discard (R133): FAULT, stale, the status timer stopped. -/
def LanePlan.discardStatus (p : LanePlan) : LanePlan :=
  { p with pocketState := .fault, stale := true, statusAge := none }

/-- A lane supervised by node `n`: its STACKER_NODE is `n`, and `n` is not 0 (R130). -/
def LaneRow.suppliedBy (n : Byte) (r : LaneRow) : Bool := r.stackerNode != 0 && r.stackerNode.toNat == n.toNat

/-- BSQ takes a STACKER_STATUS cell from node `source` in any job state (R130). -/
def State.takeStackerStatus (source : Byte) (p : Payload) (s : State) : State :=
  { s with bsq := Lanes.ofFn fun i =>
      let row := s.gtu.table.get i
      let plan := s.bsq.get i
      if row.suppliedBy source then plan.renew (pocketStateOf (pocketByte p row.pocket)) else plan }

/-- Lane `i` lapses (R131, R132): stale, timer stopped, and STACKER_STALE for a supervised lane below LANES in RUN or
DRAIN. -/
def State.lapse (i : Lane) (s : State) : State :=
  let event := s.jobActive && (s.gtu.table.get i).stackerNode != 0 && s.laneUsed i
  (s.setPlan i { s.bsq.get i with stale := true, statusAge := none }).setEventIf event .stackerStale

/-! ### Commands -/

/-- The lane's last renewal lies STATUS_AGE_LIMIT back (R131, log 24). -/
def State.statusRunOut (s : State) (i : Lane) : Bool :=
  (s.bsq.get i).statusAge.any fun age => decide ((s.gtu.table.get i).ageLimit * clockPerMs ≤ age)

/-- STATUS_TIMER_EXPIRY of a lane (R131).  A timer that is stopped or has time left does not expire (log 3). -/
def execStatusTimerExpiry (i : Lane) (s : State) : Host.Outcome State Fault Refusal :=
  .next (if s.resetHeld || !s.statusRunOut i then s else s.lapse i)

end Sys2Proof.Machine
end

