-- ==== Sys2Proof/Machine/Gates.lean ====
section
/-! DEFINITION. The gate and tally unit (chapter 7): the cause order, and one decision taken whole. -/

namespace Sys2Proof.Machine

/-- A cut that is missing or was made too late to trust (R103). -/
def CutState.bad : CutState → Bool
  | .done => false
  | .doneLate => false
  | .lateFault => true
  | .suppressed => true
  | .pending => true

/-- What TRC hands GTU with an entry (R65, R67, R100). -/
structure Handover where
  entry : Entry
  /-- The decision is part of a flush. -/
  flush : Bool
  /-- CUT of the successor in the queue; none when there is no successor. -/
  successor : Option CutState
  /-- The entry's RSN lies in a range of the splice list. -/
  inSplice : Bool
  deriving DecidableEq, Repr

/-- Cause 1, REJ_HOLD (R102). -/
def State.holds (s : State) (h : Handover) : Bool := h.flush || s.jbc.stopLatch || s.jbc.waste || h.entry.tail

/-- Cause 2, REJ_CUT (R103). -/
def Handover.badCut (h : Handover) : Bool :=
  h.entry.cut.bad || (match h.successor with
    | none => true
    | some c => c.bad)

/-- Causes 6 and 7 (R106): the reject code that inspection gives the lane, if any. -/
def inspectionCode (blind : Bool) (v : Option VerdictRecord) (policy : NiPolicy) (i : Lane) : Option Code :=
  if blind then some .rejUnknown
  else match v with
    | none => some .rejUnknown
    | some r =>
      match r.lanes.get i, policy with
      | .fail, _ => some .rejInspect
      | .pass, _ => none
      | .notInspected, .accept => none
      | .notInspected, .reject => some .rejUnknown

/-- The code of one lane's piece: the first cause of R101 that holds, else STACKED. -/
def State.laneCode (s : State) (h : Handover) (i : Lane) : Code :=
  let row := s.gtu.table.get i
  let plan := s.bsq.get i
  if s.holds h then .rejHold
  else if h.badCut then .rejCut
  else if h.entry.regFlag = .fault then .rejRegister
  else if h.inSplice then .rejSplice
  else if !row.enable || plan.batches.isEmpty then .rejLane
  else match inspectionCode s.jbc.blind h.entry.verdict row.niPolicy i with
    | some c => c
    | none =>
      if row.stackerNode != 0 && !plan.ready then .rejStacker
      else if 0 < plan.gap then .rejGap
      else .stacked

/-- The codes of a decision: one for each lane below LANES, none for the others (R100). -/
def State.decisionCodes (s : State) (h : Handover) : Lanes (Option Code) :=
  Lanes.ofFn fun i => if s.laneUsed i then some (s.laneCode h i) else none

/-- A lane's counters with the counter of one code incremented (R110). -/
def Tally.bump (c : Code) (t : Tally) : Tally :=
  match c with
  | .stacked => { t with stacked := t.stacked + 1 }
  | .rejInspect => { t with rejInspect := t.rejInspect + 1 }
  | .rejUnknown => { t with rejUnknown := t.rejUnknown + 1 }
  | .rejSplice => { t with rejSplice := t.rejSplice + 1 }
  | .rejRegister => { t with rejRegister := t.rejRegister + 1 }
  | .rejCut => { t with rejCut := t.rejCut + 1 }
  | .rejLane => { t with rejLane := t.rejLane + 1 }
  | .rejGap => { t with rejGap := t.rejGap + 1 }
  | .rejStacker => { t with rejStacker := t.rejStacker + 1 }
  | .rejHold => { t with rejHold := t.rejHold + 1 }

/-- The counter of one code. -/
def Tally.get (t : Tally) : Code → BitVec 32
  | .stacked => t.stacked
  | .rejInspect => t.rejInspect
  | .rejUnknown => t.rejUnknown
  | .rejSplice => t.rejSplice
  | .rejRegister => t.rejRegister
  | .rejCut => t.rejCut
  | .rejLane => t.rejLane
  | .rejGap => t.rejGap
  | .rejStacker => t.rejStacker
  | .rejHold => t.rejHold

/-- The sum of a lane's ten counters modulo 2^32 (R110). -/
def Tally.total (t : Tally) : BitVec 32 :=
  t.stacked + t.rejInspect + t.rejUnknown + t.rejSplice + t.rejRegister + t.rejCut + t.rejLane + t.rejGap +
    t.rejStacker + t.rejHold

/-- REG_ERR as a record carries it: clamped to -32767 to 32767, 0 for a synthesized entry (R114). -/
def recordRegErr (e : Entry) : Int :=
  match e.kind, e.regErr with
  | .seen, some r => max (-32767) (min r 32767)
  | .seen, none => 0
  | .synth, _ => 0

/-- The DISPOSITION record of a decision (R114); lanes at or above LANES carry REJ_LANE. -/
def State.dispositionOf (s : State) (h : Handover) (codes : Lanes (Option Code)) : Disposition :=
  { rsn := h.entry.rsn
    codes := Lanes.ofFn fun i => (codes.get i).getD .rejLane
    kind := h.entry.kind
    late := h.entry.cut == .doneLate || h.entry.cut == .lateFault
    blind := s.jbc.blind
    regErr := recordRegErr h.entry }

/-- Steps 1 and 4 of R109: each lane's counter, and the gate word, STACK for a STACKED lane and REJECT for every other. -/
def Gtu.applyCodes (codes : Lanes (Option Code)) (g : Gtu) : Gtu :=
  { g with
    counters := Lanes.ofFn fun i => match codes.get i with
      | some c => (g.counters.get i).bump c
      | none => g.counters.get i
    gateWord := Lanes.ofFn fun i => if codes.get i = some .stacked then .stack else .reject }

/-- Steps 2 and 3 of R109 in every lane. -/
def State.laneOutcomes (s : State) (rsn : Rsn) (codes : Lanes (Option Code)) : Lanes LaneOutcome :=
  Lanes.ofFn fun i => (s.bsq.get i).afterDecision rsn i (codes.get i)

/-- The STACK_CHANGE records of a decision in ascending lane order (R109 step 6, R128). -/
def stackChanges (outs : Lanes LaneOutcome) : List Record :=
  outs.toList.filterMap fun o => o.record.map Record.stackChange

/-- Some lane's list was emptied at its completion (R126 step 6). -/
def anyEmptied (outs : Lanes LaneOutcome) : Bool := outs.toList.any LaneOutcome.emptied

/-- GTU takes a decision whole (R100, R101, R109). -/
def State.takeDecision (s : State) (h : Handover) : State :=
  let codes := s.decisionCodes h
  let outs := s.laneOutcomes h.entry.rsn codes
  let counted : State :=
    { s with gtu := s.gtu.applyCodes codes, bsq := Lanes.ofFn fun i => (outs.get i).plan }
  let flagged := (counted.setEventIf (!(stackChanges outs).isEmpty) .stackDone).setEventIf (anyEmptied outs) .laneDone
  let recorded := flagged.queueRecords (.disposition (s.dispositionOf h codes) :: stackChanges outs)
  if anyEmptied outs && recorded.everyEnabledListEmpty then recorded.automaticEnd else recorded

end Sys2Proof.Machine
end

