-- ==== Sys2Proof/Machine/Knife.lean ====
section
/-! DEFINITION. The knife sequencer (chapter 6): arming, taking a fire, recomputation, and its commands. -/

namespace Sys2Proof.Machine

/-- TRC's queue with the CUT of the entry numbered `r` set; no entry changes when none has that number (R89). -/
def Trc.setCut (r : Rsn) (c : CutState) (t : Trc) : Trc :=
  { t with queue := t.queue.map fun e => if e.rsn = r then { e with cut := c } else e }

/-- The entry of the queue numbered `r`. -/
def Trc.entry? (r : Rsn) (t : Trc) : Option Entry := t.queue.find? fun e => e.rsn == r

/-- How a fire was found (R88): at the crossing of F, or at arming or recomputation with its lateness. -/
inductive FireFound where
  | crossing
  | late (lateness : Int)
  deriving DecidableEq, Repr

/-- The CUT a driven fire records (R40, R88). -/
def FireFound.cut (lt : Nat) : FireFound → CutState
  | .crossing => .done
  | .late d => if d ≤ lt then .doneLate else .lateFault

/-- The knife may not be driven: the inhibit latch is set or the recovery timer is running (R88). -/
def Ksq.blocked (k : Ksq) : Bool := k.inhibitLatch || k.recoveryTimer.isSome

/-- A pulse begins for entry `r` (R90), and the recovery timer with it (R91). -/
def Ksq.startPulse (pulseUs recEffUs : Nat) (r : Rsn) (k : Ksq) : Ksq :=
  { k with pulse := true, owner := some r, pulseTimer := some (pulseUs * clockPerUs),
           recoveryTimer := some (recEffUs * clockPerUs) }

/-- A fire is taken for entry `r` (R88): suppressed, or driven.  In both cases the entry is released; arming the next
one is left to the caller. -/
def State.takeFire (r : Rsn) (how : FireFound) (s : State) : State :=
  if s.ksq.blocked then
    { s with ksq := s.ksq.release, trc := s.trc.setCut r .suppressed, mge := s.mge.setEvent .cutSuppressed }
  else
    let c := how.cut s.quantities.lt
    { s with ksq := s.ksq.release.startPulse s.jbc.table.knifePulse s.quantities.recEff r
             trc := s.trc.setCut r c
             mge := if c = .lateFault then s.mge.setEvent .cutLate else s.mge }

/-- KSQ arms the oldest PENDING entry of the list (R85): behind its F it watches F; at F or beyond the fire is taken at
once, late (R86), and the next PENDING entry is armed in turn (R88).  With none left, nothing is armed. -/
def State.armFrom : List Entry → State → State
  | [], s => { s with ksq := s.ksq.release }
  | e :: rest, s =>
    if e.cut ≠ .pending then State.armFrom rest s
    else if isBehind s.psu.hw (s.firePoint e) then
      { s with ksq := { s.ksq with armed := some e.rsn, fireWatch := some (s.firePoint e) } }
    else State.armFrom rest (s.takeFire e.rsn (.late (distance (s.firePoint e) s.psu.hw)))

/-- KSQ arms the oldest PENDING entry then in the queue (R85). -/
def State.armNext (s : State) : State := State.armFrom s.trc.queue s

/-- TRC offers a new entry for cutting (R61 step 9): KSQ arms when nothing is armed, else the entry waits (R85). -/
def State.offerForCutting (s : State) : State := if s.ksq.armed.isNone then s.armNext else s

/-- KSQ's crossing at an advance of HW: the fire is taken when HW has reached the watched F (R4, R88). -/
def State.fireCrossing (s : State) : State :=
  match s.ksq.armed, s.ksq.fireWatch with
  | some r, some f => if s.psu.hw = f then (s.takeFire r .crossing).armNext else s
  | _, _ => s

/-- KSQ at a speed window end (R87): F of the armed entry is computed anew from the speed now held; behind it the watch
moves, at it or beyond the fire is taken at once, late. -/
def State.recomputeFire (s : State) : State :=
  match s.ksq.armed with
  | none => s
  | some r =>
    match s.trc.entry? r with
    | none => s
    | some e =>
      if isBehind s.psu.hw (s.firePoint e) then { s with ksq := { s.ksq with fireWatch := some (s.firePoint e) } }
      else (s.takeFire r (.late (distance (s.firePoint e) s.psu.hw))).armNext

/-- The inhibit latch set while a pulse runs (R93): the pulse ends at once, and the owner's CUT becomes SUPPRESSED with
CUT_SUPPRESSED when the owner is still in the queue. -/
def State.truncatePulse (s : State) : State :=
  if s.ksq.pulse then
    match s.ksq.owner with
    | none => { s with ksq := s.ksq.endPulse }
    | some r =>
      if (s.trc.entry? r).isSome then
        { s with ksq := s.ksq.endPulse, trc := s.trc.setCut r .suppressed, mge := s.mge.setEvent .cutSuppressed }
      else { s with ksq := s.ksq.endPulse }
  else s

/-- An assertion of KNIFE_INHIBIT (R92): the inhibit latch, a running pulse ended, INHIBIT, and the stop latch. -/
def State.assertInhibit (s : State) : State :=
  let s := { s with inhibitLine := true, ksq := { s.ksq with inhibitLatch := true } }
  (s.truncatePulse.setEvent .inhibit).setStopLatch

/-! ### Commands -/

/-- KNIFE_INHIBIT_ASSERTED (R92).  A line already seen asserted makes no further assertion, and none is taken while
reset is held (R99, log 11). -/
def execKnifeInhibitAsserted (s : State) : Host.Outcome State Fault Refusal :=
  .next (if s.resetHeld || s.inhibitLine then s else s.assertInhibit)

/-- KNIFE_INHIBIT_RELEASED (R92): the latch is left as it is; the line is now seen released. -/
def execKnifeInhibitReleased (s : State) : Host.Outcome State Fault Refusal :=
  .next (if s.resetHeld then s else { s with inhibitLine := false })

/-- A pulse is running and has run KNIFE_PULSE (R90). -/
def Ksq.pulseRunOut (k : Ksq) : Bool := k.pulse && k.pulseTimer == some 0

/-- The recovery timer has run rec_eff, and no pulse runs (R91): at a rec_eff equal to KNIFE_PULSE both timers end
together, and a pulse that still runs is ended first, since none begins while one runs (log 20). -/
def Ksq.recoveryRunOut (k : Ksq) : Bool := k.recoveryTimer == some 0 && !k.pulse

/-- PULSE_TIMER_EXPIRY (R90): KNIFE_FIRE falls, pulse state LOW, owner cleared; its CUT stands.  A timer that is stopped or
has time left does not expire (log 3). -/
def execPulseTimerExpiry (s : State) : Host.Outcome State Fault Refusal :=
  .next (if s.resetHeld || !s.ksq.pulseRunOut then s else { s with ksq := s.ksq.endPulse })

/-- RECOVERY_TIMER_EXPIRY (R91): the timer is expired and nothing else changes.  A timer that has expired or has time left
does not expire (log 3). -/
def execRecoveryTimerExpiry (s : State) : Host.Outcome State Fault Refusal :=
  .next (if s.resetHeld || !s.ksq.recoveryRunOut then s else { s with ksq := { s.ksq with recoveryTimer := none } })

end Sys2Proof.Machine
end

