-- ==== Sys2Proof/Machine/Track.lean ====
section
/-! DEFINITION. The track controller (chapter 5): creating entries, the decision point watch, flushing, verdicts. -/

namespace Sys2Proof.Machine

/-! ### Creating entries (R61) -/

/-- A creation request from MRU (R55). -/
structure Creation where
  kind    : MarkKind
  mark    : Position
  regErr  : Option Int
  regFlag : RegFlag
  deriving DecidableEq, Repr

/-- The verdict record held in the window for an RSN (R74). -/
def Trc.heldVerdict? (t : Trc) (r : Rsn) : Option VerdictRecord :=
  (t.window.find? fun h => h.rsn == r).map HeldVerdict.record

/-- The entry that steps 1 to 6 of R61 fill in. -/
def State.newEntry (s : State) (q : Creation) : Entry :=
  { rsn := s.trc.nextRsn, mark := q.mark, kind := q.kind, regErr := q.regErr, regFlag := q.regFlag
    cutTarget := cutTargetOf s.jbc.table s.jbc.ocEff q.mark
    decisionPoint := decisionPointOf s.jbc.table s.jbc.ocEff q.mark
    cut := .pending
    verdict := s.trc.heldVerdict? s.trc.nextRsn
    tail := s.jbc.tailPending }

/-- TRC with a new entry: NEXT_RSN advanced, the window's record for it pulled (R74), the entry appended, and its S armed
when the queue was empty (R64). -/
def Trc.append (e : Entry) (t : Trc) : Trc :=
  { t with
    nextRsn := t.nextRsn + 1
    window := t.window.filter fun h => h.rsn != t.nextRsn
    queue := t.queue ++ [e]
    watch := t.watch || t.queue.isEmpty }

/-- The tail entry has been created: JBC clears the tail-pending flag and MRU enters IDLE (R22, R56). -/
def State.tailCreated (s : State) : State :=
  { s.idleRegistration with jbc := { s.jbc with tailPending := false } }

/-- Step 9 of R61 where it is taken with the creation; else the entry waits PENDING for its offer (R65, log 29). -/
def State.offerIf (now : Bool) (s : State) : State := if now then s.offerForCutting else s

/-- TRC takes a creation request (R61).  At an advance of HW at which a decision is due the offer of step 9 is not taken
`now` but after the decisions, which find the new entry PENDING (R65, log 29). -/
def State.createEntry (now : Bool) (q : Creation) (s : State) : State :=
  let e := s.newEntry q
  let appended : State := { s with trc := s.trc.append e }
  let tailed := if e.tail then appended.tailCreated else appended
  tailed.offerIf now

/-! ### Decisions (R65, R66) -/

/-- The decided count stays at 32,768 once there (R66). -/
def decidedLimit : Nat := 32768

/-- The head leaves the queue and is counted (R66 step 1; log 28). -/
def Trc.removeHead (t : Trc) : Trc :=
  { t with queue := t.queue.tail, decided := min (t.decided + 1) decidedLimit, decisions := t.decisions + 1 }

/-- Ranges whose last RSN is the one given leave the splice list (R66 step 2, R82). -/
def Trc.removeSplicesEnding (r : Rsn) (t : Trc) : Trc :=
  { t with splices := t.splices.filter fun x => x.last != r }

/-- JBC ends the job on the tail's decision (R22). -/
def State.endOfDrain (s : State) : State := (s.emptyWindowAndSplices.setEvent .jobEnded).enterStopped .idle

/-- TRC completes the decision of an entry (R66 steps 1 to 3). -/
def State.completeDecision (e : Entry) (s : State) : State :=
  let s := { s with trc := s.trc.removeHead.removeSplicesEnding e.rsn }
  if e.tail then s.endOfDrain else s

/-- TRC arms the S of the head of the list, which is the queue (R64): ahead of HW it is watched; at or behind HW the
arming is itself the crossing (R4), the entry is decided at once and the next head armed (R66 step 4). -/
def State.armDecisionFrom : List Entry → State → State
  | [], s => { s with trc := { s.trc with watch := false } }
  | e :: rest, s =>
    if isBehind s.psu.hw e.decisionPoint then { s with trc := { s.trc with watch := true } }
    else
      let h : Handover :=
        { entry := e, flush := false, successor := rest.head?.map Entry.cut, inSplice := s.trc.inSplice e.rsn }
      State.armDecisionFrom rest ((s.takeDecision h).completeDecision e)

/-- HW has reached the head's watched S (R4, R64). -/
def State.decisionDue (s : State) : Bool :=
  match s.trc.queue with
  | [] => false
  | e :: _ => s.trc.watch && s.psu.hw == e.decisionPoint

/-- TRC's crossing at an advance of HW: the head is decided when HW has reached its watched S (R4, R65). -/
def State.decisionCrossing (s : State) : State := if s.decisionDue then s.armDecisionFrom s.trc.queue else s

/-! ### Flushing (R67) -/

/-- Every entry of the list decided with the flush indication, oldest first, removed and counted (R67). -/
def State.flushEntries : List Entry → State → State
  | [], s => s
  | e :: rest, s =>
    let h : Handover :=
      { entry := e, flush := true, successor := rest.head?.map Entry.cut, inSplice := s.trc.inSplice e.rsn }
    let s := s.takeDecision h
    State.flushEntries rest { s with trc := s.trc.removeHead }

/-- TRC flushes the queue: the decision watch disarmed, then every entry decided (R67). -/
def State.flushQueue (s : State) : State :=
  State.flushEntries s.trc.queue { s with trc := { s.trc with watch := false } }

/-- JBC takes a loss of tracking (R25). -/
def State.loseTracking (s : State) : State :=
  ((s.flushQueue.emptyWindowAndSplices.setEvent .trackLost).setStopLatch).enterStopped .halt

/-- JBC takes a JOB_ABORT (R24). -/
def State.abortJob (s : State) : State :=
  (s.flushQueue.emptyWindowAndSplices.setEvent .jobEnded).enterStopped .idle

/-! ### Verdicts (R69 to R75) -/

/-- Keys of the verdict window run from NEXT_RSN to NEXT_RSN + 63 (R70, R75). -/
def windowReach : Int := 63

/-- A lane verdict byte (13.2); any other value is taken as NOT_INSPECTED (R69). -/
def laneVerdictOf (b : Byte) : LaneVerdict :=
  match b.toNat with
  | 1 => .pass
  | 2 => .fail
  | _ => .notInspected

/-- The verdict record of a VERDICT cell: lane verdicts in bytes 6 to 11, SPLICE in bit 0 of byte 12 (13.2). -/
def verdictOf (p : Payload) : VerdictRecord :=
  { lanes := ⟨laneVerdictOf p.b6, laneVerdictOf p.b7, laneVerdictOf p.b8, laneVerdictOf p.b9, laneVerdictOf p.b10,
              laneVerdictOf p.b11⟩
    splice := p.b12.getLsbD 0 }

/-- Two lane verdicts merged (R72): FAIL cannot be undone. -/
def LaneVerdict.merge (held arriving : LaneVerdict) : LaneVerdict :=
  match held, arriving with
  | .fail, _ => .fail
  | _, .fail => .fail
  | .pass, _ => .pass
  | _, .pass => .pass
  | .notInspected, .notInspected => .notInspected

/-- The lane meets PASS against FAIL, in either order (R72). -/
def LaneVerdict.conflicts (held arriving : LaneVerdict) : Bool :=
  match held, arriving with
  | .pass, .fail => true
  | .fail, .pass => true
  | _, _ => false

/-- Two records for one RSN merged lane by lane, the SPLICE flags by OR (R72). -/
def VerdictRecord.merge (held arriving : VerdictRecord) : VerdictRecord :=
  { lanes := Lanes.ofFn fun i => (held.lanes.get i).merge (arriving.lanes.get i)
    splice := held.splice || arriving.splice }

/-- Some lane of the merge conflicts (R72). -/
def VerdictRecord.conflicts (held arriving : VerdictRecord) : Bool :=
  (Lanes.ofFn fun i => (held.lanes.get i).conflicts (arriving.lanes.get i)).toList.any id

/-- A record merged into what is held: the record itself when nothing is held. -/
def mergeVerdict (held : Option VerdictRecord) (v : VerdictRecord) : VerdictRecord :=
  match held with
  | none => v
  | some h => h.merge v

/-- The merge meets a conflict; none when nothing is held. -/
def verdictConflict (held : Option VerdictRecord) (v : VerdictRecord) : Bool :=
  match held with
  | none => false
  | some h => h.conflicts v

/-- The window with the record for `r` replaced, or joined at the end when it held none (R71). -/
def putVerdict (r : Rsn) (v : VerdictRecord) : List HeldVerdict → List HeldVerdict
  | [] => [⟨r, v⟩]
  | h :: rest => if h.rsn = r then ⟨r, v⟩ :: rest else h :: putVerdict r v rest

/-- A record stored in the verdict window (R71). -/
def State.storeVerdict (r : Rsn) (v : VerdictRecord) (s : State) : State :=
  let held := s.trc.heldVerdict? r
  { s.setEventIf (verdictConflict held v) .verdictConflict with
    trc := { s.trc with window := putVerdict r (mergeVerdict held v) s.trc.window } }

/-- A record merged into the entry numbered `r` (R73). -/
def State.mergeIntoEntry (r : Rsn) (v : VerdictRecord) (s : State) : State :=
  let held := (s.trc.entry? r).bind Entry.verdict
  { s.setEventIf (verdictConflict held v) .verdictConflict with
    trc := { s.trc with
      queue := s.trc.queue.map fun e => if e.rsn = r then { e with verdict := some (mergeVerdict held v) } else e } }

/-- TRC classifies a taken record by d = r - NEXT_RSN (R70). -/
def State.classifyVerdict (r : Rsn) (v : VerdictRecord) (s : State) : State :=
  let d := rsnOffset s.trc.nextRsn r
  if windowReach < d then s.setEvent .verdictAhead
  else if 0 ≤ d then (s.storeVerdict r v).processSplice r v.splice
  else if 0 ≤ rsnOffset s.trc.oldestRsn r then (s.mergeIntoEntry r v).processSplice r v.splice
  else (s.setEvent .verdictLate).processSplice r v.splice

/-- The cell's source is VERDICT_NODE (R69, R137). -/
def State.fromVerdictNode (s : State) (source : Byte) : Bool := source.toNat == s.jbc.table.verdictNode

/-- A VERDICT cell handed to TRC: taken in RUN or DRAIN from VERDICT_NODE, else ignored (R69). -/
def State.takeVerdict (source : Byte) (p : Payload) (s : State) : State :=
  if s.jobActive && s.fromVerdictNode source then s.classifyVerdict (word16 p.b4 p.b5) (verdictOf p) else s

end Sys2Proof.Machine
end

