-- ==== Sys2Proof/Machine/Jobs.lean ====
section
/-! DEFINITION. Job commands (chapter 2), RELEASE_STOP (R144). -/

namespace Sys2Proof.Machine

/-! ### The checks of JOB_START (R16 to R19) -/

/-- The latches as a value: 1 the stop latch alone, 2 the inhibit latch alone, 3 both (R16, R144). -/
def State.latchValue (s : State) : Nat :=
  (if s.jbc.stopLatch then 1 else 0) + (if s.ksq.inhibitLatch then 2 else 0)

/-- The lowest number among the unset fields (R16). -/
def JobTable.firstUnset (t : JobTable) : Option Nat := jobFields.findIdx? fun f => t.unset f

/-- The seven conditions of the GEOMETRY check in order (R17). -/
def geometryConditions (t : JobTable) : List Bool :=
  [ decide (2 * (t.cutOffset.natAbs : Int) ≤ t.repeatLength)
  , decide (t.markTol ≤ t.markWindow)
  , decide (2 * t.markWindow + 4000 ≤ t.repeatLength)
  , decide (0 < (t.knifeDist : Int) + t.cutOffset - 2000)
  , decide ((t.repeatLength : Int) + t.markWindow + t.gateGuard ≤ (t.gateDist : Int) - t.knifeDist)
  , decide (0 < (t.gateDist : Int) + t.cutOffset - t.gateGuard - 2000)
  , decide (64 ≤ (quantitiesOf t).repCounts) ]

/-- The number of the first condition that is false (R17). -/
def geometryFailure (t : JobTable) : Option Nat := ((geometryConditions t).findIdx? fun b => !b).map (· + 1)

/-- n = ceil(conv(GATE_DIST + |CUT_OFFSET| + 2,000) / (rep_counts - w)) + 2 (R18). -/
def capacityOf (t : JobTable) : Nat :=
  let d := (quantitiesOf t).repCounts - (quantitiesOf t).w
  (conv t.encScale (t.gateDist + t.cutOffset.natAbs + 2000) + d - 1) / d + 2

/-- The track queue holds at most 128 entries (R62). -/
def trackQueueSize : Nat := 128

/-- Some lane below LANES is enabled and holds a batch (R19). -/
def State.hasWork (s : State) : Bool :=
  (Lanes.ofFn fun i => s.laneUsed i && (s.gtu.table.get i).enable && !(s.bsq.get i).batches.isEmpty).toList.any id

/-- The first check of JOB_START that fails, with its reply value (R16 to R19). -/
def State.startRefusal (s : State) : Option Answer :=
  if s.latchValue ≠ 0 then some (.refusedWith .stopped s.latchValue)
  else match s.jbc.table.firstUnset with
    | some n => some (.refusedWith .incomplete n)
    | none =>
      match geometryFailure s.jbc.table with
      | some n => some (.refusedWith .geometry n)
      | none =>
        if trackQueueSize < capacityOf s.jbc.table then some (.refusedWith .capacity (capacityOf s.jbc.table))
        else if !s.hasWork then some (.refusedWith .noWork 0)
        else none

/-! ### The effects of an accepted JOB_START (R20) -/

/-- R20 steps 1 to 4. -/
def Jbc.startJob (j : Jbc) : Jbc :=
  { j with
    job := .run, tailPending := false, held := some (quantitiesOf j.table), ocEff := j.table.cutOffset, waste := false
    blind := false, hbStage := .alive, expected := .one, hbTimer := some j.table.hbTicks }

/-- R20 step 6, and the decided count (R84; log 28). -/
def Trc.startJob (firstRsn : Nat) (t : Trc) : Trc :=
  { t with window := [], splices := [], nextRsn := BitVec.ofNat 16 firstRsn, decided := 0, decisions := 0 }

/-- R20 step 7 (R7). -/
def Psu.startJob (p : Psu) : Psu := { p with hw := p.wpos, reported := false }

/-- R20 step 8 (R43). -/
def Mru.startJob (m : Mru) : Mru :=
  { m with reg := .search, missRun := 0, run := 0, lastMark := none, lastRegErr := 0, watch := false }

/-- R20, all eight steps. -/
def State.startJob (s : State) : State :=
  { s with
    jbc := s.jbc.startJob
    gtu := { s.gtu with counters := Lanes.all tallyAtReset }
    bsq := Lanes.ofFn fun i => { s.bsq.get i with count := 0, gap := 0 }
    trc := s.trc.startJob s.jbc.table.firstRsn
    psu := s.psu.startJob
    mru := s.mru.startJob }

/-- JOB_START (R16, R20). -/
def State.runJobStart (_ : Request) (s : State) : State × Answer :=
  if s.jbc.job ≠ .idle then (s, .refused .state)
  else match s.startRefusal with
    | some a => (s, a)
    | none => (s.startJob, .ok (s.startJob.trc.nextRsn.zeroExtend 32))

/-! ### Ending a job -/

/-- The number of entries flushed, as a reply value (R24). -/
def State.flushedCount (s : State) : BitVec 32 := BitVec.ofNat 32 s.trc.queue.length

/-- JOB_STOP (R21): DRAIN with the tail pending from RUN; as JOB_ABORT from HALT; refused otherwise. -/
def State.runJobStop (_ : Request) (s : State) : State × Answer :=
  match s.jbc.job with
  | .run => ({ s with jbc := { s.jbc with job := .drain, tailPending := true } }, .ok 0)
  | .halt => (s.abortJob, .ok s.flushedCount)
  | .idle => (s, .refused .state)
  | .drain => (s, .refused .state)

/-- JOB_ABORT (R24): taken in RUN, DRAIN and HALT. -/
def State.runJobAbort (_ : Request) (s : State) : State × Answer :=
  if s.jbc.job = .idle then (s, .refused .state) else (s.abortJob, .ok s.flushedCount)

/-! ### Trim, waste, release -/

/-- TRIM (R27, R41): OC_EFF + delta formed exactly and clamped; CLAMPED when the clamp changed it. -/
def State.runTrim (q : Request) (s : State) : State × Answer :=
  if s.jobActive then
    let sum := s.jbc.ocEff + q.argument.toInt
    let new := clampTrim s.jbc.table.cutOffset sum
    ({ s with jbc := { s.jbc with ocEff := new } },
      { result := if new = sum then .ok else .clamped, value := some (BitVec.ofInt 32 new) })
  else (s, .refused .state)

/-- WASTE (R28, R164): STATE in IDLE or HALT whatever it carries, RANGE for a value other than 0 or 1. -/
def State.runWaste (q : Request) (s : State) : State × Answer :=
  if !s.jobActive then (s, .refused .state)
  else if 1 < q.a6.toNat then (s, .refused .range)
  else ({ s with jbc := { s.jbc with waste := q.a6 == 1 } }, .ok (q.a6.zeroExtend 32))

/-- RELEASE_STOP, in every job state (R144, R95): refused with INPUT_ACTIVE while KNIFE_INHIBIT is asserted, else both
latches are cleared; the reply value gives the latches as they stood. -/
def State.runReleaseStop (_ : Request) (s : State) : State × Answer :=
  if s.inhibitLine then (s, .refusedWith .inputActive s.latchValue)
  else
    ({ s with jbc := { s.jbc with stopLatch := false }, ksq := { s.ksq with inhibitLatch := false } },
      .refusedWith .ok s.latchValue)

/-! ### Commands -/

/-- JOB_START (R16 to R20). -/
def execJobStart (s : State) : Host.Outcome State Fault Refusal := .next (s.startRequest .jobStart State.runJobStart)

/-- JOB_STOP (R21). -/
def execJobStop (s : State) : Host.Outcome State Fault Refusal := .next (s.startRequest .jobStop State.runJobStop)

/-- JOB_ABORT (R24). -/
def execJobAbort (s : State) : Host.Outcome State Fault Refusal := .next (s.startRequest .jobAbort State.runJobAbort)

/-- TRIM (R27). -/
def execTrim (s : State) : Host.Outcome State Fault Refusal := .next (s.startRequest .trim State.runTrim)

/-- WASTE (R28). -/
def execWaste (s : State) : Host.Outcome State Fault Refusal := .next (s.startRequest .waste State.runWaste)

/-- RELEASE_STOP (R144). -/
def execReleaseStop (s : State) : Host.Outcome State Fault Refusal :=
  .next (s.startRequest .releaseStop State.runReleaseStop)

end Sys2Proof.Machine
end

