-- ==== Sys2Proof/Machine/Reset.lean ====
section
/-! DEFINITION. Device reset and node reset (R12, R29, R59, R84, R99, R118, R135, R146, R159, R172, R173, R176). -/

namespace Sys2Proof.Machine

/-- Every block in its after-reset state, for a part whose node ID is `node`, with KNIFE_INHIBIT and the encoder levels
as sampled at the end of the reset.  The inhibit latch follows the line, without INHIBIT and without the stop latch
(R99, R146).  What is no state of a block stays: the cell last sent on RING_TX, the count of free values, the queue. -/
def State.afterReset (node : BitVec 5) (inhibit encA encB : Bool) (s : State) : State :=
  { psu := { psuAtReset with encA := encA, encB := encB }
    mru := mruAtReset
    trc := trcAtReset
    ksq := { ksqAtReset with inhibitLatch := inhibit }
    gtu := gtuAtReset
    bsq := Lanes.all lanePlanAtReset
    jbc := jbcAtReset
    rif := { rifAtReset node with ringTx := s.rif.ringTx }
    mge := mgeAtReset
    inhibitLine := inhibit
    resetHeld := false
    draws := s.draws
    pending := s.pending }

/-- A node reset (R172): begun and ended in one occurrence, sampling KNIFE_INHIBIT and the encoder levels but not the
straps. -/
def State.nodeReset (s : State) : State := s.afterReset s.rif.nodeId s.inhibitLine s.psu.encA s.psu.encB

/-- RST_N goes low, or power comes up (R176): the output lines fall, and a running pulse ends (R99). -/
def State.assertReset (s : State) : State := { s with resetHeld := true, ksq := s.ksq.endPulse }

/-- DEVICE_RESET_ASSERT (R176). -/
def execDeviceResetAssert (s : State) : Host.Outcome State Fault Refusal := .next s.assertReset

/-- DEVICE_RESET_END (R176): the rising edge of RST_N; with reset not held there is no such edge. -/
def execDeviceResetEnd (straps : BitVec 5) (inhibit a b : Bool) (s : State) : Host.Outcome State Fault Refusal :=
  .next (if s.resetHeld then s.afterReset straps inhibit a b else s)

end Sys2Proof.Machine
end

