-- ==== Sys2Proof/Machine/Ring.lean ====
section
/-! DEFINITION. The ring interface (chapter 10) and the cells the part sends (13.3): framing, routing, owned slots, and the
commands of the ring. -/

namespace Sys2Proof.Machine

/-! ### Cells the part sends (13.3) -/

/-- Two disposition codes in one byte, the lower lane in the high half (13.3). -/
def codePair (hi lo : Code) : Byte := BitVec.ofNat 4 hi.value ++ BitVec.ofNat 4 lo.value

/-- A DISPOSITION payload (13.3). -/
def Disposition.payload (d : Disposition) : Payload :=
  let e := BitVec.ofInt 16 d.regErr
  { payloadZero with
    b4 := hiByte d.rsn, b5 := loByte d.rsn
    b6 := codePair d.codes.l0 d.codes.l1, b7 := codePair d.codes.l2 d.codes.l3, b8 := codePair d.codes.l4 d.codes.l5
    b9 := bitAt 0 (d.kind == .synth) ||| bitAt 1 d.late ||| bitAt 2 d.blind
    b10 := hiByte e, b11 := loByte e }

/-- A STACK_CHANGE payload (13.3). -/
def StackChange.payload (c : StackChange) : Payload :=
  let count := BitVec.ofNat 16 c.count
  let next := c.nextTag.getD 0
  { b4 := hiByte c.rsn, b5 := loByte c.rsn
    b6 := BitVec.ofNat 8 c.lane.val ||| bitAt 3 (c.mode == .flag) ||| BitVec.ofNat 8 (16 * c.gap)
    b7 := hiByte c.tag, b8 := loByte c.tag
    b9 := hiByte count, b10 := loByte count
    b11 := hiByte next, b12 := loByte next
    b13 := loByte c.stacksDone }

/-- The type code of a record: 48h or 49h for a STACK_CHANGE, as the list has a head or was emptied (13.1). -/
def Record.kind : Record → Byte
  | .disposition _ => kindDisposition
  | .stackChange c => if c.nextTag.isSome then kindStackChangeNext else kindStackChangeEmptied

def Record.payload : Record → Payload
  | .disposition d => d.payload
  | .stackChange c => c.payload

/-- A MGMT_REPLY payload (13.3). -/
def Reply.payload (r : Reply) : Payload :=
  { payloadZero with
    b4 := r.tag, b5 := r.op, b6 := r.result.code
    b7 := byteOf r.value 3, b8 := byteOf r.value 2, b9 := byteOf r.value 1, b10 := byteOf r.value 0 }

/-- A NOTICE payload as the part stands now (R171, 13.3). -/
def State.noticePayload (s : State) : Payload :=
  { payloadZero with
    b4 := byteOf s.mge.flags 3, b5 := byteOf s.mge.flags 2, b6 := byteOf s.mge.flags 1, b7 := byteOf s.mge.flags 0
    b8 := BitVec.ofNat 8 s.jbc.job.code, b9 := BitVec.ofNat 8 s.mru.reg.code
    b10 := hiByte s.trc.nextRsn, b11 := loByte s.trc.nextRsn }

/-- A cell of the part's own, with the source node, the frame status byte and the check filled in (R154). -/
def State.ownCell (s : State) (kind dest : Byte) (p : Payload) : Cell :=
  sealCell kind (s.rif.nodeId.zeroExtend 8) dest (s.rif.frameStatus.getD 0) p

/-! ### What an owned slot carries (R154) -/

/-- The choice at an owned slot: the part after it, the cell placed, and the reply the cell carries if it is one. -/
structure Placement where
  after : State
  cell  : Cell
  reply : Option Reply
  deriving DecidableEq, Repr

/-- The oldest record, else the oldest reply, else the notice, else an IDLE cell (R154). -/
def State.placement (s : State) : Placement :=
  match s.rif.records, s.rif.replies with
  | r :: rest, _ =>
    { after := { s with rif := { s.rif with records := rest } }
      cell := s.ownCell r.kind s.rif.recordDest r.payload
      reply := none }
  | [], q :: rest =>
    { after := { s with rif := { s.rif with replies := rest } }
      cell := s.ownCell kindMgmtReply q.dest q.payload
      reply := some q }
  | [], [] =>
    if s.mge.mailbox then
      { after := { s with mge := { s.mge with mailbox := false } }
        cell := s.ownCell kindNotice s.rif.noticeDest s.noticePayload
        reply := none }
    else { after := s, cell := s.ownCell kindIdle destEveryNode payloadZero, reply := none }

/-! ### Slots (R147, R153) -/

/-- The position at which the next cell arrives: one past the slot counter, and 0 after slot N - 1 (R147). -/
def Rif.nextPosition (r : Rif) : Nat :=
  match r.slots, r.slot with
  | some n, some k => if k + 1 < n then k + 1 else 0
  | _, _ => 0

/-- The map names slot `p`; slot 0 cannot be owned, an entry of 0 being unused (R153). -/
def SlotMap.names (m : SlotMap) (p : Nat) : Bool :=
  p != 0 && (m.s0.toNat == p || m.s1.toNat == p || m.s2.toNat == p || m.s3.toNat == p)

/-- Slot `p` is an active owned slot (R151, R153). -/
def Rif.owns (r : Rif) (p : Nat) : Bool := r.active.names p && decide (p < r.slots.getD 0)

/-- What every frame start does: slot 0, the slot map copied, the status byte sampled (R147). -/
def State.beginFrame (s : State) : State :=
  { s with rif := { s.rif with slot := some 0, active := s.rif.written, frameStatus := some s.statusSummary } }

/-- The frame start of a valid header (R147, R148): N and FRAME_NO, the link timer restarted, the link UP. -/
def State.startFrame (c : Cell) (s : State) : State :=
  ({ s with rif := { s.rif with
      slots := some (headerSlots c), frameNo := headerFrameNo c, linkTimer := some 0, link := .up } }).beginFrame

/-- The cell goes out on RING_TX as received (R150). -/
def State.repeatCell (c : Cell) (s : State) : State := { s with rif := { s.rif with ringTx := some c } }

/-- A bad check is counted (R149). -/
def State.countCheck (c : Cell) (s : State) : State :=
  if checkGood c then s else { s with rif := { s.rif with crcErrors := satIncrement s.rif.crcErrors } }

/-! ### Owned slots (R151, R154) -/

/-- The reply of an accepted RESET_NODE (R172). -/
def Reply.ofReset (r : Reply) : Bool := opOf r.op == some .resetNode && r.result == .ok

/-- An active owned slot starts at position `p` (R151, R154): the arriving cell is consumed, the part's own is placed. -/
def State.startOwnedSlot (p : Nat) (arriving : Cell) (s : State) : State :=
  let q := s.placement
  { q.after with rif := { q.after.rif with
      slot := some p, sending := some { arriving := arriving, reply := q.reply }, ringTx := some q.cell } }

/-- The frame start of a valid header that arrived in an owned slot falls at the end of that slot (R151). -/
def State.frameStartIfHeader (c : Cell) (s : State) : State := if validHeader c then s.startFrame c else s

/-- The owned slot in progress ends (R151, R154, R172, log 9): the consumed cell's check is counted, a valid header begins
its frame, and the end of the slot of an accepted RESET_NODE's reply is the node reset. -/
def State.endOwnedSlot (s : State) : State :=
  match s.rif.sending with
  | none => s
  | some o =>
    let s : State := { s with rif := { s.rif with sending := none } }
    let s := (s.countCheck o.arriving).frameStartIfHeader o.arriving
    if o.reply.any Reply.ofReset then s.nodeReset else s

/-! ### Receiving cells (R147 to R150) -/

/-- The cell is addressed to every node or to the part (R150). -/
def State.addressed (s : State) (c : Cell) : Bool :=
  c.body.dest == destEveryNode || c.body.dest == s.rif.nodeId.zeroExtend 8

/-- The cell is addressed to the part, which is not listen-only (R150, R152). -/
def State.addressedAlone (s : State) (c : Cell) : Bool :=
  c.body.dest == s.rif.nodeId.zeroExtend 8 && s.rif.nodeId != 0

/-- A cell with a good check handed on by its type (R150). -/
def State.route (c : Cell) (s : State) : State :=
  if !sourceIsNode c then s
  else if c.kind = kindVerdict then if s.addressed c then s.takeVerdict c.body.source c.body.payload else s
  else if c.kind = kindHeartbeat then if s.addressed c then s.takeHeartbeat c.body.source c.body.payload else s
  else if c.kind = kindStackerStatus then if s.addressed c then s.takeStackerStatus c.body.source c.body.payload else s
  else if c.kind = kindMgmtRequest then if s.addressedAlone c then s.enqueueRequest (requestOf c.body) else s
  else s

/-- A cell that is no valid header, in a slot `p` the part does not own, with the link UP: repeated; its check counted;
position 0 begins a frame (an invalid header, R147), another advances the slot counter; and a good cell is handed on
(R150, log 10). -/
def State.passCell (p : Nat) (c : Cell) (s : State) : State :=
  let s := (s.repeatCell c).countCheck c
  let s := if p = 0 then s.beginFrame else { s with rif := { s.rif with slot := some p } }
  if checkGood c then s.route c else s

/-- A cell arrives with no owned slot in progress (R147 to R151).  While the link is DOWN only a valid header is taken, and
the slot counter stands (R148, log 26). -/
def State.takeCell (c : Cell) (s : State) : State :=
  match s.rif.link with
  | .down => if validHeader c then (s.repeatCell c).startFrame c else (s.repeatCell c).countCheck c
  | .up =>
    if s.rif.owns s.rif.nextPosition then s.startOwnedSlot s.rif.nextPosition c
    else if validHeader c then (s.repeatCell c).startFrame c
    else s.passCell s.rif.nextPosition c

/-- A cell arrives on RING_RX.  Its arrival ends an owned slot still in progress (log 9).  While reset is held the part
only repeats it (R159, R176). -/
def State.receive (c : Cell) (s : State) : State :=
  if s.resetHeld then s.repeatCell c else s.endOwnedSlot.takeCell c

/-- The link timer expires (R148). -/
def State.linkExpiry (s : State) : State :=
  match s.rif.link with
  | .down => { s with rif := { s.rif with linkTimer := none } }
  | .up => ({ s with rif := { s.rif with linkTimer := none, link := .down } }).setEvent .linkDown

/-! ### Commands

A cell is taken for what its bytes and its position make it, whichever row brings it (log 8). -/

/-- FRAME_HEADER (R147, R148). -/
def execFrameHeader (b : CellBody) (s : State) : Host.Outcome State Fault Refusal := .next (s.receive ⟨kindFrameHeader, b⟩)

/-- INVALID_HEADER (R147). -/
def execInvalidHeader (c : Cell) (s : State) : Host.Outcome State Fault Refusal := .next (s.receive c)

/-- BAD_CHECK_CELL (R149). -/
def execBadCheckCell (c : Cell) (s : State) : Host.Outcome State Fault Refusal := .next (s.receive c)

/-- VERDICT (R69, R150). -/
def execVerdict (b : CellBody) (s : State) : Host.Outcome State Fault Refusal := .next (s.receive ⟨kindVerdict, b⟩)

/-- HEARTBEAT (R137, R150). -/
def execHeartbeat (b : CellBody) (s : State) : Host.Outcome State Fault Refusal := .next (s.receive ⟨kindHeartbeat, b⟩)

/-- STACKER_STATUS (R130, R150). -/
def execStackerStatus (b : CellBody) (s : State) : Host.Outcome State Fault Refusal :=
  .next (s.receive ⟨kindStackerStatus, b⟩)

/-- MGMT_REQUEST (R150, R160). -/
def execMgmtRequest (b : CellBody) (s : State) : Host.Outcome State Fault Refusal := .next (s.receive ⟨kindMgmtRequest, b⟩)

/-- CELL_REPEATED (R150). -/
def execCellRepeated (c : Cell) (s : State) : Host.Outcome State Fault Refusal := .next (s.receive c)

/-- OWNED_SLOT_START (R151, R154). -/
def execOwnedSlotStart (arriving : Cell) (s : State) : Host.Outcome State Fault Refusal := .next (s.receive arriving)

/-- SLOT_END (R151, R154, R172). -/
def execSlotEnd (s : State) : Host.Outcome State Fault Refusal := .next (if s.resetHeld then s else s.endOwnedSlot)

/-- The last valid header lies 2 ms back (R148). -/
def Rif.linkRunOut (r : Rif) : Bool := r.linkTimer.any fun age => decide (linkTimeout ≤ age)

/-- LINK_TIMER_EXPIRY (R148).  A timer that has expired or has time left does not expire (log 3). -/
def execLinkTimerExpiry (s : State) : Host.Outcome State Fault Refusal :=
  .next (if s.resetHeld || !s.rif.linkRunOut then s else s.linkExpiry)

end Sys2Proof.Machine
end

