-- ==== Sys2Proof/Machine/Registration.lean ====
section
/-! DEFINITION. The mark registration unit (chapter 4): marks, misses, and its crossing at an advance of HW.  Where an entry
may be created, `now` says whether its offer for cutting is taken with the creation (R61 step 9; R65, log 29). -/

namespace Sys2Proof.Machine

/-- The registration state in which an entry is judged good (R51, R52). -/
def regFlagOf (good : Bool) : RegFlag := if good then .ok else .fault

/-- A stray (R45): STRAY_MARKS alone changes. -/
def State.strayMark (s : State) : State :=
  { s with mru := { s.mru with strayMarks := satIncrement s.mru.strayMarks } }

/-- MRU's own part of an acceptance in SEARCH (R47 steps 2 to 5). -/
def Mru.searchAccepted (q : Quantities) (c : Position) (tail : Bool) (m : Mru) : Mru :=
  let m := Mru.anchor q c { m with lastRegErr := 0, lastMark := some c, missRun := 0, run := 0 }
  if tail then m else { m with reg := .capture, watch := true }

/-- MRU accepts a mark in SEARCH at `c` (R47).  When the tail-pending flag is set the entry is the tail, and MRU stays
in the IDLE that its creation brought (R56). -/
def State.acceptInSearch (now : Bool) (c : Position) (s : State) : State :=
  let tail := s.jbc.tailPending
  let s := s.createEntry now { kind := .seen, mark := c, regErr := some 0, regFlag := .fault }
  { s with mru := s.mru.searchAccepted s.quantities c tail }

/-- The lock count of R50: in CAPTURE the in-window run rises, and LOCKED is reached at LOCK_COUNT. -/
def Mru.countTowardsLock (lockCount : Nat) (m : Mru) : Mru :=
  if m.reg = .capture then
    { m with run := m.run + 1, reg := if lockCount ≤ m.run + 1 then .locked else .capture }
  else m

/-- MRU's own part of an acceptance in a window (R49 steps 5 to 7). -/
def Mru.windowAccepted (q : Quantities) (c : Position) (regErr : Int) (tail : Bool) (m : Mru) : Mru :=
  let m := { m with lastRegErr := regErr, lastMark := some c, missRun := 0 }
  if tail then m else { Mru.anchor q c m with watch := true }

/-- MRU accepts a mark in CAPTURE or LOCKED at `c` with window `win` (R49). -/
def State.acceptInWindow (now : Bool) (win : MarkWindow) (c : Position) (s : State) : State :=
  let regErr := distance win.centre c
  let tail := s.jbc.tailPending
  let m := s.mru.countTowardsLock s.jbc.table.lockCount
  let gained := s.mru.reg == .capture && m.reg == .locked
  let s := ({ s with mru := m }).setEventIf gained .lockGained
  let good := m.reg == .locked && decide (regErr.natAbs ≤ s.quantities.tol)
  let s := s.createEntry now { kind := .seen, mark := c, regErr := some regErr, regFlag := regFlagOf good }
  { s with mru := s.mru.windowAccepted s.quantities c regErr tail }

/-- The spacing test of SEARCH (R46): no last mark, or at least rep_counts - w beyond it. -/
def State.spacingPasses (c : Position) (s : State) : Bool :=
  match s.mru.lastMark with
  | none => true
  | some m => decide ((s.quantities.repCounts : Int) - s.quantities.w ≤ distance m c)

/-- A mark in CAPTURE or LOCKED: behind the window's opening a stray, at the opening or beyond it accepted (R48). -/
def State.markAgainstWindow (now : Bool) (c : Position) (s : State) : State :=
  match s.mru.window with
  | none => s.strayMark
  | some win => if isBehind c win.opening then s.strayMark else s.acceptInWindow now win c

/-- MRU takes a mark at `c` that is not a replay (R44). -/
def State.takeMark (now : Bool) (c : Position) (s : State) : State :=
  match s.mru.reg with
  | .idle => s
  | .search => if s.spacingPasses c then s.acceptInSearch now c else s.strayMark
  | .capture => s.markAgainstWindow now c
  | .locked => s.markAgainstWindow now c

/-- MISS_RUN, as incremented by a miss, has reached MISS_LIMIT (R52 step 9). -/
def State.missReachesLimit (s : State) : Bool := s.mru.missRun + 1 == s.jbc.table.missLimit

/-- The entry of a miss is judged OK: LOCKED, and MISS_RUN as incremented below MISS_LIMIT (R52 step 4). -/
def State.missIsGood (s : State) : Bool :=
  s.mru.reg == .locked && decide (s.mru.missRun + 1 < s.jbc.table.missLimit)

/-- R52 steps 2 and 3. -/
def Mru.countMiss (m : Mru) : Mru :=
  { m with missRun := m.missRun + 1, run := if m.reg = .capture then 0 else m.run }

/-- R52 steps 6, 7 and 9 with R53: E advanced and the new window end armed; at the limit the watch is disarmed and
SEARCH entered.  For the tail steps 7 and 9 do not apply (R56). -/
def Mru.afterMiss (q : Quantities) (centre : Position) (tail atLimit : Bool) (m : Mru) : Mru :=
  let m := { m with lastMark := some centre }
  if tail then m
  else
    let m := Mru.stepE q m
    if atLimit then { m with reg := .search, watch := false } else { m with watch := true }

/-- MRU takes a miss of window `win` (R52, R53). -/
def State.takeMiss (now : Bool) (win : MarkWindow) (s : State) : State :=
  let tail := s.jbc.tailPending
  let atLimit := s.missReachesLimit
  let lost := atLimit && s.mru.reg == .locked
  let flag := regFlagOf s.missIsGood
  let s := ({ s with mru := s.mru.countMiss }).createEntry now
    { kind := .synth, mark := win.centre, regErr := none, regFlag := flag }
  let s := { s with mru := s.mru.afterMiss s.quantities win.centre tail atLimit }
  (s.setEvent .markMiss).setEventIf lost .lockLost

/-- How far beyond the last mark HW may run in SEARCH before the mark is forgotten (R46). -/
def lastMarkReach : Int := 2147483647

/-- In SEARCH, HW at 2^31 - 1 counts beyond the last mark forgets it (R46). -/
def State.forgetLastMark (s : State) : State :=
  match s.mru.reg, s.mru.lastMark with
  | .search, some m => if distance m s.psu.hw = lastMarkReach then { s with mru := { s.mru with lastMark := none } } else s
  | _, _ => s

/-- MRU's crossing at an advance of HW: the miss at the armed window end (R4, R52), and the forgetting of R46. -/
def State.registrationCrossing (now : Bool) (s : State) : State :=
  let s := s.forgetLastMark
  match s.mru.window with
  | none => s
  | some win => if s.mru.watch && s.psu.hw == win.ending then s.takeMiss now win else s

end Sys2Proof.Machine
end

