-- ==== Sys2Proof/Machine/Web.lean ====
section
/-! DEFINITION. The position unit (chapter 1): counts, crossings, reverse excursions, speed windows, and its commands. -/

namespace Sys2Proof.Machine

/-- What a change of the encoder levels is (R1). -/
inductive Transition where
  | none
  | forward
  | reverse
  | illegal
  deriving DecidableEq, Repr

/-- The table of R1: previous (A, B), new (A, B). -/
def decodeTransition (a b a' b' : Bool) : Transition :=
  match a, b, a', b' with
  | false, false, true, false => .forward
  | false, false, true, true => .illegal
  | false, false, false, true => .reverse
  | false, false, false, false => .none
  | true, false, true, false => .none
  | true, false, true, true => .forward
  | true, false, false, true => .illegal
  | true, false, false, false => .reverse
  | true, true, true, false => .reverse
  | true, true, true, true => .none
  | true, true, false, true => .forward
  | true, true, false, false => .illegal
  | false, true, true, false => .illegal
  | false, true, true, true => .reverse
  | false, true, false, true => .none
  | false, true, false, false => .forward

/-- The excursion depth HW - WPOS (R3). -/
def Psu.depth (p : Psu) : Nat := (p.hw - p.wpos).toNat

/-- The greatest excursion depth (R3). -/
def depthLimit : Nat := 2147483647

/-- A forward count (R1, R3, R6): both positions advance when WPOS equals HW, WPOS alone otherwise; coming back to HW
ends the excursion and clears the reported flag. -/
def Psu.forward (p : Psu) : Psu :=
  let p := { p with windowCount := p.windowCount + 1 }
  if p.wpos = p.hw then { p with wpos := p.wpos + 1, hw := p.hw + 1 }
  else if p.wpos + 1 = p.hw then { p with wpos := p.wpos + 1, reported := false }
  else { p with wpos := p.wpos + 1 }

/-- A reverse count (R1, R3): WPOS goes back; HW goes with it only at the depth limit. -/
def Psu.reverse (p : Psu) : Psu :=
  { p with windowCount := p.windowCount - 1, wpos := p.wpos - 1,
           hw := if p.depth = depthLimit then p.hw - 1 else p.hw }

/-- An illegal transition (R2): ENC_FAULTS alone changes. -/
def Psu.illegal (p : Psu) : Psu := { p with encFaults := satIncrement p.encFaults }

/-! ### Marks and speed windows -/

/-- A rising edge of MARK (R5): the mark is at WPOS, and a replay, WPOS behind HW, is ignored. -/
def State.markEdge (now : Bool) (s : State) : State :=
  if s.psu.wpos = s.psu.hw then s.takeMark now s.psu.wpos else s

/-- A speed window of the length SPEED_WINDOW now selects begins, its count 0 (R8, R10). -/
def State.beginWindow (s : State) : State :=
  { s with psu := { s.psu with windowCount := 0, windowMs := windowMsOf s.jbc.table.speedWindow, windowAge := 0 } }

/-- The speed window in progress has run its length (R8). -/
def Psu.windowRunOut (p : Psu) : Bool := decide (p.windowMs * clockPerMs ≤ p.windowAge)

/-- The window in progress expires (R8): SPD from its count, SPD_VALID, the next window; then the window end goes to KSQ
(R9, R87). -/
def State.windowExpiry (s : State) : State :=
  let s := { s with psu := { s.psu with spd := speedOf s.psu.windowCount s.psu.windowMs, spdValid := true } }
  s.beginWindow.recomputeFire

/-- The end of a speed window: a window that has not run its length does not end (R8, log 3). -/
def State.windowEnd (s : State) : State := if s.psu.windowRunOut then s.windowExpiry else s

/-! ### Crossings, and what meets them (R4, R54, R87; log 4) -/

/-- The three blocks that watch HW (R4). -/
inductive Block where
  | mru
  | ksq
  | trc
  deriving DecidableEq, Repr

/-- A block takes its own crossing at an advance of HW (R4).  It looks at its armed point when its turn comes. -/
def State.cross (now : Bool) (b : Block) (s : State) : State :=
  match b with
  | .mru => s.registrationCrossing now
  | .ksq => s.fireCrossing
  | .trc => s.decisionCrossing

/-- The first, the second and the third block of an order. -/
def blocksOf (o : CrossingOrder) : Block × Block × Block :=
  match o with
  | .mruKsqTrc => (.mru, .ksq, .trc)
  | .mruTrcKsq => (.mru, .trc, .ksq)
  | .ksqMruTrc => (.ksq, .mru, .trc)
  | .ksqTrcMru => (.ksq, .trc, .mru)
  | .trcMruKsq => (.trc, .mru, .ksq)
  | .trcKsqMru => (.trc, .ksq, .mru)

/-- A mark or a window end that falls together with a count is taken (R54, R87). -/
def State.meetOne (now : Bool) (s : State) (m : Meeting) : State :=
  match m with
  | .mark => s.markEdge now
  | .windowEnd => s.windowEnd

/-- What falls together with a count, taken one after another. -/
def State.meet (now : Bool) (ms : List Meeting) (s : State) : State := ms.foldl (State.meetOne now) s

/-- The crossings in the order given, and before each of them what the operand says is taken there. -/
def State.takeTurns (now : Bool) (o : Turns) (s : State) : State :=
  let (x, y, z) := blocksOf o.order
  (((((s.meet now o.first).cross now x).meet now o.second).cross now y).meet now o.third).cross now z

/-- The offer of the entries created since NEXT_RSN was `before`, if any were (R61 step 9, R85). -/
def State.offerCreated (before : Rsn) (s : State) : State := if s.trc.nextRsn = before then s else s.offerForCutting

/-- One advance of HW (R4, R39, R54, R87).  DESIGN CHOICE: every turn is an operand of the command (log 4).  Where a decision
is due at this advance, an entry created before it is its successor with CUT PENDING (R65): what is created at the advance
is offered for cutting, and its fire taken if HW has reached its F (R86), after the turns (log 29). -/
def State.crossings (o : Turns) (s : State) : State :=
  if s.decisionDue then (s.takeTurns false o).offerCreated s.trc.nextRsn else s.takeTurns true o

/-- What falls together with a count that does not advance HW: there is no crossing to take it before or after. -/
def State.meetAll (o : Turns) (s : State) : State := ((s.meet true o.first).meet true o.second).meet true o.third

/-- The part takes a forward count (R3, R4): HW advances when WPOS stood at it. -/
def State.forwardCount (o : Turns) (s : State) : State :=
  let t := { s with psu := s.psu.forward }
  if s.psu.wpos = s.psu.hw then t.crossings o else t.meetAll o

/-- The reverse excursion test of R6: in RUN or DRAIN, the depth is greater than rev and has not been reported. -/
def State.excursionLost (s : State) : Bool :=
  s.jobActive && decide (s.quantities.rev < s.psu.depth) && !s.psu.reported

/-- The part takes a reverse count (R3, R6). -/
def State.reverseCount (s : State) : State :=
  let s := { s with psu := s.psu.reverse }
  if s.excursionLost then ({ s with psu := { s.psu with reported := true } }).loseTracking else s

/-- The new pair becomes the decoder state (R1). -/
def Psu.observe (a b : Bool) (p : Psu) : Psu := { p with encA := a, encB := b }

/-- A change of the encoder lines to (a, b) (R1, R2), with what falls together with it. -/
def State.encoderChange (a b : Bool) (o : Turns) (s : State) : State :=
  let kind := decodeTransition s.psu.encA s.psu.encB a b
  let s := { s with psu := s.psu.observe a b }
  match kind with
  | .none => s.meetAll o
  | .forward => s.forwardCount o
  | .reverse => s.reverseCount.meetAll o
  | .illegal => (({ s with psu := s.psu.illegal }).setEvent .encFault).meetAll o

/-! ### Commands -/

/-- ENCODER_TRANSITION (R1, R2, R3, R4, R6; R54 and R87 for what meets it).  A change while reset is held is not taken
(R176). -/
def execEncoderTransition (a b : Bool) (o : Turns) (s : State) : Host.Outcome State Fault Refusal :=
  .next (if s.resetHeld then s else s.encoderChange a b o)

/-- MARK_EDGE (R5, R44).  An edge while reset is held is not taken (R176). -/
def execMarkEdge (s : State) : Host.Outcome State Fault Refusal :=
  .next (if s.resetHeld then s else s.markEdge true)

/-- SPEED_WINDOW_EXPIRY (R8, R9, R87).  A window that has not run its length does not expire (log 3). -/
def execSpeedWindowExpiry (s : State) : Host.Outcome State Fault Refusal :=
  .next (if s.resetHeld then s else s.windowEnd)

end Sys2Proof.Machine
end

