-- ==== Sys2Proof/Machine/Writes.lean ====
section
/-! DEFINITION. WRITE requests by table (R13, R115, R123, R153, R158, R169) and APPEND_BATCH (R120). -/

namespace Sys2Proof.Machine

/-! ### JOB table (R13) -/

/-- A WRITE value as the field reads it: signed for CUT_OFFSET, unsigned for every other field (R13, R175). -/
def JobField.valueOf (f : JobField) (v : BitVec 32) : Int := if f = .cutOffset then v.toInt else v.toNat

/-- A WRITE to a job table field other than SPEED_WINDOW (R13): STATE outside IDLE whatever the value, RANGE for a value
out of range, else stored. -/
def State.writeJob (f : JobField) (v : BitVec 32) (s : State) : State × Answer :=
  if s.jbc.job ≠ .idle then (s, .refused .state)
  else if f.inRange (f.valueOf v) then
    ({ s with jbc := { s.jbc with table := s.jbc.table.set (f.valueOf v) f } }, .ok v)
  else (s, .refused .range)

/-- A WRITE to SPEED_WINDOW, in every job state (R10, R13): stored, and a new window of the written length begins. -/
def State.runSpeedWindowWrite (q : Request) (s : State) : State × Answer :=
  if JobField.speedWindow.inRange q.value.toNat then
    (({ s with jbc := { s.jbc with table := s.jbc.table.set q.value.toNat .speedWindow } }).beginWindow, .ok q.value)
  else (s, .refused .range)

/-! ### LANE table (R115, R116, R131, R133) -/

/-- GTU with lane `i`'s row changed. -/
def State.setRow (s : State) (i : Lane) (r : LaneRow) : State :=
  { s with gtu := { s.gtu with table := s.gtu.table.set i r } }

/-- A WRITE to ENABLE (field 0) or NI_POLICY (field 1), in every job state (R115). -/
def State.writeLane (i : Lane) (field : Nat) (v : BitVec 32) (s : State) : State × Answer :=
  let row := s.gtu.table.get i
  if 1 < v.toNat then (s, .refused .range)
  else if field = 0 then (s.setRow i { row with enable := v == 1 }, .ok v)
  else (s.setRow i { row with niPolicy := if v = 1 then .reject else .accept }, .ok v)

/-- BSQ discards the stacker status held for lane `i` (R133). -/
def State.discardStatus (i : Lane) (s : State) : State := s.setPlan i (s.bsq.get i).discardStatus

/-- A WRITE to a lane's STACKER_NODE (R115, R116, R133): a value that differs discards the lane's status. -/
def State.runStackerNodeWrite (q : Request) (s : State) : State × Answer :=
  let i := laneOf q.row
  let row := s.gtu.table.get i
  if 31 < q.value.toNat then (s, .refused .range)
  else
    let t := s.setRow i { row with stackerNode := q.value.setWidth 5 }
    (if row.stackerNode.toNat = q.value.toNat then t else t.discardStatus i, .ok q.value)

/-- A WRITE to a lane's POCKET (R115, R116, R133). -/
def State.runPocketWrite (q : Request) (s : State) : State × Answer :=
  let i := laneOf q.row
  let row := s.gtu.table.get i
  if 7 < q.value.toNat then (s, .refused .range)
  else
    let t := s.setRow i { row with pocket := Fin.ofNat 8 q.value.toNat }
    (if row.pocket.val = q.value.toNat then t else t.discardStatus i, .ok q.value)

/-- The lane's renewal lies further in the past than `limitMs` (R131). -/
def LanePlan.olderThan (limitMs : Nat) (p : LanePlan) : Bool :=
  match p.statusAge with
  | none => false
  | some age => decide (limitMs * clockPerMs < age)

/-- A WRITE to a lane's STATUS_AGE_LIMIT (R115, R131, R132): a lane whose renewal is older than the new limit lapses. -/
def State.runStatusAgeLimitWrite (q : Request) (s : State) : State × Answer :=
  let i := laneOf q.row
  let row := s.gtu.table.get i
  if q.value.toNat < 1 ∨ 255 < q.value.toNat then (s, .refused .range)
  else
    let t := s.setRow i { row with ageLimit := q.value.toNat }
    (if (s.bsq.get i).olderThan q.value.toNat then t.lapse i else t, .ok q.value)

/-! ### BATCH table (R123) -/

/-- A value lies within a batch field's range (R119). -/
def batchInRange (field v : Nat) : Bool :=
  match field with
  | 0 => decide (1 ≤ v) && decide (v ≤ 65535)
  | 1 => decide (v ≤ 1)
  | 2 => decide (v ≤ 15)
  | 3 => decide (v ≤ 65535)
  | _ => decide (v ≤ 1)

/-- A batch entry with one field holding `v` (R123). -/
def Batch.write (b : Batch) (field v : Nat) : Batch :=
  match field with
  | 0 => { b with target := v }
  | 1 => { b with mode := if v = 1 then .flag else .gap }
  | 2 => { b with gap := v }
  | 3 => { b with tag := BitVec.ofNat 16 v }
  | _ => { b with loop := v == 1 }

/-- A WRITE to the batch table (R123): STATE outside IDLE; ADDRESS at or beyond the list's length; RANGE for a value out
of range, or a TARGET of slot 0 not greater than BATCH_COUNT; else stored in place.  R123 states ADDRESS and RANGE each
without a precedence: a WRITE in IDLE to such a slot with such a value is answered ADDRESS (DESIGN CHOICE, log 27). -/
def State.writeBatch (row field v : Nat) (s : State) : State × Answer :=
  let i := laneOf (row / 16)
  let slot := row % 16
  let plan := s.bsq.get i
  if s.jbc.job ≠ .idle then (s, .refused .state)
  else match plan.batches[slot]? with
    | none => (s, .refused .address)
    | some b =>
      if !batchInRange field v || (field == 0 && slot == 0 && decide (v ≤ plan.count)) then (s, .refused .range)
      else (s.setPlan i { plan with batches := plan.batches.set slot (b.write field v) }, .ok (BitVec.ofNat 32 v))

/-! ### RING table (R153, R158) -/

/-- A ring destination: a node 0 to 31, or FFh (10.6). -/
def destInRange (v : Nat) : Bool := decide (v ≤ 31) || v == 255

/-- A WRITE to MANAGER_NODE, RECORD_DEST or NOTICE_DEST (fields 5, 6, 7), in every job state (R158). -/
def State.writeRing (field : Nat) (v : BitVec 32) (s : State) : State × Answer :=
  match field with
  | 5 =>
    if v.toNat ≤ 31 then ({ s with rif := { s.rif with managerNode := v.setWidth 5 } }, .ok v)
    else (s, .refused .range)
  | 6 =>
    if destInRange v.toNat then ({ s with rif := { s.rif with recordDest := v.setWidth 8 } }, .ok v)
    else (s, .refused .range)
  | _ =>
    if destInRange v.toNat then ({ s with rif := { s.rif with noticeDest := v.setWidth 8 } }, .ok v)
    else (s, .refused .range)

/-- The slot map with entry SLOT_(field - 1) holding `v` (10.6). -/
def SlotMap.set (m : SlotMap) (field : Nat) (v : BitVec 5) : SlotMap :=
  match field with
  | 1 => { m with s0 := v }
  | 2 => { m with s1 := v }
  | 3 => { m with s2 := v }
  | _ => { m with s3 := v }

/-- No slot is named (R153). -/
def SlotMap.empty (m : SlotMap) : Bool := m.s0 == 0 && m.s1 == 0 && m.s2 == 0 && m.s3 == 0

/-- A WRITE to SLOT_0 to SLOT_3, in every job state (R153): RANGE above 31, or when all four entries would be 0; else
stored in the written map. -/
def State.runSlotMapWrite (q : Request) (s : State) : State × Answer :=
  let m := s.rif.written.set q.field (q.value.setWidth 5)
  if 31 < q.value.toNat ∨ m.empty then (s, .refused .range)
  else ({ s with rif := { s.rif with written := m } }, .ok q.value)

/-! ### EVENT table (R169) -/

/-- A WRITE to MASK, in every job state (R169): stored when every set position names a flag, else RANGE. -/
def State.runMaskWrite (q : Request) (s : State) : State × Answer :=
  if q.value &&& ~~~flagPositions = 0 then ({ s with mge := { s.mge with mask := q.value } }, .ok q.value)
  else (s, .refused .range)

/-! ### WRITE -/

/-- A WRITE to a field with no row of its own, handed to the block that owns its table (R163).  The last arm is reached by
no request that passes R162: every other table is read-only. -/
def State.runWrite (q : Request) (s : State) : State × Answer :=
  match q.table with
  | 0 =>
    match jobFields[q.field]? with
    | some f => s.writeJob f q.value
    | none => (s, .refused .address)
  | 1 => s.writeLane (laneOf q.row) q.field q.value
  | 2 => s.writeBatch q.row q.field q.value.toNat
  | 6 => s.writeRing q.field q.value
  | _ => (s, .refused .address)

/-! ### APPEND_BATCH (R120, R121) -/

/-- The six arguments of an APPEND_BATCH in number order (13.2, R120). -/
structure AppendArgs where
  lane   : Nat
  target : Nat
  tag    : Nat
  mode   : Nat
  gap    : Nat
  loop   : Nat
  deriving DecidableEq, Repr

/-- Bytes 6 to 13 of an APPEND_BATCH (13.2). -/
def Request.appendArgs (q : Request) : AppendArgs :=
  { lane := q.a6.toNat, target := (word16 q.a7 q.a8).toNat, tag := (word16 q.a9 q.a10).toNat, mode := q.a11.toNat,
    gap := q.a12.toNat, loop := q.a13.toNat }

/-- The number of the first argument out of range (R120, R175); every tag its field can carry is in range. -/
def AppendArgs.firstOutOfRange (a : AppendArgs) : Option Nat :=
  if 5 < a.lane then some 0
  else if a.target < 1 ∨ 65535 < a.target then some 1
  else if 65535 < a.tag then some 2
  else if 1 < a.mode then some 3
  else if 15 < a.gap then some 4
  else if 1 < a.loop then some 5
  else none

/-- The batch that in-range arguments describe (R119). -/
def AppendArgs.batch (a : AppendArgs) : Batch :=
  { target := a.target, mode := if a.mode = 1 then .flag else .gap, gap := a.gap, tag := BitVec.ofNat 16 a.tag,
    loop := a.loop == 1 }

/-- APPEND_BATCH, in every job state (R120): RANGE with the argument's number, FULL with 16, else the batch joins the
lane's list at the tail and the reply carries the list's length.  On an empty list it becomes the head, BATCH_COUNT being
0 there (R119, R121). -/
def State.runAppendBatch (q : Request) (s : State) : State × Answer :=
  let a := q.appendArgs
  match a.firstOutOfRange with
  | some k => (s, .refusedWith .range k)
  | none =>
    let i := laneOf a.lane
    let plan := s.bsq.get i
    if batchListSize ≤ plan.batches.length then (s, .refusedWith .full 16)
    else (s.setPlan i { plan with batches := plan.batches ++ [a.batch] }, .ok (BitVec.ofNat 32 (plan.batches.length + 1)))

/-! ### Commands -/

/-- WRITE (R163). -/
def execWrite (s : State) : Host.Outcome State Fault Refusal := .next (s.startRequest .write State.runWrite)

/-- SPEED_WINDOW_WRITE (R10, R13). -/
def execSpeedWindowWrite (s : State) : Host.Outcome State Fault Refusal :=
  .next (s.startRequest .speedWindowWrite State.runSpeedWindowWrite)

/-- STACKER_NODE_WRITE (R133). -/
def execStackerNodeWrite (s : State) : Host.Outcome State Fault Refusal :=
  .next (s.startRequest .stackerNodeWrite State.runStackerNodeWrite)

/-- POCKET_WRITE (R133). -/
def execPocketWrite (s : State) : Host.Outcome State Fault Refusal :=
  .next (s.startRequest .pocketWrite State.runPocketWrite)

/-- STATUS_AGE_LIMIT_WRITE (R131). -/
def execStatusAgeLimitWrite (s : State) : Host.Outcome State Fault Refusal :=
  .next (s.startRequest .statusAgeLimitWrite State.runStatusAgeLimitWrite)

/-- MASK_WRITE (R169). -/
def execMaskWrite (s : State) : Host.Outcome State Fault Refusal := .next (s.startRequest .maskWrite State.runMaskWrite)

/-- SLOT_MAP_WRITE (R153). -/
def execSlotMapWrite (s : State) : Host.Outcome State Fault Refusal :=
  .next (s.startRequest .slotMapWrite State.runSlotMapWrite)

/-- APPEND_BATCH (R120). -/
def execAppendBatch (s : State) : Host.Outcome State Fault Refusal :=
  .next (s.startRequest .appendBatch State.runAppendBatch)

end Sys2Proof.Machine
end

