-- ==== Sys2Proof/Machine/Dispatch.lean ====
section
/-! DEFINITION. The meaning of every command: one arm per row of spec/opcode_table.json. -/

namespace Sys2Proof.Machine

def exec (i : Instr) (s : State) : Host.Outcome State Fault Refusal :=
  match i with
  | .encoderTransition a b o => Sys2Proof.Machine.execEncoderTransition a b o s
  | .markEdge => Sys2Proof.Machine.execMarkEdge s
  | .speedWindowExpiry => Sys2Proof.Machine.execSpeedWindowExpiry s
  | .knifeInhibitAsserted => Sys2Proof.Machine.execKnifeInhibitAsserted s
  | .pulseTimerExpiry => Sys2Proof.Machine.execPulseTimerExpiry s
  | .recoveryTimerExpiry => Sys2Proof.Machine.execRecoveryTimerExpiry s
  | .heartbeatTimerExpiry => Sys2Proof.Machine.execHeartbeatTimerExpiry s
  | .statusTimerExpiry lane => Sys2Proof.Machine.execStatusTimerExpiry lane s
  | .linkTimerExpiry => Sys2Proof.Machine.execLinkTimerExpiry s
  | .frameHeader b => Sys2Proof.Machine.execFrameHeader b s
  | .invalidHeader c => Sys2Proof.Machine.execInvalidHeader c s
  | .badCheckCell c => Sys2Proof.Machine.execBadCheckCell c s
  | .verdict b => Sys2Proof.Machine.execVerdict b s
  | .heartbeat b => Sys2Proof.Machine.execHeartbeat b s
  | .stackerStatus b => Sys2Proof.Machine.execStackerStatus b s
  | .mgmtRequest b => Sys2Proof.Machine.execMgmtRequest b s
  | .cellRepeated c => Sys2Proof.Machine.execCellRepeated c s
  | .ownedSlotStart c => Sys2Proof.Machine.execOwnedSlotStart c s
  | .slotEnd => Sys2Proof.Machine.execSlotEnd s
  | .read => Sys2Proof.Machine.execRead s
  | .write => Sys2Proof.Machine.execWrite s
  | .speedWindowWrite => Sys2Proof.Machine.execSpeedWindowWrite s
  | .stackerNodeWrite => Sys2Proof.Machine.execStackerNodeWrite s
  | .pocketWrite => Sys2Proof.Machine.execPocketWrite s
  | .statusAgeLimitWrite => Sys2Proof.Machine.execStatusAgeLimitWrite s
  | .maskWrite => Sys2Proof.Machine.execMaskWrite s
  | .slotMapWrite => Sys2Proof.Machine.execSlotMapWrite s
  | .appendBatch => Sys2Proof.Machine.execAppendBatch s
  | .jobStart => Sys2Proof.Machine.execJobStart s
  | .jobStop => Sys2Proof.Machine.execJobStop s
  | .jobAbort => Sys2Proof.Machine.execJobAbort s
  | .trim => Sys2Proof.Machine.execTrim s
  | .waste => Sys2Proof.Machine.execWaste s
  | .snapshot => Sys2Proof.Machine.execSnapshot s
  | .clearEvents => Sys2Proof.Machine.execClearEvents s
  | .releaseStop => Sys2Proof.Machine.execReleaseStop s
  | .resetNode => Sys2Proof.Machine.execResetNode s
  | .badOp => Sys2Proof.Machine.execBadOp s
  | .deviceResetAssert => Sys2Proof.Machine.execDeviceResetAssert s
  | .deviceResetEnd p k a b => Sys2Proof.Machine.execDeviceResetEnd p k a b s
  | .knifeInhibitReleased => Sys2Proof.Machine.execKnifeInhibitReleased s

end Sys2Proof.Machine
end

