-- ==== Sys2Proof/Safety.lean ====
section
/-! DEFINITION. What the statements are written in: when a request starts and how it is answered, when a cell passes, what
one count of the web reaches, and the invariants that every step keeps. -/

namespace Sys2Proof.Machine

/-! ### Requests (R161, R162) -/

/-- The head request `q` of the queue `q :: rest` can start: a queued request, room in the reply queue, no reset pending,
and reset not held (R161). -/
abbrev State.Starts (s : State) (q : Request) (rest : List Request) : Prop :=
  s.resetHeld = false ∧ s.mge.requests = q :: rest ∧ s.rif.replies.length < 8 ∧ s.mge.resetPending = false

/-- The request passes the ACCESS check of R162 for an op other than READ and SNAPSHOT. -/
abbrev State.MayCommand (s : State) (q : Request) : Prop :=
  s.rif.managerNode = 0 ∨ q.source.toNat = s.rif.managerNode.toNat

/-- The reply to `q` with a result and a value (11.1). -/
def Request.reply (q : Request) (r : Result) (v : BitVec 32) : Reply :=
  { dest := q.source, tag := q.tag, op := q.op, result := r, value := v }

/-- The head request is gone and its reply stands at the end of the reply queue; nothing else differs (R161). -/
def State.answered (s : State) (rest : List Request) (r : Reply) : State :=
  { s with mge := { s.mge with requests := rest }, rif := { s.rif with replies := s.rif.replies ++ [r] } }

/-- Answered with a value that no rule states: the model's counter of free values has advanced (log 6). -/
def State.answeredFree (s : State) (rest : List Request) (r : Reply) : State :=
  { s.answered rest r with draws := s.draws + 1 }

/-- `o` is the refusal of `q` with result `r` and some value, nothing else changed. -/
abbrev RefusedFreely (s : State) (q : Request) (rest : List Request) (r : Result)
    (o : Host.Outcome State Fault Refusal) : Prop :=
  ∃ v, o = .next (s.answeredFree rest (q.reply r v))

/-! ### Events (R168) -/

/-- The machine in which event `e` alone has occurred, spelled out: the flag at its position, and the mailbox full if it
was, or if the flag was clear with its enable on. -/
def State.withEvent (s : State) (e : Event) : State :=
  { s with mge := { s.mge with
      flags := s.mge.flags ||| BitVec.twoPow 32 e.bit
      mailbox := s.mge.mailbox || (!s.mge.flags.getLsbD e.bit && s.mge.mask.getLsbD e.bit) } }

/-- Several events, one after another. -/
def State.withEvents (s : State) (es : List Event) : State := es.foldl State.withEvent s

/-! ### The ring (R147, R150) -/

/-- A cell arrives at position `p`, which the part does not own, with the link UP, no owned slot in progress and reset not
held. -/
abbrev State.Passes (s : State) (p : Nat) : Prop :=
  s.resetHeld = false ∧ s.rif.sending = none ∧ s.rif.link = .up ∧ s.rif.nextPosition = p ∧ s.rif.owns p = false

/-- The status summary byte as sampled now (R157, 13.4). -/
def State.summary (s : State) : Byte :=
  BitVec.ofNat 8 (s.jbc.job.code + (if s.jbc.stopLatch then 4 else 0) + (if s.ksq.inhibitLatch then 8 else 0) +
    (if s.jbc.blind then 16 else 0) + (if s.mru.reg = .locked then 32 else 0) + (if s.jbc.waste then 64 else 0) +
    (if s.mge.mailbox then 128 else 0))

/-- The machine that has repeated cell `c`, which is no valid header, at position `p` and advanced its slot counter there;
in the slot 0 position a frame has begun (R147). -/
def State.passed (s : State) (p : Nat) (c : Cell) : State :=
  if p = 0 then
    { s with rif := { s.rif with
        slot := some 0, ringTx := some c, active := s.rif.written, frameStatus := some s.summary } }
  else { s with rif := { s.rif with slot := some p, ringTx := some c } }

/-- The machine that has repeated cell `c`. -/
def State.repeated (s : State) (c : Cell) : State := { s with rif := { s.rif with ringTx := some c } }

/-- A cell addressed to every node or to the part, from a node, with a good check. -/
abbrev State.Addressed (s : State) (c : Cell) : Prop :=
  checkGood c = true ∧ c.body.source.toNat ≤ 31 ∧
    (c.body.dest = 0xFF#8 ∨ c.body.dest.toNat = s.rif.nodeId.toNat)

/-- The cell that a ring command carries. -/
def carriedCell : Instr → Option Cell
  | .frameHeader b => some ⟨0x10#8, b⟩
  | .invalidHeader c => some c
  | .badCheckCell c => some c
  | .verdict b => some ⟨0x21#8, b⟩
  | .heartbeat b => some ⟨0x22#8, b⟩
  | .stackerStatus b => some ⟨0x23#8, b⟩
  | .mgmtRequest b => some ⟨0x30#8, b⟩
  | .cellRepeated c => some c
  | .ownedSlotStart c => some c
  | _ => none

/-! ### The web (R1, R4) -/

/-- The four forward steps of R1: previous pair, new pair. -/
abbrev forwardStep (a b a' b' : Bool) : Prop :=
  (a, b, a', b') ∈ [(false, false, true, false), (true, false, true, true), (true, true, false, true),
                    (false, true, false, false)]

/-- The four reverse steps of R1. -/
abbrev reverseStep (a b a' b' : Bool) : Prop :=
  (a, b, a', b') ∈ [(false, false, false, true), (false, true, true, true), (true, true, true, false),
                    (true, false, false, false)]

/-- The next forward count advances HW: reset is not held and WPOS stands at HW (R3). -/
abbrev State.AtFront (s : State) (a b : Bool) : Prop :=
  s.resetHeld = false ∧ forwardStep s.psu.encA s.psu.encB a b ∧ s.psu.wpos = s.psu.hw

/-- The machine that has taken that forward count, before any crossing. -/
def State.advanced (s : State) (a b : Bool) : State :=
  { s with psu := { s.psu with
      wpos := s.psu.wpos + 1, hw := s.psu.hw + 1, encA := a, encB := b, windowCount := s.psu.windowCount + 1 } }

/-- In SEARCH, HW has come to 2^31 - 1 counts beyond the last mark with the advance to position `h` (R46). -/
abbrev State.ForgetsLastMarkAt (s : State) (h : Position) : Prop :=
  s.mru.reg = .search ∧ ∃ m ∈ s.mru.lastMark, (h - m).toInt = 2147483647

/-- The machine that has taken that forward count and forgotten a last mark too far behind (R46). -/
def State.forwarded (s : State) (a b : Bool) : State :=
  { s.advanced a b with
    mru := if s.ForgetsLastMarkAt (s.psu.hw + 1) then { s.mru with lastMark := none } else s.mru }

/-- No window end is armed at position `h` (R52). -/
abbrev State.NoMissAt (s : State) (h : Position) : Prop :=
  s.mru.watch = true → s.mru.window.map MarkWindow.ending ≠ some h

/-- No fire point is watched at position `h` (R86). -/
abbrev State.NoFireAt (s : State) (h : Position) : Prop := s.ksq.armed.isSome = true → s.ksq.fireWatch ≠ some h

/-- No decision point is watched at position `h` (R64). -/
abbrev State.NoDecisionAt (s : State) (h : Position) : Prop :=
  s.trc.watch = true → (s.trc.queue.head?).map Entry.decisionPoint ≠ some h

/-- The command of what falls together with a count, taken by itself. -/
def meetingCommand : Meeting → Instr
  | .mark => .markEdge
  | .windowEnd => .speedWindowExpiry

/-- The machine after a command. -/
def State.after (s : State) (c : Instr) : State :=
  match exec c s with
  | .next t => t
  | .fault _ => s
  | .refused _ => s

/-- The machine after the commands of what falls together, one after another. -/
def State.afterMeetings (s : State) (ms : List Meeting) : State := ms.foldl (fun s m => s.after (meetingCommand m)) s

/-! ### After a reset -/

/-- The job table's after-reset column (2.1). -/
abbrev JobTable.IsFresh (t : JobTable) : Prop :=
  t.encScale = 0 ∧ t.repeatLength = 0 ∧ t.knifeDist = 0 ∧ t.gateDist = 0 ∧ t.cutOffset = 0 ∧ t.markWindow = 0 ∧
    t.markTol = 0 ∧ t.missLimit = 3 ∧ t.lockCount = 2 ∧ t.knifeLag = 0 ∧ t.knifePulse = 100 ∧ t.knifeRecovery = 0 ∧
    t.lateTol = 0 ∧ t.gateGuard = 0 ∧ t.reverseTol = 0 ∧ t.speedWindow = 2 ∧ t.hbPeriod = 200 ∧ t.verdictNode = 0 ∧
    t.firstRsn = 0 ∧ t.spliceBefore = 0 ∧ t.spliceAfter = 0 ∧ t.lanes = 0

/-- Every value that the tables of R12, R29, R59, R84, R99, R118, R135, R146, R159 and R173 list after a reset, for a part
with node ID `node` that sampled KNIFE_INHIBIT `inhibit` and the encoder levels `a` and `b`. -/
structure AfterReset (node : BitVec 5) (inhibit a b : Bool) (t : State) : Prop where
  /-- R12. -/
  psu : t.psu.wpos = 0 ∧ t.psu.hw = 0 ∧ t.psu.encA = a ∧ t.psu.encB = b ∧ t.psu.reported = false ∧
    t.psu.windowCount = 0 ∧ t.psu.windowMs = 4 ∧ t.psu.windowAge = 0 ∧ t.psu.spd = 0 ∧ t.psu.spdValid = false ∧
    t.psu.encFaults = 0
  /-- R59. -/
  mru : t.mru.reg = .idle ∧ t.mru.eInt = 0 ∧ t.mru.eFrac = 0 ∧ t.mru.window = none ∧ t.mru.watch = false ∧
    t.mru.run = 0 ∧ t.mru.missRun = 0 ∧ t.mru.lastMark = none ∧ t.mru.lastRegErr = 0 ∧ t.mru.strayMarks = 0
  /-- R84. -/
  trc : t.trc.queue = [] ∧ t.trc.nextRsn = 0 ∧ t.trc.watch = false ∧ t.trc.decided = 0 ∧ t.trc.window = [] ∧
    t.trc.splices = []
  /-- R99. -/
  ksq : t.ksq.armed = none ∧ t.ksq.fireWatch = none ∧ t.ksq.pulse = false ∧ t.ksq.owner = none ∧
    t.ksq.pulseTimer = none ∧ t.ksq.recoveryTimer = none ∧ t.ksq.inhibitLatch = inhibit
  /-- R118, with the lane table's after-reset column (7.9). -/
  gtu : ∀ i, t.gtu.gateWord.get i = .reject ∧ (∀ c, (t.gtu.counters.get i).get c = 0) ∧
    t.gtu.table.get i = { enable := false, niPolicy := .reject, stackerNode := 0, pocket := 0, ageLimit := 20 }
  /-- R135. -/
  bsq : ∀ i, t.bsq.get i = { batches := [], count := 0, stacksDone := 0, gap := 0, pocketState := .fault,
                             statusAge := none, stale := true }
  /-- R29, R146. -/
  jbc : t.jbc.table.IsFresh ∧ t.jbc.job = .idle ∧ t.jbc.tailPending = false ∧ t.jbc.held = none ∧ t.jbc.ocEff = 0 ∧
    t.jbc.waste = false ∧ t.jbc.hbStage = .alive ∧ t.jbc.expected = .one ∧ t.jbc.hbTimer = none ∧
    t.jbc.blind = false ∧ t.jbc.stopLatch = false
  /-- R159. -/
  rif : t.rif.link = .down ∧ t.rif.linkTimer = none ∧ t.rif.slots = none ∧ t.rif.slot = none ∧ t.rif.frameNo = 0 ∧
    t.rif.nodeId = node ∧ t.rif.written = ⟨node, 0, 0, 0⟩ ∧ t.rif.active = ⟨node, 0, 0, 0⟩ ∧ t.rif.managerNode = 0 ∧
    t.rif.recordDest = 0xFF#8 ∧ t.rif.noticeDest = 0xFF#8 ∧ t.rif.records = [] ∧ t.rif.replies = [] ∧
    t.rif.frameStatus = none ∧ t.rif.crcErrors = 0 ∧ t.rif.sending = none
  /-- R173. -/
  mge : t.mge.requests = [] ∧ t.mge.resetPending = false ∧ t.mge.flags = 0 ∧ t.mge.mask = 0 ∧ t.mge.mailbox = false ∧
    t.mge.gen = 0 ∧ ∀ i, (∀ c, (t.mge.snap.get i).tally.get c = 0) ∧ (t.mge.snap.get i).count = 0 ∧
      (t.mge.snap.get i).stacksDone = 0
  inhibitLine : t.inhibitLine = inhibit
  resetHeld : t.resetHeld = false

/-! ### Excursions and speed (R3, R6, R8, R38, R39) -/

/-- The excursion a reverse count leads to, and the position unit after it (R3). -/
def afterReverse (p : Psu) (a b : Bool) : Psu :=
  { p with
    encA := a, encB := b, wpos := p.wpos - 1, windowCount := p.windowCount - 1
    hw := if (p.hw - p.wpos).toNat = 2147483647 then p.hw - 1 else p.hw }

/-- The excursion test of R6 finds tracking lost at that reverse count. -/
abbrev LosesTracking (s : State) (a b : Bool) : Prop :=
  (s.jbc.job = .run ∨ s.jbc.job = .drain) ∧ s.psu.reported = false ∧
    s.quantities.rev < ((afterReverse s.psu a b).hw - (afterReverse s.psu a b).wpos).toNat

/-- SPD of a window count (R8). -/
def spdOf (count : Int) (windowMs : Nat) : Nat :=
  if count ≤ 0 then 0 else min (count.toNat * (16 / windowMs)) 262143

/-- The position unit after a window expiry (R8): SPD and SPD_VALID, and a new window of the length now selected. -/
def afterWindow (s : State) : Psu :=
  { s.psu with
    spd := spdOf s.psu.windowCount s.psu.windowMs, spdValid := true, windowCount := 0, windowAge := 0
    windowMs := if s.jbc.table.speedWindow = 0 then 1 else if s.jbc.table.speedWindow = 1 then 2
      else if s.jbc.table.speedWindow = 2 then 4 else 8 }

/-- F of an entry at a speed (R38, R39). -/
def fireAt (spd lag : Nat) (e : Entry) : Position :=
  e.cutTarget - BitVec.ofInt 32 (min (((spd * lag + 8000) / 16000 : Nat) : Int) (e.cutTarget - e.mark).toInt)

/-- The speed window in progress has run its length (R8). -/
abbrev State.WindowRunOut (s : State) : Prop := s.psu.windowMs * 25000 ≤ s.psu.windowAge

/-! ### The knife (R38 to R40, R85 to R88) -/

/-- HW - F for an entry, at the speed and HW now held: negative while HW is behind F (R39, R86). -/
def State.lateness (s : State) (e : Entry) : Int := (s.psu.hw - fireAt s.speed s.jbc.table.knifeLag e).toInt

/-- The knife may not be driven (R88). -/
abbrev State.Blocked (s : State) : Prop := s.ksq.inhibitLatch = true ∨ s.ksq.recoveryTimer ≠ none

/-- The CUT of a fire found late by `d` counts (R88). -/
def State.lateCut (s : State) (d : Int) : CutState :=
  if s.Blocked then .suppressed else if d ≤ s.quantities.lt then .doneLate else .lateFault

/-- The event that comes with a CUT (R88). -/
def cutEvents : CutState → List Event
  | .suppressed => [.cutSuppressed]
  | .lateFault => [.cutLate]
  | .pending => []
  | .done => []
  | .doneLate => []

/-- The machine in which the knife was driven for entry `r` (R90, R91). -/
def State.withPulse (s : State) (r : Rsn) : State :=
  { s with ksq := { s.ksq with
      pulse := true, owner := some r, pulseTimer := some (s.jbc.table.knifePulse * 25)
      recoveryTimer := some (s.quantities.recEff * 25) } }

/-- What KSQ makes of a queue when it arms: the queue with its new CUTs, the entry left armed, the entry the knife was
driven for, and the events set. -/
structure Settling where
  queue  : List Entry
  armed  : Option Entry
  fired  : Option Rsn
  events : List Event
  deriving DecidableEq, Repr

/-- KSQ arms the oldest PENDING entry (R85).  Ahead of HW its F is watched; reached, its fire is taken at once, late or
suppressed (R86, R88), and the next PENDING entry is armed in turn, its fire suppressed if it is reached as well. -/
def State.settle (s : State) (blocked : Bool) : List Entry → Settling
  | [] => { queue := [], armed := none, fired := none, events := [] }
  | e :: rest =>
    if e.cut ≠ .pending then { s.settle blocked rest with queue := e :: (s.settle blocked rest).queue }
    else if s.lateness e < 0 then { queue := e :: rest, armed := some e, fired := none, events := [] }
    else
      let c := if blocked then .suppressed else s.lateCut (s.lateness e)
      { queue := { e with cut := c } :: (s.settle true rest).queue
        armed := (s.settle true rest).armed
        fired := if blocked then none else some e.rsn
        events := cutEvents c ++ (s.settle true rest).events }

/-- The machine whose KSQ has armed what it can arm of the queue it holds. -/
def State.settled (s : State) : State :=
  let r := s.settle (decide s.Blocked) s.trc.queue
  let u := (match r.fired with
    | none => s
    | some n => s.withPulse n).withEvents r.events
  { u with
    trc := { s.trc with queue := r.queue }
    ksq := { u.ksq with
      armed := r.armed.map Entry.rsn, fireWatch := r.armed.map (fireAt s.speed s.jbc.table.knifeLag) } }

/-- The machine in which a fire was taken for entry `r` with CUT `c`, and the next entry armed (R88). -/
def State.fired (s : State) (r : Rsn) (c : CutState) : State :=
  let u := (if c = .suppressed then s else s.withPulse r).withEvents (cutEvents c)
  ({ u with trc := { s.trc with
      queue := s.trc.queue.map fun x : Entry => if x.rsn = r then { x with cut := c } else x } } : State).settled

/-- The machine in which `e` joined the queue after the events `before`, and was offered for cutting (R85): armed when
nothing is, else left waiting PENDING. -/
def State.offered (s : State) (before : List Event) (e : Entry) : State :=
  let u := ({ s with trc := { s.trc with queue := s.trc.queue ++ [e] } } : State).withEvents before
  if u.ksq.armed = none then u.settled else u

/-! ### Marks (R35, R36, R46, R48 to R53) -/

/-- A mark at `c` in SEARCH fails the spacing test (R46): less than rep_counts - w beyond the last mark. -/
abbrev State.TooNear (s : State) (c : Position) : Prop :=
  ∃ m ∈ s.mru.lastMark, (c - m).toInt < ((s.quantities.repFx / 65536 : Nat) : Int) - (s.quantities.w : Int)

/-- A mark at `c` lies behind the window's opening (R48); with no window there is none to lie in. -/
abbrev State.BeforeWindow (s : State) (c : Position) : Prop :=
  ∀ win ∈ s.mru.window, (c - win.opening).toInt < 0

/-- The window of half-width `w` about E (R36). -/
def windowAbout (eInt : Position) (eFrac : BitVec 16) (w : Nat) : MarkWindow :=
  let c := if 32768 ≤ eFrac.toNat then eInt + 1 else eInt
  { centre := c, opening := c - BitVec.ofNat 32 w, ending := c + BitVec.ofNat 32 w }

/-- MRU with E re-anchored at an accepted mark `c`: C plus rep_fx, and the window from it (R35, R36). -/
def State.anchoredAt (s : State) (c : Position) : Mru :=
  let eInt := c + BitVec.ofNat 32 (s.quantities.repFx / 65536)
  let eFrac := BitVec.ofNat 16 (s.quantities.repFx % 65536)
  { s.mru with eInt := eInt, eFrac := eFrac, window := some (windowAbout eInt eFrac s.quantities.w) }

/-- MRU with rep_fx added to E in full, the fraction carrying into the integer part (R35, R36). -/
def State.steppedMru (s : State) : Mru :=
  let frac := s.mru.eFrac.toNat + s.quantities.repFx % 65536
  let eInt := s.mru.eInt + BitVec.ofNat 32 (s.quantities.repFx / 65536 + if 65536 ≤ frac then 1 else 0)
  let eFrac := BitVec.ofNat 16 (if 65536 ≤ frac then frac - 65536 else frac)
  { s.mru with eInt := eInt, eFrac := eFrac, window := some (windowAbout eInt eFrac s.quantities.w) }

/-- The registration state after an accepted mark is LOCKED (R50). -/
def State.lockedAfterMark (s : State) : Bool :=
  s.mru.reg == .locked || (s.mru.reg == .capture && decide (s.jbc.table.lockCount ≤ s.mru.run + 1))

/-! ### Decisions (R101 to R108) and stacker status (R130 to R132) -/

/-- What TRC hands GTU with the head `e` of the queue `e :: rest` at its crossing (R65). -/
def State.handover (s : State) (e : Entry) (rest : List Entry) : Handover :=
  { entry := e, flush := false, successor := rest.head?.map Entry.cut
    inSplice := s.trc.splices.any fun x => decide (0 ≤ (e.rsn - x.first).toInt) && decide (0 ≤ (x.last - e.rsn).toInt) }

/-- Cause 1 (R102). -/
abbrev Hold (s : State) (h : Handover) : Prop :=
  h.flush = true ∨ s.jbc.stopLatch = true ∨ s.jbc.waste = true ∨ h.entry.tail = true

/-- A cut that bounds no piece (R103). -/
abbrev Unmade (c : CutState) : Prop := c = .pending ∨ c = .lateFault ∨ c = .suppressed

/-- Cause 2 (R103). -/
abbrev CutMissing (h : Handover) : Prop :=
  Unmade h.entry.cut ∨ h.successor = none ∨ ∃ c ∈ h.successor, Unmade c

/-- Causes 1, 2 and 3 do not hold. -/
abbrev WholeEntryGoodBut (s : State) (h : Handover) : Prop :=
  ¬ Hold s h ∧ ¬ CutMissing h ∧ h.entry.regFlag = .ok

/-- Cause 5 (R105). -/
abbrev NoWork (s : State) (i : Lane) : Prop := (s.gtu.table.get i).enable = false ∨ (s.bsq.get i).batches = []

/-- Causes 6 and 7, the table of R106: the code inspection gives the lane, or none where it passes. -/
def Inspected (s : State) (h : Handover) (i : Lane) : Option Code :=
  match s.jbc.blind, (h.entry.verdict.map fun v => v.lanes.get i : Option LaneVerdict), (s.gtu.table.get i).niPolicy with
  | true, _, _ => some .rejUnknown
  | false, none, _ => some .rejUnknown
  | false, some .fail, _ => some .rejInspect
  | false, some .pass, _ => none
  | false, some .notInspected, .accept => none
  | false, some .notInspected, .reject => some .rejUnknown

/-- Cause 8 (R107). -/
abbrev StackerNotReady (s : State) (i : Lane) : Prop :=
  (s.gtu.table.get i).stackerNode ≠ 0 ∧ ((s.bsq.get i).pocketState ≠ .ready ∨ (s.bsq.get i).stale = true)

/-- The DISPOSITION record of a decision (R114). -/
def State.recordOf (s : State) (h : Handover) : Disposition :=
  { rsn := h.entry.rsn
    codes := Lanes.ofFn fun i => if i.val < s.jbc.table.lanes then s.laneCode h i else .rejLane
    kind := h.entry.kind
    late := decide (h.entry.cut = .doneLate ∨ h.entry.cut = .lateFault)
    blind := s.jbc.blind
    regErr := match h.entry.kind, h.entry.regErr with
      | .seen, some r => max (-32767) (min r 32767)
      | _, _ => 0 }

/-- The lane's piece is STACKED, and fills the batch at the head of its list (R126). -/
abbrev State.Completes (s : State) (h : Handover) (i : Lane) (head : Batch) (rest : List Batch) : Prop :=
  i.val < s.jbc.table.lanes ∧ s.laneCode h i = .stacked ∧ (s.bsq.get i).batches = head :: rest ∧
    head.target ≤ (s.bsq.get i).count + 1

/-- A lane's plan after the decision (R108, R109 steps 2 and 3, R125 to R127). -/
def State.planAfter (s : State) (h : Handover) (i : Lane) : LanePlan :=
  let p := s.bsq.get i
  if s.jbc.table.lanes ≤ i.val then p
  else if s.laneCode h i ≠ .stacked then { p with gap := p.gap - 1 }
  else match p.batches with
    | [] => { p with gap := p.gap - 1 }
    | head :: rest =>
      if p.count + 1 < head.target then { p with count := p.count + 1, gap := 0 }
      else { p with
        batches := if head.loop = true ∧ rest = [] then [head] else rest
        count := 0, stacksDone := p.stacksDone + 1, gap := if head.mode = .gap then head.gap else 0 }

/-- The STACK_CHANGE record of the lane's completion, if its batch completes at the decision (R128). -/
def State.completion (s : State) (h : Handover) (i : Lane) : Option StackChange :=
  match (s.bsq.get i).batches with
  | [] => none
  | head :: rest =>
    if s.Completes h i head rest then
      some { rsn := h.entry.rsn, lane := i, tag := head.tag, count := (s.bsq.get i).count + 1, mode := head.mode
             gap := if head.mode = .gap then head.gap else 0
             nextTag := if head.loop = true ∧ rest = [] then some head.tag else rest.head?.map Batch.tag
             stacksDone := (s.bsq.get i).stacksDone + 1 }
    else none

/-- A completion empties the lane's list (R126, R127). -/
abbrev State.Empties (s : State) (h : Handover) (i : Lane) : Prop :=
  (s.completion h i).isSome = true ∧ (s.planAfter h i).batches = []

/-- The records of a decision in their order: the DISPOSITION, then a STACK_CHANGE for each lane that completes a batch
(R109). -/
def State.decisionRecords (s : State) (h : Handover) : List Record :=
  .disposition (s.recordOf h) ::
    [0, 1, 2, 3, 4, 5].filterMap fun i : Lane => (s.completion h i).map Record.stackChange

/-- The events of a decision (R126, R155). -/
def State.decisionEvents (s : State) (h : Handover) : List Event :=
  (if ∃ i, (s.completion h i).isSome = true then [.stackDone] else []) ++
  (if ∃ i, s.Empties h i then [.laneDone] else []) ++
  (if 32 < s.rif.records.length + (s.decisionRecords h).length then [.recordDrop] else [])

/-- The decision is the automatic end (R129): it empties a list, and then no lane below LANES that is enabled has a batch. -/
abbrev State.EndsTheJob (s : State) (h : Handover) : Prop :=
  (∃ i, s.Empties h i) ∧
    ∀ j : Lane, j.val < s.jbc.table.lanes → (s.gtu.table.get j).enable = true → (s.planAfter h j).batches = []

/-- JBC after the automatic end (R23). -/
def Jbc.afterAutomaticEnd (j : Jbc) : Jbc :=
  match j.job with
  | .run => { j with stopLatch := true, job := .drain, tailPending := true }
  | .drain => { j with stopLatch := true }
  | .idle => j
  | .halt => j

/-- From `s` to `t` GTU took the decision of `h` whole (R100, R109): counters, gates, batches, records, events, and the
automatic end; nothing else. -/
structure DecisionTaken (s : State) (h : Handover) (t : State) : Prop where
  counted : ∀ i : Lane, i.val < s.jbc.table.lanes → ∀ c,
    (t.gtu.counters.get i).get c = (s.gtu.counters.get i).get c + if s.laneCode h i = c then 1 else 0
  unused : ∀ i : Lane, s.jbc.table.lanes ≤ i.val → t.gtu.counters.get i = s.gtu.counters.get i
  gates : ∀ i : Lane, t.gtu.gateWord.get i =
    if i.val < s.jbc.table.lanes ∧ s.laneCode h i = .stacked then .stack else .reject
  plans : ∀ i : Lane, t.bsq.get i = s.planAfter h i
  records : t.rif.records = s.rif.records ++ (s.decisionRecords h).take (32 - s.rif.records.length)
  events : t.mge = (s.withEvents (s.decisionEvents h)).mge
  ends : s.EndsTheJob h → t.jbc = s.jbc.afterAutomaticEnd
  goesOn : ¬ s.EndsTheJob h → t.jbc = s.jbc
  frame : t = { s with
    gtu := { s.gtu with counters := t.gtu.counters, gateWord := t.gtu.gateWord }, bsq := t.bsq
    rif := { s.rif with records := t.rif.records }, mge := t.mge, jbc := t.jbc }

/-- The head `e` has left the queue `e :: rest` (R66 steps 1, 2 and 4; log 28 for `decisions`). -/
def State.headLeft (s : State) (e : Entry) (rest : List Entry) : State :=
  { s with trc := { s.trc with
      queue := rest, watch := !rest.isEmpty
      decided := min (s.trc.decided + 1) 32768, decisions := s.trc.decisions + 1
      splices := s.trc.splices.filter fun x => x.last != e.rsn } }

/-- JBC has ended the job at the tail's decision (R22, R15). -/
def State.jobOver (s : State) : State :=
  ({ s with
    trc := { s.trc with window := [], splices := [] }
    mru := { s.mru with reg := .idle, watch := false }
    ksq := { s.ksq with armed := none, fireWatch := none, pulse := false, pulseTimer := none, owner := none }
    jbc := { s.jbc with job := .idle, tailPending := false, hbTimer := none } } : State).withEvent .jobEnded

/-- The entries of a queue are decided one after another, oldest first, while HW has reached their S: from the first state
to the last (R66). -/
inductive DecisionRun : State → List Entry → State → Prop where
  /-- No entry is left. -/
  | none (s : State) : DecisionRun s [] s
  /-- The head's S lies ahead: it is watched. -/
  | ahead (s : State) (e : Entry) (rest : List Entry) :
      (s.psu.hw - e.decisionPoint).toInt < 0 → DecisionRun s (e :: rest) s
  /-- The head is decided, and the next head's S armed. -/
  | decided (s u t : State) (e : Entry) (rest : List Entry) :
      0 ≤ (s.psu.hw - e.decisionPoint).toInt → e.tail = false → DecisionTaken s (s.handover e rest) u →
        DecisionRun (u.headLeft e rest) rest t → DecisionRun s (e :: rest) t
  /-- The tail is decided: the job ends. -/
  | last (s u : State) (e : Entry) :
      0 ≤ (s.psu.hw - e.decisionPoint).toInt → e.tail = true → DecisionTaken s (s.handover e []) u →
        DecisionRun s [e] (u.headLeft e []).jobOver

/-- The eight pocket states of a STACKER_STATUS payload (13.2). -/
def pocketBytes (p : Payload) : List Nat :=
  [p.b4.toNat, p.b5.toNat, p.b6.toNat, p.b7.toNat, p.b8.toNat, p.b9.toNat, p.b10.toNat, p.b11.toNat]

/-- Lane `i` stale with its timer stopped, nothing else changed (R131). -/
def State.madeStale (s : State) (i : Lane) : State :=
  { s with bsq := s.bsq.set i { s.bsq.get i with stale := true, statusAge := none } }

/-- A lapse of lane `i` sets STACKER_STALE (R132). -/
abbrev StaleEvent (s : State) (i : Lane) : Prop :=
  (s.jbc.job = .run ∨ s.jbc.job = .drain) ∧ (s.gtu.table.get i).stackerNode ≠ 0 ∧ i.val < s.jbc.table.lanes

/-! ### Entries (R61) and flushes (R67) -/

/-- An entry but for its CUT. -/
def Entry.sansCut (e : Entry) : Entry := { e with cut := .pending }

/-- T and S of a new entry with mark position `m` (R37). -/
def placed (t : JobTable) (ocEff : Int) (m : Position) : Position × Position :=
  (m + BitVec.ofNat 32 (((t.knifeDist + ocEff).toNat * t.encScale + 500000) / 1000000),
   m + BitVec.ofNat 32 (((t.gateDist + ocEff - t.gateGuard).toNat * t.encScale + 500000) / 1000000))

/-- The entry a creation request makes (R61 steps 1 to 6). -/
def State.entryFor (s : State) (kind : MarkKind) (mark : Position) (regErr : Option Int) (regFlag : RegFlag) : Entry :=
  { rsn := s.trc.nextRsn, mark := mark, kind := kind, regErr := regErr, regFlag := regFlag
    cutTarget := (placed s.jbc.table s.jbc.ocEff mark).1, decisionPoint := (placed s.jbc.table s.jbc.ocEff mark).2
    cut := .pending
    verdict := (s.trc.window.find? fun h => h.rsn == s.trc.nextRsn).map HeldVerdict.record
    tail := s.jbc.tailPending }

/-- From `s` to `t` one entry was created, with these contents (R61), and no entry decided: what TRC, JBC and the blocks
with no part in it hold.  The entry may already have been cut (R86). -/
structure EntryCreated (s t : State) (kind : MarkKind) (mark : Position) (regErr : Option Int) (regFlag : RegFlag) : Prop where
  entry : t.trc.queue.map Entry.sansCut = s.trc.queue.map Entry.sansCut ++ [s.entryFor kind mark regErr regFlag]
  nextRsn : t.trc.nextRsn = s.trc.nextRsn + 1
  window : t.trc.window = s.trc.window.filter fun h => h.rsn != s.trc.nextRsn
  watch : t.trc.watch = (s.trc.watch || s.trc.queue.isEmpty)
  kept : t.trc.decided = s.trc.decided ∧ t.trc.decisions = s.trc.decisions ∧ t.trc.splices = s.trc.splices
  jbc : t.jbc = { s.jbc with tailPending := false }
  psu : t.psu = s.psu
  gtu : t.gtu = s.gtu
  bsq : t.bsq = s.bsq
  rif : t.rif = s.rif
  mge : t.mge.requests = s.mge.requests ∧ t.mge.resetPending = s.mge.resetPending ∧ t.mge.mask = s.mge.mask ∧
    t.mge.snap = s.mge.snap ∧ t.mge.gen = s.mge.gen
  outside : t.inhibitLine = s.inhibitLine ∧ t.resetHeld = s.resetHeld ∧ t.draws = s.draws ∧ t.pending = s.pending

/-- From `s` to `t` the entry `e` joined the queue and was offered to KSQ: the queue with every CUT, KSQ, and MGE with the
events before and after the offer. -/
structure Offered (s t : State) (before : List Event) (e : Entry) (after : List Event) : Prop where
  queue : t.trc.queue = (s.offered before e).trc.queue
  ksq : t.ksq = (s.offered before e).ksq
  mge : t.mge = ((s.offered before e).withEvents after).mge

/-- The DISPOSITION record of a flushed entry (R67, R114): REJ_HOLD in every lane below LANES. -/
def State.heldRecord (s : State) (e : Entry) : Record :=
  .disposition
    { rsn := e.rsn
      codes := Lanes.ofFn fun i => if i.val < s.jbc.table.lanes then .rejHold else .rejLane
      kind := e.kind
      late := decide (e.cut = .doneLate ∨ e.cut = .lateFault)
      blind := s.jbc.blind
      regErr := match e.kind, e.regErr with
        | .seen, some r => max (-32767) (min r 32767)
        | _, _ => 0 }

/-- From `s` to `t` the track queue was flushed (R67) and the verdict window and splice list emptied: every entry decided
with REJ_HOLD in each lane below LANES, counted, and its record queued while the record queue had room. -/
structure Flushed (s t : State) : Prop where
  queue : t.trc.queue = [] ∧ t.trc.watch = false ∧ t.trc.window = [] ∧ t.trc.splices = [] ∧ t.trc.nextRsn = s.trc.nextRsn
  decided : t.trc.decided = if s.trc.queue = [] then s.trc.decided else min (s.trc.decided + s.trc.queue.length) 32768
  decisions : t.trc.decisions = s.trc.decisions + s.trc.queue.length
  held : ∀ i : Lane, i.val < s.jbc.table.lanes → t.gtu.counters.get i =
    { s.gtu.counters.get i with
      rejHold := (s.gtu.counters.get i).rejHold + BitVec.ofNat 32 s.trc.queue.length }
  gaps : ∀ i : Lane, i.val < s.jbc.table.lanes → t.bsq.get i =
    { s.bsq.get i with gap := (s.bsq.get i).gap - s.trc.queue.length }
  unused : ∀ i : Lane, s.jbc.table.lanes ≤ i.val →
    t.gtu.counters.get i = s.gtu.counters.get i ∧ t.bsq.get i = s.bsq.get i
  gateWord : t.gtu.gateWord = if s.trc.queue = [] then s.gtu.gateWord else Lanes.all .reject
  table : t.gtu.table = s.gtu.table
  records : t.rif.records =
    s.rif.records ++ (s.trc.queue.map s.heldRecord).take (32 - s.rif.records.length)
  dropped : t.flag .recordDrop =
    (s.flag .recordDrop || decide (32 - s.rif.records.length < s.trc.queue.length))

/-! ### The job (R14 to R20, R24, R137) -/

/-- No field of the job table is unset (R14, R16). -/
abbrev JobTable.Complete (t : JobTable) : Prop :=
  ∀ f ∈ jobFields, f.low ≤ t.get f ∧ t.get f ≤ f.high

/-- `n` is the lowest number among the unset fields (R16). -/
abbrev JobTable.LowestUnset (t : JobTable) (n : Nat) : Prop :=
  ∃ f, jobFields[n]? = some f ∧ ¬ (f.low ≤ t.get f ∧ t.get f ≤ f.high) ∧
    ∀ f' ∈ jobFields.take n, f'.low ≤ t.get f' ∧ t.get f' ≤ f'.high

/-- conv (R31). -/
def convOf (t : JobTable) (d : Nat) : Nat := (d * t.encScale + 500000) / 1000000

/-- The derived quantities (R32 to R34, R42). -/
def derivedOf (t : JobTable) : Quantities :=
  { repFx := (t.repeatLength * t.encScale * 65536 + 500000) / 1000000
    w := convOf t t.markWindow, tol := convOf t t.markTol, rev := convOf t t.reverseTol, lt := convOf t t.lateTol
    recEff := max t.knifeRecovery t.knifePulse }

/-- Condition `k` of the GEOMETRY check, 1 to 7 (R17). -/
def GeometryCondition (t : JobTable) (k : Nat) : Prop :=
  match k with
  | 1 => 2 * (t.cutOffset.natAbs : Int) ≤ t.repeatLength
  | 2 => t.markTol ≤ t.markWindow
  | 3 => 2 * t.markWindow + 4000 ≤ t.repeatLength
  | 4 => 0 < (t.knifeDist : Int) + t.cutOffset - 2000
  | 5 => (t.repeatLength : Int) + t.markWindow + t.gateGuard ≤ (t.gateDist : Int) - t.knifeDist
  | 6 => 0 < (t.gateDist : Int) + t.cutOffset - t.gateGuard - 2000
  | _ => 64 ≤ (derivedOf t).repFx / 65536

/-- n of the CAPACITY check (R18), with the ceiling as floor((x + d - 1) / d). -/
def capacityNeeded (t : JobTable) : Nat :=
  let d := (derivedOf t).repFx / 65536 - (derivedOf t).w
  (convOf t (t.gateDist + t.cutOffset.natAbs + 2000) + d - 1) / d + 2

/-- The latches as they stand: 1 the stop latch alone, 2 the inhibit latch alone, 3 both (R16, R144). -/
def State.latches (s : State) : Nat :=
  match s.jbc.stopLatch, s.ksq.inhibitLatch with
  | false, false => 0
  | true, false => 1
  | false, true => 2
  | true, true => 3

/-- The delta of a TRIM, bytes 6 to 9, signed (13.2). -/
def Request.delta (q : Request) : Int := (q.a6 ++ q.a7 ++ q.a8 ++ q.a9 : BitVec 32).toInt

/-- From `s` to `t` the head request `q` ended the job as JOB_ABORT does (R24). -/
structure Aborted (s : State) (q : Request) (rest : List Request) (t : State) : Prop where
  flushed : Flushed s t
  ended : t.flag .jobEnded = true
  jbc : t.jbc = { s.jbc with job := .idle, tailPending := false, hbTimer := none }
  mru : t.mru = { s.mru with reg := .idle, watch := false }
  ksq : t.ksq = { s.ksq with armed := none, fireWatch := none, pulse := false, pulseTimer := none, owner := none }
  psu : t.psu = s.psu
  rif : t.rif = { s.rif with
    records := t.rif.records
    replies := s.rif.replies ++ [q.reply .ok (BitVec.ofNat 32 s.trc.queue.length)] }
  mge : t.mge = { s.mge with requests := rest, flags := t.mge.flags, mailbox := t.mge.mailbox }
  outside : t.inhibitLine = s.inhibitLine ∧ t.resetHeld = s.resetHeld ∧ t.draws = s.draws ∧ t.pending = s.pending

/-- The heartbeat in `b` is one that is accepted (R137). -/
abbrev ExpectedHeartbeat (s : State) (b : CellBody) : Prop :=
  (s.jbc.job = .run ∨ s.jbc.job = .drain) ∧ b.source.toNat = s.jbc.table.verdictNode ∧
    b.payload.b4.toNat = if s.jbc.expected = .one then 1 else 2

/-! ### Cells (R147, R149, R150, R157) -/

/-- A valid header (10.1). -/
abbrev IsHeader (c : Cell) : Prop :=
  checkGood c = true ∧ c.kind = 0x10#8 ∧ c.body.source = 0 ∧ 4 ≤ c.body.payload.b6.toNat ∧ c.body.payload.b6.toNat ≤ 32

/-- A saturating count one higher (R149). -/
def oneMore (n : BitVec 16) : BitVec 16 := if n = 65535#16 then 65535#16 else n + 1

/-- A cell the part takes nothing from (R150): no valid header, and a type it does not consume, a destination that is not
the part's, or a source above 31. -/
abbrev NotTaken (s : State) (c : Cell) : Prop :=
  ¬ IsHeader c ∧
    (c.kind ∉ [0x21#8, 0x22#8, 0x23#8, 0x30#8] ∨ 31 < c.body.source.toNat ∨
      (c.body.dest ≠ 0xFF#8 ∧ c.body.dest.toNat ≠ s.rif.nodeId.toNat))

/-- A cell of the part's own (R154): its node ID, the frame status byte, and the check over bytes 0 to 13. -/
def State.sent (s : State) (kind dest : Byte) (p : Payload) : Cell :=
  let head : List Byte := [kind, s.rif.nodeId.zeroExtend 8, dest, s.rif.frameStatus.getD 0]
  let bytes : List Byte := [p.b4, p.b5, p.b6, p.b7, p.b8, p.b9, p.b10, p.b11, p.b12, p.b13]
  { kind := kind
    body := { source := s.rif.nodeId.zeroExtend 8, dest := dest, status := s.rif.frameStatus.getD 0, payload := p
              check := crc16 (head ++ bytes) } }

/-! ### Verdicts and splices (R69 to R80) -/

/-- The VERDICT cell `b` is taken (R69). -/
abbrev TakesVerdicts (s : State) (b : CellBody) : Prop :=
  (s.jbc.job = .run ∨ s.jbc.job = .drain) ∧ b.source.toNat = s.jbc.table.verdictNode

/-- The RSN of a VERDICT cell, bytes 4 and 5 (13.2). -/
def cellRsn (b : CellBody) : Rsn := b.payload.b4 ++ b.payload.b5

/-- One lane verdict byte (R69, 13.2). -/
def laneVerdict (b : Byte) : LaneVerdict := if b = 1 then .pass else if b = 2 then .fail else .notInspected

/-- The record of a VERDICT cell (13.2). -/
def cellVerdict (b : CellBody) : VerdictRecord :=
  { lanes := ⟨laneVerdict b.payload.b6, laneVerdict b.payload.b7, laneVerdict b.payload.b8, laneVerdict b.payload.b9,
              laneVerdict b.payload.b10, laneVerdict b.payload.b11⟩
    splice := b.payload.b12.getLsbD 0 }

/-- The record the window holds for `r` (R71). -/
def State.heldIn (s : State) (r : Rsn) : Option VerdictRecord :=
  (s.trc.window.find? fun h => h.rsn == r).map HeldVerdict.record

/-- Two records merged (R72): FAIL over PASS over NOT_INSPECTED, SPLICE by OR. -/
def merged (v v' : VerdictRecord) : VerdictRecord :=
  { lanes := Lanes.ofFn fun i =>
      if v.lanes.get i = .fail ∨ v'.lanes.get i = .fail then .fail
      else if v.lanes.get i = .pass ∨ v'.lanes.get i = .pass then .pass else .notInspected
    splice := v.splice || v'.splice }

/-- What is held once `v` has arrived (R72, R73). -/
def mergedWith (held : Option VerdictRecord) (v : VerdictRecord) : VerdictRecord :=
  match held with
  | none => v
  | some h => merged h v

/-- The entry numbered `r` with VERDICT `v`; any other as it was (R73). -/
def mergedAt (r : Rsn) (v : VerdictRecord) (e : Entry) : Entry := if e.rsn = r then { e with verdict := some v } else e

/-- Some lane meets PASS against FAIL (R72). -/
abbrev Conflict (v v' : VerdictRecord) : Prop :=
  ∃ i : Lane, (v.lanes.get i = .pass ∧ v'.lanes.get i = .fail) ∨ (v.lanes.get i = .fail ∧ v'.lanes.get i = .pass)

/-- The condemned range around `r`, as offsets from the oldest undecided RSN (R77). -/
def State.spliceRange (s : State) (r : Rsn) : OffsetRange :=
  { first := (r - s.trc.oldestRsn).toInt - s.jbc.table.spliceBefore
    last := (r - s.trc.oldestRsn).toInt + s.jbc.table.spliceAfter }

/-- The range reaches back to a decided RSN (R78). -/
abbrev SpliceEscapes (s : State) (r : Rsn) : Prop :=
  (s.spliceRange r).first ≤ -1 ∧ -(s.trc.decided : Int) ≤ (s.spliceRange r).last ∧ 1 ≤ s.trc.decided

/-- The list once the range around `r` has been condemned (R79): nothing of it undecided, or its undecided part joined to
the ranges held. -/
def State.spliceListWith (s : State) (r : Rsn) : List SpliceRange :=
  let base := s.trc.oldestRsn
  if (s.spliceRange r).last < 0 then s.trc.splices
  else
    (insertRange ⟨max (s.spliceRange r).first 0, (s.spliceRange r).last⟩
      (s.trc.splices.map fun x => ⟨(x.first - base).toInt, (x.last - base).toInt⟩)).map
      fun x => ⟨base + BitVec.ofInt 16 x.first, base + BitVec.ofInt 16 x.last⟩

/-- The machine that has processed the SPLICE flag of a record for `r` (R77 to R79). -/
def State.spliced (s : State) (r : Rsn) (flag : Bool) : State :=
  if flag then
    { (if SpliceEscapes s r then s.withEvent .spliceEscape else s) with
      trc := { s.trc with splices := s.spliceListWith r } }
  else s

/-- The list R81 describes: ordered by first RSN, each range with its ends in order, and no two that overlap or touch. -/
def RangesInOrder : List OffsetRange → Prop
  | [] => True
  | r :: rest => r.first ≤ r.last ∧ (∀ x ∈ rest, r.last + 1 < x.first) ∧ RangesInOrder rest

/-- How many RSNs lie strictly between two disjoint ranges (R80). -/
def gapBetween (x y : OffsetRange) : Int := if x.last < y.first then y.first - x.last - 1 else x.first - y.last - 1

/-- Of the ranges of `rs`, `near` is the one nearest to `x`, and the earlier of two equally near (R80). -/
abbrev Nearest (x : OffsetRange) (rs : List OffsetRange) (near : OffsetRange) : Prop :=
  near ∈ rs ∧ ∀ y ∈ rs, gapBetween x near ≤ gapBetween x y ∧ (gapBetween x y = gapBetween x near → near.first ≤ y.first)

/-- Offset `k` lies in a range of the list. -/
def Covers (rs : List OffsetRange) (k : Int) : Prop := ∃ r ∈ rs, r.first ≤ k ∧ k ≤ r.last

/-! ### Tables and requests (R13, R115, R119, R123, R131, R133, R153, R162, 11.3, 11.5) -/

/-- The ranges of the job table's fields, 0 to 21 (2.1). -/
def jobRanges : List (Int × Int) :=
  [(10000, 2000000), (10000, 1000000), (50000, 4000000), (50000, 4000000), (-500000, 500000), (100, 50000), (0, 50000),
   (1, 15), (1, 8), (0, 20000), (10, 1000), (0, 50000), (0, 5000), (0, 100000), (0, 200000), (0, 3), (10, 2000), (1, 31),
   (0, 65535), (0, 7), (0, 7), (1, 6)]

/-- The value of a WRITE, bytes 9 to 12 (13.2). -/
def Request.writeValue (q : Request) : BitVec 32 := q.a9 ++ q.a10 ++ q.a11 ++ q.a12

/-- That value as a job table field reads it: signed for CUT_OFFSET, field 4 (R13, R175). -/
def Request.jobValue (q : Request) : Int := if q.a8 = 4 then q.writeValue.toInt else q.writeValue.toNat

/-- 1 for set, 0 for clear. -/
def bit32 (b : Bool) : BitVec 32 := if b then 1 else 0

/-- A lane's twelve counts: the ten codes by value, BATCH_COUNT, STACKS_DONE (R165). -/
def countFields (t : Tally) (count : Nat) (done : BitVec 16) : List (BitVec 32) :=
  [t.stacked, t.rejInspect, t.rejUnknown, t.rejSplice, t.rejRegister, t.rejCut, t.rejLane, t.rejGap, t.rejStacker,
   t.rejHold, BitVec.ofNat 32 count, done.zeroExtend 32]

/-- The STATUS table, fields 0 to 23 (11.5). -/
def State.statusFields (s : State) : List (BitVec 32) :=
  [BitVec.ofNat 32 s.jbc.job.code, BitVec.ofNat 32 s.mru.reg.code, BitVec.ofNat 32 s.psu.spd, bit32 s.psu.spdValid,
   s.psu.wpos, s.psu.hw, BitVec.ofNat 32 s.trc.queue.length, BitVec.ofNat 32 s.trc.window.length,
   s.trc.nextRsn.zeroExtend 32,
   ((s.trc.queue.head?).elim s.trc.nextRsn Entry.rsn).zeroExtend 32, BitVec.ofInt 32 s.jbc.ocEff,
   BitVec.ofNat 32 s.mru.missRun, BitVec.ofInt 32 s.mru.lastRegErr, bit32 s.jbc.stopLatch, bit32 s.ksq.inhibitLatch,
   bit32 s.jbc.blind, bit32 s.jbc.waste,
   BitVec.ofNat 32 (match s.jbc.hbStage with | .alive => 0 | .blind => 1 | .expired => 2),
   bit32 (s.rif.link == .up), s.rif.frameNo.zeroExtend 32, BitVec.ofNat 32 (s.rif.slots.getD 0),
   s.rif.crcErrors.zeroExtend 32, s.psu.encFaults.zeroExtend 32, s.mru.strayMarks.zeroExtend 32]

/-- The job table, fields 0 to 21 (2.1). -/
def JobTable.fields (t : JobTable) : List (BitVec 32) :=
  [BitVec.ofNat 32 t.encScale, BitVec.ofNat 32 t.repeatLength, BitVec.ofNat 32 t.knifeDist, BitVec.ofNat 32 t.gateDist,
   BitVec.ofInt 32 t.cutOffset, BitVec.ofNat 32 t.markWindow, BitVec.ofNat 32 t.markTol, BitVec.ofNat 32 t.missLimit,
   BitVec.ofNat 32 t.lockCount, BitVec.ofNat 32 t.knifeLag, BitVec.ofNat 32 t.knifePulse, BitVec.ofNat 32 t.knifeRecovery,
   BitVec.ofNat 32 t.lateTol, BitVec.ofNat 32 t.gateGuard, BitVec.ofNat 32 t.reverseTol, BitVec.ofNat 32 t.speedWindow,
   BitVec.ofNat 32 t.hbPeriod, BitVec.ofNat 32 t.verdictNode, BitVec.ofNat 32 t.firstRsn, BitVec.ofNat 32 t.spliceBefore,
   BitVec.ofNat 32 t.spliceAfter, BitVec.ofNat 32 t.lanes]

/-- A row of the lane table, fields 0 to 4 (7.9). -/
def LaneRow.fields (r : LaneRow) : List (BitVec 32) :=
  [bit32 r.enable, bit32 (r.niPolicy == .reject), r.stackerNode.zeroExtend 32, BitVec.ofNat 32 r.pocket.val,
   BitVec.ofNat 32 r.ageLimit]

/-- A batch entry, fields 0 to 4 (R119, R123). -/
def Batch.fields (b : Batch) : List (BitVec 32) :=
  [BitVec.ofNat 32 b.target, bit32 (b.mode == .flag), BitVec.ofNat 32 b.gap, b.tag.zeroExtend 32, bit32 b.loop]

/-- The fields at one row of one table, in number order; none at an address that does not exist (11.3, R123). -/
def State.fieldsAt (s : State) (table row : Nat) : List (BitVec 32) :=
  match table with
  | 0 => if row = 0 then s.jbc.table.fields else []
  | 1 => if row ≤ 5 then (s.gtu.table.get (laneOf row)).fields else []
  | 2 => if row ≤ 95 then
      match (s.bsq.get (laneOf (row / 16))).batches[row % 16]? with
      | some b => b.fields
      | none => []
    else []
  | 3 => if row ≤ 5 then
      countFields (s.gtu.counters.get (laneOf row)) (s.bsq.get (laneOf row)).count (s.bsq.get (laneOf row)).stacksDone
    else []
  | 4 => if row = 0 then [s.mge.gen.zeroExtend 32]
    else if row ≤ 6 then
      countFields (s.mge.snap.get (laneOf (row - 1))).tally (s.mge.snap.get (laneOf (row - 1))).count
        (s.mge.snap.get (laneOf (row - 1))).stacksDone
    else []
  | 5 => if row = 0 then s.statusFields else []
  | 6 => if row = 0 then
      [s.rif.nodeId.zeroExtend 32, s.rif.written.s0.zeroExtend 32, s.rif.written.s1.zeroExtend 32,
       s.rif.written.s2.zeroExtend 32, s.rif.written.s3.zeroExtend 32, s.rif.managerNode.zeroExtend 32,
       s.rif.recordDest.zeroExtend 32, s.rif.noticeDest.zeroExtend 32]
    else []
  | 7 => if row = 0 then [s.mge.flags, s.mge.mask] else []
  | _ => []

/-- A valid address (11.3). -/
abbrev ValidAddress (table row field : Nat) : Prop :=
  (table = 0 ∧ row = 0 ∧ field ≤ 21) ∨ (table = 1 ∧ row ≤ 5 ∧ field ≤ 4) ∨ (table = 2 ∧ row ≤ 95 ∧ field ≤ 4) ∨
    (table = 3 ∧ row ≤ 5 ∧ field ≤ 11) ∨ (table = 4 ∧ row = 0 ∧ field = 0) ∨
    (table = 4 ∧ 1 ≤ row ∧ row ≤ 6 ∧ field ≤ 11) ∨ (table = 5 ∧ row = 0 ∧ field ≤ 23) ∨
    (table = 6 ∧ row = 0 ∧ field ≤ 7) ∨ (table = 7 ∧ row = 0 ∧ field ≤ 1)

/-- The op codes of the twelve operations (13.2). -/
def knownOps : List Byte := [0x01, 0x02, 0x03, 0x10, 0x11, 0x12, 0x13, 0x14, 0x15, 0x20, 0x21, 0x2F]

/-- READ and SNAPSHOT, which any node may send (R162). -/
def openOps : List Byte := [0x01, 0x20]

/-- The command that is the start of a request of a row. -/
def rowCommand : StartRow → Instr
  | .read => .read
  | .write => .write
  | .speedWindowWrite => .speedWindowWrite
  | .stackerNodeWrite => .stackerNodeWrite
  | .pocketWrite => .pocketWrite
  | .statusAgeLimitWrite => .statusAgeLimitWrite
  | .maskWrite => .maskWrite
  | .slotMapWrite => .slotMapWrite
  | .appendBatch => .appendBatch
  | .jobStart => .jobStart
  | .jobStop => .jobStop
  | .jobAbort => .jobAbort
  | .trim => .trim
  | .waste => .waste
  | .snapshot => .snapshot
  | .clearEvents => .clearEvents
  | .releaseStop => .releaseStop
  | .resetNode => .resetNode
  | .badOp => .badOp

/-- The lane table row a WRITE to the lane table addresses. -/
def State.laneRow (s : State) (q : Request) : LaneRow := s.gtu.table.get (laneOf q.a7.toNat)

/-- The plan of the lane that a WRITE to the lane table addresses. -/
def State.lanePlan (s : State) (q : Request) : LanePlan := s.bsq.get (laneOf q.a7.toNat)

/-- That lane with row `r` and plan `p`. -/
def State.withRow (s : State) (q : Request) (r : LaneRow) (p : LanePlan) : State :=
  { s with gtu := { s.gtu with table := s.gtu.table.set (laneOf q.a7.toNat) r }
           bsq := s.bsq.set (laneOf q.a7.toNat) p }

/-- A discarded status (R133). -/
def discarded (p : LanePlan) : LanePlan := { p with pocketState := .fault, stale := true, statusAge := none }

/-- The last renewal lies further in the past than a limit in ms (R131). -/
abbrev OlderThan (p : LanePlan) (limitMs : Nat) : Prop := ∃ age ∈ p.statusAge, limitMs * 25000 < age

/-- The plan of the lane that a WRITE to the batch table addresses (R123). -/
def State.batchPlan (s : State) (q : Request) : LanePlan := s.bsq.get (laneOf (q.a7.toNat / 16))

/-- The batch entry it addresses (R123). -/
def State.batchSlot (s : State) (q : Request) : Option Batch := (s.batchPlan q).batches[q.a7.toNat % 16]?

/-- The value lies in the batch field's range, and a TARGET of slot 0 above BATCH_COUNT (R119, R123). -/
abbrev State.BatchValueFits (s : State) (q : Request) : Prop :=
  (q.a8 = 0 ∧ 1 ≤ q.writeValue.toNat ∧ q.writeValue.toNat ≤ 65535 ∧
      (q.a7.toNat % 16 = 0 → (s.batchPlan q).count < q.writeValue.toNat)) ∨
    (q.a8 = 1 ∧ q.writeValue.toNat ≤ 1) ∨ (q.a8 = 2 ∧ q.writeValue.toNat ≤ 15) ∨
    (q.a8 = 3 ∧ q.writeValue.toNat ≤ 65535) ∨ (q.a8 = 4 ∧ q.writeValue.toNat ≤ 1)

/-- A batch entry with field 0 TARGET, 1 MODE, 2 GAP, 3 TAG or 4 LOOP written (R123). -/
def writtenBatch (b : Batch) (field v : Nat) : Batch :=
  { target := if field = 0 then v else b.target
    mode := if field = 1 then (if v = 1 then .flag else .gap) else b.mode
    gap := if field = 2 then v else b.gap
    tag := if field = 3 then BitVec.ofNat 16 v else b.tag
    loop := if field = 4 then decide (v = 1) else b.loop }

/-- The written slot map with the entry a WRITE addresses, field 1 for SLOT_0 to 4 for SLOT_3 (10.6). -/
def State.mapWith (s : State) (q : Request) : SlotMap :=
  let v : BitVec 5 := q.writeValue.setWidth 5
  { s0 := if q.a8 = 1 then v else s.rif.written.s0
    s1 := if q.a8 = 2 then v else s.rif.written.s1
    s2 := if q.a8 = 3 then v else s.rif.written.s2
    s3 := if q.a8 = 4 then v else s.rif.written.s3 }

/-- Every argument of an APPEND_BATCH is in range (R119, R120, R175). -/
abbrev Request.AppendFits (q : Request) : Prop :=
  q.a6.toNat ≤ 5 ∧ 1 ≤ (q.a7 ++ q.a8 : BitVec 16).toNat ∧ q.a11.toNat ≤ 1 ∧ q.a12.toNat ≤ 15 ∧ q.a13.toNat ≤ 1

/-- Argument `k` is the first out of range: lane 0, target 1, mode 3, gap 4, loop 5; no tag is (R120, R175). -/
abbrev Request.AppendFault (q : Request) (k : Nat) : Prop :=
  (k = 0 ∧ 5 < q.a6.toNat) ∨
    (k = 1 ∧ q.a6.toNat ≤ 5 ∧ (q.a7 ++ q.a8 : BitVec 16).toNat = 0) ∨
    (k = 3 ∧ q.a6.toNat ≤ 5 ∧ 1 ≤ (q.a7 ++ q.a8 : BitVec 16).toNat ∧ 1 < q.a11.toNat) ∨
    (k = 4 ∧ q.a6.toNat ≤ 5 ∧ 1 ≤ (q.a7 ++ q.a8 : BitVec 16).toNat ∧ q.a11.toNat ≤ 1 ∧ 15 < q.a12.toNat) ∨
    (k = 5 ∧ q.a6.toNat ≤ 5 ∧ 1 ≤ (q.a7 ++ q.a8 : BitVec 16).toNat ∧ q.a11.toNat ≤ 1 ∧ q.a12.toNat ≤ 15 ∧
      1 < q.a13.toNat)

/-! ### Invariants -/

/-- Every queue and list within the capacity of 00_scope.md 3.2, every counter within the range of its table. -/
structure State.WithinCapacity (s : State) : Prop where
  /-- R155. -/
  records : s.rif.records.length ≤ 32
  /-- R156. -/
  replies : s.rif.replies.length ≤ 8
  /-- R160. -/
  requests : s.mge.requests.length ≤ 4
  /-- R119. -/
  batches : ∀ i, (s.bsq.get i).batches.length ≤ 16
  /-- R81. -/
  splices : s.trc.splices.length ≤ 4
  /-- R66. -/
  decided : s.trc.decided ≤ 32768
  /-- R3. -/
  depth : (s.psu.hw - s.psu.wpos).toNat ≤ 2147483647
  /-- R8. -/
  speed : s.psu.spd ≤ 262143
  /-- 1.5. -/
  windowMs : s.psu.windowMs ∈ [1, 2, 4, 8]
  /-- 13.4: bits 21 to 31 name no flag. -/
  flags : s.mge.flags &&& 0xFFE00000#32 = 0
  /-- R169. -/
  mask : s.mge.mask &&& 0xFFE00000#32 = 0

/-- One lane's plan as chapter 8 keeps it: every entry in its ranges (R119), BATCH_COUNT below the head's TARGET and 0
without a head (R125), the gap countdown at most 15 (R119, R126), and the status timer running exactly while the lane is
fresh (R131, R133). -/
structure LanePlan.Sound (p : LanePlan) : Prop where
  targets : ∀ b ∈ p.batches, 1 ≤ b.target ∧ b.target ≤ 65535 ∧ b.gap ≤ 15
  count : ∀ b, p.batches.head? = some b → p.count < b.target
  noHead : p.batches = [] → p.count = 0
  gap : p.gap ≤ 15
  timer : p.statusAge.isSome = !p.stale

/-- What each block keeps between its own pieces of state. -/
structure State.Coherent (s : State) : Prop where
  /-- Chapter 8, in every lane. -/
  plans : ∀ i, (s.bsq.get i).Sound
  /-- R86: the fire watch is armed exactly while an entry is. -/
  fireWatch : s.ksq.fireWatch.isSome = s.ksq.armed.isSome
  /-- R90: the pulse timer runs, and a pulse has an owner, exactly while the pulse state is PULSE. -/
  pulseTimer : s.ksq.pulseTimer.isSome = s.ksq.pulse
  owner : s.ksq.owner.isSome = s.ksq.pulse
  /-- R92, R99: while KNIFE_INHIBIT is seen asserted the inhibit latch is set. -/
  inhibit : s.inhibitLine = true → s.ksq.inhibitLatch = true
  /-- R91: the recovery timer runs as long as a pulse does, so no pulse begins while one runs. -/
  recovering : s.ksq.pulse = true → s.ksq.recoveryTimer.isSome = true
  /-- R88, R93: no pulse is driven while the inhibit latch is set. -/
  noPulse : s.ksq.inhibitLatch = true → s.ksq.pulse = false
  /-- R138: BLIND is clear exactly in stage 0. -/
  blind : s.jbc.blind = true ↔ s.jbc.hbStage ≠ .alive
  /-- R148, R159: an UP link is framed. -/
  framed : s.rif.link = .up → s.rif.linkTimer.isSome = true ∧
    ∃ n k, s.rif.slots = some n ∧ s.rif.slot = some k ∧ 4 ≤ n ∧ n ≤ 32 ∧ k < n

/-- The queue's RSNs run without a hole up to the last one given (R62). -/
def rsnsEndAt : List Entry → Rsn → Prop
  | [], _ => True
  | e :: rest, next => e.rsn = next - BitVec.ofNat 16 (rest.length + 1) ∧ rsnsEndAt rest next

/-- MRU as chapter 4 keeps it under the job table `t`. -/
structure Mru.Sound (t : JobTable) (m : Mru) : Prop where
  /-- R52: the window end is armed in CAPTURE and LOCKED alone, and there a window is held. -/
  watch : m.watch = true ↔ m.reg = .capture ∨ m.reg = .locked
  window : m.watch = true → m.window.isSome = true
  /-- R52: MISS_RUN is below MISS_LIMIT while the window end is armed, and never above 15. -/
  missRun : (m.watch = true → m.missRun < t.missLimit) ∧ m.missRun ≤ 15
  /-- R50: the in-window run is below LOCK_COUNT in CAPTURE, and never above 8. -/
  run : (m.reg = .capture → m.run < t.lockCount) ∧ m.run ≤ 8

/-- The job, and what it keeps in the blocks (R15, R20, R22, R41, R62). -/
structure State.JobDiscipline (s : State) : Prop where
  /-- R15: outside RUN and DRAIN nothing is tracked, armed or driven, and supervision stands still. -/
  quiet : s.jbc.job = .idle ∨ s.jbc.job = .halt →
    s.trc.queue = [] ∧ s.trc.window = [] ∧ s.trc.splices = [] ∧ s.mru.reg = .idle ∧ s.mru.watch = false ∧
      s.ksq.armed = none ∧ s.ksq.pulse = false ∧ s.jbc.tailPending = false ∧ s.jbc.hbTimer = none
  /-- R62. -/
  numbered : rsnsEndAt s.trc.queue s.trc.nextRsn
  /-- R75: the verdict window holds at most 64 records, with distinct RSNs from NEXT_RSN to NEXT_RSN + 63. -/
  window : s.trc.window.length ≤ 64 ∧ (s.trc.window.map HeldVerdict.rsn).Nodup ∧
    ∀ h ∈ s.trc.window, 0 ≤ (h.rsn - s.trc.nextRsn).toInt ∧ (h.rsn - s.trc.nextRsn).toInt ≤ 63
  /-- R111: with no entry undecided the gate word holds REJECT in every lane. -/
  gates : s.trc.queue = [] → ∀ i, s.gtu.gateWord.get i = .reject
  /-- R22: no entry but the newest is the tail. -/
  newest : ∀ e ∈ s.trc.queue.dropLast, e.tail = false
  /-- R22: with the tail in the queue the job is in DRAIN, no tail is pending, and MRU is in IDLE. -/
  tail : ∀ e ∈ s.trc.queue, e.tail = true →
    s.jbc.job = .drain ∧ s.jbc.tailPending = false ∧ s.mru.reg = .idle ∧ s.mru.watch = false
  /-- R22, R23: a tail is pending in DRAIN alone. -/
  pending : s.jbc.tailPending = true → s.jbc.job = .drain
  /-- R14, R34: the held quantities are those of the job table for the whole job. -/
  held : s.jbc.job ≠ .idle → s.jbc.held = some (quantitiesOf s.jbc.table)
  /-- R41. -/
  trim : s.jbc.job = .run ∨ s.jbc.job = .drain →
    s.jbc.table.cutOffset - 2000 ≤ s.jbc.ocEff ∧ s.jbc.ocEff ≤ s.jbc.table.cutOffset + 2000
  /-- R138, R140. -/
  supervised : s.jbc.hbTimer.isSome = true ↔ (s.jbc.job = .run ∨ s.jbc.job = .drain) ∧ s.jbc.hbStage ≠ .expired
  /-- 2.1: MISS_LIMIT and LOCK_COUNT are in their ranges from reset on. -/
  limits : 1 ≤ s.jbc.table.missLimit ∧ s.jbc.table.missLimit ≤ 15 ∧ 1 ≤ s.jbc.table.lockCount ∧ s.jbc.table.lockCount ≤ 8
  /-- Chapter 4. -/
  registration : s.mru.Sound s.jbc.table

/-- Entries, oldest first, whose marks lie at least `d` counts apart on the web behind position `h` (R36, R46). -/
def marksApart (h : Position) (d : Nat) : List Entry → Prop
  | e :: f :: rest => (h - f.mark).toNat + d ≤ (h - e.mark).toNat ∧ marksApart h d (f :: rest)
  | _ => True

/-- Why a job that passed JOB_START cannot fill the track queue (R18, R62). -/
structure State.Spaced (s : State) : Prop where
  /-- R6, R14, R16 to R18: in a job the table has passed the checks, and the excursion is within rev and not reported. -/
  job : s.jbc.job = .run ∨ s.jbc.job = .drain →
    s.jbc.table.Complete ∧ (∀ k, 1 ≤ k → k ≤ 7 → GeometryCondition s.jbc.table k) ∧ capacityNeeded s.jbc.table ≤ 128 ∧
      s.psu.reported = false ∧ (s.psu.hw - s.psu.wpos).toNat ≤ (derivedOf s.jbc.table).rev
  /-- R36, R46: entries are created at least rep_counts - w apart. -/
  apart : marksApart s.psu.hw ((derivedOf s.jbc.table).repFx / 65536 - (derivedOf s.jbc.table).w) s.trc.queue
  /-- R37, R41: no decision distance is longer than the one that R18 counts with. -/
  reach : ∀ e ∈ s.trc.queue, (e.decisionPoint - e.mark).toNat ≤
    convOf s.jbc.table (s.jbc.table.gateDist + s.jbc.table.cutOffset.natAbs + 2000)
  /-- R64 to R66: the head's decision point is armed, and ahead of HW. -/
  head : ∀ e, s.trc.queue.head? = some e →
    s.trc.watch = true ∧ (s.psu.hw - e.mark).toNat < (e.decisionPoint - e.mark).toNat
  /-- R46, R47, R49, R52: the last mark is the newest entry's. -/
  newest : ∀ e, s.trc.queue.getLast? = some e → s.mru.lastMark = some e.mark
  /-- R35, R36, R52: an armed window end lies ahead of HW, its centre rep_counts or rep_counts + 1 beyond the last mark. -/
  window : s.mru.watch = true → ∃ m win, s.mru.lastMark = some m ∧ s.mru.window = some win ∧
    win = windowOf s.mru.eInt s.mru.eFrac (derivedOf s.jbc.table).w ∧
    ((win.centre - m).toNat = (derivedOf s.jbc.table).repFx / 65536 ∨
      (win.centre - m).toNat = (derivedOf s.jbc.table).repFx / 65536 + 1) ∧
    (s.psu.hw - m).toNat < (win.centre - m).toNat + (derivedOf s.jbc.table).w

/-- Every piece is accounted for (R110), in every job state: the ten counters of each lane below the LANES of the last job
total, modulo 2^32, the entries decided since its JOB_START, and each other lane counts nothing.  While a job is not IDLE,
the entries decided are those created less those still in the queue, in the 16 bits of an RSN (R62, R63). -/
structure State.PiecesAccounted (s : State) : Prop where
  job : s.JobDiscipline
  totals : ∃ n : Nat, (s.jbc.job ≠ .idle → n = s.jbc.table.lanes) ∧ ∀ i : Lane,
    (i.val < n → (s.gtu.counters.get i).total = BitVec.ofNat 32 s.trc.decisions) ∧
    (n ≤ i.val → s.gtu.counters.get i = tallyAtReset)
  numbers : s.jbc.job ≠ .idle → BitVec.ofNat 16 s.trc.decisions =
    s.trc.nextRsn - BitVec.ofNat 16 s.jbc.table.firstRsn - BitVec.ofNat 16 s.trc.queue.length

end Sys2Proof.Machine
end

