-- ==== Sys2Proof/Certificates/Slice0/Obligations.lean ====
section
/-! DEFINITION. The statements for the provers, one `def Obligations.<Name> : Prop` each. -/

open Sys2Proof Sys2Proof.Machine

/-! ### Steps, the clock, reset -/

/-- A step on a waiting command is that command's meaning on the machine with the queue's rest. -/
def Obligations.StepRunsTheFrontCommand : Prop :=
  ∀ (c : Instr) (rest : List Instr) (s : State),
    step { s with pending := c :: rest } = exec c { s with pending := rest }

/-- The model's choice (log 2): a step on an empty queue lets one 40 ns clock period pass, and nothing at all while reset
is held. -/
def Obligations.EmptyQueueLetsOneClockPeriodPass : Prop :=
  ∀ s : State, s.pending = [] →
    (s.resetHeld = true → step s = .next s) ∧
    (s.resetHeld = false → step s = .next
      { s with
        psu := { s.psu with windowAge := s.psu.windowAge + 1 }
        ksq := { s.ksq with
          pulseTimer := s.ksq.pulseTimer.map fun n => n - 1
          recoveryTimer := s.ksq.recoveryTimer.map fun n => n - 1 }
        jbc := { s.jbc with hbTimer := s.jbc.hbTimer.map fun n => n - 1 }
        rif := { s.rif with linkTimer := s.rif.linkTimer.map fun n => n + 1 }
        bsq := Lanes.ofFn fun i =>
          { s.bsq.get i with statusAge := (s.bsq.get i).statusAge.map fun n => n + 1 } })

/-- The model's reading (log 21): no command and no state stops the part. -/
def Obligations.EveryStepAnswersANextState : Prop :=
  ∀ s : State, ∃ t, step s = .next t

/-- The machine right after reset holds the values the reset tables list, for the model's choice of straps and lines
(log 5), with no command waiting. -/
def Obligations.ResetStateHoldsTheListedValues : Prop :=
  AfterReset 5#5 false false false State.reset ∧ State.reset.pending = []

/-- DEVICE_RESET_END with reset held: every block takes its after-reset values, from what is sampled at that moment.
The model's choices: with reset not held there is no rising edge and nothing changes (log 1); RING_TX keeps the cell last
sent (log 12), and the count of free values stays (log 6). -/
def Obligations.DeviceResetEndGivesTheAfterResetState : Prop :=
  ∀ (straps : BitVec 5) (inhibit a b : Bool) (s : State),
    (s.resetHeld = true → ∃ t, exec (.deviceResetEnd straps inhibit a b) s = .next t ∧
      AfterReset straps inhibit a b t ∧ t.rif.ringTx = s.rif.ringTx ∧ t.draws = s.draws ∧ t.pending = s.pending) ∧
    (s.resetHeld = false → exec (.deviceResetEnd straps inhibit a b) s = .next s)

/-- DEVICE_RESET_ASSERT: the output lines fall and a running pulse ends.  That every block keeps its other fields while reset
is held is the model's reading (log 11). -/
def Obligations.DeviceResetAssertDrivesTheOutputsLow : Prop :=
  ∀ s : State, ∃ t, exec .deviceResetAssert s = .next t ∧
    t = { s with resetHeld := true, ksq := { s.ksq with pulse := false, pulseTimer := none, owner := none } } ∧
    t.knifeFire = false ∧ t.stopReq = false ∧ ∀ i, t.gateLine i = false

/-- While reset is held the part repeats the cells it receives and does nothing else, whatever the command (R176; for the
timers and KNIFE_INHIBIT the model's reading, log 11). -/
def Obligations.HeldResetOnlyRepeatsCells : Prop :=
  ∀ (c : Instr) (s : State), s.resetHeld = true → c ≠ .deviceResetAssert →
    (∀ p k a b, c ≠ .deviceResetEnd p k a b) →
      exec c s = .next (match carriedCell c with
        | some cell => s.repeated cell
        | none => s)

/-- The output lines follow their blocks: KNIFE_FIRE the pulse state, STOP_REQ the stop latch, each gate its setting in
the gate word unless forced; all low while reset is held. -/
def Obligations.OutputLinesFollowTheirBlocks : Prop :=
  ∀ (s : State) (i : Lane),
    (s.resetHeld = true → s.knifeFire = false ∧ s.stopReq = false ∧ s.gateLine i = false) ∧
    (s.resetHeld = false →
      s.knifeFire = s.ksq.pulse ∧ s.stopReq = s.jbc.stopLatch ∧
      ((s.jbc.stopLatch = true ∨ s.jbc.job = .idle ∨ s.jbc.job = .halt ∨ s.jbc.table.lanes ≤ i.val) →
        s.gateLine i = false) ∧
      (s.jbc.stopLatch = false ∧ (s.jbc.job = .run ∨ s.jbc.job = .drain) ∧ i.val < s.jbc.table.lanes →
        s.gateLine i = decide (s.gtu.gateWord.get i = .stack)))

/-! ### The web (chapter 1) -/

/-- What a change of the encoder lines does, with nothing armed at the position reached: an unchanged pair is no transition;
an illegal one is counted and flagged; a forward count moves WPOS alone behind HW, and both at HW, where SEARCH forgets a
last mark 2^31 - 1 counts behind; a reverse count that loses no tracking moves WPOS back, and HW with it at the depth limit
alone. -/
def Obligations.EncoderChangesMoveTheWeb : Prop :=
  ∀ (a b : Bool) (o : CrossingOrder) (s : State), s.resetHeld = false →
    (a = s.psu.encA ∧ b = s.psu.encB → exec (.encoderTransition a b o.alone) s = .next s) ∧
    (a ≠ s.psu.encA → b ≠ s.psu.encB → exec (.encoderTransition a b o.alone) s = .next
      ({ s with psu := { s.psu with
          encA := a, encB := b
          encFaults := if s.psu.encFaults = 65535#16 then 65535#16 else s.psu.encFaults + 1 } }.withEvent .encFault)) ∧
    (forwardStep s.psu.encA s.psu.encB a b → s.psu.wpos ≠ s.psu.hw →
      exec (.encoderTransition a b o.alone) s = .next
        { s with psu := { s.psu with
            encA := a, encB := b, wpos := s.psu.wpos + 1, windowCount := s.psu.windowCount + 1
            reported := s.psu.reported && decide (s.psu.wpos + 1 ≠ s.psu.hw) } }) ∧
    (forwardStep s.psu.encA s.psu.encB a b → s.psu.wpos = s.psu.hw →
      s.NoMissAt (s.psu.hw + 1) → s.NoFireAt (s.psu.hw + 1) → s.NoDecisionAt (s.psu.hw + 1) →
      exec (.encoderTransition a b o.alone) s = .next (s.forwarded a b)) ∧
    (reverseStep s.psu.encA s.psu.encB a b → ¬ LosesTracking s a b →
      exec (.encoderTransition a b o.alone) s = .next { s with psu := afterReverse s.psu a b })

/-- SEARCH forgets a last mark 2^31 - 1 counts behind HW, and the next mark there is accepted as the first of the job is;
one count earlier the last mark is still held. -/
def Obligations.SearchForgetsADistantMark : Prop :=
  ∀ (a b : Bool) (o : CrossingOrder) (s : State) (m : Position), s.AtFront a b → s.mru.reg = .search →
    s.mru.lastMark = some m → s.NoMissAt (s.psu.hw + 1) → s.NoFireAt (s.psu.hw + 1) → s.NoDecisionAt (s.psu.hw + 1) →
    ∃ t, exec (.encoderTransition a b o.alone) s = .next t ∧
      ((s.psu.hw + 1 - m).toInt = 2147483647 → t.mru = { s.mru with lastMark := none } ∧
        ∃ u, exec .markEdge t = .next u ∧ EntryCreated t u .seen (s.psu.hw + 1) (some 0) .fault) ∧
      ((s.psu.hw + 1 - m).toInt ≠ 2147483647 → t.mru = s.mru)

/-- One advance of HW takes what falls together with the count in its turn: before each crossing the marks and window ends
that the operand puts there, each as its own command would be taken; without an advance they are taken after the count.
The turns are an operand, the model's choice (log 4).  Where a decision is due at the advance, what the turns create is
offered for cutting after them, so that the decision finds it PENDING (the model's reading of R65, log 29). -/
def Obligations.MeetingsAreTakenInTheirTurn : Prop :=
  ∀ (a b : Bool) (o : Turns) (s : State), s.resetHeld = false →
    (s.AtFront a b → s.NoDecisionAt (s.psu.hw + 1) → exec (.encoderTransition a b o) s = .next
      ((((((s.advanced a b).afterMeetings o.first).cross true (blocksOf o.order).1).afterMeetings o.second).cross true
        (blocksOf o.order).2.1).afterMeetings o.third |>.cross true (blocksOf o.order).2.2)) ∧
    (s.AtFront a b → ¬ s.NoDecisionAt (s.psu.hw + 1) →
      let t := (((((s.advanced a b).meet false o.first).cross false (blocksOf o.order).1).meet false o.second).cross false
        (blocksOf o.order).2.1).meet false o.third |>.cross false (blocksOf o.order).2.2
      exec (.encoderTransition a b o) s = .next (if t.trc.nextRsn = s.trc.nextRsn then t else t.offerForCutting)) ∧
    (¬ s.AtFront a b → ∃ t, exec (.encoderTransition a b o.order.alone) s = .next t ∧
      exec (.encoderTransition a b o) s = .next (t.afterMeetings (o.first ++ o.second ++ o.third)))

/-- A reverse count beyond rev in RUN or DRAIN: the queue flushed, the knife disarmed, TRACK_LOST, the stop latch, HALT. -/
def Obligations.ReverseExcursionHaltsTheJob : Prop :=
  ∀ (a b : Bool) (o : CrossingOrder) (s : State), s.resetHeld = false →
    reverseStep s.psu.encA s.psu.encB a b → LosesTracking s a b →
      ∃ t, exec (.encoderTransition a b o.alone) s = .next t ∧ Flushed s t ∧ t.flag .trackLost = true ∧
        t.psu = { afterReverse s.psu a b with reported := true } ∧
        t.jbc = { s.jbc with job := .halt, tailPending := false, hbTimer := none, stopLatch := true } ∧
        t.mru = { s.mru with reg := .idle, watch := false } ∧
        t.ksq = { s.ksq with armed := none, fireWatch := none, pulse := false, pulseTimer := none, owner := none } ∧
        t.rif = { s.rif with records := t.rif.records } ∧
        t.mge = { s.mge with flags := t.mge.flags, mailbox := t.mge.mailbox } ∧
        t.inhibitLine = s.inhibitLine ∧ t.resetHeld = false ∧ t.draws = s.draws ∧ t.pending = s.pending

/-- SPEED_WINDOW_EXPIRY of a window that has run its length: SPD measured, the next window begun, and the armed entry's F
computed anew from the new SPD; ahead of HW the watch moves there, and with nothing armed KSQ is left as it was.  A window
that has time left does not expire (the model's reading, log 3). -/
def Obligations.SpeedWindowExpiryMeasuresTheSpeed : Prop :=
  ∀ s : State, s.resetHeld = false →
    (¬ s.WindowRunOut → exec .speedWindowExpiry s = .next s) ∧
    (s.WindowRunOut → s.ksq.armed = none → exec .speedWindowExpiry s = .next { s with psu := afterWindow s }) ∧
    (∀ r e, s.WindowRunOut → s.ksq.armed = some r → s.trc.queue.find? (fun x => x.rsn == r) = some e →
      (s.psu.hw - fireAt (afterWindow s).spd s.jbc.table.knifeLag e).toInt < 0 →
        exec .speedWindowExpiry s = .next
          { s with psu := afterWindow s
                   ksq := { s.ksq with fireWatch := some (fireAt (afterWindow s).spd s.jbc.table.knifeLag e) } })

/-- A recomputed F at or behind HW: the fire is taken at once, DONE_LATE or LATE_FAULT with CUT_LATE by its lateness, or
SUPPRESSED while the knife is blocked, and the next entry is armed.  The same when the window end is taken first at the
advance that reaches the watched F: an F ahead moves the watch, and an F at HW is a late fire, at lateness 0 too. -/
def Obligations.RecomputedFirePointReachedIsALateFire : Prop :=
  ∀ (s : State) (r : Rsn) (e : Entry), s.WindowRunOut → s.ksq.armed = some r →
    s.trc.queue.find? (fun x => x.rsn == r) = some e → (s.trc.queue.map Entry.rsn).Nodup →
    (∀ u : State, s.resetHeld = false → u = { s with psu := afterWindow s } → 0 ≤ u.lateness e →
      exec .speedWindowExpiry s = .next (u.fired r (u.lateCut (u.lateness e)))) ∧
    (∀ (a b : Bool) (o : CrossingOrder) (u : State), s.AtFront a b → s.ksq.fireWatch = some (s.psu.hw + 1) →
      s.NoMissAt (s.psu.hw + 1) → s.NoDecisionAt (s.psu.hw + 1) →
      u = { s.forwarded a b with psu := afterWindow (s.advanced a b) } →
      (u.lateness e < 0 → exec (.encoderTransition a b { o.alone with first := [.windowEnd] }) s = .next
        { u with ksq := { s.ksq with fireWatch := some (fireAt u.speed s.jbc.table.knifeLag e) } }) ∧
      (0 ≤ u.lateness e → exec (.encoderTransition a b { o.alone with first := [.windowEnd] }) s = .next
        (u.fired r (u.lateCut (u.lateness e)))))

/-! ### Marks (chapter 4) -/

/-- A replay, a mark taken in IDLE, and a stray create no entry; a stray alone is counted.  That a mark in CAPTURE or LOCKED
with no window held is a stray is the model's choice (log 16). -/
def Obligations.MarksThatCreateNoEntry : Prop :=
  ∀ s : State, s.resetHeld = false →
    (s.psu.wpos ≠ s.psu.hw ∨ s.mru.reg = .idle → exec .markEdge s = .next s) ∧
    (s.psu.wpos = s.psu.hw ∧ s.mru.reg = .search ∧ s.TooNear s.psu.wpos ∨
      s.psu.wpos = s.psu.hw ∧ (s.mru.reg = .capture ∨ s.mru.reg = .locked) ∧ s.BeforeWindow s.psu.wpos →
        exec .markEdge s = .next { s with mru := { s.mru with
          strayMarks := if s.mru.strayMarks = 65535#16 then 65535#16 else s.mru.strayMarks + 1 } })

/-- A mark in SEARCH that passes the spacing test: a FAULT entry at the mark, E and the window set from it, and CAPTURE;
for the tail MRU ends in IDLE. -/
def Obligations.MarkInSearchCreatesAFaultEntry : Prop :=
  ∀ s : State, s.resetHeld = false → s.psu.wpos = s.psu.hw → s.mru.reg = .search → ¬ s.TooNear s.psu.wpos →
    ∃ t, exec .markEdge s = .next t ∧ EntryCreated s t .seen s.psu.wpos (some 0) .fault ∧ t.psu = s.psu ∧
      (s.jbc.tailPending = false → t.mru = { s.anchoredAt s.psu.wpos with
        lastRegErr := 0, lastMark := some s.psu.wpos, missRun := 0, run := 0, reg := .capture, watch := true }) ∧
      (s.jbc.tailPending = true → t.mru = { s.anchoredAt s.psu.wpos with
        lastRegErr := 0, lastMark := some s.psu.wpos, missRun := 0, run := 0, reg := .idle, watch := false })

/-- A mark in CAPTURE or LOCKED at the window's opening or beyond: REG_ERR from the window's centre, the lock count, the
judgement of R51, and the window moved on; for the tail E stands and MRU ends in IDLE. -/
def Obligations.MarkInWindowCreatesAJudgedEntry : Prop :=
  ∀ (s : State) (win : MarkWindow), s.resetHeld = false → s.psu.wpos = s.psu.hw →
    (s.mru.reg = .capture ∨ s.mru.reg = .locked) → s.mru.window = some win → ¬ s.BeforeWindow s.psu.wpos →
    ∃ t, exec .markEdge s = .next t ∧ t.psu = s.psu ∧
      EntryCreated s t .seen s.psu.wpos (some (s.psu.wpos - win.centre).toInt)
        (if s.lockedAfterMark = true ∧ (s.psu.wpos - win.centre).toInt.natAbs ≤ s.quantities.tol then .ok else .fault) ∧
      (s.mru.reg = .capture → s.lockedAfterMark = true → t.flag .lockGained = true) ∧
      t.mru.lastRegErr = (s.psu.wpos - win.centre).toInt ∧ t.mru.lastMark = some s.psu.wpos ∧ t.mru.missRun = 0 ∧
      t.mru.run = (if s.mru.reg = .capture then s.mru.run + 1 else s.mru.run) ∧
      t.mru.strayMarks = s.mru.strayMarks ∧
      (s.jbc.tailPending = false →
        t.mru.eInt = (s.anchoredAt s.psu.wpos).eInt ∧ t.mru.eFrac = (s.anchoredAt s.psu.wpos).eFrac ∧
        t.mru.window = (s.anchoredAt s.psu.wpos).window ∧ t.mru.watch = true ∧
        t.mru.reg = (if s.lockedAfterMark then .locked else .capture)) ∧
      (s.jbc.tailPending = true →
        t.mru.eInt = s.mru.eInt ∧ t.mru.eFrac = s.mru.eFrac ∧ t.mru.window = s.mru.window ∧
          t.mru.watch = false ∧ t.mru.reg = .idle)

/-- A miss at the armed window end: a synthesized entry at the window's centre, MISS_RUN, E advanced by one repeat, and at
MISS_LIMIT back to SEARCH; for the tail E stands and MRU ends in IDLE. -/
def Obligations.MissSynthesizesAMark : Prop :=
  ∀ (a b : Bool) (o : CrossingOrder) (s : State) (win : MarkWindow), s.AtFront a b →
    (s.mru.reg = .capture ∨ s.mru.reg = .locked) → s.mru.watch = true → s.mru.window = some win →
    win.ending = s.psu.hw + 1 → s.NoDecisionAt (s.psu.hw + 1) →
    (s.trc.queue = [] → (placed s.jbc.table s.jbc.ocEff win.centre).2 ≠ s.psu.hw + 1) →
    ∃ t, exec (.encoderTransition a b o.alone) s = .next t ∧
      (s.ksq.armed.isSome = true → s.NoFireAt (s.psu.hw + 1) → t.ksq = s.ksq) ∧
      EntryCreated (s.advanced a b) t .synth win.centre none
        (if s.mru.reg = .locked ∧ s.mru.missRun + 1 < s.jbc.table.missLimit then .ok else .fault) ∧
      t.flag .markMiss = true ∧
      (s.mru.reg = .locked → s.mru.missRun + 1 = s.jbc.table.missLimit → t.flag .lockLost = true) ∧
      t.mru.missRun = s.mru.missRun + 1 ∧ t.mru.lastMark = some win.centre ∧ t.mru.lastRegErr = s.mru.lastRegErr ∧
      t.mru.run = (if s.mru.reg = .capture then 0 else s.mru.run) ∧ t.mru.strayMarks = s.mru.strayMarks ∧
      (s.jbc.tailPending = false →
        t.mru.eInt = s.steppedMru.eInt ∧ t.mru.eFrac = s.steppedMru.eFrac ∧ t.mru.window = s.steppedMru.window ∧
        (s.mru.missRun + 1 = s.jbc.table.missLimit → t.mru.reg = .search ∧ t.mru.watch = false) ∧
        (s.mru.missRun + 1 ≠ s.jbc.table.missLimit → t.mru.reg = s.mru.reg ∧ t.mru.watch = true)) ∧
      (s.jbc.tailPending = true →
        t.mru.eInt = s.mru.eInt ∧ t.mru.eFrac = s.mru.eFrac ∧ t.mru.window = s.mru.window ∧ t.mru.reg = .idle ∧
          t.mru.watch = false)

/-- A mark at the window end, taken before the crossing of it: accepted with REG_ERR +w, the window moved on, and no miss
taken.  (For a next window that does not end at HW again, as a repeat of any length makes sure, and an entry that is not
the only one with its S at HW.) -/
def Obligations.MarkFirstAtTheWindowEndTakesNoMiss : Prop :=
  ∀ (a b : Bool) (o : CrossingOrder) (s : State) (win : MarkWindow), s.AtFront a b →
    (s.mru.reg = .capture ∨ s.mru.reg = .locked) → s.mru.watch = true → s.mru.window = some win →
    win.ending = s.psu.hw + 1 → win.ending = win.centre + BitVec.ofNat 32 s.quantities.w →
    s.quantities.w < 2147483648 → ¬ s.BeforeWindow win.ending →
    (s.anchoredAt win.ending).window.map MarkWindow.ending ≠ some win.ending →
    s.NoFireAt (s.psu.hw + 1) → s.NoDecisionAt (s.psu.hw + 1) →
    (s.trc.queue = [] → (placed s.jbc.table s.jbc.ocEff win.ending).2 ≠ s.psu.hw + 1) →
    ∃ t, exec (.encoderTransition a b { o.alone with first := [.mark] }) s = .next t ∧
      EntryCreated (s.advanced a b) t .seen win.ending (some (s.quantities.w : Int))
        (if s.lockedAfterMark = true ∧ s.quantities.w ≤ s.quantities.tol then .ok else .fault) ∧
      t.flag .markMiss = s.flag .markMiss ∧ t.mru.missRun = 0 ∧ t.mru.lastMark = some win.ending ∧
      t.mru.lastRegErr = (s.quantities.w : Int) ∧ t.mru.strayMarks = s.mru.strayMarks ∧
      (s.jbc.tailPending = false → t.mru.window = (s.anchoredAt win.ending).window ∧ t.mru.watch = true)

/-! ### The knife (chapter 6) -/

/-- Every new entry is offered to KSQ, whether it comes from a mark in SEARCH, a mark in a window or a miss: with nothing
armed KSQ arms it, watches an F ahead of HW, and takes an F that HW has reached as a late fire at once; with an entry armed
the new one waits PENDING behind it, and no CUT changes.  (For RSNs that are distinct, as R62 makes them; and for the miss,
no fire at the same advance.) -/
def Obligations.NewEntryIsOfferedToTheKnife : Prop :=
  (∀ (s : State) (e : Entry), s.resetHeld = false → s.psu.wpos = s.psu.hw → s.mru.reg = .search →
    ¬ s.TooNear s.psu.wpos → e = s.entryFor .seen s.psu.wpos (some 0) .fault →
    ((s.trc.queue ++ [e]).map Entry.rsn).Nodup →
    ∃ t, exec .markEdge s = .next t ∧ Offered s t [] e []) ∧
  (∀ (s : State) (win : MarkWindow) (e : Entry), s.resetHeld = false → s.psu.wpos = s.psu.hw →
    (s.mru.reg = .capture ∨ s.mru.reg = .locked) → s.mru.window = some win → ¬ s.BeforeWindow s.psu.wpos →
    e = s.entryFor .seen s.psu.wpos (some (s.psu.wpos - win.centre).toInt)
      (if s.lockedAfterMark = true ∧ (s.psu.wpos - win.centre).toInt.natAbs ≤ s.quantities.tol then .ok else .fault) →
    ((s.trc.queue ++ [e]).map Entry.rsn).Nodup →
    ∃ t, exec .markEdge s = .next t ∧
      Offered s t (if s.mru.reg = .capture ∧ s.lockedAfterMark = true then [.lockGained] else []) e []) ∧
  (∀ (a b : Bool) (o : CrossingOrder) (s : State) (win : MarkWindow) (e : Entry), s.AtFront a b →
    (s.mru.reg = .capture ∨ s.mru.reg = .locked) → s.mru.watch = true → s.mru.window = some win →
    win.ending = s.psu.hw + 1 → s.NoFireAt (s.psu.hw + 1) → s.NoDecisionAt (s.psu.hw + 1) →
    (s.trc.queue = [] → (placed s.jbc.table s.jbc.ocEff win.centre).2 ≠ s.psu.hw + 1) →
    e = s.entryFor .synth win.centre none
      (if s.mru.reg = .locked ∧ s.mru.missRun + 1 < s.jbc.table.missLimit then .ok else .fault) →
    ((s.trc.queue ++ [e]).map Entry.rsn).Nodup →
    ∃ t, exec (.encoderTransition a b o.alone) s = .next t ∧
      Offered (s.advanced a b) t [] e
        (.markMiss :: if s.mru.reg = .locked ∧ s.mru.missRun + 1 = s.jbc.table.missLimit then [.lockLost] else []))

/-- The crossing of the armed entry's F: the knife is fired on time, or the cut suppressed, and the next entry is armed,
its own fire taken at once if HW has reached its F.  (For RSNs that are distinct, as R62 makes them.) -/
def Obligations.CrossingTheFirePointFiresTheKnife : Prop :=
  ∀ (a b : Bool) (o : CrossingOrder) (s : State) (r : Rsn), s.AtFront a b →
    s.NoMissAt (s.psu.hw + 1) → s.NoDecisionAt (s.psu.hw + 1) →
    s.ksq.armed = some r → s.ksq.fireWatch = some (s.psu.hw + 1) → (s.trc.queue.map Entry.rsn).Nodup →
    exec (.encoderTransition a b o.alone) s = .next
      ((s.forwarded a b).fired r (if s.Blocked then .suppressed else .done))

/-- KNIFE_INHIBIT_ASSERTED: the inhibit latch, INHIBIT and the stop latch, and a running pulse ended with its owner's CUT
SUPPRESSED while it is in the queue; a line already seen asserted makes no assertion.  KNIFE_INHIBIT_RELEASED and the
expiries of the pulse and recovery timers change what their rules name and nothing else.  A timer that is stopped or has
time left does not expire (log 3), nor the recovery timer while a pulse runs (log 20). -/
def Obligations.KnifeInputAndTimersFollowTheirRules : Prop :=
  ∀ s : State, s.resetHeld = false →
    (s.ksq.pulse = true → s.ksq.pulseTimer = some 0 → exec .pulseTimerExpiry s = .next
      { s with ksq := { s.ksq with pulse := false, owner := none, pulseTimer := none } }) ∧
    (s.ksq.pulse = false ∨ s.ksq.pulseTimer ≠ some 0 → exec .pulseTimerExpiry s = .next s) ∧
    (s.ksq.recoveryTimer = some 0 → s.ksq.pulse = false →
      exec .recoveryTimerExpiry s = .next { s with ksq := { s.ksq with recoveryTimer := none } }) ∧
    (s.ksq.recoveryTimer ≠ some 0 ∨ s.ksq.pulse = true → exec .recoveryTimerExpiry s = .next s) ∧
    exec .knifeInhibitReleased s = .next { s with inhibitLine := false } ∧
    (s.inhibitLine = true → exec .knifeInhibitAsserted s = .next s) ∧
    (s.inhibitLine = false → s.ksq.pulse = false → exec .knifeInhibitAsserted s = .next
      ({ s with inhibitLine := true, ksq := { s.ksq with inhibitLatch := true },
                jbc := { s.jbc with stopLatch := true } }.withEvent .inhibit)) ∧
    (s.inhibitLine = false → s.ksq.pulse = true →
      (∀ r, s.ksq.owner = some r → ∀ e ∈ s.trc.queue, e.rsn ≠ r) →
        exec .knifeInhibitAsserted s = .next
          ({ s with
              inhibitLine := true, jbc := { s.jbc with stopLatch := true }
              ksq := { s.ksq with inhibitLatch := true, pulse := false, owner := none, pulseTimer := none } }.withEvent
            .inhibit)) ∧
    (∀ r e, s.inhibitLine = false → s.ksq.pulse = true → s.ksq.owner = some r → e ∈ s.trc.queue → e.rsn = r →
      exec .knifeInhibitAsserted s = .next
        (({ s with
            inhibitLine := true, jbc := { s.jbc with stopLatch := true }
            ksq := { s.ksq with inhibitLatch := true, pulse := false, owner := none, pulseTimer := none }
            trc := { s.trc with
              queue := s.trc.queue.map fun x : Entry => if x.rsn = r then { x with cut := .suppressed } else x }
          }.withEvent .cutSuppressed).withEvent .inhibit))

/-! ### Decisions (chapter 7) -/

/-- The cause order of R101: each code is given exactly when its cause holds and none before it does. -/
def Obligations.CodesFollowTheCauseOrder : Prop :=
  ∀ (s : State) (h : Handover) (i : Lane),
    (s.laneCode h i = .rejHold ↔ Hold s h) ∧
    (s.laneCode h i = .rejCut ↔ ¬ Hold s h ∧ CutMissing h) ∧
    (s.laneCode h i = .rejRegister ↔ ¬ Hold s h ∧ ¬ CutMissing h ∧ h.entry.regFlag = .fault) ∧
    (s.laneCode h i = .rejSplice ↔ WholeEntryGoodBut s h ∧ h.inSplice = true) ∧
    (s.laneCode h i = .rejLane ↔ WholeEntryGoodBut s h ∧ h.inSplice = false ∧ NoWork s i) ∧
    (s.laneCode h i = .rejInspect ↔
      WholeEntryGoodBut s h ∧ h.inSplice = false ∧ ¬ NoWork s i ∧ Inspected s h i = some .rejInspect) ∧
    (s.laneCode h i = .rejUnknown ↔
      WholeEntryGoodBut s h ∧ h.inSplice = false ∧ ¬ NoWork s i ∧ Inspected s h i = some .rejUnknown) ∧
    (s.laneCode h i = .rejStacker ↔
      WholeEntryGoodBut s h ∧ h.inSplice = false ∧ ¬ NoWork s i ∧ Inspected s h i = none ∧ StackerNotReady s i) ∧
    (s.laneCode h i = .rejGap ↔
      WholeEntryGoodBut s h ∧ h.inSplice = false ∧ ¬ NoWork s i ∧ Inspected s h i = none ∧ ¬ StackerNotReady s i ∧
        0 < (s.bsq.get i).gap) ∧
    (s.laneCode h i = .stacked ↔
      WholeEntryGoodBut s h ∧ h.inSplice = false ∧ ¬ NoWork s i ∧ Inspected s h i = none ∧ ¬ StackerNotReady s i ∧
        (s.bsq.get i).gap = 0)

/-- The crossing of the head's S decides it: GTU takes the decision whole, the entry leaves the queue, and the next head is
watched.  (For a head that is no tail, and a next head whose S lies ahead, or none.)  A head with no successor when the
advance begins, its own cut taken, is rejected for its cut, or held, whatever the advance creates and in every order: a
creation taken first leaves it a successor with CUT PENDING (log 29).  (With a place left for its record.) -/
def Obligations.CrossingTheDecisionPointDecidesTheHead : Prop :=
  (∀ (a b : Bool) (o : CrossingOrder) (s : State) (e : Entry) (rest : List Entry), s.AtFront a b →
    s.NoMissAt (s.psu.hw + 1) → s.NoFireAt (s.psu.hw + 1) → s.trc.watch = true → s.trc.queue = e :: rest →
    e.decisionPoint = s.psu.hw + 1 → e.tail = false →
    (∀ x, rest.head? = some x → (s.psu.hw + 1 - x.decisionPoint).toInt < 0) →
    ∃ u, DecisionTaken (s.forwarded a b) (s.handover e rest) u ∧
      exec (.encoderTransition a b o.alone) s = .next (u.headLeft e rest)) ∧
  (∀ (a b : Bool) (o : Turns) (s : State) (e : Entry), s.AtFront a b → s.trc.watch = true → s.trc.queue = [e] →
    e.decisionPoint = s.psu.hw + 1 → s.ksq.armed = none → s.rif.records.length < 32 →
    ∃ t d more, exec (.encoderTransition a b o) s = .next t ∧
      t.rif.records = s.rif.records ++ .disposition d :: more ∧ d.rsn = e.rsn ∧
      ∀ i : Lane, i.val < s.jbc.table.lanes →
        d.codes.get i = if Hold s (s.handover e []) then .rejHold else .rejCut)

/-- A run of decisions at one advance of HW: the head's crossing decides it, and then every new head that HW has reached,
oldest first, each seeing the machine as the decision before it left it; the tail's decision ends the job.  (With the tail
in the queue MRU is in IDLE, R22.) -/
def Obligations.HeadsAlreadyReachedAreDecidedAtOnce : Prop :=
  ∀ (a b : Bool) (o : CrossingOrder) (s : State) (e : Entry) (rest : List Entry), s.AtFront a b →
    s.NoMissAt (s.psu.hw + 1) → s.NoFireAt (s.psu.hw + 1) → s.trc.watch = true → s.trc.queue = e :: rest →
    e.decisionPoint = s.psu.hw + 1 → (∀ x ∈ s.trc.queue.dropLast, x.tail = false) →
    (∀ x ∈ s.trc.queue, x.tail = true → s.mru.reg = .idle) →
    ∃ t, DecisionRun (s.forwarded a b) s.trc.queue t ∧ exec (.encoderTransition a b o.alone) s = .next t

/-- A decision in whatever state it is taken, of a crossing or of a flush: counters, gates, batches, records and events by
their rules, and nothing else; each lane below LANES counts exactly one piece, and each other lane none. -/
def Obligations.EveryDecisionCountsOnePieceForEachLane : Prop :=
  ∀ (s : State) (h : Handover),
    DecisionTaken s h (s.takeDecision h) ∧
    ∀ i : Lane,
      (i.val < s.jbc.table.lanes →
        ((s.takeDecision h).gtu.counters.get i).total = (s.gtu.counters.get i).total + 1) ∧
      (s.jbc.table.lanes ≤ i.val → (s.takeDecision h).gtu.counters.get i = s.gtu.counters.get i)

/-- What the head's crossing does to a lane's batch: the gap counts down by one repeat; a STACKED piece below TARGET is
counted; at TARGET the batch completes, with its STACK_CHANGE record.  The decision whose completions leave every enabled
lane below LANES without a batch, however many lanes it empties, is the automatic end: the stop latch, and from RUN a drain
with its tail pending.  A completion that leaves such a lane a batch is not. -/
def Obligations.StackedPiecesFillBatchesAndEmptyingTheLastListEndsTheJob : Prop :=
  ∀ (a b : Bool) (o : CrossingOrder) (s : State) (e : Entry) (rest : List Entry), s.AtFront a b →
    s.NoMissAt (s.psu.hw + 1) → s.NoFireAt (s.psu.hw + 1) → s.trc.watch = true → s.trc.queue = e :: rest →
    e.decisionPoint = s.psu.hw + 1 → e.tail = false →
    (∀ x, rest.head? = some x → (s.psu.hw + 1 - x.decisionPoint).toInt < 0) →
    ∃ t, exec (.encoderTransition a b o.alone) s = .next t ∧
      (∀ i : Lane, (s.jbc.table.lanes ≤ i.val → t.bsq.get i = s.bsq.get i) ∧
      (i.val < s.jbc.table.lanes →
        (s.laneCode (s.handover e rest) i ≠ .stacked →
          t.bsq.get i = { s.bsq.get i with gap := (s.bsq.get i).gap - 1 }) ∧
        (∀ head later, s.laneCode (s.handover e rest) i = .stacked → (s.bsq.get i).batches = head :: later →
          ((s.bsq.get i).count + 1 < head.target →
            t.bsq.get i = { s.bsq.get i with count := (s.bsq.get i).count + 1, gap := 0 }) ∧
          (head.target ≤ (s.bsq.get i).count + 1 →
            t.bsq.get i =
              { s.bsq.get i with
                batches := if head.loop = true ∧ later = [] then [head] else later
                count := 0, stacksDone := (s.bsq.get i).stacksDone + 1
                gap := if head.mode = .gap then head.gap else 0 } ∧
            t.flag .stackDone = true ∧
            (later = [] → head.loop = false → t.flag .laneDone = true) ∧
            (s.rif.records.length + 7 ≤ 32 → Record.stackChange
              { rsn := e.rsn, lane := i, tag := head.tag, count := (s.bsq.get i).count + 1, mode := head.mode
                gap := if head.mode = .gap then head.gap else 0
                nextTag := if head.loop = true ∧ later = [] then some head.tag else later.head?.map Batch.tag
                stacksDone := (s.bsq.get i).stacksDone + 1 } ∈ t.rif.records))))) ∧
      ((∃ i head, s.Completes (s.handover e rest) i head [] ∧ head.loop = false) →
        ((∀ j : Lane, j.val < s.jbc.table.lanes → (s.gtu.table.get j).enable = true →
            (s.bsq.get j).batches = [] ∨
              ∃ head, s.Completes (s.handover e rest) j head [] ∧ head.loop = false) →
          (s.jbc.job = .run → t.jbc = { s.jbc with stopLatch := true, job := .drain, tailPending := true }) ∧
          (s.jbc.job = .drain → t.jbc = { s.jbc with stopLatch := true })) ∧
        ((∃ j : Lane, j.val < s.jbc.table.lanes ∧ (s.gtu.table.get j).enable = true ∧ (s.bsq.get j).batches ≠ [] ∧
            ∀ head, s.Completes (s.handover e rest) j head [] → head.loop = true) →
          t.jbc = s.jbc))

/-- The decision of the tail ends the job: REJ_HOLD in every lane, window and splice list emptied, the knife disarmed,
JOB_ENDED, IDLE. -/
def Obligations.TailDecisionEndsTheJob : Prop :=
  ∀ (a b : Bool) (o : CrossingOrder) (s : State) (e : Entry), s.AtFront a b →
    s.NoMissAt (s.psu.hw + 1) → s.NoFireAt (s.psu.hw + 1) → s.trc.watch = true → s.trc.queue = [e] →
    e.decisionPoint = s.psu.hw + 1 → e.tail = true → s.jbc.job = .drain →
    ∃ t, exec (.encoderTransition a b o.alone) s = .next t ∧ t.psu = (s.advanced a b).psu ∧
      t.trc.queue = [] ∧ t.trc.window = [] ∧ t.trc.splices = [] ∧ t.trc.nextRsn = s.trc.nextRsn ∧
      t.flag .jobEnded = true ∧
      t.jbc = { s.jbc with job := .idle, tailPending := false, hbTimer := none } ∧
      t.mru = { s.mru with reg := .idle, watch := false, lastMark := t.mru.lastMark } ∧
      (s.mru.reg ≠ .search → t.mru.lastMark = s.mru.lastMark) ∧
      t.ksq = { s.ksq with armed := none, fireWatch := none, pulse := false, pulseTimer := none, owner := none } ∧
      (∀ i : Lane, i.val < s.jbc.table.lanes → t.gtu.counters.get i =
        { s.gtu.counters.get i with rejHold := (s.gtu.counters.get i).rejHold + 1 }) ∧
      t.gtu.gateWord = Lanes.all .reject

/-! ### Stacker status (chapter 8) -/

/-- A STACKER_STATUS cell from node n renews every lane whose STACKER_NODE is n, and no other: its pocket's state, any code
but the four taken as FAULT, fresh, the timer restarted.  STATUS_TIMER_EXPIRY of a lane whose renewal lies STATUS_AGE_LIMIT
back: stale, stopped, and STACKER_STALE for a supervised lane below LANES in RUN or DRAIN; a timer that is stopped or has
time left does not expire (log 3; the age in periods of the clock is log 24).  A good cell of a consumed type in the slot 0
position begins a frame and is taken in (log 10). -/
def Obligations.StackerStatusRenewsAndItsTimerLapses : Prop :=
  (∀ (b : CellBody) (s : State) (p : Nat), s.Passes p → s.Addressed ⟨0x23#8, b⟩ →
    ∃ t, exec (.stackerStatus b) s = .next t ∧
      t = { s.passed p ⟨0x23#8, b⟩ with bsq := t.bsq } ∧
      ∀ i : Lane,
        ((s.gtu.table.get i).stackerNode ≠ 0 ∧ (s.gtu.table.get i).stackerNode.toNat = b.source.toNat →
          t.bsq.get i = { s.bsq.get i with
            pocketState := match (pocketBytes b.payload).getD (s.gtu.table.get i).pocket.val 3 with
              | 0 => .ready
              | 1 => .changing
              | 2 => .full
              | _ => .fault
            stale := false, statusAge := some 0 }) ∧
        (¬ ((s.gtu.table.get i).stackerNode ≠ 0 ∧ (s.gtu.table.get i).stackerNode.toNat = b.source.toNat) →
          t.bsq.get i = s.bsq.get i)) ∧
  (∀ (i : Lane) (s : State), s.resetHeld = false →
    ((s.bsq.get i).statusAge = none → exec (.statusTimerExpiry i) s = .next s) ∧
    (∀ age, (s.bsq.get i).statusAge = some age →
      (age < (s.gtu.table.get i).ageLimit * 25000 → exec (.statusTimerExpiry i) s = .next s) ∧
      ((s.gtu.table.get i).ageLimit * 25000 ≤ age → exec (.statusTimerExpiry i) s = .next
        (if StaleEvent s i then (s.madeStale i).withEvent .stackerStale else s.madeStale i))))

/-! ### The job (chapters 2 and 9) -/

/-- An accepted JOB_START: the eight effects of R20, the reply carrying NEXT_RSN, and nothing else but the model's own count of
decisions, which begins anew (log 28). -/
def Obligations.AcceptedJobStartEntersRun : Prop :=
  ∀ (s : State) (q : Request) (rest : List Request), s.Starts q rest → s.MayCommand q → q.op = 0x10#8 →
    s.jbc.job = .idle → s.jbc.stopLatch = false → s.ksq.inhibitLatch = false → s.jbc.table.Complete →
    (∀ k, 1 ≤ k → k ≤ 7 → GeometryCondition s.jbc.table k) → capacityNeeded s.jbc.table ≤ 128 →
    (∃ i : Lane, i.val < s.jbc.table.lanes ∧ (s.gtu.table.get i).enable = true ∧ (s.bsq.get i).batches ≠ []) →
    exec .jobStart s = .next
      { s.answered rest (q.reply .ok ((BitVec.ofNat 16 s.jbc.table.firstRsn).zeroExtend 32)) with
        jbc := { s.jbc with
          job := .run, tailPending := false, held := some (derivedOf s.jbc.table), ocEff := s.jbc.table.cutOffset
          waste := false, blind := false, hbStage := .alive, expected := .one
          hbTimer := some (s.jbc.table.hbPeriod * 25000) }
        gtu := { s.gtu with counters := Lanes.all tallyAtReset }
        bsq := Lanes.ofFn fun i => { s.bsq.get i with count := 0, gap := 0 }
        trc := { s.trc with
          window := [], splices := [], nextRsn := BitVec.ofNat 16 s.jbc.table.firstRsn, decided := 0, decisions := 0 }
        psu := { s.psu with hw := s.psu.wpos, reported := false }
        mru := { s.mru with
          reg := .search, missRun := 0, run := 0, lastMark := none, lastRegErr := 0, watch := false } }

/-- JOB_START refused, by the first check that fails, with that check's reply value; nothing else changes.  In RUN, DRAIN
and HALT it is refused with STATE and a value no rule states. -/
def Obligations.RefusedJobStartNamesTheFirstFailedCheck : Prop :=
  ∀ (s : State) (q : Request) (rest : List Request), s.Starts q rest → s.MayCommand q → q.op = 0x10#8 →
    (s.jbc.job ≠ .idle → RefusedFreely s q rest .state (exec .jobStart s)) ∧
    (s.jbc.job = .idle →
      (s.latches ≠ 0 →
        exec .jobStart s = .next (s.answered rest (q.reply .stopped (BitVec.ofNat 32 s.latches)))) ∧
      (s.latches = 0 →
        (∀ n, s.jbc.table.LowestUnset n →
          exec .jobStart s = .next (s.answered rest (q.reply .incomplete (BitVec.ofNat 32 n)))) ∧
        (s.jbc.table.Complete →
          (∀ k, 1 ≤ k → k ≤ 7 → ¬ GeometryCondition s.jbc.table k →
            (∀ j, 1 ≤ j → j < k → GeometryCondition s.jbc.table j) →
            exec .jobStart s = .next (s.answered rest (q.reply .geometry (BitVec.ofNat 32 k)))) ∧
          ((∀ k, 1 ≤ k → k ≤ 7 → GeometryCondition s.jbc.table k) →
            (128 < capacityNeeded s.jbc.table →
              exec .jobStart s = .next
                (s.answered rest (q.reply .capacity (BitVec.ofNat 32 (capacityNeeded s.jbc.table))))) ∧
            (capacityNeeded s.jbc.table ≤ 128 →
              (∀ i : Lane, i.val < s.jbc.table.lanes → (s.gtu.table.get i).enable = true →
                (s.bsq.get i).batches = []) →
              exec .jobStart s = .next (s.answered rest (q.reply .noWork 0)))))))

/-- JOB_STOP and JOB_ABORT: a drain with its tail pending from RUN; the queue flushed and the job ended by an abort, or by
a stop in HALT; otherwise refused with STATE. -/
def Obligations.StopDrainsAndAbortFlushes : Prop :=
  ∀ (s : State) (q : Request) (rest : List Request), s.Starts q rest → s.MayCommand q →
    (q.op = 0x11#8 → s.jbc.job = .run → exec .jobStop s = .next
      { s.answered rest (q.reply .ok 0) with jbc := { s.jbc with job := .drain, tailPending := true } }) ∧
    (q.op = 0x11#8 → s.jbc.job = .halt → ∃ t, exec .jobStop s = .next t ∧ Aborted s q rest t) ∧
    (q.op = 0x11#8 → s.jbc.job = .idle ∨ s.jbc.job = .drain → RefusedFreely s q rest .state (exec .jobStop s)) ∧
    (q.op = 0x12#8 → s.jbc.job ≠ .idle → ∃ t, exec .jobAbort s = .next t ∧ Aborted s q rest t) ∧
    (q.op = 0x12#8 → s.jbc.job = .idle → RefusedFreely s q rest .state (exec .jobAbort s))

/-- TRIM: OC_EFF + delta formed exactly and clamped to CUT_OFFSET ± 2,000; refused with STATE in IDLE or HALT; no entry
changes. -/
def Obligations.TrimClampsTheCutOffset : Prop :=
  ∀ (s : State) (q : Request) (rest : List Request), s.Starts q rest → s.MayCommand q → q.op = 0x13#8 →
    (s.jbc.job = .run ∨ s.jbc.job = .drain →
      (s.jbc.table.cutOffset - 2000 ≤ s.jbc.ocEff + q.delta ∧ s.jbc.ocEff + q.delta ≤ s.jbc.table.cutOffset + 2000 →
        exec .trim s = .next
          { s.answered rest (q.reply .ok (BitVec.ofInt 32 (s.jbc.ocEff + q.delta))) with
            jbc := { s.jbc with ocEff := s.jbc.ocEff + q.delta } }) ∧
      (s.jbc.ocEff + q.delta < s.jbc.table.cutOffset - 2000 →
        exec .trim s = .next
          { s.answered rest (q.reply .clamped (BitVec.ofInt 32 (s.jbc.table.cutOffset - 2000))) with
            jbc := { s.jbc with ocEff := s.jbc.table.cutOffset - 2000 } }) ∧
      (s.jbc.table.cutOffset + 2000 < s.jbc.ocEff + q.delta →
        exec .trim s = .next
          { s.answered rest (q.reply .clamped (BitVec.ofInt 32 (s.jbc.table.cutOffset + 2000))) with
            jbc := { s.jbc with ocEff := s.jbc.table.cutOffset + 2000 } })) ∧
    (s.jbc.job = .idle ∨ s.jbc.job = .halt → RefusedFreely s q rest .state (exec .trim s))

/-- WASTE is judged on the job state before its value, and a value other than 0 or 1 is out of range (11.4, R164);
RELEASE_STOP is refused while KNIFE_INHIBIT is asserted, and else clears both latches; its reply carries the latches as they
stood. -/
def Obligations.WasteAndReleaseStopFollowTheirTables : Prop :=
  ∀ (s : State) (q : Request) (rest : List Request), s.Starts q rest → s.MayCommand q →
    (q.op = 0x14#8 → s.jbc.job = .idle ∨ s.jbc.job = .halt → RefusedFreely s q rest .state (exec .waste s)) ∧
    (q.op = 0x14#8 → s.jbc.job = .run ∨ s.jbc.job = .drain → 1 < q.a6.toNat →
      RefusedFreely s q rest .range (exec .waste s)) ∧
    (q.op = 0x14#8 → s.jbc.job = .run ∨ s.jbc.job = .drain → q.a6.toNat ≤ 1 → exec .waste s = .next
      { s.answered rest (q.reply .ok (q.a6.zeroExtend 32)) with jbc := { s.jbc with waste := decide (q.a6 = 1) } }) ∧
    (q.op = 0x15#8 → s.inhibitLine = true →
      exec .releaseStop s = .next (s.answered rest (q.reply .inputActive (BitVec.ofNat 32 s.latches)))) ∧
    (q.op = 0x15#8 → s.inhibitLine = false → exec .releaseStop s = .next
      { s.answered rest (q.reply .ok (BitVec.ofNat 32 s.latches)) with
        jbc := { s.jbc with stopLatch := false }, ksq := { s.ksq with inhibitLatch := false } })

/-- A HEARTBEAT cell from VERDICT_NODE in RUN or DRAIN with the expected token is accepted, and the expiry then no longer
occurs; any other changes nothing.  HEARTBEAT_TIMER_EXPIRY of a timer that has run out: BLIND and a restarted timer in stage
0; HB_EXPIRED, the stop latch and a stopped timer in stage 1; a timer that is stopped or has time left does not expire
(log 3).  A good cell of a consumed type in the slot 0 position begins a frame and is taken in (log 10). -/
def Obligations.HeartbeatsAreSupervised : Prop :=
  (∀ (b : CellBody) (s : State) (p : Nat), s.Passes p → s.Addressed ⟨0x22#8, b⟩ →
    (ExpectedHeartbeat s b → ∃ t, exec (.heartbeat b) s = .next t ∧
      t = { s.passed p ⟨0x22#8, b⟩ with jbc := { s.jbc with
          hbTimer := some (s.jbc.table.hbPeriod * 25000), hbStage := .alive, blind := false
          expected := if s.jbc.expected = .one then .two else .one } } ∧
      (1 ≤ s.jbc.table.hbPeriod → exec .heartbeatTimerExpiry t = .next t)) ∧
    (¬ ExpectedHeartbeat s b → exec (.heartbeat b) s = .next (s.passed p ⟨0x22#8, b⟩))) ∧
  (∀ s : State, s.resetHeld = false →
    (s.jbc.hbTimer ≠ some 0 → exec .heartbeatTimerExpiry s = .next s) ∧
    (s.jbc.hbTimer = some 0 → s.jbc.hbStage = .alive → exec .heartbeatTimerExpiry s = .next
      ({ s with jbc := { s.jbc with
          blind := true, hbStage := .blind, hbTimer := some (s.jbc.table.hbPeriod * 25000) } }.withEvent .blind)) ∧
    (s.jbc.hbTimer = some 0 → s.jbc.hbStage = .blind → exec .heartbeatTimerExpiry s = .next
      ({ s with jbc := { s.jbc with stopLatch := true, hbStage := .expired, hbTimer := none } }.withEvent .hbExpired)))

/-! ### The ring (chapter 10) -/

/-- A valid header begins a frame, in any position the part does not own and in either link state, and makes the link UP;
the link timer's expiry, 2 ms after the last, makes an UP link DOWN with LINK_DOWN.  A timer that is stopped or has time left
does not expire (the model's reading, log 3). -/
def Obligations.LinkFollowsHeadersAndItsTimer : Prop :=
  ∀ s : State, s.resetHeld = false →
    (∀ b : CellBody, s.rif.sending = none → IsHeader ⟨0x10#8, b⟩ →
      (s.rif.link = .up → s.rif.owns s.rif.nextPosition = false) →
      exec (.frameHeader b) s = .next
        { s with rif := { s.rif with
            ringTx := some ⟨0x10#8, b⟩, link := .up, linkTimer := some 0, slot := some 0
            slots := some b.payload.b6.toNat, frameNo := b.payload.b4 ++ b.payload.b5
            active := s.rif.written, frameStatus := some s.summary } }) ∧
    (s.rif.linkTimer = none → exec .linkTimerExpiry s = .next s) ∧
    (∀ n, s.rif.linkTimer = some n → n < 50000 → exec .linkTimerExpiry s = .next s) ∧
    (∀ n, s.rif.linkTimer = some n → 50000 ≤ n → s.rif.link = .up → exec .linkTimerExpiry s = .next
      ({ s with rif := { s.rif with link := .down, linkTimer := none } }.withEvent .linkDown)) ∧
    (∀ n, s.rif.linkTimer = some n → 50000 ≤ n → s.rif.link = .down → exec .linkTimerExpiry s = .next
      { s with rif := { s.rif with linkTimer := none } })

/-- Cells the part passes on: one with a bad check is counted and not taken in; a good one it does not consume is repeated;
one in the slot 0 position that is no valid header begins a frame with N, FRAME_NO and the link timer as they were; with the
link DOWN a cell that is no valid header is repeated and, if bad, counted; that the slot counter then stands still is the
model's reading (log 26). -/
def Obligations.CellsThePartDoesNotTakeAreRepeated : Prop :=
  ∀ (c : Cell) (s : State),
    (∀ p, s.Passes p → p ≠ 0 → checkGood c = false → exec (.badCheckCell c) s = .next
      { s.passed p c with rif := { (s.passed p c).rif with crcErrors := oneMore s.rif.crcErrors } }) ∧
    (∀ p, s.Passes p → p ≠ 0 → checkGood c = true → NotTaken s c → exec (.cellRepeated c) s = .next (s.passed p c)) ∧
    (s.Passes 0 → checkGood c = false → exec (.invalidHeader c) s = .next
      { s with rif := { s.rif with
          ringTx := some c, slot := some 0, active := s.rif.written, frameStatus := some s.summary
          crcErrors := oneMore s.rif.crcErrors } }) ∧
    (s.Passes 0 → checkGood c = true → ¬ IsHeader c → NotTaken s c → exec (.invalidHeader c) s = .next
      { s with rif := { s.rif with
          ringTx := some c, slot := some 0, active := s.rif.written, frameStatus := some s.summary } }) ∧
    (s.resetHeld = false → s.rif.sending = none → s.rif.link = .down → ¬ IsHeader c →
      (checkGood c = true → exec (.cellRepeated c) s = .next (s.repeated c)) ∧
      (checkGood c = false → exec (.badCheckCell c) s = .next
        { s.repeated c with rif := { (s.repeated c).rif with crcErrors := oneMore s.rif.crcErrors } }))

/-- The model's reading (log 9): a cell that arrives while an owned slot is in progress ends it first, as SLOT_END does, and
is then taken as any cell is. -/
def Obligations.ArrivingCellEndsTheOwnedSlotFirst : Prop :=
  ∀ (c : Instr) (s : State), s.resetHeld = false → (carriedCell c).isSome = true →
    ∃ t u, exec .slotEnd s = .next t ∧ t.rif.sending = none ∧ exec c t = .next u ∧ exec c s = .next u

/-- A VERDICT cell: taken from VERDICT_NODE in RUN or DRAIN and classified by d; then its SPLICE flag is processed, in every
row but AHEAD; a cell not taken changes nothing.  A good cell of a consumed type in the slot 0 position begins a frame and is
taken in (log 10). -/
def Obligations.VerdictIsStoredMergedOrDiscarded : Prop :=
  ∀ (b : CellBody) (s : State) (p : Nat), s.Passes p → s.Addressed ⟨0x21#8, b⟩ →
    (¬ TakesVerdicts s b → exec (.verdict b) s = .next (s.passed p ⟨0x21#8, b⟩)) ∧
    (TakesVerdicts s b →
      (63 < (cellRsn b - s.trc.nextRsn).toInt →
        exec (.verdict b) s = .next ((s.passed p ⟨0x21#8, b⟩).withEvent .verdictAhead)) ∧
      (0 ≤ (cellRsn b - s.trc.nextRsn).toInt → (cellRsn b - s.trc.nextRsn).toInt ≤ 63 →
        ∃ t : State, exec (.verdict b) s = .next (t.spliced (cellRsn b) (cellVerdict b).splice) ∧
          t = { s.passed p ⟨0x21#8, b⟩ with trc := { s.trc with window := t.trc.window }, mge := t.mge } ∧
          (s.heldIn (cellRsn b) = none →
            t.trc.window = s.trc.window ++ [⟨cellRsn b, cellVerdict b⟩] ∧ t.mge = s.mge) ∧
          (∀ v, s.heldIn (cellRsn b) = some v →
            t.trc.window.map HeldVerdict.rsn = s.trc.window.map HeldVerdict.rsn ∧
            t.heldIn (cellRsn b) = some (merged v (cellVerdict b)) ∧
            (∀ r, r ≠ cellRsn b → t.heldIn r = s.heldIn r) ∧
            (Conflict v (cellVerdict b) → t.mge = (s.withEvent .verdictConflict).mge) ∧
            (¬ Conflict v (cellVerdict b) → t.mge = s.mge))) ∧
      ((cellRsn b - s.trc.nextRsn).toInt < 0 → (cellRsn b - s.trc.oldestRsn).toInt < 0 →
        exec (.verdict b) s = .next
          (((s.passed p ⟨0x21#8, b⟩).withEvent .verdictLate).spliced (cellRsn b) (cellVerdict b).splice)) ∧
      (∀ e, (cellRsn b - s.trc.nextRsn).toInt < 0 → 0 ≤ (cellRsn b - s.trc.oldestRsn).toInt →
        s.trc.queue.find? (fun x => x.rsn == cellRsn b) = some e →
        ∃ t : State, exec (.verdict b) s = .next (t.spliced (cellRsn b) (cellVerdict b).splice) ∧
          t = { s.passed p ⟨0x21#8, b⟩ with
            trc := { s.trc with
              queue := s.trc.queue.map (mergedAt (cellRsn b) (mergedWith e.verdict (cellVerdict b))) }
            mge := t.mge } ∧
          (∀ v, e.verdict = some v → Conflict v (cellVerdict b) → t.mge = (s.withEvent .verdictConflict).mge) ∧
          ((∀ v, e.verdict = some v → ¬ Conflict v (cellVerdict b)) → t.mge = s.mge)))

/-- A VERDICT cell with its SPLICE flag set, in every row but AHEAD and whatever ranges the list holds: SPLICE_ESCAPE exactly
when the range reaches a decided RSN, and the undecided part joined to the list by `insertRange`.  Of that joining, for a
list as R81 describes it: four ranges at most, again in order and apart; covered is what was covered and the new range, and
nothing more while four ranges hold it; where a fifth would result, the new range and the one nearest to it, the earlier of
two equally near, become one that covers the gap between them.  A good cell of a consumed type in the slot 0 position begins
a frame and is taken in (log 10). -/
def Obligations.SpliceFlagCondemnsItsRange : Prop :=
  (∀ (b : CellBody) (s : State) (p : Nat), s.Passes p → s.Addressed ⟨0x21#8, b⟩ → TakesVerdicts s b →
    (cellRsn b - s.trc.nextRsn).toInt ≤ 63 → b.payload.b12.getLsbD 0 = true →
    ∃ t, exec (.verdict b) s = .next t ∧ t.trc.splices = s.spliceListWith (cellRsn b) ∧
      t.flag .spliceEscape = (s.flag .spliceEscape || decide (SpliceEscapes s (cellRsn b)))) ∧
  (∀ (x : OffsetRange) (rs : List OffsetRange), x.first ≤ x.last → RangesInOrder rs → rs.length ≤ 4 →
    (insertRange x rs).length ≤ 4 ∧ RangesInOrder (insertRange x rs) ∧
    (∀ k, Covers (x :: rs) k → Covers (insertRange x rs) k) ∧
    ((rs.filter fun y => !x.joins y).length < 4 → ∀ k, Covers (insertRange x rs) k → Covers (x :: rs) k) ∧
    (∀ near, 4 ≤ (rs.filter fun y => !x.joins y).length → Nearest x rs near → ∀ k,
      (Covers (insertRange x rs) k ↔
        Covers rs k ∨ (min x.first near.first ≤ k ∧ k ≤ max x.last near.last))))

/-- A MGMT_REQUEST to the part is queued with its source, or dropped with REQUEST_DROP at a full queue; one addressed to
every node is not taken in.  A good cell of a consumed type in the slot 0 position begins a frame and is taken in (log 10). -/
def Obligations.ManagementRequestIsQueuedOrDropped : Prop :=
  ∀ (b : CellBody) (s : State) (p : Nat), s.Passes p → checkGood ⟨0x30#8, b⟩ = true → b.source.toNat ≤ 31 →
    (b.dest.toNat = s.rif.nodeId.toNat → s.rif.nodeId ≠ 0 → s.mge.requests.length < 4 →
      exec (.mgmtRequest b) s = .next
        { s.passed p ⟨0x30#8, b⟩ with mge := { s.mge with requests := s.mge.requests ++
          [{ source := b.source, tag := b.payload.b4, op := b.payload.b5, a6 := b.payload.b6, a7 := b.payload.b7,
             a8 := b.payload.b8, a9 := b.payload.b9, a10 := b.payload.b10, a11 := b.payload.b11,
             a12 := b.payload.b12, a13 := b.payload.b13 }] } }) ∧
    (b.dest.toNat = s.rif.nodeId.toNat → s.rif.nodeId ≠ 0 → 4 ≤ s.mge.requests.length →
      exec (.mgmtRequest b) s = .next ((s.passed p ⟨0x30#8, b⟩).withEvent .requestDrop)) ∧
    (b.dest.toNat ≠ s.rif.nodeId.toNat ∨ s.rif.nodeId = 0 →
      exec (.mgmtRequest b) s = .next (s.passed p ⟨0x30#8, b⟩))

/-- At an active owned slot the arriving cell is consumed and the part's own placed: the oldest record, else the oldest
reply, else the notice, else an IDLE cell.  That the check of the arriving cell is counted at the slot's end, and the cell
held until then, is the model's reading (log 9). -/
def Obligations.OwnedSlotCarriesTheOldestOfTheFirstKind : Prop :=
  ∀ (c : Cell) (s : State), s.resetHeld = false → s.rif.sending = none → s.rif.link = .up →
    s.rif.owns s.rif.nextPosition = true →
    (∀ r rest, s.rif.records = r :: rest → exec (.ownedSlotStart c) s = .next
      { s with rif := { s.rif with
          records := rest, slot := some s.rif.nextPosition, sending := some ⟨c, none⟩
          ringTx := some (s.sent r.kind s.rif.recordDest r.payload) } }) ∧
    (∀ q rest, s.rif.records = [] → s.rif.replies = q :: rest → exec (.ownedSlotStart c) s = .next
      { s with rif := { s.rif with
          replies := rest, slot := some s.rif.nextPosition, sending := some ⟨c, some q⟩
          ringTx := some (s.sent 0x31#8 q.dest q.payload) } }) ∧
    (s.rif.records = [] → s.rif.replies = [] → s.mge.mailbox = true → exec (.ownedSlotStart c) s = .next
      { s with
        mge := { s.mge with mailbox := false }
        rif := { s.rif with
          slot := some s.rif.nextPosition, sending := some ⟨c, none⟩
          ringTx := some (s.sent 0x4A#8 s.rif.noticeDest s.noticePayload) } }) ∧
    (s.rif.records = [] → s.rif.replies = [] → s.mge.mailbox = false → exec (.ownedSlotStart c) s = .next
      { s with rif := { s.rif with
          slot := some s.rif.nextPosition, sending := some ⟨c, none⟩
          ringTx := some (s.sent 0x00#8 0xFF#8 ⟨0, 0, 0, 0, 0, 0, 0, 0, 0, 0⟩) } })

/-- The cells the part sends: a good check, and the layouts of 13.3, most significant byte first. -/
def Obligations.SentCellsHaveTheirLayout : Prop :=
  (∀ (s : State) (kind dest : Byte) (p : Payload), checkGood (s.sent kind dest p) = true) ∧
  (∀ r : Reply, r.payload.b4 = r.tag ∧ r.payload.b5 = r.op ∧ r.payload.b6 = r.result.code ∧
    r.payload.b7 ++ r.payload.b8 ++ r.payload.b9 ++ r.payload.b10 = r.value ∧
    r.payload.b11 = 0 ∧ r.payload.b12 = 0 ∧ r.payload.b13 = 0) ∧
  (∀ d : Disposition, d.payload.b4 ++ d.payload.b5 = d.rsn ∧
    d.payload.b6.toNat = 16 * d.codes.l0.value + d.codes.l1.value ∧
    d.payload.b7.toNat = 16 * d.codes.l2.value + d.codes.l3.value ∧
    d.payload.b8.toNat = 16 * d.codes.l4.value + d.codes.l5.value ∧
    d.payload.b9.toNat = (if d.kind = .synth then 1 else 0) + (if d.late then 2 else 0) + (if d.blind then 4 else 0) ∧
    (-32767 ≤ d.regErr → d.regErr ≤ 32767 → (d.payload.b10 ++ d.payload.b11).toInt = d.regErr) ∧
    d.payload.b12 = 0 ∧ d.payload.b13 = 0) ∧
  (∀ c : StackChange, c.gap ≤ 15 → c.count ≤ 65535 → c.payload.b4 ++ c.payload.b5 = c.rsn ∧
    c.payload.b6.toNat = c.lane.val + (if c.mode = .flag then 8 else 0) + 16 * c.gap ∧
    c.payload.b7 ++ c.payload.b8 = c.tag ∧ (c.payload.b9 ++ c.payload.b10).toNat = c.count ∧
    c.payload.b11 ++ c.payload.b12 = c.nextTag.getD 0 ∧ c.payload.b13.toNat = c.stacksDone.toNat % 256 ∧
    (Record.stackChange c).kind = if c.nextTag = none then 0x49#8 else 0x48#8) ∧
  (∀ s : State,
    s.noticePayload.b4 ++ s.noticePayload.b5 ++ s.noticePayload.b6 ++ s.noticePayload.b7 = s.mge.flags ∧
    s.noticePayload.b8.toNat = s.jbc.job.code ∧ s.noticePayload.b9.toNat = s.mru.reg.code ∧
    s.noticePayload.b10 ++ s.noticePayload.b11 = s.trc.nextRsn ∧
    s.noticePayload.b12 = 0 ∧ s.noticePayload.b13 = 0)

/-- SLOT_END: the consumed cell's check is counted if bad, a valid header consumed in the slot begins its frame now; and at
the end of the slot that carried an accepted RESET_NODE's reply the part takes its after-node-reset state.  The model's
readings and choices: the count of the consumed cell's check at the slot's end (log 9), the levels a node reset samples
(log 18), RING_TX's cell and the count of free values kept (logs 12 and 6), and no change without a slot in progress
(log 1). -/
def Obligations.SlotEndCountsFramesAndResets : Prop :=
  ∀ s : State, s.resetHeld = false →
    (s.rif.sending = none → exec .slotEnd s = .next s) ∧
    (∀ o r, s.rif.sending = some o → o.reply = some r → r.op = 0x2F#8 → r.result = .ok →
      ∃ t, exec .slotEnd s = .next t ∧ AfterReset s.rif.nodeId s.inhibitLine s.psu.encA s.psu.encB t ∧
        t.rif.ringTx = s.rif.ringTx ∧ t.draws = s.draws ∧ t.pending = s.pending) ∧
    (∀ o, s.rif.sending = some o → (∀ r, o.reply = some r → r.op ≠ 0x2F#8 ∨ r.result ≠ .ok) →
      (checkGood o.arriving = false → exec .slotEnd s = .next
        { s with rif := { s.rif with sending := none, crcErrors := oneMore s.rif.crcErrors } }) ∧
      (checkGood o.arriving = true → ¬ IsHeader o.arriving → exec .slotEnd s = .next
        { s with rif := { s.rif with sending := none } }) ∧
      (IsHeader o.arriving → exec .slotEnd s = .next
        { s with rif := { s.rif with
            sending := none, link := .up, linkTimer := some 0, slot := some 0
            slots := some o.arriving.body.payload.b6.toNat
            frameNo := o.arriving.body.payload.b4 ++ o.arriving.body.payload.b5
            active := s.rif.written, frameStatus := some s.summary } }))

/-! ### Management requests (chapter 11) -/

/-- READ answers the value held at the address, from any node; a batch slot at or beyond its list's length is refused with
ADDRESS. -/
def Obligations.ReadAnswersTheValueHeld : Prop :=
  ∀ (s : State) (q : Request) (rest : List Request), s.Starts q rest → q.op = 0x01#8 →
    (∀ v, (s.fieldsAt q.a6.toNat q.a7.toNat)[q.a8.toNat]? = some v →
      exec .read s = .next (s.answered rest (q.reply .ok v))) ∧
    (q.a6 = 2 → q.a7.toNat ≤ 95 → q.a8.toNat ≤ 4 →
      (s.bsq.get (laneOf (q.a7.toNat / 16))).batches.length ≤ q.a7.toNat % 16 →
      RefusedFreely s q rest .address (exec .read s))

/-- WRITE to the job table: taken in IDLE within the field's range, refused with RANGE outside it and with STATE outside
IDLE; SPEED_WINDOW is taken in every job state and begins a new speed window. -/
def Obligations.JobTableIsWrittenInIdle : Prop :=
  ∀ (s : State) (q : Request) (rest : List Request) (f : JobField) (range : Int × Int),
    s.Starts q rest → s.MayCommand q → q.op = 0x02#8 → q.a6 = 0 → q.a7 = 0 →
    jobFields[q.a8.toNat]? = some f → jobRanges[q.a8.toNat]? = some range →
    (q.a8 ≠ 15 →
      (s.jbc.job ≠ .idle → RefusedFreely s q rest .state (exec .write s)) ∧
      (s.jbc.job = .idle → ¬ (range.1 ≤ q.jobValue ∧ q.jobValue ≤ range.2) →
        RefusedFreely s q rest .range (exec .write s)) ∧
      (s.jbc.job = .idle → range.1 ≤ q.jobValue → q.jobValue ≤ range.2 → ∃ table : JobTable,
        exec .write s = .next
          { s.answered rest (q.reply .ok q.writeValue) with jbc := { s.jbc with table := table } } ∧
        table.get f = q.jobValue ∧ ∀ f', f' ≠ f → table.get f' = s.jbc.table.get f')) ∧
    (q.a8 = 15 →
      (3 < q.writeValue.toNat → RefusedFreely s q rest .range (exec .speedWindowWrite s)) ∧
      (q.writeValue.toNat ≤ 3 → exec .speedWindowWrite s = .next
        { s.answered rest (q.reply .ok q.writeValue) with
          jbc := { s.jbc with table := { s.jbc.table with speedWindow := q.writeValue.toNat } }
          psu := { s.psu with windowCount := 0, windowAge := 0, windowMs := 2 ^ q.writeValue.toNat } }))

/-- WRITE to ENABLE and NI_POLICY, to a batch entry, and to MANAGER_NODE, RECORD_DEST and NOTICE_DEST.  A WRITE to a batch slot
that does not exist is refused with ADDRESS whatever its value, the model's choice (log 27). -/
def Obligations.OtherTablesAreWrittenUnderTheirRules : Prop :=
  ∀ (s : State) (q : Request) (rest : List Request), s.Starts q rest → s.MayCommand q → q.op = 0x02#8 →
    (q.a6 = 1 → q.a7.toNat ≤ 5 → q.a8.toNat ≤ 1 →
      (1 < q.writeValue.toNat → RefusedFreely s q rest .range (exec .write s)) ∧
      (q.writeValue.toNat ≤ 1 → exec .write s = .next
        { s.answered rest (q.reply .ok q.writeValue) with gtu := { s.gtu with
            table := s.gtu.table.set (laneOf q.a7.toNat)
              (if q.a8 = 0 then { s.laneRow q with enable := decide (q.writeValue = 1) }
               else { s.laneRow q with niPolicy := if q.writeValue = 1 then .reject else .accept }) } })) ∧
    (q.a6 = 2 → q.a7.toNat ≤ 95 → q.a8.toNat ≤ 4 →
      (s.jbc.job ≠ .idle → RefusedFreely s q rest .state (exec .write s)) ∧
      (s.jbc.job = .idle → s.batchSlot q = none → RefusedFreely s q rest .address (exec .write s)) ∧
      (∀ b, s.jbc.job = .idle → s.batchSlot q = some b → ¬ s.BatchValueFits q →
        RefusedFreely s q rest .range (exec .write s)) ∧
      (∀ b, s.jbc.job = .idle → s.batchSlot q = some b → s.BatchValueFits q → exec .write s = .next
        { s.answered rest (q.reply .ok q.writeValue) with
          bsq := s.bsq.set (laneOf (q.a7.toNat / 16)) { s.batchPlan q with
            batches := (s.batchPlan q).batches.set (q.a7.toNat % 16) (writtenBatch b q.a8.toNat q.writeValue.toNat) } })) ∧
    (q.a6 = 6 → q.a7 = 0 → q.a8 = 5 →
      (31 < q.writeValue.toNat → RefusedFreely s q rest .range (exec .write s)) ∧
      (q.writeValue.toNat ≤ 31 → exec .write s = .next
        { s.answered rest (q.reply .ok q.writeValue) with
          rif := { (s.answered rest (q.reply .ok q.writeValue)).rif with managerNode := q.writeValue.setWidth 5 } })) ∧
    (q.a6 = 6 → q.a7 = 0 → q.a8 = 6 ∨ q.a8 = 7 →
      (31 < q.writeValue.toNat → q.writeValue.toNat ≠ 255 → RefusedFreely s q rest .range (exec .write s)) ∧
      (q.writeValue.toNat ≤ 31 ∨ q.writeValue.toNat = 255 → exec .write s = .next
        { s.answered rest (q.reply .ok q.writeValue) with
          rif := { (s.answered rest (q.reply .ok q.writeValue)).rif with
            recordDest := if q.a8 = 6 then q.writeValue.setWidth 8 else s.rif.recordDest
            noticeDest := if q.a8 = 7 then q.writeValue.setWidth 8 else s.rif.noticeDest } }))

/-- WRITE to a lane's STACKER_NODE, POCKET and STATUS_AGE_LIMIT: a changed node or pocket discards the lane's status, and a
lane whose renewal is older than the new limit lapses at the write; the age counted in 40 ns periods of the clock is the
model's reading (log 24). -/
def Obligations.StackerFieldsAreWrittenWithTheirEffects : Prop :=
  ∀ (s : State) (q : Request) (rest : List Request), s.Starts q rest → s.MayCommand q → q.op = 0x02#8 →
    q.a6 = 1 → q.a7.toNat ≤ 5 →
    (q.a8 = 2 →
      (31 < q.writeValue.toNat → RefusedFreely s q rest .range (exec .stackerNodeWrite s)) ∧
      (q.writeValue.toNat ≤ 31 → exec .stackerNodeWrite s = .next
        ((s.withRow q { s.laneRow q with stackerNode := q.writeValue.setWidth 5 }
          (if (s.laneRow q).stackerNode.toNat = q.writeValue.toNat then s.lanePlan q else discarded (s.lanePlan q))).answered
            rest (q.reply .ok q.writeValue)))) ∧
    (q.a8 = 3 →
      (7 < q.writeValue.toNat → RefusedFreely s q rest .range (exec .pocketWrite s)) ∧
      (∀ k : Fin 8, q.writeValue.toNat = k.val → exec .pocketWrite s = .next
        ((s.withRow q { s.laneRow q with pocket := k }
          (if (s.laneRow q).pocket = k then s.lanePlan q else discarded (s.lanePlan q))).answered
            rest (q.reply .ok q.writeValue)))) ∧
    (q.a8 = 4 →
      (q.writeValue.toNat = 0 ∨ 255 < q.writeValue.toNat → RefusedFreely s q rest .range (exec .statusAgeLimitWrite s)) ∧
      (1 ≤ q.writeValue.toNat → q.writeValue.toNat ≤ 255 →
        (¬ OlderThan (s.lanePlan q) q.writeValue.toNat → exec .statusAgeLimitWrite s = .next
          ((s.withRow q { s.laneRow q with ageLimit := q.writeValue.toNat } (s.lanePlan q)).answered
            rest (q.reply .ok q.writeValue))) ∧
        (OlderThan (s.lanePlan q) q.writeValue.toNat → ¬ StaleEvent s (laneOf q.a7.toNat) →
          exec .statusAgeLimitWrite s = .next
            ((s.withRow q { s.laneRow q with ageLimit := q.writeValue.toNat }
              { s.lanePlan q with stale := true, statusAge := none }).answered rest (q.reply .ok q.writeValue))) ∧
        (OlderThan (s.lanePlan q) q.writeValue.toNat → StaleEvent s (laneOf q.a7.toNat) →
          exec .statusAgeLimitWrite s = .next
            (((s.withRow q { s.laneRow q with ageLimit := q.writeValue.toNat }
              { s.lanePlan q with stale := true, statusAge := none }).withEvent .stackerStale).answered
                rest (q.reply .ok q.writeValue)))))

/-- WRITE to SLOT_0 to SLOT_3 in every job state: RANGE above 31 or when all four would be 0, else stored in the written map;
the active map stays until a frame starts. -/
def Obligations.SlotMapKeepsOneSlot : Prop :=
  ∀ (s : State) (q : Request) (rest : List Request), s.Starts q rest → s.MayCommand q → q.op = 0x02#8 →
    q.a6 = 6 → q.a7 = 0 → 1 ≤ q.a8.toNat → q.a8.toNat ≤ 4 →
    (31 < q.writeValue.toNat ∨ s.mapWith q = ⟨0, 0, 0, 0⟩ → RefusedFreely s q rest .range (exec .slotMapWrite s)) ∧
    (q.writeValue.toNat ≤ 31 → s.mapWith q ≠ ⟨0, 0, 0, 0⟩ → exec .slotMapWrite s = .next
      { s.answered rest (q.reply .ok q.writeValue) with
        rif := { (s.answered rest (q.reply .ok q.writeValue)).rif with written := s.mapWith q } })

/-- The mask: a WRITE in which every set position names a flag is stored, in every job state, with no notice and no mailbox
emptied; another is refused with RANGE; FLAGS is refused with READONLY; a READ returns the mask held. -/
def Obligations.MaskTakesOnlyPositionsThatNameFlags : Prop :=
  ∀ (s : State) (q : Request) (rest : List Request), s.Starts q rest → q.a6 = 7 → q.a7 = 0 →
    (q.op = 0x02#8 → q.a8 = 1 → s.MayCommand q → q.writeValue.toNat < 2097152 → exec .maskWrite s = .next
      (({ s with mge := { s.mge with mask := q.writeValue } }).answered rest (q.reply .ok q.writeValue))) ∧
    (q.op = 0x02#8 → q.a8 = 1 → s.MayCommand q → 2097152 ≤ q.writeValue.toNat →
      RefusedFreely s q rest .range (exec .maskWrite s)) ∧
    (q.op = 0x02#8 → q.a8 = 0 → s.MayCommand q → exec .write s = .next (s.answered rest (q.reply .readonly 0))) ∧
    (q.op = 0x01#8 → q.a8 = 1 → exec .read s = .next (s.answered rest (q.reply .ok s.mge.mask)))

/-- APPEND_BATCH in every job state: the arguments checked in number order, then room for a sixteenth entry, then the batch
joins its lane's list at the tail; BATCH_COUNT and the gap countdown stay. -/
def Obligations.AppendBatchJoinsTheLanesList : Prop :=
  ∀ (s : State) (q : Request) (rest : List Request), s.Starts q rest → s.MayCommand q → q.op = 0x03#8 →
    (∀ k, q.AppendFault k → exec .appendBatch s = .next (s.answered rest (q.reply .range (BitVec.ofNat 32 k)))) ∧
    (q.AppendFits → 16 ≤ (s.bsq.get (laneOf q.a6.toNat)).batches.length →
      exec .appendBatch s = .next (s.answered rest (q.reply .full 16))) ∧
    (q.AppendFits → (s.bsq.get (laneOf q.a6.toNat)).batches.length < 16 → exec .appendBatch s = .next
      { s.answered rest
          (q.reply .ok (BitVec.ofNat 32 ((s.bsq.get (laneOf q.a6.toNat)).batches.length + 1))) with
        bsq := s.bsq.set (laneOf q.a6.toNat) { s.bsq.get (laneOf q.a6.toNat) with
          batches := (s.bsq.get (laneOf q.a6.toNat)).batches ++
            [{ target := (q.a7 ++ q.a8 : BitVec 16).toNat, mode := if q.a11 = 1 then .flag else .gap
               gap := q.a12.toNat, tag := q.a9 ++ q.a10, loop := decide (q.a13 = 1) }] } })

/-- MGE's own operations: SNAPSHOT from any node, CLEAR_EVENTS, and RESET_NODE, which is accepted in IDLE alone. -/
def Obligations.SnapshotClearEventsAndResetNode : Prop :=
  ∀ (s : State) (q : Request) (rest : List Request), s.Starts q rest →
    (q.op = 0x20#8 → exec .snapshot s = .next
      (({ s with mge := { s.mge with
          gen := s.mge.gen + 1
          snap := Lanes.ofFn fun i =>
            ⟨s.gtu.counters.get i, (s.bsq.get i).count, (s.bsq.get i).stacksDone⟩ } }).answered rest
        (q.reply .ok ((s.mge.gen + 1).zeroExtend 32)))) ∧
    (q.op = 0x21#8 → s.MayCommand q → exec .clearEvents s = .next
      (({ s with mge := { s.mge with flags := s.mge.flags &&& ~~~(q.a6 ++ q.a7 ++ q.a8 ++ q.a9) } }).answered rest
        (q.reply .ok s.mge.flags))) ∧
    (q.op = 0x2F#8 → s.MayCommand q → s.jbc.job = .idle → exec .resetNode s = .next
      (({ s with mge := { s.mge with resetPending := true } }).answered rest (q.reply .ok 0))) ∧
    (q.op = 0x2F#8 → s.MayCommand q → s.jbc.job ≠ .idle → RefusedFreely s q rest .state (exec .resetNode s))

/-- The checks of R162 in their order, for the start of any request: the first that fails gives the result, with value 0,
and the request has no effect. -/
def Obligations.FailedChecksAnswerInOrder : Prop :=
  ∀ (s : State) (q : Request) (rest : List Request), s.Starts q rest →
    (q.op ∉ knownOps → q.startRow = .badOp ∧
      exec .badOp s = .next (s.answered rest (q.reply .badOp 0))) ∧
    (q.op ∈ knownOps → q.op ∉ openOps → ¬ s.MayCommand q →
      exec (rowCommand q.startRow) s = .next (s.answered rest (q.reply .access 0))) ∧
    (q.op = 0x01#8 ∨ q.op = 0x02#8 ∧ s.MayCommand q → ¬ ValidAddress q.a6.toNat q.a7.toNat q.a8.toNat →
      exec (rowCommand q.startRow) s = .next (s.answered rest (q.reply .address 0))) ∧
    (q.op = 0x02#8 → s.MayCommand q → ValidAddress q.a6.toNat q.a7.toNat q.a8.toNat →
      q.a6 ∈ [3, 4, 5] ∨ q.a6 ∈ [6, 7] ∧ q.a8 = 0 →
      exec (rowCommand q.startRow) s = .next (s.answered rest (q.reply .readonly 0)))

/-- A request starts only when it is the head, the reply queue has room, no reset is pending and reset is not held; the
command of a start that cannot be made changes nothing (the model's reading, log 1 and log 7). -/
def Obligations.RequestsWaitForRoomAndTheirTurn : Prop :=
  ∀ (row : StartRow) (s : State),
    s.resetHeld = true ∨ s.mge.resetPending = true ∨ 8 ≤ s.rif.replies.length ∨ s.mge.requests = [] ∨
      (∃ q ∈ s.mge.requests.head?, q.startRow ≠ row) →
    exec (rowCommand row) s = .next s

/-- An event sets its flag whatever the mask and fills the mailbox when the flag was clear and enabled; several events each
in turn; a full mailbox stays full; a READ of FLAGS returns the word from any node and clears nothing. -/
def Obligations.EventsSetFlagsAndFillTheMailbox : Prop :=
  ∀ s : State,
    (∀ e : Event, (s.setEvent e).flag e = true ∧
      (∀ e', e' ≠ e → (s.setEvent e).flag e' = s.flag e') ∧
      (s.flag e = false → s.mge.mask.getLsbD e.bit = true → (s.setEvent e).mge.mailbox = true) ∧
      (s.flag e = true ∨ s.mge.mask.getLsbD e.bit = false → (s.setEvent e).mge.mailbox = s.mge.mailbox) ∧
      s.setEvent e = s.withEvent e) ∧
    (∀ e e' : Event, s.mge.mailbox = true → ((s.setEvent e).setEvent e').mge.mailbox = true) ∧
    (∀ (q : Request) (rest : List Request), s.Starts q rest → q.op = 0x01#8 → q.a6 = 7 → q.a7 = 0 → q.a8 = 0 →
      exec .read s = .next (s.answered rest (q.reply .ok s.mge.flags)))

/-! ### Invariants -/

/-- The machine right after reset meets all five invariants. -/
def Obligations.ResetMeetsTheInvariants : Prop :=
  State.reset.WithinCapacity ∧ State.reset.Coherent ∧ State.reset.JobDiscipline ∧ State.reset.Spaced ∧
    State.reset.PiecesAccounted

/-- Every step keeps the record, reply and request queues, the batch lists and the splice list within their capacities and
the counts that `State.WithinCapacity` lists within their ranges, and what each block keeps between its own pieces of
state.  (The verdict window's 64 records, MISS_RUN and the in-window run are in `State.JobDiscipline`, and the track queue's
128 entries follow from `State.Spaced`.) -/
def Obligations.EveryStepKeepsCapacitiesAndCoherence : Prop :=
  ∀ s t : State, s.WithinCapacity → s.Coherent → step s = .next t → t.WithinCapacity ∧ t.Coherent

/-- Every step keeps the job's discipline: outside a job nothing is tracked, armed or driven; the queue is numbered without
a hole; the tail is the newest entry; the held quantities and the trim belong to the job table; the verdict window holds at
most 64 records; MISS_RUN and the in-window run stay below their limits. -/
def Obligations.EveryStepKeepsTheJobDiscipline : Prop :=
  ∀ s t : State, s.JobDiscipline → step s = .next t → t.JobDiscipline

/-- A job that passed the CAPACITY check cannot fill the track queue: marks and misses come at least rep_counts - w apart,
the head stays less than its decision distance behind HW, and so the queue holds at most 128 entries; every step keeps this. -/
def Obligations.AJobCannotFillTheTrackQueue : Prop :=
  (∀ s : State, s.JobDiscipline → s.Spaced → s.trc.queue.length ≤ 128) ∧
  (∀ s t : State, s.JobDiscipline → s.Spaced → step s = .next t → t.Spaced)

/-- Every step keeps the account of pieces, in every job state: in each lane below the LANES of the last job the ten counters
total, modulo 2^32, the entries decided since its JOB_START or the reset, and in each other lane nothing.  (The number of
decisions is the model's own field, log 28.) -/
def Obligations.EveryStepAccountsForEveryPiece : Prop :=
  ∀ s t : State, s.PiecesAccounted → step s = .next t → t.PiecesAccounted
end

