-- ==== Sys2Proof/Laws/Lanes.lean ====
section
/-! SUPPORT. What the record of six lanes reads as after each of its operations. -/

namespace Sys2Proof

@[simp] theorem Lanes.get_ofFn {α : Type} (f : Lane → α) (i : Lane) : (Lanes.ofFn f).get i = f i := by
  match i with
  | 0 => rfl
  | 1 => rfl
  | 2 => rfl
  | 3 => rfl
  | 4 => rfl
  | 5 => rfl

@[simp] theorem Lanes.get_all {α : Type} (v : α) (i : Lane) : (Lanes.all v).get i = v := by
  match i with
  | 0 => rfl
  | 1 => rfl
  | 2 => rfl
  | 3 => rfl
  | 4 => rfl
  | 5 => rfl

theorem Lanes.get_set {α : Type} (x : Lanes α) (i j : Lane) (v : α) :
    (x.set i v).get j = if j = i then v else x.get j := by
  simp [Lanes.set]

@[simp] theorem Lanes.get_set_same {α : Type} (x : Lanes α) (i : Lane) (v : α) : (x.set i v).get i = v := by
  simp [Lanes.get_set]

theorem Lanes.get_set_other {α : Type} (x : Lanes α) {i j : Lane} (v : α) (h : j ≠ i) :
    (x.set i v).get j = x.get j := by
  simp [Lanes.get_set, h]

theorem Lanes.ext_get {α : Type} {x y : Lanes α} (h : ∀ i, x.get i = y.get i) : x = y := by
  cases x; cases y
  have h0 := h 0; have h1 := h 1; have h2 := h 2; have h3 := h 3; have h4 := h 4; have h5 := h 5
  simp only [Lanes.get] at h0 h1 h2 h3 h4 h5
  simp [h0, h1, h2, h3, h4, h5]

theorem Lanes.all_toList {α : Type} (x : Lanes α) (p : α → Bool) : x.toList.all p = true ↔ ∀ i, p (x.get i) = true := by
  constructor
  · intro h i
    simp only [Lanes.toList, List.all_cons, List.all_nil, Bool.and_true, Bool.and_eq_true] at h
    match i with
    | 0 => exact h.1
    | 1 => exact h.2.1
    | 2 => exact h.2.2.1
    | 3 => exact h.2.2.2.1
    | 4 => exact h.2.2.2.2.1
    | 5 => exact h.2.2.2.2.2
  · intro h
    have h0 := h 0; have h1 := h 1; have h2 := h 2; have h3 := h 3; have h4 := h 4; have h5 := h 5
    simp only [Lanes.get] at h0 h1 h2 h3 h4 h5
    simp [Lanes.toList, h0, h1, h2, h3, h4, h5]

end Sys2Proof
end

