-- ==== Sys2Proof/Laws/State.lean ====
section
/-! SUPPORT. One lemma for each field an operation leaves alone, so that no later proof unfolds a record update. -/

namespace Sys2Proof.Machine

/-! ### setEvent changes mge and nothing else -/

@[simp] theorem State.setEvent_psu (s : State) (e : Event) : (s.setEvent e).psu = s.psu := rfl

@[simp] theorem State.setEvent_mru (s : State) (e : Event) : (s.setEvent e).mru = s.mru := rfl

@[simp] theorem State.setEvent_trc (s : State) (e : Event) : (s.setEvent e).trc = s.trc := rfl

@[simp] theorem State.setEvent_ksq (s : State) (e : Event) : (s.setEvent e).ksq = s.ksq := rfl

@[simp] theorem State.setEvent_gtu (s : State) (e : Event) : (s.setEvent e).gtu = s.gtu := rfl

@[simp] theorem State.setEvent_bsq (s : State) (e : Event) : (s.setEvent e).bsq = s.bsq := rfl

@[simp] theorem State.setEvent_jbc (s : State) (e : Event) : (s.setEvent e).jbc = s.jbc := rfl

@[simp] theorem State.setEvent_rif (s : State) (e : Event) : (s.setEvent e).rif = s.rif := rfl

@[simp] theorem State.setEvent_inhibitLine (s : State) (e : Event) : (s.setEvent e).inhibitLine = s.inhibitLine := rfl

@[simp] theorem State.setEvent_resetHeld (s : State) (e : Event) : (s.setEvent e).resetHeld = s.resetHeld := rfl

@[simp] theorem State.setEvent_draws (s : State) (e : Event) : (s.setEvent e).draws = s.draws := rfl

@[simp] theorem State.setEvent_pending (s : State) (e : Event) : (s.setEvent e).pending = s.pending := rfl

/-! ### setEventIf changes mge and nothing else -/

@[simp] theorem State.setEventIf_psu (s : State) (b : Bool) (e : Event) : (s.setEventIf b e).psu = s.psu := by cases b <;> rfl

@[simp] theorem State.setEventIf_mru (s : State) (b : Bool) (e : Event) : (s.setEventIf b e).mru = s.mru := by cases b <;> rfl

@[simp] theorem State.setEventIf_trc (s : State) (b : Bool) (e : Event) : (s.setEventIf b e).trc = s.trc := by cases b <;> rfl

@[simp] theorem State.setEventIf_ksq (s : State) (b : Bool) (e : Event) : (s.setEventIf b e).ksq = s.ksq := by cases b <;> rfl

@[simp] theorem State.setEventIf_gtu (s : State) (b : Bool) (e : Event) : (s.setEventIf b e).gtu = s.gtu := by cases b <;> rfl

@[simp] theorem State.setEventIf_bsq (s : State) (b : Bool) (e : Event) : (s.setEventIf b e).bsq = s.bsq := by cases b <;> rfl

@[simp] theorem State.setEventIf_jbc (s : State) (b : Bool) (e : Event) : (s.setEventIf b e).jbc = s.jbc := by cases b <;> rfl

@[simp] theorem State.setEventIf_rif (s : State) (b : Bool) (e : Event) : (s.setEventIf b e).rif = s.rif := by cases b <;> rfl

@[simp] theorem State.setEventIf_inhibitLine (s : State) (b : Bool) (e : Event) : (s.setEventIf b e).inhibitLine = s.inhibitLine := by cases b <;> rfl

@[simp] theorem State.setEventIf_resetHeld (s : State) (b : Bool) (e : Event) : (s.setEventIf b e).resetHeld = s.resetHeld := by cases b <;> rfl

@[simp] theorem State.setEventIf_draws (s : State) (b : Bool) (e : Event) : (s.setEventIf b e).draws = s.draws := by cases b <;> rfl

@[simp] theorem State.setEventIf_pending (s : State) (b : Bool) (e : Event) : (s.setEventIf b e).pending = s.pending := by cases b <;> rfl

/-! ### queueRecord changes rif, mge and nothing else -/

@[simp] theorem State.queueRecord_psu (s : State) (r : Record) : (s.queueRecord r).psu = s.psu := by unfold State.queueRecord; split <;> rfl

@[simp] theorem State.queueRecord_mru (s : State) (r : Record) : (s.queueRecord r).mru = s.mru := by unfold State.queueRecord; split <;> rfl

@[simp] theorem State.queueRecord_trc (s : State) (r : Record) : (s.queueRecord r).trc = s.trc := by unfold State.queueRecord; split <;> rfl

@[simp] theorem State.queueRecord_ksq (s : State) (r : Record) : (s.queueRecord r).ksq = s.ksq := by unfold State.queueRecord; split <;> rfl

@[simp] theorem State.queueRecord_gtu (s : State) (r : Record) : (s.queueRecord r).gtu = s.gtu := by unfold State.queueRecord; split <;> rfl

@[simp] theorem State.queueRecord_bsq (s : State) (r : Record) : (s.queueRecord r).bsq = s.bsq := by unfold State.queueRecord; split <;> rfl

@[simp] theorem State.queueRecord_jbc (s : State) (r : Record) : (s.queueRecord r).jbc = s.jbc := by unfold State.queueRecord; split <;> rfl

@[simp] theorem State.queueRecord_inhibitLine (s : State) (r : Record) : (s.queueRecord r).inhibitLine = s.inhibitLine := by unfold State.queueRecord; split <;> rfl

@[simp] theorem State.queueRecord_resetHeld (s : State) (r : Record) : (s.queueRecord r).resetHeld = s.resetHeld := by unfold State.queueRecord; split <;> rfl

@[simp] theorem State.queueRecord_draws (s : State) (r : Record) : (s.queueRecord r).draws = s.draws := by unfold State.queueRecord; split <;> rfl

@[simp] theorem State.queueRecord_pending (s : State) (r : Record) : (s.queueRecord r).pending = s.pending := by unfold State.queueRecord; split <;> rfl

/-! ### setStopLatch changes jbc and nothing else -/

@[simp] theorem State.setStopLatch_psu (s : State) : (s.setStopLatch).psu = s.psu := rfl

@[simp] theorem State.setStopLatch_mru (s : State) : (s.setStopLatch).mru = s.mru := rfl

@[simp] theorem State.setStopLatch_trc (s : State) : (s.setStopLatch).trc = s.trc := rfl

@[simp] theorem State.setStopLatch_ksq (s : State) : (s.setStopLatch).ksq = s.ksq := rfl

@[simp] theorem State.setStopLatch_gtu (s : State) : (s.setStopLatch).gtu = s.gtu := rfl

@[simp] theorem State.setStopLatch_bsq (s : State) : (s.setStopLatch).bsq = s.bsq := rfl

@[simp] theorem State.setStopLatch_rif (s : State) : (s.setStopLatch).rif = s.rif := rfl

@[simp] theorem State.setStopLatch_mge (s : State) : (s.setStopLatch).mge = s.mge := rfl

@[simp] theorem State.setStopLatch_inhibitLine (s : State) : (s.setStopLatch).inhibitLine = s.inhibitLine := rfl

@[simp] theorem State.setStopLatch_resetHeld (s : State) : (s.setStopLatch).resetHeld = s.resetHeld := rfl

@[simp] theorem State.setStopLatch_draws (s : State) : (s.setStopLatch).draws = s.draws := rfl

@[simp] theorem State.setStopLatch_pending (s : State) : (s.setStopLatch).pending = s.pending := rfl

/-! ### disarmKnife changes ksq and nothing else -/

@[simp] theorem State.disarmKnife_psu (s : State) : (s.disarmKnife).psu = s.psu := rfl

@[simp] theorem State.disarmKnife_mru (s : State) : (s.disarmKnife).mru = s.mru := rfl

@[simp] theorem State.disarmKnife_trc (s : State) : (s.disarmKnife).trc = s.trc := rfl

@[simp] theorem State.disarmKnife_gtu (s : State) : (s.disarmKnife).gtu = s.gtu := rfl

@[simp] theorem State.disarmKnife_bsq (s : State) : (s.disarmKnife).bsq = s.bsq := rfl

@[simp] theorem State.disarmKnife_jbc (s : State) : (s.disarmKnife).jbc = s.jbc := rfl

@[simp] theorem State.disarmKnife_rif (s : State) : (s.disarmKnife).rif = s.rif := rfl

@[simp] theorem State.disarmKnife_mge (s : State) : (s.disarmKnife).mge = s.mge := rfl

@[simp] theorem State.disarmKnife_inhibitLine (s : State) : (s.disarmKnife).inhibitLine = s.inhibitLine := rfl

@[simp] theorem State.disarmKnife_resetHeld (s : State) : (s.disarmKnife).resetHeld = s.resetHeld := rfl

@[simp] theorem State.disarmKnife_draws (s : State) : (s.disarmKnife).draws = s.draws := rfl

@[simp] theorem State.disarmKnife_pending (s : State) : (s.disarmKnife).pending = s.pending := rfl

/-! ### emptyWindowAndSplices changes trc and nothing else -/

@[simp] theorem State.emptyWindowAndSplices_psu (s : State) : (s.emptyWindowAndSplices).psu = s.psu := rfl

@[simp] theorem State.emptyWindowAndSplices_mru (s : State) : (s.emptyWindowAndSplices).mru = s.mru := rfl

@[simp] theorem State.emptyWindowAndSplices_ksq (s : State) : (s.emptyWindowAndSplices).ksq = s.ksq := rfl

@[simp] theorem State.emptyWindowAndSplices_gtu (s : State) : (s.emptyWindowAndSplices).gtu = s.gtu := rfl

@[simp] theorem State.emptyWindowAndSplices_bsq (s : State) : (s.emptyWindowAndSplices).bsq = s.bsq := rfl

@[simp] theorem State.emptyWindowAndSplices_jbc (s : State) : (s.emptyWindowAndSplices).jbc = s.jbc := rfl

@[simp] theorem State.emptyWindowAndSplices_rif (s : State) : (s.emptyWindowAndSplices).rif = s.rif := rfl

@[simp] theorem State.emptyWindowAndSplices_mge (s : State) : (s.emptyWindowAndSplices).mge = s.mge := rfl

@[simp] theorem State.emptyWindowAndSplices_inhibitLine (s : State) : (s.emptyWindowAndSplices).inhibitLine = s.inhibitLine := rfl

@[simp] theorem State.emptyWindowAndSplices_resetHeld (s : State) : (s.emptyWindowAndSplices).resetHeld = s.resetHeld := rfl

@[simp] theorem State.emptyWindowAndSplices_draws (s : State) : (s.emptyWindowAndSplices).draws = s.draws := rfl

@[simp] theorem State.emptyWindowAndSplices_pending (s : State) : (s.emptyWindowAndSplices).pending = s.pending := rfl

/-! ### idleRegistration changes mru and nothing else -/

@[simp] theorem State.idleRegistration_psu (s : State) : (s.idleRegistration).psu = s.psu := rfl

@[simp] theorem State.idleRegistration_trc (s : State) : (s.idleRegistration).trc = s.trc := rfl

@[simp] theorem State.idleRegistration_ksq (s : State) : (s.idleRegistration).ksq = s.ksq := rfl

@[simp] theorem State.idleRegistration_gtu (s : State) : (s.idleRegistration).gtu = s.gtu := rfl

@[simp] theorem State.idleRegistration_bsq (s : State) : (s.idleRegistration).bsq = s.bsq := rfl

@[simp] theorem State.idleRegistration_jbc (s : State) : (s.idleRegistration).jbc = s.jbc := rfl

@[simp] theorem State.idleRegistration_rif (s : State) : (s.idleRegistration).rif = s.rif := rfl

@[simp] theorem State.idleRegistration_mge (s : State) : (s.idleRegistration).mge = s.mge := rfl

@[simp] theorem State.idleRegistration_inhibitLine (s : State) : (s.idleRegistration).inhibitLine = s.inhibitLine := rfl

@[simp] theorem State.idleRegistration_resetHeld (s : State) : (s.idleRegistration).resetHeld = s.resetHeld := rfl

@[simp] theorem State.idleRegistration_draws (s : State) : (s.idleRegistration).draws = s.draws := rfl

@[simp] theorem State.idleRegistration_pending (s : State) : (s.idleRegistration).pending = s.pending := rfl

/-! ### enterStopped changes mru, ksq, jbc and nothing else -/

@[simp] theorem State.enterStopped_psu (s : State) (j : JobState) : (s.enterStopped j).psu = s.psu := rfl

@[simp] theorem State.enterStopped_trc (s : State) (j : JobState) : (s.enterStopped j).trc = s.trc := rfl

@[simp] theorem State.enterStopped_gtu (s : State) (j : JobState) : (s.enterStopped j).gtu = s.gtu := rfl

@[simp] theorem State.enterStopped_bsq (s : State) (j : JobState) : (s.enterStopped j).bsq = s.bsq := rfl

@[simp] theorem State.enterStopped_rif (s : State) (j : JobState) : (s.enterStopped j).rif = s.rif := rfl

@[simp] theorem State.enterStopped_mge (s : State) (j : JobState) : (s.enterStopped j).mge = s.mge := rfl

@[simp] theorem State.enterStopped_inhibitLine (s : State) (j : JobState) : (s.enterStopped j).inhibitLine = s.inhibitLine := rfl

@[simp] theorem State.enterStopped_resetHeld (s : State) (j : JobState) : (s.enterStopped j).resetHeld = s.resetHeld := rfl

@[simp] theorem State.enterStopped_draws (s : State) (j : JobState) : (s.enterStopped j).draws = s.draws := rfl

@[simp] theorem State.enterStopped_pending (s : State) (j : JobState) : (s.enterStopped j).pending = s.pending := rfl

/-! ### setPlan changes bsq and nothing else -/

@[simp] theorem State.setPlan_psu (s : State) (i : Lane) (p : LanePlan) : (s.setPlan i p).psu = s.psu := rfl

@[simp] theorem State.setPlan_mru (s : State) (i : Lane) (p : LanePlan) : (s.setPlan i p).mru = s.mru := rfl

@[simp] theorem State.setPlan_trc (s : State) (i : Lane) (p : LanePlan) : (s.setPlan i p).trc = s.trc := rfl

@[simp] theorem State.setPlan_ksq (s : State) (i : Lane) (p : LanePlan) : (s.setPlan i p).ksq = s.ksq := rfl

@[simp] theorem State.setPlan_gtu (s : State) (i : Lane) (p : LanePlan) : (s.setPlan i p).gtu = s.gtu := rfl

@[simp] theorem State.setPlan_jbc (s : State) (i : Lane) (p : LanePlan) : (s.setPlan i p).jbc = s.jbc := rfl

@[simp] theorem State.setPlan_rif (s : State) (i : Lane) (p : LanePlan) : (s.setPlan i p).rif = s.rif := rfl

@[simp] theorem State.setPlan_mge (s : State) (i : Lane) (p : LanePlan) : (s.setPlan i p).mge = s.mge := rfl

@[simp] theorem State.setPlan_inhibitLine (s : State) (i : Lane) (p : LanePlan) : (s.setPlan i p).inhibitLine = s.inhibitLine := rfl

@[simp] theorem State.setPlan_resetHeld (s : State) (i : Lane) (p : LanePlan) : (s.setPlan i p).resetHeld = s.resetHeld := rfl

@[simp] theorem State.setPlan_draws (s : State) (i : Lane) (p : LanePlan) : (s.setPlan i p).draws = s.draws := rfl

@[simp] theorem State.setPlan_pending (s : State) (i : Lane) (p : LanePlan) : (s.setPlan i p).pending = s.pending := rfl

/-! ### setRow changes gtu and nothing else -/

@[simp] theorem State.setRow_psu (s : State) (i : Lane) (r : LaneRow) : (s.setRow i r).psu = s.psu := rfl

@[simp] theorem State.setRow_mru (s : State) (i : Lane) (r : LaneRow) : (s.setRow i r).mru = s.mru := rfl

@[simp] theorem State.setRow_trc (s : State) (i : Lane) (r : LaneRow) : (s.setRow i r).trc = s.trc := rfl

@[simp] theorem State.setRow_ksq (s : State) (i : Lane) (r : LaneRow) : (s.setRow i r).ksq = s.ksq := rfl

@[simp] theorem State.setRow_bsq (s : State) (i : Lane) (r : LaneRow) : (s.setRow i r).bsq = s.bsq := rfl

@[simp] theorem State.setRow_jbc (s : State) (i : Lane) (r : LaneRow) : (s.setRow i r).jbc = s.jbc := rfl

@[simp] theorem State.setRow_rif (s : State) (i : Lane) (r : LaneRow) : (s.setRow i r).rif = s.rif := rfl

@[simp] theorem State.setRow_mge (s : State) (i : Lane) (r : LaneRow) : (s.setRow i r).mge = s.mge := rfl

@[simp] theorem State.setRow_inhibitLine (s : State) (i : Lane) (r : LaneRow) : (s.setRow i r).inhibitLine = s.inhibitLine := rfl

@[simp] theorem State.setRow_resetHeld (s : State) (i : Lane) (r : LaneRow) : (s.setRow i r).resetHeld = s.resetHeld := rfl

@[simp] theorem State.setRow_draws (s : State) (i : Lane) (r : LaneRow) : (s.setRow i r).draws = s.draws := rfl

@[simp] theorem State.setRow_pending (s : State) (i : Lane) (r : LaneRow) : (s.setRow i r).pending = s.pending := rfl

/-! ### popRequest changes mge and nothing else -/

@[simp] theorem State.popRequest_psu (s : State) : (s.popRequest).psu = s.psu := rfl

@[simp] theorem State.popRequest_mru (s : State) : (s.popRequest).mru = s.mru := rfl

@[simp] theorem State.popRequest_trc (s : State) : (s.popRequest).trc = s.trc := rfl

@[simp] theorem State.popRequest_ksq (s : State) : (s.popRequest).ksq = s.ksq := rfl

@[simp] theorem State.popRequest_gtu (s : State) : (s.popRequest).gtu = s.gtu := rfl

@[simp] theorem State.popRequest_bsq (s : State) : (s.popRequest).bsq = s.bsq := rfl

@[simp] theorem State.popRequest_jbc (s : State) : (s.popRequest).jbc = s.jbc := rfl

@[simp] theorem State.popRequest_rif (s : State) : (s.popRequest).rif = s.rif := rfl

@[simp] theorem State.popRequest_inhibitLine (s : State) : (s.popRequest).inhibitLine = s.inhibitLine := rfl

@[simp] theorem State.popRequest_resetHeld (s : State) : (s.popRequest).resetHeld = s.resetHeld := rfl

@[simp] theorem State.popRequest_draws (s : State) : (s.popRequest).draws = s.draws := rfl

@[simp] theorem State.popRequest_pending (s : State) : (s.popRequest).pending = s.pending := rfl

/-! ### queueReply changes rif, draws and nothing else -/

@[simp] theorem State.queueReply_psu (s : State) (q : Request) (a : Answer) : (s.queueReply q a).psu = s.psu := by unfold State.queueReply; split <;> rfl

@[simp] theorem State.queueReply_mru (s : State) (q : Request) (a : Answer) : (s.queueReply q a).mru = s.mru := by unfold State.queueReply; split <;> rfl

@[simp] theorem State.queueReply_trc (s : State) (q : Request) (a : Answer) : (s.queueReply q a).trc = s.trc := by unfold State.queueReply; split <;> rfl

@[simp] theorem State.queueReply_ksq (s : State) (q : Request) (a : Answer) : (s.queueReply q a).ksq = s.ksq := by unfold State.queueReply; split <;> rfl

@[simp] theorem State.queueReply_gtu (s : State) (q : Request) (a : Answer) : (s.queueReply q a).gtu = s.gtu := by unfold State.queueReply; split <;> rfl

@[simp] theorem State.queueReply_bsq (s : State) (q : Request) (a : Answer) : (s.queueReply q a).bsq = s.bsq := by unfold State.queueReply; split <;> rfl

@[simp] theorem State.queueReply_jbc (s : State) (q : Request) (a : Answer) : (s.queueReply q a).jbc = s.jbc := by unfold State.queueReply; split <;> rfl

@[simp] theorem State.queueReply_mge (s : State) (q : Request) (a : Answer) : (s.queueReply q a).mge = s.mge := by unfold State.queueReply; split <;> rfl

@[simp] theorem State.queueReply_inhibitLine (s : State) (q : Request) (a : Answer) : (s.queueReply q a).inhibitLine = s.inhibitLine := by unfold State.queueReply; split <;> rfl

@[simp] theorem State.queueReply_resetHeld (s : State) (q : Request) (a : Answer) : (s.queueReply q a).resetHeld = s.resetHeld := by unfold State.queueReply; split <;> rfl

@[simp] theorem State.queueReply_pending (s : State) (q : Request) (a : Answer) : (s.queueReply q a).pending = s.pending := by unfold State.queueReply; split <;> rfl

/-! ### enqueueRequest changes mge and nothing else -/

@[simp] theorem State.enqueueRequest_psu (s : State) (q : Request) : (s.enqueueRequest q).psu = s.psu := by unfold State.enqueueRequest; split <;> rfl

@[simp] theorem State.enqueueRequest_mru (s : State) (q : Request) : (s.enqueueRequest q).mru = s.mru := by unfold State.enqueueRequest; split <;> rfl

@[simp] theorem State.enqueueRequest_trc (s : State) (q : Request) : (s.enqueueRequest q).trc = s.trc := by unfold State.enqueueRequest; split <;> rfl

@[simp] theorem State.enqueueRequest_ksq (s : State) (q : Request) : (s.enqueueRequest q).ksq = s.ksq := by unfold State.enqueueRequest; split <;> rfl

@[simp] theorem State.enqueueRequest_gtu (s : State) (q : Request) : (s.enqueueRequest q).gtu = s.gtu := by unfold State.enqueueRequest; split <;> rfl

@[simp] theorem State.enqueueRequest_bsq (s : State) (q : Request) : (s.enqueueRequest q).bsq = s.bsq := by unfold State.enqueueRequest; split <;> rfl

@[simp] theorem State.enqueueRequest_jbc (s : State) (q : Request) : (s.enqueueRequest q).jbc = s.jbc := by unfold State.enqueueRequest; split <;> rfl

@[simp] theorem State.enqueueRequest_rif (s : State) (q : Request) : (s.enqueueRequest q).rif = s.rif := by unfold State.enqueueRequest; split <;> rfl

@[simp] theorem State.enqueueRequest_inhibitLine (s : State) (q : Request) : (s.enqueueRequest q).inhibitLine = s.inhibitLine := by unfold State.enqueueRequest; split <;> rfl

@[simp] theorem State.enqueueRequest_resetHeld (s : State) (q : Request) : (s.enqueueRequest q).resetHeld = s.resetHeld := by unfold State.enqueueRequest; split <;> rfl

@[simp] theorem State.enqueueRequest_draws (s : State) (q : Request) : (s.enqueueRequest q).draws = s.draws := by unfold State.enqueueRequest; split <;> rfl

@[simp] theorem State.enqueueRequest_pending (s : State) (q : Request) : (s.enqueueRequest q).pending = s.pending := by unfold State.enqueueRequest; split <;> rfl

/-! ### beginWindow changes psu and nothing else -/

@[simp] theorem State.beginWindow_mru (s : State) : (s.beginWindow).mru = s.mru := rfl

@[simp] theorem State.beginWindow_trc (s : State) : (s.beginWindow).trc = s.trc := rfl

@[simp] theorem State.beginWindow_ksq (s : State) : (s.beginWindow).ksq = s.ksq := rfl

@[simp] theorem State.beginWindow_gtu (s : State) : (s.beginWindow).gtu = s.gtu := rfl

@[simp] theorem State.beginWindow_bsq (s : State) : (s.beginWindow).bsq = s.bsq := rfl

@[simp] theorem State.beginWindow_jbc (s : State) : (s.beginWindow).jbc = s.jbc := rfl

@[simp] theorem State.beginWindow_rif (s : State) : (s.beginWindow).rif = s.rif := rfl

@[simp] theorem State.beginWindow_mge (s : State) : (s.beginWindow).mge = s.mge := rfl

@[simp] theorem State.beginWindow_inhibitLine (s : State) : (s.beginWindow).inhibitLine = s.inhibitLine := rfl

@[simp] theorem State.beginWindow_resetHeld (s : State) : (s.beginWindow).resetHeld = s.resetHeld := rfl

@[simp] theorem State.beginWindow_draws (s : State) : (s.beginWindow).draws = s.draws := rfl

@[simp] theorem State.beginWindow_pending (s : State) : (s.beginWindow).pending = s.pending := rfl

/-! ### repeatCell changes rif and nothing else -/

@[simp] theorem State.repeatCell_psu (s : State) (c : Cell) : (s.repeatCell c).psu = s.psu := rfl

@[simp] theorem State.repeatCell_mru (s : State) (c : Cell) : (s.repeatCell c).mru = s.mru := rfl

@[simp] theorem State.repeatCell_trc (s : State) (c : Cell) : (s.repeatCell c).trc = s.trc := rfl

@[simp] theorem State.repeatCell_ksq (s : State) (c : Cell) : (s.repeatCell c).ksq = s.ksq := rfl

@[simp] theorem State.repeatCell_gtu (s : State) (c : Cell) : (s.repeatCell c).gtu = s.gtu := rfl

@[simp] theorem State.repeatCell_bsq (s : State) (c : Cell) : (s.repeatCell c).bsq = s.bsq := rfl

@[simp] theorem State.repeatCell_jbc (s : State) (c : Cell) : (s.repeatCell c).jbc = s.jbc := rfl

@[simp] theorem State.repeatCell_mge (s : State) (c : Cell) : (s.repeatCell c).mge = s.mge := rfl

@[simp] theorem State.repeatCell_inhibitLine (s : State) (c : Cell) : (s.repeatCell c).inhibitLine = s.inhibitLine := rfl

@[simp] theorem State.repeatCell_resetHeld (s : State) (c : Cell) : (s.repeatCell c).resetHeld = s.resetHeld := rfl

@[simp] theorem State.repeatCell_draws (s : State) (c : Cell) : (s.repeatCell c).draws = s.draws := rfl

@[simp] theorem State.repeatCell_pending (s : State) (c : Cell) : (s.repeatCell c).pending = s.pending := rfl

/-! ### countCheck changes rif and nothing else -/

@[simp] theorem State.countCheck_psu (s : State) (c : Cell) : (s.countCheck c).psu = s.psu := by unfold State.countCheck; split <;> rfl

@[simp] theorem State.countCheck_mru (s : State) (c : Cell) : (s.countCheck c).mru = s.mru := by unfold State.countCheck; split <;> rfl

@[simp] theorem State.countCheck_trc (s : State) (c : Cell) : (s.countCheck c).trc = s.trc := by unfold State.countCheck; split <;> rfl

@[simp] theorem State.countCheck_ksq (s : State) (c : Cell) : (s.countCheck c).ksq = s.ksq := by unfold State.countCheck; split <;> rfl

@[simp] theorem State.countCheck_gtu (s : State) (c : Cell) : (s.countCheck c).gtu = s.gtu := by unfold State.countCheck; split <;> rfl

@[simp] theorem State.countCheck_bsq (s : State) (c : Cell) : (s.countCheck c).bsq = s.bsq := by unfold State.countCheck; split <;> rfl

@[simp] theorem State.countCheck_jbc (s : State) (c : Cell) : (s.countCheck c).jbc = s.jbc := by unfold State.countCheck; split <;> rfl

@[simp] theorem State.countCheck_mge (s : State) (c : Cell) : (s.countCheck c).mge = s.mge := by unfold State.countCheck; split <;> rfl

@[simp] theorem State.countCheck_inhibitLine (s : State) (c : Cell) : (s.countCheck c).inhibitLine = s.inhibitLine := by unfold State.countCheck; split <;> rfl

@[simp] theorem State.countCheck_resetHeld (s : State) (c : Cell) : (s.countCheck c).resetHeld = s.resetHeld := by unfold State.countCheck; split <;> rfl

@[simp] theorem State.countCheck_draws (s : State) (c : Cell) : (s.countCheck c).draws = s.draws := by unfold State.countCheck; split <;> rfl

@[simp] theorem State.countCheck_pending (s : State) (c : Cell) : (s.countCheck c).pending = s.pending := by unfold State.countCheck; split <;> rfl

/-! ### beginFrame changes rif and nothing else -/

@[simp] theorem State.beginFrame_psu (s : State) : (s.beginFrame).psu = s.psu := rfl

@[simp] theorem State.beginFrame_mru (s : State) : (s.beginFrame).mru = s.mru := rfl

@[simp] theorem State.beginFrame_trc (s : State) : (s.beginFrame).trc = s.trc := rfl

@[simp] theorem State.beginFrame_ksq (s : State) : (s.beginFrame).ksq = s.ksq := rfl

@[simp] theorem State.beginFrame_gtu (s : State) : (s.beginFrame).gtu = s.gtu := rfl

@[simp] theorem State.beginFrame_bsq (s : State) : (s.beginFrame).bsq = s.bsq := rfl

@[simp] theorem State.beginFrame_jbc (s : State) : (s.beginFrame).jbc = s.jbc := rfl

@[simp] theorem State.beginFrame_mge (s : State) : (s.beginFrame).mge = s.mge := rfl

@[simp] theorem State.beginFrame_inhibitLine (s : State) : (s.beginFrame).inhibitLine = s.inhibitLine := rfl

@[simp] theorem State.beginFrame_resetHeld (s : State) : (s.beginFrame).resetHeld = s.resetHeld := rfl

@[simp] theorem State.beginFrame_draws (s : State) : (s.beginFrame).draws = s.draws := rfl

@[simp] theorem State.beginFrame_pending (s : State) : (s.beginFrame).pending = s.pending := rfl

/-! ### startFrame changes rif and nothing else -/

@[simp] theorem State.startFrame_psu (s : State) (c : Cell) : (s.startFrame c).psu = s.psu := rfl

@[simp] theorem State.startFrame_mru (s : State) (c : Cell) : (s.startFrame c).mru = s.mru := rfl

@[simp] theorem State.startFrame_trc (s : State) (c : Cell) : (s.startFrame c).trc = s.trc := rfl

@[simp] theorem State.startFrame_ksq (s : State) (c : Cell) : (s.startFrame c).ksq = s.ksq := rfl

@[simp] theorem State.startFrame_gtu (s : State) (c : Cell) : (s.startFrame c).gtu = s.gtu := rfl

@[simp] theorem State.startFrame_bsq (s : State) (c : Cell) : (s.startFrame c).bsq = s.bsq := rfl

@[simp] theorem State.startFrame_jbc (s : State) (c : Cell) : (s.startFrame c).jbc = s.jbc := rfl

@[simp] theorem State.startFrame_mge (s : State) (c : Cell) : (s.startFrame c).mge = s.mge := rfl

@[simp] theorem State.startFrame_inhibitLine (s : State) (c : Cell) : (s.startFrame c).inhibitLine = s.inhibitLine := rfl

@[simp] theorem State.startFrame_resetHeld (s : State) (c : Cell) : (s.startFrame c).resetHeld = s.resetHeld := rfl

@[simp] theorem State.startFrame_draws (s : State) (c : Cell) : (s.startFrame c).draws = s.draws := rfl

@[simp] theorem State.startFrame_pending (s : State) (c : Cell) : (s.startFrame c).pending = s.pending := rfl

/-! ### takeFire changes ksq, trc, mge and nothing else -/

@[simp] theorem State.takeFire_psu (s : State) (r : Rsn) (how : FireFound) : (s.takeFire r how).psu = s.psu := by unfold State.takeFire; split <;> rfl

@[simp] theorem State.takeFire_mru (s : State) (r : Rsn) (how : FireFound) : (s.takeFire r how).mru = s.mru := by unfold State.takeFire; split <;> rfl

@[simp] theorem State.takeFire_gtu (s : State) (r : Rsn) (how : FireFound) : (s.takeFire r how).gtu = s.gtu := by unfold State.takeFire; split <;> rfl

@[simp] theorem State.takeFire_bsq (s : State) (r : Rsn) (how : FireFound) : (s.takeFire r how).bsq = s.bsq := by unfold State.takeFire; split <;> rfl

@[simp] theorem State.takeFire_jbc (s : State) (r : Rsn) (how : FireFound) : (s.takeFire r how).jbc = s.jbc := by unfold State.takeFire; split <;> rfl

@[simp] theorem State.takeFire_rif (s : State) (r : Rsn) (how : FireFound) : (s.takeFire r how).rif = s.rif := by unfold State.takeFire; split <;> rfl

@[simp] theorem State.takeFire_inhibitLine (s : State) (r : Rsn) (how : FireFound) : (s.takeFire r how).inhibitLine = s.inhibitLine := by unfold State.takeFire; split <;> rfl

@[simp] theorem State.takeFire_resetHeld (s : State) (r : Rsn) (how : FireFound) : (s.takeFire r how).resetHeld = s.resetHeld := by unfold State.takeFire; split <;> rfl

@[simp] theorem State.takeFire_draws (s : State) (r : Rsn) (how : FireFound) : (s.takeFire r how).draws = s.draws := by unfold State.takeFire; split <;> rfl

@[simp] theorem State.takeFire_pending (s : State) (r : Rsn) (how : FireFound) : (s.takeFire r how).pending = s.pending := by unfold State.takeFire; split <;> rfl

/-! ### tailCreated changes mru, jbc and nothing else -/

@[simp] theorem State.tailCreated_psu (s : State) : (s.tailCreated).psu = s.psu := rfl

@[simp] theorem State.tailCreated_trc (s : State) : (s.tailCreated).trc = s.trc := rfl

@[simp] theorem State.tailCreated_ksq (s : State) : (s.tailCreated).ksq = s.ksq := rfl

@[simp] theorem State.tailCreated_gtu (s : State) : (s.tailCreated).gtu = s.gtu := rfl

@[simp] theorem State.tailCreated_bsq (s : State) : (s.tailCreated).bsq = s.bsq := rfl

@[simp] theorem State.tailCreated_rif (s : State) : (s.tailCreated).rif = s.rif := rfl

@[simp] theorem State.tailCreated_mge (s : State) : (s.tailCreated).mge = s.mge := rfl

@[simp] theorem State.tailCreated_inhibitLine (s : State) : (s.tailCreated).inhibitLine = s.inhibitLine := rfl

@[simp] theorem State.tailCreated_resetHeld (s : State) : (s.tailCreated).resetHeld = s.resetHeld := rfl

@[simp] theorem State.tailCreated_draws (s : State) : (s.tailCreated).draws = s.draws := rfl

@[simp] theorem State.tailCreated_pending (s : State) : (s.tailCreated).pending = s.pending := rfl

/-! ### strayMark changes mru and nothing else -/

@[simp] theorem State.strayMark_psu (s : State) : (s.strayMark).psu = s.psu := rfl

@[simp] theorem State.strayMark_trc (s : State) : (s.strayMark).trc = s.trc := rfl

@[simp] theorem State.strayMark_ksq (s : State) : (s.strayMark).ksq = s.ksq := rfl

@[simp] theorem State.strayMark_gtu (s : State) : (s.strayMark).gtu = s.gtu := rfl

@[simp] theorem State.strayMark_bsq (s : State) : (s.strayMark).bsq = s.bsq := rfl

@[simp] theorem State.strayMark_jbc (s : State) : (s.strayMark).jbc = s.jbc := rfl

@[simp] theorem State.strayMark_rif (s : State) : (s.strayMark).rif = s.rif := rfl

@[simp] theorem State.strayMark_mge (s : State) : (s.strayMark).mge = s.mge := rfl

@[simp] theorem State.strayMark_inhibitLine (s : State) : (s.strayMark).inhibitLine = s.inhibitLine := rfl

@[simp] theorem State.strayMark_resetHeld (s : State) : (s.strayMark).resetHeld = s.resetHeld := rfl

@[simp] theorem State.strayMark_draws (s : State) : (s.strayMark).draws = s.draws := rfl

@[simp] theorem State.strayMark_pending (s : State) : (s.strayMark).pending = s.pending := rfl

/-! ### discardStatus changes bsq and nothing else -/

@[simp] theorem State.discardStatus_psu (s : State) (i : Lane) : (s.discardStatus i).psu = s.psu := rfl

@[simp] theorem State.discardStatus_mru (s : State) (i : Lane) : (s.discardStatus i).mru = s.mru := rfl

@[simp] theorem State.discardStatus_trc (s : State) (i : Lane) : (s.discardStatus i).trc = s.trc := rfl

@[simp] theorem State.discardStatus_ksq (s : State) (i : Lane) : (s.discardStatus i).ksq = s.ksq := rfl

@[simp] theorem State.discardStatus_gtu (s : State) (i : Lane) : (s.discardStatus i).gtu = s.gtu := rfl

@[simp] theorem State.discardStatus_jbc (s : State) (i : Lane) : (s.discardStatus i).jbc = s.jbc := rfl

@[simp] theorem State.discardStatus_rif (s : State) (i : Lane) : (s.discardStatus i).rif = s.rif := rfl

@[simp] theorem State.discardStatus_mge (s : State) (i : Lane) : (s.discardStatus i).mge = s.mge := rfl

@[simp] theorem State.discardStatus_inhibitLine (s : State) (i : Lane) : (s.discardStatus i).inhibitLine = s.inhibitLine := rfl

@[simp] theorem State.discardStatus_resetHeld (s : State) (i : Lane) : (s.discardStatus i).resetHeld = s.resetHeld := rfl

@[simp] theorem State.discardStatus_draws (s : State) (i : Lane) : (s.discardStatus i).draws = s.draws := rfl

@[simp] theorem State.discardStatus_pending (s : State) (i : Lane) : (s.discardStatus i).pending = s.pending := rfl

/-! ### setEvent: the fields of mge it leaves alone -/

@[simp] theorem State.setEvent_mge_requests (s : State) (e : Event) : (s.setEvent e).mge.requests = s.mge.requests := rfl

@[simp] theorem State.setEvent_mge_resetPending (s : State) (e : Event) : (s.setEvent e).mge.resetPending = s.mge.resetPending := rfl

@[simp] theorem State.setEvent_mge_mask (s : State) (e : Event) : (s.setEvent e).mge.mask = s.mge.mask := rfl

@[simp] theorem State.setEvent_mge_snap (s : State) (e : Event) : (s.setEvent e).mge.snap = s.mge.snap := rfl

@[simp] theorem State.setEvent_mge_gen (s : State) (e : Event) : (s.setEvent e).mge.gen = s.mge.gen := rfl

/-! ### setEventIf: the fields of mge it leaves alone -/

@[simp] theorem State.setEventIf_mge_requests (s : State) (b : Bool) (e : Event) : (s.setEventIf b e).mge.requests = s.mge.requests := by cases b <;> rfl

@[simp] theorem State.setEventIf_mge_resetPending (s : State) (b : Bool) (e : Event) : (s.setEventIf b e).mge.resetPending = s.mge.resetPending := by cases b <;> rfl

@[simp] theorem State.setEventIf_mge_mask (s : State) (b : Bool) (e : Event) : (s.setEventIf b e).mge.mask = s.mge.mask := by cases b <;> rfl

@[simp] theorem State.setEventIf_mge_snap (s : State) (b : Bool) (e : Event) : (s.setEventIf b e).mge.snap = s.mge.snap := by cases b <;> rfl

@[simp] theorem State.setEventIf_mge_gen (s : State) (b : Bool) (e : Event) : (s.setEventIf b e).mge.gen = s.mge.gen := by cases b <;> rfl

/-! ### queueRecord: the fields of mge it leaves alone -/

@[simp] theorem State.queueRecord_mge_requests (s : State) (r : Record) : (s.queueRecord r).mge.requests = s.mge.requests := by unfold State.queueRecord; split <;> rfl

@[simp] theorem State.queueRecord_mge_resetPending (s : State) (r : Record) : (s.queueRecord r).mge.resetPending = s.mge.resetPending := by unfold State.queueRecord; split <;> rfl

@[simp] theorem State.queueRecord_mge_mask (s : State) (r : Record) : (s.queueRecord r).mge.mask = s.mge.mask := by unfold State.queueRecord; split <;> rfl

@[simp] theorem State.queueRecord_mge_snap (s : State) (r : Record) : (s.queueRecord r).mge.snap = s.mge.snap := by unfold State.queueRecord; split <;> rfl

@[simp] theorem State.queueRecord_mge_gen (s : State) (r : Record) : (s.queueRecord r).mge.gen = s.mge.gen := by unfold State.queueRecord; split <;> rfl

/-! ### queueRecord: the fields of rif it leaves alone -/

@[simp] theorem State.queueRecord_rif_link (s : State) (r : Record) : (s.queueRecord r).rif.link = s.rif.link := by unfold State.queueRecord; split <;> rfl

@[simp] theorem State.queueRecord_rif_linkTimer (s : State) (r : Record) : (s.queueRecord r).rif.linkTimer = s.rif.linkTimer := by unfold State.queueRecord; split <;> rfl

@[simp] theorem State.queueRecord_rif_slots (s : State) (r : Record) : (s.queueRecord r).rif.slots = s.rif.slots := by unfold State.queueRecord; split <;> rfl

@[simp] theorem State.queueRecord_rif_slot (s : State) (r : Record) : (s.queueRecord r).rif.slot = s.rif.slot := by unfold State.queueRecord; split <;> rfl

@[simp] theorem State.queueRecord_rif_frameNo (s : State) (r : Record) : (s.queueRecord r).rif.frameNo = s.rif.frameNo := by unfold State.queueRecord; split <;> rfl

@[simp] theorem State.queueRecord_rif_nodeId (s : State) (r : Record) : (s.queueRecord r).rif.nodeId = s.rif.nodeId := by unfold State.queueRecord; split <;> rfl

@[simp] theorem State.queueRecord_rif_written (s : State) (r : Record) : (s.queueRecord r).rif.written = s.rif.written := by unfold State.queueRecord; split <;> rfl

@[simp] theorem State.queueRecord_rif_active (s : State) (r : Record) : (s.queueRecord r).rif.active = s.rif.active := by unfold State.queueRecord; split <;> rfl

@[simp] theorem State.queueRecord_rif_managerNode (s : State) (r : Record) : (s.queueRecord r).rif.managerNode = s.rif.managerNode := by unfold State.queueRecord; split <;> rfl

@[simp] theorem State.queueRecord_rif_recordDest (s : State) (r : Record) : (s.queueRecord r).rif.recordDest = s.rif.recordDest := by unfold State.queueRecord; split <;> rfl

@[simp] theorem State.queueRecord_rif_noticeDest (s : State) (r : Record) : (s.queueRecord r).rif.noticeDest = s.rif.noticeDest := by unfold State.queueRecord; split <;> rfl

@[simp] theorem State.queueRecord_rif_replies (s : State) (r : Record) : (s.queueRecord r).rif.replies = s.rif.replies := by unfold State.queueRecord; split <;> rfl

@[simp] theorem State.queueRecord_rif_frameStatus (s : State) (r : Record) : (s.queueRecord r).rif.frameStatus = s.rif.frameStatus := by unfold State.queueRecord; split <;> rfl

@[simp] theorem State.queueRecord_rif_crcErrors (s : State) (r : Record) : (s.queueRecord r).rif.crcErrors = s.rif.crcErrors := by unfold State.queueRecord; split <;> rfl

@[simp] theorem State.queueRecord_rif_sending (s : State) (r : Record) : (s.queueRecord r).rif.sending = s.rif.sending := by unfold State.queueRecord; split <;> rfl

@[simp] theorem State.queueRecord_rif_ringTx (s : State) (r : Record) : (s.queueRecord r).rif.ringTx = s.rif.ringTx := by unfold State.queueRecord; split <;> rfl

/-! ### setStopLatch: the fields of jbc it leaves alone -/

@[simp] theorem State.setStopLatch_jbc_table (s : State) : (s.setStopLatch).jbc.table = s.jbc.table := rfl

@[simp] theorem State.setStopLatch_jbc_job (s : State) : (s.setStopLatch).jbc.job = s.jbc.job := rfl

@[simp] theorem State.setStopLatch_jbc_tailPending (s : State) : (s.setStopLatch).jbc.tailPending = s.jbc.tailPending := rfl

@[simp] theorem State.setStopLatch_jbc_held (s : State) : (s.setStopLatch).jbc.held = s.jbc.held := rfl

@[simp] theorem State.setStopLatch_jbc_ocEff (s : State) : (s.setStopLatch).jbc.ocEff = s.jbc.ocEff := rfl

@[simp] theorem State.setStopLatch_jbc_waste (s : State) : (s.setStopLatch).jbc.waste = s.jbc.waste := rfl

@[simp] theorem State.setStopLatch_jbc_hbStage (s : State) : (s.setStopLatch).jbc.hbStage = s.jbc.hbStage := rfl

@[simp] theorem State.setStopLatch_jbc_expected (s : State) : (s.setStopLatch).jbc.expected = s.jbc.expected := rfl

@[simp] theorem State.setStopLatch_jbc_hbTimer (s : State) : (s.setStopLatch).jbc.hbTimer = s.jbc.hbTimer := rfl

@[simp] theorem State.setStopLatch_jbc_blind (s : State) : (s.setStopLatch).jbc.blind = s.jbc.blind := rfl

/-! ### emptyWindowAndSplices: the fields of trc it leaves alone -/

@[simp] theorem State.emptyWindowAndSplices_trc_queue (s : State) : (s.emptyWindowAndSplices).trc.queue = s.trc.queue := rfl

@[simp] theorem State.emptyWindowAndSplices_trc_nextRsn (s : State) : (s.emptyWindowAndSplices).trc.nextRsn = s.trc.nextRsn := rfl

@[simp] theorem State.emptyWindowAndSplices_trc_watch (s : State) : (s.emptyWindowAndSplices).trc.watch = s.trc.watch := rfl

@[simp] theorem State.emptyWindowAndSplices_trc_decided (s : State) : (s.emptyWindowAndSplices).trc.decided = s.trc.decided := rfl

/-! ### enterStopped: the fields of jbc it leaves alone -/

@[simp] theorem State.enterStopped_jbc_table (s : State) (j : JobState) : (s.enterStopped j).jbc.table = s.jbc.table := rfl

@[simp] theorem State.enterStopped_jbc_held (s : State) (j : JobState) : (s.enterStopped j).jbc.held = s.jbc.held := rfl

@[simp] theorem State.enterStopped_jbc_ocEff (s : State) (j : JobState) : (s.enterStopped j).jbc.ocEff = s.jbc.ocEff := rfl

@[simp] theorem State.enterStopped_jbc_waste (s : State) (j : JobState) : (s.enterStopped j).jbc.waste = s.jbc.waste := rfl

@[simp] theorem State.enterStopped_jbc_hbStage (s : State) (j : JobState) : (s.enterStopped j).jbc.hbStage = s.jbc.hbStage := rfl

@[simp] theorem State.enterStopped_jbc_expected (s : State) (j : JobState) : (s.enterStopped j).jbc.expected = s.jbc.expected := rfl

@[simp] theorem State.enterStopped_jbc_blind (s : State) (j : JobState) : (s.enterStopped j).jbc.blind = s.jbc.blind := rfl

@[simp] theorem State.enterStopped_jbc_stopLatch (s : State) (j : JobState) : (s.enterStopped j).jbc.stopLatch = s.jbc.stopLatch := rfl

/-! ### takeFire: the fields of trc it leaves alone -/

@[simp] theorem State.takeFire_trc_nextRsn (s : State) (r : Rsn) (how : FireFound) : (s.takeFire r how).trc.nextRsn = s.trc.nextRsn := by unfold State.takeFire; split <;> rfl

@[simp] theorem State.takeFire_trc_watch (s : State) (r : Rsn) (how : FireFound) : (s.takeFire r how).trc.watch = s.trc.watch := by unfold State.takeFire; split <;> rfl

@[simp] theorem State.takeFire_trc_decided (s : State) (r : Rsn) (how : FireFound) : (s.takeFire r how).trc.decided = s.trc.decided := by unfold State.takeFire; split <;> rfl

@[simp] theorem State.takeFire_trc_window (s : State) (r : Rsn) (how : FireFound) : (s.takeFire r how).trc.window = s.trc.window := by unfold State.takeFire; split <;> rfl

@[simp] theorem State.takeFire_trc_splices (s : State) (r : Rsn) (how : FireFound) : (s.takeFire r how).trc.splices = s.trc.splices := by unfold State.takeFire; split <;> rfl

/-! ### What the operations write -/

@[simp] theorem State.setStopLatch_stopLatch (s : State) : s.setStopLatch.jbc.stopLatch = true := rfl

@[simp] theorem State.emptyWindowAndSplices_window (s : State) : s.emptyWindowAndSplices.trc.window = [] := rfl

@[simp] theorem State.emptyWindowAndSplices_splices (s : State) : s.emptyWindowAndSplices.trc.splices = [] := rfl

@[simp] theorem State.idleRegistration_reg (s : State) : s.idleRegistration.mru.reg = .idle := rfl

@[simp] theorem State.idleRegistration_watch (s : State) : s.idleRegistration.mru.watch = false := rfl

@[simp] theorem State.disarmKnife_armed (s : State) : s.disarmKnife.ksq.armed = none := rfl

@[simp] theorem State.disarmKnife_fireWatch (s : State) : s.disarmKnife.ksq.fireWatch = none := rfl

@[simp] theorem State.disarmKnife_pulse (s : State) : s.disarmKnife.ksq.pulse = false := rfl

@[simp] theorem State.enterStopped_job (s : State) (j : JobState) : (s.enterStopped j).jbc.job = j := rfl

@[simp] theorem State.enterStopped_tailPending (s : State) (j : JobState) : (s.enterStopped j).jbc.tailPending = false := rfl

@[simp] theorem State.enterStopped_hbTimer (s : State) (j : JobState) : (s.enterStopped j).jbc.hbTimer = none := rfl

@[simp] theorem State.setPlan_get_same (s : State) (i : Lane) (p : LanePlan) : ((s.setPlan i p).bsq).get i = p := by
  simp [State.setPlan]

@[simp] theorem State.setRow_get_same (s : State) (i : Lane) (r : LaneRow) : ((s.setRow i r).gtu.table).get i = r := by
  simp [State.setRow]

theorem State.setEvent_flags (s : State) (e : Event) : (s.setEvent e).mge.flags = s.mge.flags ||| e.word := rfl

/-- The flag of an event stands once the event has occurred (R168). -/
theorem State.setEvent_flag (s : State) (e : Event) : (s.setEvent e).flag e = true := by
  cases e <;> simp [State.flag, State.setEvent, Mge.setEvent, Event.word, Event.bit]

end Sys2Proof.Machine
end

