-- ==== Sys2Proof/Laws/Knife.lean ====
section
/-! SUPPORT. What a fire, an arming and a recomputation can change: KSQ, the CUT of queued entries, two event flags and the
mailbox; and nothing else. -/

namespace Sys2Proof.Machine

theorem jobActive_iff (s : State) : s.jobActive = true ↔ s.jbc.job = .run ∨ s.jbc.job = .drain := by
  unfold State.jobActive JobState.active
  cases s.jbc.job <;> simp

theorem isBehind_iff (a b : Position) : isBehind a b = true ↔ (a - b).toInt < 0 := by
  simp [isBehind, distance]

/-- The parts of the machine that no fire, arming or recomputation touches. -/
structure KnifeFrame (s t : State) : Prop where
  psu : t.psu = s.psu
  mru : t.mru = s.mru
  gtu : t.gtu = s.gtu
  bsq : t.bsq = s.bsq
  jbc : t.jbc = s.jbc
  rif : t.rif = s.rif
  requests : t.mge.requests = s.mge.requests
  resetPending : t.mge.resetPending = s.mge.resetPending
  mask : t.mge.mask = s.mge.mask
  snap : t.mge.snap = s.mge.snap
  gen : t.mge.gen = s.mge.gen
  inhibitLine : t.inhibitLine = s.inhibitLine
  resetHeld : t.resetHeld = s.resetHeld
  draws : t.draws = s.draws
  pending : t.pending = s.pending
  nextRsn : t.trc.nextRsn = s.trc.nextRsn
  watch : t.trc.watch = s.trc.watch
  decided : t.trc.decided = s.trc.decided
  decisions : t.trc.decisions = s.trc.decisions
  window : t.trc.window = s.trc.window
  splices : t.trc.splices = s.trc.splices
  inhibitLatch : t.ksq.inhibitLatch = s.ksq.inhibitLatch
  cuts : ∀ f : Entry → Entry, (∀ e c, f { e with cut := c } = f e) → t.trc.queue.map f = s.trc.queue.map f

theorem KnifeFrame.rfl {s : State} : KnifeFrame s s := by
  constructor <;> intros <;> trivial

theorem KnifeFrame.trans {s t u : State} (h : KnifeFrame s t) (k : KnifeFrame t u) : KnifeFrame s u where
  psu := k.psu.trans h.psu
  mru := k.mru.trans h.mru
  gtu := k.gtu.trans h.gtu
  bsq := k.bsq.trans h.bsq
  jbc := k.jbc.trans h.jbc
  rif := k.rif.trans h.rif
  requests := k.requests.trans h.requests
  resetPending := k.resetPending.trans h.resetPending
  mask := k.mask.trans h.mask
  snap := k.snap.trans h.snap
  gen := k.gen.trans h.gen
  inhibitLine := k.inhibitLine.trans h.inhibitLine
  resetHeld := k.resetHeld.trans h.resetHeld
  draws := k.draws.trans h.draws
  pending := k.pending.trans h.pending
  nextRsn := k.nextRsn.trans h.nextRsn
  watch := k.watch.trans h.watch
  decided := k.decided.trans h.decided
  decisions := k.decisions.trans h.decisions
  window := k.window.trans h.window
  splices := k.splices.trans h.splices
  inhibitLatch := k.inhibitLatch.trans h.inhibitLatch
  cuts := fun f hf => (k.cuts f hf).trans (h.cuts f hf)

theorem Trc.setCut_map (f : Entry → Entry) (hf : ∀ e c, f { e with cut := c } = f e) (r : Rsn) (c : CutState) (t : Trc) :
    (t.setCut r c).queue.map f = t.queue.map f := by
  simp only [Trc.setCut, List.map_map]
  apply List.map_congr_left
  intro e _
  simp only [Function.comp]
  split
  · exact hf e c
  · rfl

theorem State.takeFire_frame (r : Rsn) (how : FireFound) (s : State) : KnifeFrame s (s.takeFire r how) := by
  unfold State.takeFire
  split
  · constructor <;> first | trivial | exact fun f hf => Trc.setCut_map f hf _ _ _
  · refine ⟨?_, ?_, ?_, ?_, ?_, ?_, ?_, ?_, ?_, ?_, ?_, ?_, ?_, ?_, ?_, ?_, ?_, ?_, ?_, ?_, ?_, ?_, ?_⟩ <;>
      first | trivial | exact fun f hf => Trc.setCut_map f hf _ _ _ | (simp only; split <;> rfl)

theorem State.armFrom_frame (l : List Entry) (s : State) : KnifeFrame s (State.armFrom l s) := by
  induction l generalizing s with
  | nil => constructor <;> intros <;> trivial
  | cons e rest ih =>
    unfold State.armFrom
    split
    · exact ih s
    · split
      · constructor <;> intros <;> trivial
      · exact (State.takeFire_frame _ _ _).trans (ih _)

theorem State.armNext_frame (s : State) : KnifeFrame s s.armNext := State.armFrom_frame _ s

theorem State.offerForCutting_frame (s : State) : KnifeFrame s s.offerForCutting := by
  unfold State.offerForCutting
  split
  · exact State.armNext_frame s
  · exact KnifeFrame.rfl

theorem State.offerIf_frame (now : Bool) (s : State) : KnifeFrame s (s.offerIf now) := by
  unfold State.offerIf
  split
  · exact State.offerForCutting_frame s
  · exact KnifeFrame.rfl

theorem State.offerCreated_frame (before : Rsn) (s : State) : KnifeFrame s (s.offerCreated before) := by
  unfold State.offerCreated
  split
  · exact KnifeFrame.rfl
  · exact State.offerForCutting_frame s

theorem State.fireCrossing_frame (s : State) : KnifeFrame s s.fireCrossing := by
  unfold State.fireCrossing
  split
  · split
    · exact (State.takeFire_frame _ _ _).trans (State.armNext_frame _)
    · exact KnifeFrame.rfl
  · exact KnifeFrame.rfl

theorem State.recomputeFire_frame (s : State) : KnifeFrame s s.recomputeFire := by
  unfold State.recomputeFire
  split
  · exact KnifeFrame.rfl
  · split
    · exact KnifeFrame.rfl
    · split
      · constructor <;> intros <;> trivial
      · exact (State.takeFire_frame _ _ _).trans (State.armNext_frame _)

/-- A blocked knife takes every fire of an arming as suppressed, and its timers and pulse stay. -/
theorem State.takeFire_blocked {s : State} (h : s.ksq.blocked = true) (r : Rsn) (how : FireFound) :
    s.takeFire r how =
      { s with ksq := s.ksq.release, trc := s.trc.setCut r .suppressed, mge := s.mge.setEvent .cutSuppressed } := by
  simp [State.takeFire, h]

/-- A free knife is driven: a pulse starts for the entry, and its CUT is set by how the fire was found (R88, R90, R91). -/
theorem State.takeFire_free {s : State} (h : s.ksq.blocked = false) (r : Rsn) (how : FireFound) :
    s.takeFire r how =
      { s with
        ksq := s.ksq.release.startPulse s.jbc.table.knifePulse s.quantities.recEff r
        trc := s.trc.setCut r (how.cut s.quantities.lt)
        mge := if how.cut s.quantities.lt = .lateFault then s.mge.setEvent .cutLate else s.mge } := by
  simp [State.takeFire, h]

/-- Whatever the fire, the knife is blocked after it: suppressed because it was, or fired and recovering (R88). -/
theorem State.takeFire_blocks (r : Rsn) (how : FireFound) (s : State) : (s.takeFire r how).ksq.blocked = true := by
  by_cases h : s.ksq.blocked = true
  · rw [State.takeFire_blocked h]
    simpa [Ksq.blocked, Ksq.release] using h
  · rw [State.takeFire_free (by simpa using h)]
    simp [Ksq.blocked, Ksq.startPulse, Ksq.release]

/-- An arming of a blocked knife leaves pulse, owner and timers as they are. -/
theorem State.armFrom_blocked (l : List Entry) {s : State} (h : s.ksq.blocked = true) :
    (State.armFrom l s).ksq.blocked = true ∧ (State.armFrom l s).ksq.pulse = s.ksq.pulse ∧
      (State.armFrom l s).ksq.owner = s.ksq.owner ∧ (State.armFrom l s).ksq.pulseTimer = s.ksq.pulseTimer ∧
      (State.armFrom l s).ksq.recoveryTimer = s.ksq.recoveryTimer := by
  induction l generalizing s with
  | nil => exact ⟨by simpa [State.armFrom, Ksq.blocked, Ksq.release] using h, rfl, rfl, rfl, rfl⟩
  | cons e rest ih =>
    unfold State.armFrom
    split
    · exact ih h
    · split
      · exact ⟨h, rfl, rfl, rfl, rfl⟩
      · have hb := State.takeFire_blocks e.rsn (.late (distance (s.firePoint e) s.psu.hw)) s
        obtain ⟨h1, h2, h3, h4, h5⟩ := ih hb
        rw [State.takeFire_blocked h] at h2 h3 h4 h5 h1 ⊢
        exact ⟨h1, h2, h3, h4, h5⟩

/-- An arming of a list with no PENDING entry leaves nothing armed. -/
theorem State.armFrom_none {l : List Entry} (h : ∀ e ∈ l, e.cut ≠ .pending) (s : State) :
    State.armFrom l s = { s with ksq := s.ksq.release } := by
  induction l with
  | nil => rfl
  | cons e rest ih =>
    unfold State.armFrom
    rw [if_pos (h e (by simp))]
    exact ih fun x hx => h x (by simp [hx])

end Sys2Proof.Machine
end

