-- ==== Sys2Proof/Laws/Web.lean ====
section
/-! SUPPORT. Events, and the web: what a change of the encoder lines is, and what an advance of HW that reaches no armed point
leaves as it was. -/

namespace Sys2Proof.Machine

/-- An event written out: its flag by position, and the mailbox (R168). -/
theorem State.setEvent_eq_withEvent (s : State) (e : Event) : s.setEvent e = s.withEvent e := by
  cases e <;> rfl

theorem Event.word_eq_twoPow (e : Event) : e.word = BitVec.twoPow 32 e.bit := by cases e <;> rfl

theorem Event.bit_lt (e : Event) : e.bit < 32 := by cases e <;> decide

theorem Event.bit_injective {e e' : Event} (h : e.bit = e'.bit) : e = e' := by
  revert h; cases e <;> cases e' <;> simp [Event.bit]

/-- An event sets its own flag and no other. -/
theorem State.flag_setEvent (s : State) (e e' : Event) : (s.setEvent e).flag e' = (s.flag e' || decide (e' = e)) := by
  by_cases h : e' = e
  · subst h
    simp [State.flag, State.setEvent, Mge.setEvent, Event.word_eq_twoPow, Event.bit_lt]
  · have hb : e.bit ≠ e'.bit := fun hb => h (Event.bit_injective hb).symm
    simp [State.flag, State.setEvent, Mge.setEvent, Event.word_eq_twoPow, BitVec.getLsbD_twoPow, h, hb]

theorem satIncrement_eq_oneMore (x : BitVec 16) : satIncrement x = oneMore x := by
  unfold satIncrement oneMore
  split
  · rename_i h; rw [h]
  · rfl

theorem decodeTransition_forward {a b a' b' : Bool} (h : forwardStep a b a' b') :
    decodeTransition a b a' b' = .forward := by
  revert h; unfold forwardStep
  cases a <;> cases b <;> cases a' <;> cases b' <;> simp [decodeTransition]

theorem decodeTransition_reverse {a b a' b' : Bool} (h : reverseStep a b a' b') :
    decodeTransition a b a' b' = .reverse := by
  revert h; unfold reverseStep
  cases a <;> cases b <;> cases a' <;> cases b' <;> simp [decodeTransition]

/-- R46's forgetting, written out. -/
theorem State.forgetLastMark_eq (s : State) : s.forgetLastMark =
    { s with mru := if s.ForgetsLastMarkAt s.psu.hw then { s.mru with lastMark := none } else s.mru } := by
  unfold State.forgetLastMark State.ForgetsLastMarkAt
  split
  · rename_i m hr hm
    simp only [hr, hm, Option.mem_def, Option.some.injEq, exists_eq_left', true_and, distance, lastMarkReach]
    split <;> rfl
  · rename_i h
    rw [if_neg]
    rintro ⟨hr, m, hm, _⟩
    exact h m hr hm

theorem State.advanced_forgetLastMark (s : State) (a b : Bool) : (s.advanced a b).forgetLastMark = s.forwarded a b :=
  State.forgetLastMark_eq _

/-- With its armed point not reached MRU's crossing is the forgetting of R46 alone. -/
theorem State.registrationCrossing_none (now : Bool) {s : State} (h : s.NoMissAt s.psu.hw) :
    s.registrationCrossing now = s.forgetLastMark := by
  have hw : s.forgetLastMark.mru.window = s.mru.window ∧ s.forgetLastMark.mru.watch = s.mru.watch ∧
      s.forgetLastMark.psu = s.psu := by
    rw [State.forgetLastMark_eq]
    refine ⟨?_, ?_, rfl⟩ <;> simp only <;> split <;> rfl
  unfold State.registrationCrossing
  simp only [hw]
  split
  · rfl
  · rename_i win he
    split
    · rename_i hc
      simp at hc
      exact absurd (by rw [he]; simp [hc.2]) (h hc.1)
    · rfl

/-- Outside SEARCH nothing is forgotten. -/
theorem State.forwarded_of_not_search {s : State} (h : s.mru.reg ≠ .search) (a b : Bool) :
    s.forwarded a b = s.advanced a b := by
  unfold State.forwarded
  rw [if_neg (fun hf => h hf.1)]
  rfl

/-- KSQ's crossing changes nothing when its armed point is not reached. -/
theorem State.fireCrossing_none {s : State} (h : s.NoFireAt s.psu.hw) : s.fireCrossing = s := by
  unfold State.fireCrossing
  split
  · rename_i r f hr hf
    split
    · rename_i hc
      exact absurd (by rw [hf, hc]) (h (by simp [hr]))
    · rfl
  · rfl

/-- A decision is due when TRC's armed point is reached, in the words of the statements. -/
theorem State.decisionDue_iff (s : State) : s.decisionDue = true ↔ ¬ s.NoDecisionAt s.psu.hw := by
  unfold State.decisionDue State.NoDecisionAt
  cases s.trc.queue with
  | nil => simp
  | cons e rest =>
    simp only [Bool.and_eq_true, beq_iff_eq, List.head?_cons, Option.map_some, ne_eq, Option.some.injEq, not_forall,
      not_not, exists_prop]
    exact and_congr_right fun _ => ⟨Eq.symm, Eq.symm⟩

/-- No decision is due when TRC's armed point is not reached. -/
theorem State.decisionDue_false {s : State} (h : s.NoDecisionAt s.psu.hw) : s.decisionDue = false :=
  Bool.eq_false_iff.2 fun hd => s.decisionDue_iff.1 hd h

/-- A decision is due when HW stands at the watched S of the head. -/
theorem State.decisionDue_true {s : State} {e : Entry} {rest : List Entry} (hq : s.trc.queue = e :: rest)
    (hw : s.trc.watch = true) (hS : e.decisionPoint = s.psu.hw) : s.decisionDue = true := by
  simp [State.decisionDue, hq, hw, hS]

/-- TRC's crossing changes nothing when its armed point is not reached. -/
theorem State.decisionCrossing_none {s : State} (h : s.NoDecisionAt s.psu.hw) : s.decisionCrossing = s := by
  rw [State.decisionCrossing, State.decisionDue_false h]
  rfl

/-- The crossing of the head's S decides the heads that HW has reached (R65, R66). -/
theorem State.decisionCrossing_eq {s : State} {e : Entry} {rest : List Entry} (hq : s.trc.queue = e :: rest)
    (hw : s.trc.watch = true) (hS : e.decisionPoint = s.psu.hw) :
    s.decisionCrossing = State.armDecisionFrom (e :: rest) s := by
  rw [State.decisionCrossing, if_pos (State.decisionDue_true hq hw hS), hq]

/-- With reset not held the command is the change of lines itself. -/
theorem exec_encoderTransition {s : State} (a b : Bool) (o : Turns) (h : s.resetHeld = false) :
    exec (.encoderTransition a b o) s = .next (s.encoderChange a b o) := by
  simp [exec, execEncoderTransition, h]

/-- A forward count with WPOS at HW is the advance, and then the crossings in the turns given (R3, R4). -/
theorem exec_encoderTransition_advance {s : State} {a b : Bool} (o : Turns) (h : s.AtFront a b) :
    exec (.encoderTransition a b o) s = .next ((s.advanced a b).crossings o) := by
  obtain ⟨hr, hf, hw⟩ := h
  rw [exec_encoderTransition _ _ _ hr]
  simp only [State.encoderChange, decodeTransition_forward hf, State.forwardCount, Psu.observe, Psu.forward, hw, if_true]
  unfold State.advanced
  rw [hw]

/-- With nothing else at the count, the turns are the three crossings in their order. -/
theorem State.takeTurns_alone (now : Bool) (o : CrossingOrder) (s : State) : s.takeTurns now o.alone =
    match o with
    | .mruKsqTrc => (s.registrationCrossing now).fireCrossing.decisionCrossing
    | .mruTrcKsq => (s.registrationCrossing now).decisionCrossing.fireCrossing
    | .ksqMruTrc => (s.fireCrossing.registrationCrossing now).decisionCrossing
    | .ksqTrcMru => s.fireCrossing.decisionCrossing.registrationCrossing now
    | .trcMruKsq => (s.decisionCrossing.registrationCrossing now).fireCrossing
    | .trcKsqMru => s.decisionCrossing.fireCrossing.registrationCrossing now := by
  cases o <;> rfl

/-- An advance at which no decision is due is its turns, every offer taken with its creation. -/
theorem State.crossings_undecided (o : Turns) {s : State} (h : s.NoDecisionAt s.psu.hw) :
    s.crossings o = s.takeTurns true o := by
  rw [State.crossings, State.decisionDue_false h]
  rfl

/-- With nothing else at the count and no decision due, an advance is the three crossings in their order. -/
theorem State.crossings_alone (o : CrossingOrder) {s : State} (h : s.NoDecisionAt s.psu.hw) : s.crossings o.alone =
    match o with
    | .mruKsqTrc => (s.registrationCrossing true).fireCrossing.decisionCrossing
    | .mruTrcKsq => (s.registrationCrossing true).decisionCrossing.fireCrossing
    | .ksqMruTrc => (s.fireCrossing.registrationCrossing true).decisionCrossing
    | .ksqTrcMru => s.fireCrossing.decisionCrossing.registrationCrossing true
    | .trcMruKsq => (s.decisionCrossing.registrationCrossing true).fireCrossing
    | .trcKsqMru => s.decisionCrossing.fireCrossing.registrationCrossing true :=
  (State.crossings_undecided o.alone h).trans (State.takeTurns_alone true o s)

/-- At an advance at which a decision is due, what it creates is offered after its turns (R65, log 29). -/
theorem State.crossings_due (o : Turns) {s : State} (h : s.decisionDue = true) :
    s.crossings o = (s.takeTurns false o).offerCreated s.trc.nextRsn := by
  rw [State.crossings, if_pos h]

/-- Turns that create nothing leave nothing to offer. -/
theorem State.offerCreated_none {r : Rsn} {s : State} (h : s.trc.nextRsn = r) : s.offerCreated r = s := by
  rw [State.offerCreated, if_pos h]

/-- With nothing else at the count, what is taken after it is nothing. -/
theorem State.meetAll_alone (o : CrossingOrder) (s : State) : s.meetAll o.alone = s := rfl

/-- What an advance does first, before its crossings, it does to the machine that has advanced. -/
theorem State.takeTurns_first (now : Bool) (o : CrossingOrder) (ms : List Meeting) (s : State) :
    s.takeTurns now { o.alone with first := ms } = (s.meet now ms).takeTurns now o.alone := rfl

/-- The same of the whole advance, where no decision is due before or after what is taken first. -/
theorem State.crossings_first (o : CrossingOrder) (ms : List Meeting) {s : State} (h : s.NoDecisionAt s.psu.hw)
    (h' : (s.meet true ms).NoDecisionAt (s.meet true ms).psu.hw) :
    s.crossings { o.alone with first := ms } = (s.meet true ms).crossings o.alone := by
  rw [State.crossings_undecided _ h, State.crossings_undecided _ h', State.takeTurns_first]

/-- Only the kind of the change decides whether HW advances. -/
theorem decodeTransition_forward_iff {a b a' b' : Bool} :
    decodeTransition a b a' b' = .forward ↔ forwardStep a b a' b' := by
  unfold forwardStep
  cases a <;> cases b <;> cases a' <;> cases b' <;> simp [decodeTransition]

/-- A change that does not advance HW takes what falls together with it afterwards. -/
theorem State.encoderChange_behind {s : State} {a b : Bool} (o : Turns)
    (h : ¬ (forwardStep s.psu.encA s.psu.encB a b ∧ s.psu.wpos = s.psu.hw)) :
    s.encoderChange a b o = (s.encoderChange a b o.order.alone).meetAll o := by
  unfold State.encoderChange
  cases hk : decodeTransition s.psu.encA s.psu.encB a b
  · rfl
  · have hw : s.psu.wpos ≠ s.psu.hw := fun hw => h ⟨decodeTransition_forward_iff.1 hk, hw⟩
    show (if s.psu.wpos = s.psu.hw then _ else _) = State.meetAll o (if s.psu.wpos = s.psu.hw then _ else _)
    rw [if_neg hw, if_neg hw]
    rfl
  · rfl
  · rfl

/-- What marks and window ends keep, whatever falls together with a count keeps. -/
theorem State.meet_keeps {P : State → Prop} {now : Bool} (hm : ∀ s, P s → P (s.markEdge now))
    (hw : ∀ s, P s → P s.windowEnd) (ms : List Meeting) {s : State} (h : P s) : P (s.meet now ms) := by
  induction ms generalizing s with
  | nil => exact h
  | cons m rest ih =>
    refine ih ?_
    cases m
    · exact hm _ h
    · exact hw _ h

/-- What meetings and the three crossings keep, the turns of an advance keep, in every order of them. -/
theorem State.takeTurns_keeps {P : State → Prop} {now : Bool} (hm : ∀ s, P s → P (s.markEdge now))
    (hw : ∀ s, P s → P s.windowEnd) (h1 : ∀ s, P s → P (s.registrationCrossing now)) (h2 : ∀ s, P s → P s.fireCrossing)
    (h3 : ∀ s, P s → P s.decisionCrossing) (o : Turns) {s : State} (h : P s) : P (s.takeTurns now o) := by
  have hc : ∀ (b : Block) {s : State}, P s → P (s.cross now b) := fun b s hs => by
    cases b
    · exact h1 _ hs
    · exact h2 _ hs
    · exact h3 _ hs
  exact hc _ (State.meet_keeps hm hw _ (hc _ (State.meet_keeps hm hw _ (hc _ (State.meet_keeps hm hw _ h)))))

/-- What meetings, the three crossings and an offer keep, an advance of HW keeps, in every order of its turns. -/
theorem State.crossings_keeps {P : State → Prop} (hm : ∀ now s, P s → P (s.markEdge now)) (hw : ∀ s, P s → P s.windowEnd)
    (h1 : ∀ now s, P s → P (s.registrationCrossing now)) (h2 : ∀ s, P s → P s.fireCrossing)
    (h3 : ∀ s, P s → P s.decisionCrossing) (h4 : ∀ s, P s → P s.offerForCutting) (o : Turns) {s : State} (h : P s) :
    P (s.crossings o) := by
  have ht : ∀ now, P (s.takeTurns now o) := fun now => State.takeTurns_keeps (hm now) hw (h1 now) h2 h3 o h
  unfold State.crossings
  split
  · unfold State.offerCreated
    split
    · exact ht _
    · exact h4 _ (ht _)
  · exact ht _

/-- Meetings are what their commands do. -/
theorem State.afterMeetings_eq {s : State} (h : s.resetHeld = false)
    (hk : ∀ (t : State) (m : Meeting), t.resetHeld = false → (t.meetOne true m).resetHeld = false) (ms : List Meeting) :
    s.afterMeetings ms = s.meet true ms ∧ (s.meet true ms).resetHeld = false := by
  induction ms generalizing s with
  | nil => exact ⟨rfl, h⟩
  | cons m rest ih =>
    have e : s.after (meetingCommand m) = s.meetOne true m := by
      cases m <;> simp [State.after, meetingCommand, exec, execMarkEdge, execSpeedWindowExpiry, h, State.meetOne]
    obtain ⟨h1, h2⟩ := ih (hk s m h)
    refine ⟨?_, h2⟩
    show State.afterMeetings (s.after (meetingCommand m)) rest = _
    rw [e, h1]
    rfl

/-- The excursion test after a reverse count, in the words of the statements (R6). -/
theorem excursionLost_iff (s : State) (a b : Bool) :
    ({ s with psu := afterReverse s.psu a b } : State).excursionLost = true ↔ LosesTracking s a b := by
  show (s.jobActive && decide (s.quantities.rev < ((afterReverse s.psu a b).hw - (afterReverse s.psu a b).wpos).toNat)
    && !s.psu.reported) = true ↔ _
  have hj : s.jobActive = true ↔ s.jbc.job = .run ∨ s.jbc.job = .drain := by
    unfold State.jobActive JobState.active
    cases s.jbc.job <;> simp
  rw [Bool.and_eq_true, Bool.and_eq_true, hj, decide_eq_true_eq, Bool.not_eq_true']
  unfold LosesTracking
  tauto

theorem exec_encoderTransition_reverse {s : State} {a b : Bool} (o : CrossingOrder) (h : s.resetHeld = false)
    (hr : reverseStep s.psu.encA s.psu.encB a b) :
    exec (.encoderTransition a b o.alone) s = .next
      (if LosesTracking s a b then
        ({ s with psu := { afterReverse s.psu a b with reported := true } } : State).loseTracking
      else { s with psu := afterReverse s.psu a b }) := by
  rw [exec_encoderTransition _ _ _ h]
  simp only [State.encoderChange, decodeTransition_reverse hr, State.reverseCount, State.meetAll_alone]
  have e : ({ s with psu := (s.psu.observe a b).reverse } : State) = { s with psu := afterReverse s.psu a b } := rfl
  rw [e]
  by_cases hl : LosesTracking s a b
  · rw [if_pos hl, if_pos ((excursionLost_iff s a b).2 hl)]
    rfl
  · rw [if_neg hl, if_neg (mt (excursionLost_iff s a b).1 hl)]

end Sys2Proof.Machine
end

