-- ==== Sys2Proof/Laws/Settling.lean ====
section
/-! SUPPORT. What KSQ makes of the queue it arms, in the words of the statements: arming, a fire with the arming after it, an
offer, and a recomputation. -/

namespace Sys2Proof.Machine

/-- Events change MGE alone. -/
theorem State.withEvents_eq (s : State) (es : List Event) :
    s.withEvents es = { s with mge := es.foldl (fun m e => m.setEvent e) s.mge } := by
  induction es generalizing s with
  | nil => rfl
  | cons e rest ih =>
    show (s.withEvent e).withEvents rest = _
    rw [← State.setEvent_eq_withEvent, ih]
    rfl

theorem State.withEvents_append (s : State) (es es' : List Event) :
    s.withEvents (es ++ es') = (s.withEvents es).withEvents es' := List.foldl_append

theorem firePoint_eq_fireAt (s : State) (e : Entry) : s.firePoint e = fireAt s.speed s.jbc.table.knifeLag e := rfl

theorem distance_eq_lateness (s : State) (e : Entry) : distance (s.firePoint e) s.psu.hw = s.lateness e := rfl

theorem isBehind_firePoint (s : State) (e : Entry) : isBehind s.psu.hw (s.firePoint e) = decide (s.lateness e < 0) := rfl

theorem Ksq.blocked_iff (s : State) : s.ksq.blocked = true ↔ s.Blocked := by
  unfold Ksq.blocked State.Blocked
  cases s.ksq.inhibitLatch <;> cases s.ksq.recoveryTimer <;> simp

/-- A late fire's CUT, in the words of the statements (R88). -/
theorem lateCut_eq (s : State) (d : Int) :
    s.lateCut d = if s.ksq.blocked = true then .suppressed else (FireFound.late d).cut s.quantities.lt := by
  unfold State.lateCut FireFound.cut
  by_cases h : s.Blocked
  · rw [if_pos h, if_pos ((Ksq.blocked_iff s).2 h)]
  · rw [if_neg h, if_neg (mt (Ksq.blocked_iff s).1 h)]

/-- A fire written out, up to the queue's CUTs (R88). -/
theorem State.takeFire_late_eq (s : State) (r : Rsn) (d : Int) : s.takeFire r (.late d) =
    { ((if s.lateCut d = .suppressed then s else s.withPulse r).withEvents (cutEvents (s.lateCut d))) with
      trc := s.trc.setCut r (s.lateCut d)
      ksq := (if s.lateCut d = .suppressed then s else s.withPulse r).ksq.release } := by
  rw [lateCut_eq, State.withEvents_eq]
  by_cases h : s.ksq.blocked = true
  · rw [if_pos h, State.takeFire_blocked h]
    rfl
  · rw [if_neg h, State.takeFire_free (by simpa using h)]
    unfold FireFound.cut
    simp only
    split <;> rfl

theorem State.takeFire_crossing_eq (s : State) (r : Rsn) : s.takeFire r .crossing =
    { ((if s.Blocked then s else s.withPulse r).withEvents (cutEvents (if s.Blocked then .suppressed else .done))) with
      trc := s.trc.setCut r (if s.Blocked then .suppressed else .done)
      ksq := (if s.Blocked then s else s.withPulse r).ksq.release } := by
  by_cases h : s.Blocked
  · rw [State.takeFire_blocked ((Ksq.blocked_iff s).2 h)]
    simp only [if_pos h]
    rw [State.withEvents_eq]
    rfl
  · rw [State.takeFire_free (by simpa using mt (Ksq.blocked_iff s).1 h)]
    simp only [if_neg h]
    rw [State.withEvents_eq]
    rfl

/-- Lists that differ in CUTs alone have the same RSNs. -/
theorem rsns_of_sansCut {l l' : List Entry} (h : l.map Entry.sansCut = l'.map Entry.sansCut) :
    l.map Entry.rsn = l'.map Entry.rsn := by
  have := congrArg (List.map Entry.rsn) h
  rw [List.map_map, List.map_map] at this
  exact this

/-- What KSQ makes of a list depends on HW, the speed, the job and the blocking alone. -/
theorem State.settle_congr {s t : State} (hp : t.psu = s.psu) (hj : t.jbc.table = s.jbc.table)
    (hh : t.jbc.held = s.jbc.held) (hb : t.Blocked ↔ s.Blocked)
    (b : Bool) (l : List Entry) : t.settle b l = s.settle b l := by
  have hl : ∀ e, t.lateness e = s.lateness e := fun e => by
    unfold State.lateness State.speed
    rw [hp, hj]
  have hc : ∀ d, t.lateCut d = s.lateCut d := fun d => by
    unfold State.lateCut State.quantities
    rw [hh]
    simp only [hb]
  induction l generalizing b with
  | nil => rfl
  | cons e rest ih =>
    unfold State.settle
    rw [hl e, hc, ih b, ih true]

/-- A knife already blocked fires for no entry, and what it makes of a list depends on HW, the speed and the job alone. -/
theorem State.settle_blocked {s t : State} (hp : t.psu = s.psu) (hj : t.jbc = s.jbc) (l : List Entry) :
    t.settle true l = s.settle true l ∧ (s.settle true l).fired = none := by
  have hl : ∀ e, t.lateness e = s.lateness e := fun e => by
    unfold State.lateness State.speed
    rw [hp, hj]
  induction l with
  | nil => exact ⟨rfl, rfl⟩
  | cons e rest ih =>
    unfold State.settle
    rw [hl e, ih.1]
    refine ⟨?_, ?_⟩
    · split
      · rfl
      · split
        · rfl
        · rfl
    · split
      · exact ih.2
      · split
        · rfl
        · rfl

/-- The machine whose KSQ has armed what it can of the list `l`, the last part of its queue. -/
def State.settledFrom (s : State) (pre l : List Entry) : State :=
  let r := s.settle (decide s.Blocked) l
  let u := (match r.fired with
    | none => s
    | some n => s.withPulse n).withEvents r.events
  { u with
    trc := { s.trc with queue := pre ++ r.queue }
    ksq := { u.ksq with
      armed := r.armed.map Entry.rsn, fireWatch := r.armed.map (fireAt s.speed s.jbc.table.knifeLag) } }

theorem Trc.setCut_middle {t : Trc} {pre rest : List Entry} {e : Entry} (hq : t.queue = pre ++ e :: rest)
    (hn : (t.queue.map Entry.rsn).Nodup) (c : CutState) :
    (t.setCut e.rsn c).queue = pre ++ { e with cut := c } :: rest := by
  rw [hq] at hn
  simp only [List.map_append, List.map_cons] at hn
  obtain ⟨-, h2, h3⟩ := List.nodup_append.1 hn
  have hpre : ∀ x ∈ pre, x.rsn ≠ e.rsn := fun x hx => h3 _ (List.mem_map_of_mem hx) _ (by simp)
  have hrest : ∀ x ∈ rest, x.rsn ≠ e.rsn := fun x hx hxe =>
    (List.nodup_cons.1 h2).1 (hxe ▸ List.mem_map_of_mem hx)
  have hm : ∀ l : List Entry, (∀ x ∈ l, x.rsn ≠ e.rsn) →
      l.map (fun x : Entry => if x.rsn = e.rsn then { x with cut := c } else x) = l := fun l hl => by
    conv => rhs; rw [← List.map_id l]
    exact List.map_congr_left fun x hx => if_neg (hl x hx)
  simp only [Trc.setCut, hq, List.map_append, List.map_cons, hm _ hpre, hm _ hrest, if_true]

/-- KSQ's arming in the words of the statements (R85, R86, R88), for RSNs that are distinct. -/
theorem State.armFrom_eq (l : List Entry) (pre : List Entry) (s : State) (hq : s.trc.queue = pre ++ l)
    (hn : (s.trc.queue.map Entry.rsn).Nodup) : State.armFrom l s = s.settledFrom pre l := by
  induction l generalizing pre s with
  | nil =>
    unfold State.armFrom State.settledFrom State.settle
    simp only [State.withEvents_eq, List.foldl_nil, Option.map_none, ← hq]
    rfl
  | cons e rest ih =>
    unfold State.armFrom
    by_cases hc : e.cut ≠ .pending
    · rw [if_pos hc, ih (pre ++ [e]) s (by simpa using hq) hn]
      unfold State.settledFrom
      conv => rhs; unfold State.settle
      simp only [if_pos hc, List.append_assoc, List.singleton_append]
    · rw [if_neg hc, isBehind_firePoint]
      by_cases hb : s.lateness e < 0
      · rw [if_pos (by simpa using hb)]
        unfold State.settledFrom State.settle
        simp only [if_neg hc, if_pos hb, State.withEvents_eq, List.foldl_nil, Option.map_some, ← hq]
        rfl
      · rw [if_neg (by simpa using hb), distance_eq_lateness]
        have hn' : (((s.trc.setCut e.rsn (s.lateCut (s.lateness e))).queue).map Entry.rsn).Nodup := by
          have := Trc.setCut_map Entry.sansCut (fun _ _ => rfl) e.rsn (s.lateCut (s.lateness e)) s.trc
          rw [rsns_of_sansCut this]
          exact hn
        have hq' := Trc.setCut_middle hq hn (s.lateCut (s.lateness e))
        have hbl := State.takeFire_blocks e.rsn (.late (s.lateness e)) s
        have hps : (s.takeFire e.rsn (.late (s.lateness e))).psu = s.psu := (State.takeFire_frame _ _ s).psu
        have hjb : (s.takeFire e.rsn (.late (s.lateness e))).jbc = s.jbc := (State.takeFire_frame _ _ s).jbc
        have htq : (s.takeFire e.rsn (.late (s.lateness e))).trc = s.trc.setCut e.rsn (s.lateCut (s.lateness e)) := by
          rw [State.takeFire_late_eq]
        rw [ih (pre ++ [{ e with cut := s.lateCut (s.lateness e) }]) _ (by rw [htq, hq']; simp) (by rw [htq]; exact hn')]
        have hset := State.settle_blocked (s := s) hps hjb rest
        unfold State.settledFrom
        have hd : decide (s.takeFire e.rsn (.late (s.lateness e))).Blocked = true := by
          simpa using (Ksq.blocked_iff _).1 hbl
        have hspd : (s.takeFire e.rsn (.late (s.lateness e))).speed = s.speed := by unfold State.speed; rw [hps]
        conv => rhs; unfold State.settle
        simp only [if_neg hc, if_neg hb, hd, hset.1, hset.2, hspd, hjb]
        by_cases hB : s.Blocked
        · have hlc : s.lateCut (s.lateness e) = .suppressed := if_pos hB
          simp only [hB, decide_true, if_true, State.withEvents_append]
          rw [State.takeFire_late_eq, hlc]
          simp only [if_true, State.withEvents_eq, List.append_assoc, List.singleton_append]
          rw [hlc] at hq'
          rfl
        · have hlc : s.lateCut (s.lateness e) ≠ .suppressed := by
            unfold State.lateCut
            rw [if_neg hB]
            split <;> decide
          simp only [hB, decide_false, Bool.false_eq_true, if_false, State.withEvents_append]
          rw [State.takeFire_late_eq, if_neg hlc]
          simp only [State.withEvents_eq, List.append_assoc, List.singleton_append]
          rfl

theorem State.armNext_eq {s : State} (hn : (s.trc.queue.map Entry.rsn).Nodup) : s.armNext = s.settled :=
  State.armFrom_eq _ [] s rfl hn

/-- An arming takes no account of what was armed before. -/
theorem State.settled_release (u : State) : ({ u with ksq := u.ksq.release } : State).settled = u.settled := by
  unfold State.settled
  have hb : decide ({ u with ksq := u.ksq.release } : State).Blocked = decide u.Blocked := rfl
  have hset := State.settle_congr (s := u) (t := { u with ksq := u.ksq.release }) rfl rfl rfl Iff.rfl (decide u.Blocked)
    u.trc.queue
  simp only [hb, hset, State.withEvents_eq]
  cases (u.settle (decide u.Blocked) u.trc.queue).fired <;> rfl

/-- Two machines that hold the same for KSQ: HW and the speed, the job table and the held quantities, KSQ, MGE and the
queue. -/
structure SameForKnife (s t : State) : Prop where
  psu : t.psu = s.psu
  table : t.jbc.table = s.jbc.table
  held : t.jbc.held = s.jbc.held
  ksq : t.ksq = s.ksq
  mge : t.mge = s.mge
  queue : t.trc.queue = s.trc.queue

/-- They arm alike. -/
theorem SameForKnife.settled {s t : State} (h : SameForKnife s t) : SameForKnife s.settled t.settled := by
  have hb : t.Blocked ↔ s.Blocked := by unfold State.Blocked; rw [h.ksq]
  have hs := State.settle_congr h.psu h.table h.held hb (decide s.Blocked) s.trc.queue
  have hspd : t.speed = s.speed := by unfold State.speed; rw [h.psu]
  unfold State.settled
  simp only [hb, h.queue, hs, State.withEvents_eq, hspd, h.table]
  have hq : t.quantities = s.quantities := by unfold State.quantities; rw [h.held]
  cases (s.settle (decide s.Blocked) s.trc.queue).fired with
  | none => exact ⟨h.psu, h.table, h.held, by simp only [h.ksq], by simp only [h.mge], rfl⟩
  | some n =>
    exact ⟨h.psu, h.table, h.held, by simp only [State.withPulse, h.ksq, h.table, hq],
      by simp only [State.withPulse, h.mge], rfl⟩

/-- A fire and the arming after it, in the words of the statements (R88). -/
theorem State.takeFire_armNext_eq {s : State} (hn : (s.trc.queue.map Entry.rsn).Nodup) (r : Rsn) (how : FireFound)
    (c : CutState) (hc : c = if s.Blocked then .suppressed else how.cut s.quantities.lt) :
    (s.takeFire r how).armNext = s.fired r c := by
  rw [State.armNext_eq (by
    rw [rsns_of_sansCut ((State.takeFire_frame r how s).cuts Entry.sansCut (fun _ _ => rfl))]
    exact hn)]
  have e : s.takeFire r how = { ((if c = .suppressed then s else s.withPulse r).withEvents (cutEvents c)) with
      trc := s.trc.setCut r c, ksq := (if c = .suppressed then s else s.withPulse r).ksq.release } := by
    by_cases h : s.Blocked
    · rw [if_pos h] at hc
      subst hc
      rw [State.takeFire_blocked ((Ksq.blocked_iff s).2 h), State.withEvents_eq]
      rfl
    · rw [if_neg h] at hc
      have hne : c ≠ .suppressed := by
        rw [hc]
        unfold FireFound.cut
        split
        · decide
        · split <;> decide
      rw [State.takeFire_free (by simpa using mt (Ksq.blocked_iff s).1 h), State.withEvents_eq, ← hc, if_neg hne]
      cases hcc : c <;> first | exact absurd hcc hne | rfl
  rw [e]
  unfold State.fired
  simp only [State.withEvents_eq]
  refine Eq.trans ?_ (State.settled_release _)
  by_cases h : c = .suppressed
  · simp only [if_pos h]
    rfl
  · simp only [if_neg h]
    rfl

/-- KSQ's crossing, reached, in the words of the statements (R88). -/
theorem State.fireCrossing_reached {s : State} {r : Rsn} (ha : s.ksq.armed = some r) (hw : s.ksq.fireWatch = some s.psu.hw)
    (hn : (s.trc.queue.map Entry.rsn).Nodup) :
    s.fireCrossing = s.fired r (if s.Blocked then .suppressed else .done) := by
  unfold State.fireCrossing
  rw [ha, hw]
  simp only [if_true]
  exact State.takeFire_armNext_eq hn r .crossing _ rfl

/-- A recomputed F that HW has reached, in the words of the statements (R87, R88). -/
theorem State.recomputeFire_reached {s : State} {r : Rsn} {e : Entry} (ha : s.ksq.armed = some r)
    (he : s.trc.queue.find? (fun x => x.rsn == r) = some e) (hl : 0 ≤ s.lateness e)
    (hn : (s.trc.queue.map Entry.rsn).Nodup) : s.recomputeFire = s.fired r (s.lateCut (s.lateness e)) := by
  unfold State.recomputeFire
  rw [ha]
  simp only [Trc.entry?, he]
  rw [isBehind_firePoint, if_neg (by simpa using hl), distance_eq_lateness]
  exact State.takeFire_armNext_eq hn r _ _ rfl

/-- A recomputed F ahead of HW moves the watch (R87). -/
theorem State.recomputeFire_ahead {s : State} {r : Rsn} {e : Entry} (ha : s.ksq.armed = some r)
    (he : s.trc.queue.find? (fun x => x.rsn == r) = some e) (hl : s.lateness e < 0) :
    s.recomputeFire =
      { s with ksq := { s.ksq with fireWatch := some (fireAt s.speed s.jbc.table.knifeLag e) } } := by
  unfold State.recomputeFire
  rw [ha]
  simp only [Trc.entry?, he]
  rw [isBehind_firePoint, if_pos (by simpa using hl)]
  rfl

/-- An offer with nothing armed, in the words of the statements (R85, R86). -/
theorem State.offerForCutting_eq {s : State} (hn : (s.trc.queue.map Entry.rsn).Nodup) :
    s.offerForCutting = if s.ksq.armed = none then s.settled else s := by
  unfold State.offerForCutting
  cases h : s.ksq.armed
  · exact State.armNext_eq hn
  · rfl

/-- The entry KSQ is left with is ahead of HW. -/
theorem State.settle_armed (s : State) (b : Bool) (l : List Entry) :
    ∀ e, (s.settle b l).armed = some e → s.lateness e < 0 := by
  induction l generalizing b with
  | nil => intro e h; cases h
  | cons x rest ih =>
    intro e h
    unfold State.settle at h
    split at h
    · exact ih b e h
    · split at h
      · cases h
        assumption
      · exact ih true e h

/-- After an arming the watched F, if any, lies ahead of HW: no fire is due there. -/
theorem State.settled_noFire (s : State) : s.settled.NoFireAt s.psu.hw := by
  intro _ hw
  unfold State.settled at hw
  simp only at hw
  obtain ⟨e, he, hf⟩ := Option.map_eq_some_iff.1 hw
  have := s.settle_armed _ _ e he
  unfold State.lateness at this
  rw [hf] at this
  simp at this

/-! ### MRU has no part in a fire -/

/-- Arming neither reads nor writes MRU. -/
theorem State.settled_withMru (s : State) (m : Mru) :
    ({ s with mru := m } : State).settled = { s.settled with mru := m } := by
  unfold State.settled
  have hb : decide ({ s with mru := m } : State).Blocked = decide s.Blocked := rfl
  have hset := State.settle_congr (s := s) (t := { s with mru := m }) rfl rfl rfl Iff.rfl (decide s.Blocked) s.trc.queue
  simp only [hb, hset, State.withEvents_eq]
  cases (s.settle (decide s.Blocked) s.trc.queue).fired <;> rfl

/-- A fire with the arming after it neither reads nor writes MRU. -/
theorem State.fired_withMru (s : State) (m : Mru) (r : Rsn) (c : CutState) :
    ({ s with mru := m } : State).fired r c = { s.fired r c with mru := m } := by
  unfold State.fired
  simp only [State.withEvents_eq]
  rw [← State.settled_withMru]
  by_cases h : c = .suppressed
  · simp only [if_pos h]
  · simp only [if_neg h]; rfl

/-- After a fire with the arming after it, no fire point is left where HW stands. -/
theorem State.fired_noFire (s : State) (r : Rsn) (c : CutState) : (s.fired r c).NoFireAt s.psu.hw := by
  unfold State.fired
  simp only [State.withEvents_eq]
  by_cases h : c = .suppressed
  · simp only [if_pos h]; exact State.settled_noFire { s with mge := _, trc := _ }
  · simp only [if_neg h]; exact State.settled_noFire { s.withPulse r with mge := _, trc := _ }

end Sys2Proof.Machine
end

