-- ==== Sys2Proof/Laws/Decisions.lean ====
section
/-! SUPPORT. One decision, and a flush: what each leaves, what it counts, what it queues, and what it cannot touch. -/

namespace Sys2Proof.Machine

/-! ### Flags only rise -/

/-- Every flag set in `s` is set in `t`. -/
def FlagsKept (s t : State) : Prop := ∀ e, s.flag e = true → t.flag e = true

theorem FlagsKept.rfl {s : State} : FlagsKept s s := fun _ h => h

theorem FlagsKept.trans {s t u : State} (h : FlagsKept s t) (k : FlagsKept t u) : FlagsKept s u :=
  fun e he => k e (h e he)

theorem FlagsKept.setEvent (s : State) (e : Event) : FlagsKept s (s.setEvent e) := by
  intro e' h
  rw [State.flag_setEvent, h]
  rfl

theorem FlagsKept.setEventIf (s : State) (b : Bool) (e : Event) : FlagsKept s (s.setEventIf b e) := by
  unfold State.setEventIf
  split
  · exact FlagsKept.setEvent s e
  · exact FlagsKept.rfl

/-! ### What only records and events change -/

/-- From `s` to `t` nothing changes but the record queue, the flags and the mailbox. -/
structure RecordFrame (s t : State) : Prop where
  psu : t.psu = s.psu
  mru : t.mru = s.mru
  trc : t.trc = s.trc
  ksq : t.ksq = s.ksq
  gtu : t.gtu = s.gtu
  bsq : t.bsq = s.bsq
  jbc : t.jbc = s.jbc
  rif : t.rif = { s.rif with records := t.rif.records }
  mge : t.mge = { s.mge with flags := t.mge.flags, mailbox := t.mge.mailbox }
  inhibitLine : t.inhibitLine = s.inhibitLine
  resetHeld : t.resetHeld = s.resetHeld
  draws : t.draws = s.draws
  pending : t.pending = s.pending
  flags : FlagsKept s t

theorem RecordFrame.rfl {s : State} : RecordFrame s s := by
  constructor <;> first | trivial | exact FlagsKept.rfl

theorem RecordFrame.trans {s t u : State} (h : RecordFrame s t) (k : RecordFrame t u) : RecordFrame s u where
  psu := k.psu.trans h.psu
  mru := k.mru.trans h.mru
  trc := k.trc.trans h.trc
  ksq := k.ksq.trans h.ksq
  gtu := k.gtu.trans h.gtu
  bsq := k.bsq.trans h.bsq
  jbc := k.jbc.trans h.jbc
  rif := by rw [k.rif, h.rif]
  mge := by rw [k.mge, h.mge]
  inhibitLine := k.inhibitLine.trans h.inhibitLine
  resetHeld := k.resetHeld.trans h.resetHeld
  draws := k.draws.trans h.draws
  pending := k.pending.trans h.pending
  flags := h.flags.trans k.flags

theorem RecordFrame.setEvent (s : State) (e : Event) : RecordFrame s (s.setEvent e) := by
  constructor <;> first | trivial | exact FlagsKept.setEvent s e

theorem RecordFrame.setEventIf (s : State) (b : Bool) (e : Event) : RecordFrame s (s.setEventIf b e) := by
  unfold State.setEventIf
  split
  · exact RecordFrame.setEvent s e
  · exact RecordFrame.rfl

theorem State.queueRecord_frame (s : State) (r : Record) : RecordFrame s (s.queueRecord r) := by
  unfold State.queueRecord
  split
  · constructor <;> first | trivial | exact FlagsKept.rfl
  · exact RecordFrame.setEvent s _

theorem State.queueRecords_frame (s : State) (rs : List Record) : RecordFrame s (s.queueRecords rs) := by
  induction rs generalizing s with
  | nil => exact RecordFrame.rfl
  | cons r rest ih => exact (s.queueRecord_frame r).trans (ih _)

/-- The record queue takes what its room allows, in order (R155). -/
theorem State.queueRecords_records (s : State) (rs : List Record) :
    (s.queueRecords rs).rif.records = s.rif.records ++ rs.take (32 - s.rif.records.length) := by
  induction rs generalizing s with
  | nil => simp [State.queueRecords]
  | cons r rest ih =>
    have h : (s.queueRecords (r :: rest)) = (s.queueRecord r).queueRecords rest := rfl
    rw [h, ih]
    unfold State.queueRecord recordQueueSize
    split
    · rename_i hl
      obtain ⟨n, hn⟩ : ∃ n, 32 - s.rif.records.length = n + 1 := ⟨31 - s.rif.records.length, by omega⟩
      have hm : 32 - (s.rif.records ++ [r]).length = n := by simp; omega
      simp only [hm, hn, List.take_succ_cons, List.append_assoc, List.singleton_append]
    · rename_i hl
      have hz : 32 - s.rif.records.length = 0 := by omega
      simp [hz]

/-- An event set twice is set once. -/
theorem Mge.setEvent_setEvent (m : Mge) (e : Event) : (m.setEvent e).setEvent e = m.setEvent e := by
  unfold Mge.setEvent
  have hw : e.word.getLsbD e.bit = true := by cases e <;> rfl
  simp [BitVec.or_assoc, Event.word_eq_twoPow, Event.bit_lt]

/-- Records that find no room set RECORD_DROP, and nothing else of MGE changes (R155). -/
theorem State.queueRecords_mge (s : State) (rs : List Record) : (s.queueRecords rs).mge =
    if 32 - s.rif.records.length < rs.length then s.mge.setEvent .recordDrop else s.mge := by
  induction rs generalizing s with
  | nil => simp [State.queueRecords]
  | cons r rest ih =>
    have e : (s.queueRecords (r :: rest)) = (s.queueRecord r).queueRecords rest := rfl
    rw [e, ih]
    by_cases hl : s.rif.records.length < recordQueueSize
    · have hq : s.queueRecord r = { s with rif := { s.rif with records := s.rif.records ++ [r] } } := by
        simp [State.queueRecord, hl]
      unfold recordQueueSize at hl
      rw [hq]
      simp only [List.length_append, List.length_cons, List.length_nil]
      by_cases h : 32 - s.rif.records.length < rest.length + 1
      · rw [if_pos h, if_pos (by omega)]
      · rw [if_neg h, if_neg (by omega)]
    · have hq : s.queueRecord r = s.setEvent .recordDrop := by simp [State.queueRecord, hl]
      unfold recordQueueSize at hl
      rw [hq, if_pos (show 32 - s.rif.records.length < (r :: rest).length by simp only [List.length_cons]; omega)]
      simp only [State.setEvent, Mge.setEvent_setEvent, ite_self]

/-! ### One decision -/

/-- What a decision cannot touch, and the little of JBC that the automatic end changes. -/
structure DecisionFrame (s t : State) : Prop where
  psu : t.psu = s.psu
  mru : t.mru = s.mru
  trc : t.trc = s.trc
  ksq : t.ksq = s.ksq
  table : t.gtu.table = s.gtu.table
  jbc : t.jbc = { s.jbc with job := t.jbc.job, tailPending := t.jbc.tailPending, stopLatch := t.jbc.stopLatch }
  rif : t.rif = { s.rif with records := t.rif.records }
  mge : t.mge = { s.mge with flags := t.mge.flags, mailbox := t.mge.mailbox }
  inhibitLine : t.inhibitLine = s.inhibitLine
  resetHeld : t.resetHeld = s.resetHeld
  draws : t.draws = s.draws
  pending : t.pending = s.pending
  flags : FlagsKept s t

/-- The machine with a decision's counters, gate word and plans. -/
def State.countedDecision (s : State) (h : Handover) : State :=
  { s with
    gtu := s.gtu.applyCodes (s.decisionCodes h)
    bsq := Lanes.ofFn fun i => ((s.laneOutcomes h.entry.rsn (s.decisionCodes h)).get i).plan }

/-- The records of a decision in their order (R109 step 6). -/
def State.queuedRecords (s : State) (h : Handover) : List Record :=
  .disposition (s.dispositionOf h (s.decisionCodes h)) :: stackChanges (s.laneOutcomes h.entry.rsn (s.decisionCodes h))

/-- The decision with its events and records, before the end test. -/
def State.recordedDecision (s : State) (h : Handover) : State :=
  (((s.countedDecision h).setEventIf
      (!(stackChanges (s.laneOutcomes h.entry.rsn (s.decisionCodes h))).isEmpty) .stackDone).setEventIf
    (anyEmptied (s.laneOutcomes h.entry.rsn (s.decisionCodes h))) .laneDone).queueRecords (s.queuedRecords h)

theorem State.takeDecision_eq (s : State) (h : Handover) :
    s.takeDecision h =
      if anyEmptied (s.laneOutcomes h.entry.rsn (s.decisionCodes h)) && (s.recordedDecision h).everyEnabledListEmpty then
        (s.recordedDecision h).automaticEnd
      else s.recordedDecision h := rfl

theorem State.recordedDecision_frame (s : State) (h : Handover) : RecordFrame (s.countedDecision h) (s.recordedDecision h) :=
  ((RecordFrame.setEventIf _ _ _).trans (RecordFrame.setEventIf _ _ _)).trans (State.queueRecords_frame _ _)

/-- The automatic end changes the job, the tail-pending flag and the stop latch alone (R23). -/
theorem State.automaticEnd_eq (s : State) :
    s.automaticEnd = { s with jbc := { s.jbc with
      job := s.automaticEnd.jbc.job, tailPending := s.automaticEnd.jbc.tailPending
      stopLatch := s.automaticEnd.jbc.stopLatch } } := by
  unfold State.automaticEnd State.setStopLatch
  split <;> rfl

theorem State.takeDecision_frame (s : State) (h : Handover) : DecisionFrame s (s.takeDecision h) := by
  have hf := s.recordedDecision_frame h
  rw [State.takeDecision_eq]
  have base : DecisionFrame s (s.recordedDecision h) :=
    { psu := hf.psu, mru := hf.mru, trc := hf.trc, ksq := hf.ksq
      table := by rw [hf.gtu]; rfl
      jbc := by rw [hf.jbc]; rfl
      rif := hf.rif, mge := hf.mge, inhibitLine := hf.inhibitLine, resetHeld := hf.resetHeld, draws := hf.draws
      pending := hf.pending, flags := hf.flags }
  split
  · rw [State.automaticEnd_eq]
    refine { base with jbc := ?_, rif := base.rif, mge := base.mge, flags := base.flags }
    show ({ (s.recordedDecision h).jbc with
      job := _, tailPending := _, stopLatch := _ } : Jbc) = _
    rw [hf.jbc]
    rfl
  · exact base

theorem State.takeDecision_gtu (s : State) (h : Handover) :
    (s.takeDecision h).gtu = s.gtu.applyCodes (s.decisionCodes h) := by
  rw [State.takeDecision_eq]
  split
  · rw [State.automaticEnd_eq]
    exact (s.recordedDecision_frame h).gtu
  · exact (s.recordedDecision_frame h).gtu

theorem State.takeDecision_bsq (s : State) (h : Handover) (i : Lane) :
    (s.takeDecision h).bsq.get i =
      ((s.bsq.get i).afterDecision h.entry.rsn i (if s.laneUsed i then some (s.laneCode h i) else none)).plan := by
  have e : (s.takeDecision h).bsq = (s.countedDecision h).bsq := by
    rw [State.takeDecision_eq]
    split
    · rw [State.automaticEnd_eq]
      exact (s.recordedDecision_frame h).bsq
    · exact (s.recordedDecision_frame h).bsq
  rw [e]
  simp only [State.countedDecision, Lanes.get_ofFn, State.laneOutcomes, State.decisionCodes]

theorem State.takeDecision_records (s : State) (h : Handover) :
    (s.takeDecision h).rif.records = s.rif.records ++ (s.queuedRecords h).take (32 - s.rif.records.length) := by
  have e : (s.takeDecision h).rif.records = (s.recordedDecision h).rif.records := by
    rw [State.takeDecision_eq]
    split
    · rw [State.automaticEnd_eq]
    · rfl
  have e2 : ∀ (b c : Bool) (e e' : Event), (((s.countedDecision h).setEventIf b e).setEventIf c e').rif.records =
      s.rif.records := by
    intro b c e e'
    rw [(RecordFrame.setEventIf _ c e').trans RecordFrame.rfl |>.rif]
    cases b <;> cases c <;> rfl
  rw [e, State.recordedDecision, State.queueRecords_records, e2]

/-- A lane's counters after a decision: one piece under its code for a lane below LANES, nothing for another (R110). -/
theorem State.takeDecision_counters (s : State) (h : Handover) (i : Lane) :
    (s.takeDecision h).gtu.counters.get i =
      if s.laneUsed i then (s.gtu.counters.get i).bump (s.laneCode h i) else s.gtu.counters.get i := by
  rw [State.takeDecision_gtu]
  simp only [Gtu.applyCodes, State.decisionCodes, Lanes.get_ofFn]
  cases s.laneUsed i <;> rfl

/-- The counter of the code rises by one, the others stay. -/
theorem Tally.get_bump (t : Tally) (c c' : Code) : (t.bump c).get c' = t.get c' + if c = c' then 1 else 0 := by
  cases c <;> cases c' <;> simp [Tally.bump, Tally.get]

/-- A piece adds one to its lane's total (R110). -/
theorem Tally.total_bump (t : Tally) (c : Code) : (t.bump c).total = t.total + 1 := by
  cases c <;> simp only [Tally.bump, Tally.total] <;> ac_rfl

/-! ### One decision, in the words of the statements (R100, R109) -/

theorem State.laneUsed_eq (s : State) (i : Lane) : s.laneUsed i = decide (i.val < s.jbc.table.lanes) := rfl

/-- The record of a decision, in the words of the statements (R114). -/
theorem State.dispositionOf_eq (s : State) (h : Handover) : s.dispositionOf h (s.decisionCodes h) = s.recordOf h := by
  unfold State.dispositionOf State.recordOf State.decisionCodes
  simp only [Lanes.get_ofFn, State.laneUsed_eq, decide_eq_true_eq, Disposition.mk.injEq, true_and]
  refine ⟨?_, ?_, ?_⟩
  · congr 1
    funext i
    split <;> rfl
  · cases h.entry.cut <;> rfl
  · unfold recordRegErr
    cases h.entry.kind <;> cases h.entry.regErr <;> rfl

theorem inspectionCode_ne_stacked (b : Bool) (v : Option VerdictRecord) (p : NiPolicy) (i : Lane) :
    inspectionCode b v p i ≠ some .stacked := by
  unfold inspectionCode
  split
  · decide
  · split
    · decide
    · split <;> decide

/-- A piece is STACKED only in a lane with a batch and no gap to count down (R101). -/
theorem State.stacked_plan {s : State} {h : Handover} {i : Lane} (hc : s.laneCode h i = .stacked) :
    (s.bsq.get i).batches ≠ [] ∧ (s.bsq.get i).gap = 0 := by
  unfold State.laneCode at hc
  simp only at hc
  repeat' (split at hc)
  all_goals first
    | exact absurd hc (by decide)
    | skip
  · rename_i hi
    subst hc
    exact absurd hi (inspectionCode_ne_stacked _ _ _ _)
  · simp_all

/-- What a decision makes of one lane's plan. -/
theorem State.laneOutcome_eq (s : State) (h : Handover) (i : Lane) :
    (s.laneOutcomes h.entry.rsn (s.decisionCodes h)).get i =
      ⟨s.planAfter h i, s.completion h i, decide (s.Empties h i)⟩ := by
  simp only [State.laneOutcomes, State.decisionCodes, Lanes.get_ofFn, State.laneUsed_eq]
  by_cases hi : i.val < s.jbc.table.lanes
  · have hni : ¬ s.jbc.table.lanes ≤ i.val := by omega
    by_cases hc : s.laneCode h i = .stacked
    · obtain ⟨hne, hg⟩ := State.stacked_plan hc
      cases hb : (s.bsq.get i).batches with
      | nil => exact absurd hb hne
      | cons head rest =>
        by_cases ht : (s.bsq.get i).count + 1 < head.target
        · have hn : s.completion h i = none := by
            unfold State.completion State.Completes
            rw [hb]
            exact if_neg (by rintro ⟨-, -, -, hle⟩; omega)
          simp [LanePlan.afterDecision, hi, hc, LanePlan.stackPiece, hb, ht, State.planAfter, hni, hn, State.Empties, hg]
        · have hn : s.completion h i = some
              { rsn := h.entry.rsn, lane := i, tag := head.tag, count := (s.bsq.get i).count + 1, mode := head.mode
                gap := if head.mode = .gap then head.gap else 0
                nextTag := if head.loop = true ∧ rest = [] then some head.tag else rest.head?.map Batch.tag
                stacksDone := (s.bsq.get i).stacksDone + 1 } := by
            unfold State.completion State.Completes
            rw [hb]
            exact if_pos ⟨hi, hc, rfl, by omega⟩
          simp [LanePlan.afterDecision, hi, hc, LanePlan.stackPiece, hb, ht, State.planAfter, hni, hn, State.Empties,
            batchesAfterCompletion]
          refine ⟨by cases head.mode <;> rfl, ⟨by cases head.mode <;> rfl, by split <;> rfl⟩, ?_⟩
          generalize (if head.loop = true ∧ rest = [] then [head] else rest) = l
          cases l <;> rfl
    · have hn : s.completion h i = none := by
        unfold State.completion State.Completes
        split
        · rfl
        · exact if_neg (by rintro ⟨-, hs, -⟩; exact hc hs)
      simp [LanePlan.afterDecision, hi, hc, State.planAfter, hni, hn, State.Empties]
  · have hni : s.jbc.table.lanes ≤ i.val := by omega
    have hn : s.completion h i = none := by
      unfold State.completion State.Completes
      split
      · rfl
      · exact if_neg (by rintro ⟨hl, -⟩; exact hi hl)
    simp [LanePlan.afterDecision, hi, State.planAfter, hni, hn, State.Empties]

/-- The records of a decision, in the words of the statements (R109). -/
theorem State.queuedRecords_eq (s : State) (h : Handover) : s.queuedRecords h = s.decisionRecords h := by
  unfold State.queuedRecords State.decisionRecords stackChanges
  rw [State.dispositionOf_eq]
  have hl : ∀ x : Lanes LaneOutcome, x.toList = [x.get 0, x.get 1, x.get 2, x.get 3, x.get 4, x.get 5] := fun _ => rfl
  rw [hl]
  simp only [State.laneOutcome_eq, List.filterMap_cons, List.filterMap_nil]

/-- Some lane's outcome has a property exactly when one of the six has it. -/
theorem Lanes.any_toList {α : Type} (x : Lanes α) (p : α → Bool) : x.toList.any p = true ↔ ∃ i, p (x.get i) = true := by
  have hl : x.toList = [x.get 0, x.get 1, x.get 2, x.get 3, x.get 4, x.get 5] := rfl
  rw [hl]
  constructor
  · intro h
    simp only [List.any_cons, List.any_nil, Bool.or_false, Bool.or_eq_true] at h
    rcases h with h | h | h | h | h | h
    exacts [⟨0, h⟩, ⟨1, h⟩, ⟨2, h⟩, ⟨3, h⟩, ⟨4, h⟩, ⟨5, h⟩]
  · rintro ⟨i, h⟩
    simp only [List.any_cons, List.any_nil, Bool.or_false, Bool.or_eq_true]
    match i with
    | 0 => simp [h]
    | 1 => simp [h]
    | 2 => simp [h]
    | 3 => simp [h]
    | 4 => simp [h]
    | 5 => simp [h]

theorem State.anyEmptied_iff (s : State) (h : Handover) :
    anyEmptied (s.laneOutcomes h.entry.rsn (s.decisionCodes h)) = true ↔ ∃ i, s.Empties h i := by
  unfold anyEmptied
  rw [Lanes.any_toList]
  simp only [State.laneOutcome_eq, decide_eq_true_eq]

theorem State.anyCompleted_iff (s : State) (h : Handover) :
    (!(stackChanges (s.laneOutcomes h.entry.rsn (s.decisionCodes h))).isEmpty) = true ↔
      ∃ i, (s.completion h i).isSome = true := by
  have e : ∀ l : List LaneOutcome, (!(l.filterMap fun o => o.record.map Record.stackChange).isEmpty) =
      l.any fun o => o.record.isSome := by
    intro l
    induction l with
    | nil => rfl
    | cons o rest ih =>
      cases hr : o.record <;> simp_all
  unfold stackChanges
  rw [e, Lanes.any_toList]
  simp only [State.laneOutcome_eq]

/-- The events of a decision, in the words of the statements (R126, R155). -/
theorem State.takeDecision_mge (s : State) (h : Handover) :
    (s.takeDecision h).mge = (s.withEvents (s.decisionEvents h)).mge := by
  have e : (s.takeDecision h).mge = (s.recordedDecision h).mge := by
    rw [State.takeDecision_eq]
    split
    · rw [State.automaticEnd_eq]
    · rfl
  rw [e, State.recordedDecision, State.queueRecords_mge, State.queuedRecords_eq]
  have hlen : ∀ (b c : Bool) (e e' : Event), (((s.countedDecision h).setEventIf b e).setEventIf c e').rif = s.rif := by
    intro b c e e'
    cases b <;> cases c <;> rfl
  rw [hlen]
  have hdrop : (32 - s.rif.records.length < (s.decisionRecords h).length) ↔
      32 < s.rif.records.length + (s.decisionRecords h).length := by
    have : 0 < (s.decisionRecords h).length := by simp [State.decisionRecords]
    omega
  unfold State.decisionEvents
  simp only [hdrop]
  by_cases h1 : ∃ i, (s.completion h i).isSome = true <;> by_cases h2 : ∃ i, s.Empties h i <;>
    by_cases h3 : 32 < s.rif.records.length + (s.decisionRecords h).length <;>
    simp only [h1, h2, h3, if_true, if_false, State.setEventIf, (State.anyCompleted_iff s h).2,
      (State.anyEmptied_iff s h).2, mt (State.anyCompleted_iff s h).1, mt (State.anyEmptied_iff s h).1,
      List.nil_append, List.append_nil, List.cons_append, not_false_eq_true, Bool.false_eq_true] <;>
    simp only [State.withEvents, List.foldl_cons, List.foldl_nil, ← State.setEvent_eq_withEvent] <;> rfl

/-- The end test of a decision, in the words of the statements (R129). -/
theorem State.endTest_iff (s : State) (h : Handover) :
    (anyEmptied (s.laneOutcomes h.entry.rsn (s.decisionCodes h)) && (s.recordedDecision h).everyEnabledListEmpty) = true ↔
      s.EndsTheJob h := by
  have hf := s.recordedDecision_frame h
  have hb : ∀ i, (s.recordedDecision h).bsq.get i = s.planAfter h i := by
    intro i
    rw [hf.bsq]
    simp only [State.countedDecision, Lanes.get_ofFn, State.laneOutcome_eq]
  rw [Bool.and_eq_true, State.anyEmptied_iff]
  unfold State.EndsTheJob State.everyEnabledListEmpty
  refine and_congr Iff.rfl ?_
  rw [Lanes.all_toList]
  refine forall_congr' fun j => ?_
  simp only [Lanes.get_ofFn, hb, State.laneUsed_eq, hf.jbc, hf.gtu, id]
  show (!decide (j.val < s.jbc.table.lanes) || !(s.gtu.table.get j).enable || (s.planAfter h j).batches.isEmpty) = true ↔ _
  by_cases h1 : j.val < s.jbc.table.lanes <;> cases (s.gtu.table.get j).enable <;> simp [h1]

theorem State.automaticEnd_jbc (s : State) : s.automaticEnd.jbc = s.jbc.afterAutomaticEnd := by
  obtain ⟨_, _, _, _, _, _, ⟨_, job, _, _, _, _, _, _, _, _, _⟩, _, _, _, _, _, _⟩ := s
  cases job <;> rfl

/-- A decision whole, in the words of the statements (R100, R109). -/
theorem State.takeDecision_taken (s : State) (h : Handover) : DecisionTaken s h (s.takeDecision h) := by
  have hf := s.takeDecision_frame h
  have hr := s.recordedDecision_frame h
  refine
    { counted := ?_, unused := ?_, gates := ?_, plans := ?_, records := ?_, events := s.takeDecision_mge h, ends := ?_
      goesOn := ?_, frame := ?_ }
  · intro i hi c
    rw [State.takeDecision_counters, if_pos (by simpa [State.laneUsed_eq] using hi), Tally.get_bump]
  · intro i hi
    rw [State.takeDecision_counters, if_neg (by simpa [State.laneUsed_eq] using hi)]
  · intro i
    rw [State.takeDecision_gtu]
    simp only [Gtu.applyCodes, State.decisionCodes, Lanes.get_ofFn, State.laneUsed_eq, decide_eq_true_eq]
    by_cases hi : i.val < s.jbc.table.lanes <;> simp [hi]
  · intro i
    rw [State.takeDecision_bsq]
    have := congrArg LaneOutcome.plan (s.laneOutcome_eq h i)
    simpa only [State.laneOutcomes, State.decisionCodes, Lanes.get_ofFn] using this
  · rw [State.takeDecision_records, State.queuedRecords_eq]
  · intro he
    rw [State.takeDecision_eq, if_pos ((s.endTest_iff h).2 he), State.automaticEnd_jbc, hr.jbc]
    rfl
  · intro he
    rw [State.takeDecision_eq, if_neg (mt (s.endTest_iff h).1 he), hr.jbc]
    rfl
  · obtain ⟨t, ht⟩ : ∃ t, t = s.takeDecision h := ⟨_, rfl⟩
    rw [← ht] at hf ⊢
    obtain ⟨p1, p2, p3, p4, p5, p6, p7, p8, p9, p10, p11, p12, p13⟩ := hf
    cases t
    simp only at *
    subst p1 p2 p3 p4 p9 p10 p11 p12
    rw [← p7, ← p5]

/-! ### Flushes (R67) -/

/-- Whatever holds back stacking gives every lane REJ_HOLD (R102). -/
theorem State.laneCode_of_holds {s : State} {h : Handover} (hh : s.holds h = true) (i : Lane) :
    s.laneCode h i = .rejHold := by
  simp [State.laneCode, hh]

/-- The outcome of a piece that is not stacked: the gap counts down, no record, no end. -/
theorem LanePlan.afterDecision_rejected (p : LanePlan) (rsn : Rsn) (i : Lane) {c : Code} (hc : c ≠ .stacked) :
    p.afterDecision rsn i (some c) = ⟨{ p with gap := p.gap - 1 }, none, false⟩ := by
  simp [LanePlan.afterDecision, hc]

/-- A decision that stacks nothing: no event but RECORD_DROP, one record, no end. -/
theorem State.takeDecision_of_holds {s : State} {h : Handover} (hh : s.holds h = true) :
    s.takeDecision h = (s.countedDecision h).queueRecord (.disposition (s.dispositionOf h (s.decisionCodes h))) := by
  have ho : ∀ i, (s.laneOutcomes h.entry.rsn (s.decisionCodes h)).get i =
      ⟨if s.laneUsed i then { s.bsq.get i with gap := (s.bsq.get i).gap - 1 } else s.bsq.get i, none, false⟩ := by
    intro i
    simp only [State.laneOutcomes, State.decisionCodes, Lanes.get_ofFn, State.laneCode_of_holds hh]
    cases s.laneUsed i
    · rfl
    · simpa using LanePlan.afterDecision_rejected (s.bsq.get i) h.entry.rsn i (c := .rejHold) (by decide)
  have h0 := ho 0
  have h1 := ho 1
  have h2 := ho 2
  have h3 := ho 3
  have h4 := ho 4
  have h5 := ho 5
  simp only [Lanes.get] at h0 h1 h2 h3 h4 h5
  have hs : stackChanges (s.laneOutcomes h.entry.rsn (s.decisionCodes h)) = [] := by
    simp [stackChanges, Lanes.toList, h0, h1, h2, h3, h4, h5]
  have he : anyEmptied (s.laneOutcomes h.entry.rsn (s.decisionCodes h)) = false := by
    simp [anyEmptied, Lanes.toList, h0, h1, h2, h3, h4, h5]
  rw [State.takeDecision_eq]
  simp only [State.recordedDecision, State.queuedRecords, hs, he, State.setEventIf]
  rfl

/-- What a flush leaves, entry by entry (R67): the queue's entries counted under REJ_HOLD and nothing stacked. -/
structure FlushFrame (l : List Entry) (s t : State) : Prop where
  psu : t.psu = s.psu
  mru : t.mru = s.mru
  ksq : t.ksq = s.ksq
  jbc : t.jbc = s.jbc
  table : t.gtu.table = s.gtu.table
  rif : t.rif = { s.rif with records := t.rif.records }
  mge : t.mge = { s.mge with flags := t.mge.flags, mailbox := t.mge.mailbox }
  inhibitLine : t.inhibitLine = s.inhibitLine
  resetHeld : t.resetHeld = s.resetHeld
  draws : t.draws = s.draws
  pending : t.pending = s.pending
  flags : FlagsKept s t
  trc : t.trc = { s.trc with queue := t.trc.queue, decided := t.trc.decided, decisions := s.trc.decisions + l.length }
  decided : t.trc.decided = if l = [] then s.trc.decided else min (s.trc.decided + l.length) 32768
  held : ∀ i, s.laneUsed i = true → t.gtu.counters.get i =
    { s.gtu.counters.get i with rejHold := (s.gtu.counters.get i).rejHold + BitVec.ofNat 32 l.length }
  gaps : ∀ i, s.laneUsed i = true → t.bsq.get i = { s.bsq.get i with gap := (s.bsq.get i).gap - l.length }
  unused : ∀ i, s.laneUsed i = false → t.gtu.counters.get i = s.gtu.counters.get i ∧ t.bsq.get i = s.bsq.get i
  gateWord : t.gtu.gateWord = if l = [] then s.gtu.gateWord else Lanes.all .reject
  records : t.rif.records = s.rif.records ++ (l.map s.heldRecord).take (32 - s.rif.records.length)
  dropped : t.mge = if 32 - s.rif.records.length < l.length then s.mge.setEvent .recordDrop else s.mge

theorem FlushFrame.zero (s : State) : FlushFrame [] s s := by
  constructor <;> first
    | trivial
    | exact FlagsKept.rfl
    | (intro i h; simp)
    | simp

theorem FlushFrame.trans {l l' : List Entry} {s t u : State} (h : FlushFrame l s t) (k : FlushFrame l' t u) :
    FlushFrame (l ++ l') s u := by
  have hu : ∀ i, t.laneUsed i = s.laneUsed i := by
    intro i
    unfold State.laneUsed
    rw [h.jbc]
  have hrec : t.heldRecord = s.heldRecord := by
    funext e
    unfold State.heldRecord
    rw [h.jbc]
  have hlen : t.rif.records.length = s.rif.records.length + min (32 - s.rif.records.length) l.length := by
    rw [h.records, List.length_append, List.length_take, List.length_map]
  refine
    { psu := k.psu.trans h.psu, mru := k.mru.trans h.mru, ksq := k.ksq.trans h.ksq, jbc := k.jbc.trans h.jbc
      table := k.table.trans h.table, rif := by rw [k.rif, h.rif], mge := by rw [k.mge, h.mge]
      inhibitLine := k.inhibitLine.trans h.inhibitLine, resetHeld := k.resetHeld.trans h.resetHeld
      draws := k.draws.trans h.draws, pending := k.pending.trans h.pending, flags := h.flags.trans k.flags
      trc := by rw [k.trc, h.trc, List.length_append, Nat.add_assoc], decided := ?_, held := ?_, gaps := ?_
      unused := ?_, gateWord := ?_, records := ?_, dropped := ?_ }
  · rw [k.decided, h.decided, List.length_append]
    cases l <;> cases l' <;> simp
    omega
  · intro i hi
    rw [k.held i (by rw [hu]; exact hi), h.held i hi]
    simp only [List.length_append, BitVec.ofNat_add, BitVec.add_assoc]
  · intro i hi
    rw [k.gaps i (by rw [hu]; exact hi), h.gaps i hi]
    simp only [List.length_append, Nat.sub_sub]
  · intro i hi
    have h1 := h.unused i hi
    have h2 := k.unused i (by rw [hu]; exact hi)
    exact ⟨h2.1.trans h1.1, h2.2.trans h1.2⟩
  · rw [k.gateWord, h.gateWord]
    cases l <;> cases l' <;> simp
  · rw [k.records, h.records, hrec, List.append_assoc, List.map_append, List.take_append, List.length_map]
    congr 2
    rw [List.length_append, List.length_take, List.length_map]
    congr 1
    omega
  · rw [k.dropped, h.dropped, hlen, List.length_append]
    by_cases h1 : 32 - s.rif.records.length < l.length
    · rw [if_pos h1, if_pos (show 32 - s.rif.records.length < l.length + l'.length by omega), Mge.setEvent_setEvent, ite_self]
    · rw [if_neg h1]
      by_cases h2 : 32 - s.rif.records.length < l.length + l'.length
      · rw [if_pos h2, if_pos (by omega)]
      · rw [if_neg h2, if_neg (by omega)]

/-- One entry of a flush. -/
theorem State.flushOne_frame (s : State) (e : Entry) (c : Option CutState) (sp : Bool) :
    FlushFrame [e] s { s.takeDecision ⟨e, true, c, sp⟩ with
      trc := (s.takeDecision ⟨e, true, c, sp⟩).trc.removeHead } := by
  have hh : s.holds ⟨e, true, c, sp⟩ = true := by simp [State.holds]
  have hf := s.takeDecision_frame ⟨e, true, c, sp⟩
  have hj : (s.takeDecision ⟨e, true, c, sp⟩).jbc = s.jbc := by
    rw [State.takeDecision_of_holds hh, (State.queueRecord_frame _ _).jbc]
    rfl
  refine
    { psu := hf.psu, mru := hf.mru, ksq := hf.ksq, jbc := hj, table := hf.table, rif := hf.rif, mge := hf.mge
      inhibitLine := hf.inhibitLine, resetHeld := hf.resetHeld, draws := hf.draws, pending := hf.pending
      flags := hf.flags, trc := ?_, decided := ?_, held := ?_, gaps := ?_, unused := ?_, gateWord := ?_
      records := ?_, dropped := ?_ }
  · simp only [hf.trc, Trc.removeHead, List.length_singleton]
  · simp only [hf.trc, Trc.removeHead, decidedLimit]
    simp
  · intro i hi
    show (s.takeDecision _).gtu.counters.get i = _
    rw [State.takeDecision_counters, hi, State.laneCode_of_holds hh]
    rfl
  · intro i hi
    show (s.takeDecision _).bsq.get i = _
    rw [State.takeDecision_bsq, hi, State.laneCode_of_holds hh]
    simp [LanePlan.afterDecision]
  · intro i hi
    constructor
    · show (s.takeDecision _).gtu.counters.get i = _
      rw [State.takeDecision_counters, hi]
      simp
    · show (s.takeDecision _).bsq.get i = _
      rw [State.takeDecision_bsq, hi]
      simp [LanePlan.afterDecision]
  · show (s.takeDecision _).gtu.gateWord = _
    rw [State.takeDecision_gtu]
    apply Lanes.ext_get
    intro i
    simp only [Gtu.applyCodes, State.decisionCodes, Lanes.get_ofFn, State.laneCode_of_holds hh]
    cases s.laneUsed i <;> simp
  · have hd : (.disposition (s.dispositionOf ⟨e, true, c, sp⟩ (s.decisionCodes ⟨e, true, c, sp⟩)) : Record) =
        s.heldRecord e := by
      unfold State.heldRecord
      rw [State.dispositionOf_eq]
      unfold State.recordOf
      simp only [State.laneCode_of_holds hh]
    show (s.takeDecision ⟨e, true, c, sp⟩).rif.records = _
    rw [State.takeDecision_of_holds hh, hd]
    exact State.queueRecords_records _ [_]
  · show (s.takeDecision ⟨e, true, c, sp⟩).mge = _
    rw [State.takeDecision_of_holds hh]
    exact State.queueRecords_mge _ [_]

theorem State.flushEntries_frame (l : List Entry) (s : State) : FlushFrame l s (State.flushEntries l s) := by
  induction l generalizing s with
  | nil => exact FlushFrame.zero s
  | cons e rest ih => exact (s.flushOne_frame e (rest.head?.map Entry.cut) (s.trc.inSplice e.rsn)).trans (ih _)

theorem State.flushEntries_queue (l : List Entry) (s : State) :
    (State.flushEntries l s).trc.queue = s.trc.queue.drop l.length := by
  induction l generalizing s with
  | nil => rfl
  | cons e rest ih =>
    have h := (s.takeDecision_frame ⟨e, true, rest.head?.map Entry.cut, s.trc.inSplice e.rsn⟩).trc
    simp only [State.flushEntries, ih, Trc.removeHead, h, List.length_cons, List.drop_tail]

/-- A flush empties the queue and counts every entry under REJ_HOLD (R67). -/
theorem State.flushQueue_frame (s : State) :
    FlushFrame s.trc.queue { s with trc := { s.trc with watch := false } } s.flushQueue :=
  State.flushEntries_frame _ _

theorem State.flushQueue_trc (s : State) :
    s.flushQueue.trc = { s.trc with
      watch := false, queue := [], decided := s.flushQueue.trc.decided
      decisions := s.trc.decisions + s.trc.queue.length } := by
  have h := s.flushQueue_frame.trc
  have hq : s.flushQueue.trc.queue = [] := by
    unfold State.flushQueue
    rw [State.flushEntries_queue]
    simp
  rw [hq] at h
  exact h

/-! ### Runs of decisions (R66) -/

theorem State.handover_eq (s : State) (e : Entry) (rest : List Entry) :
    (⟨e, false, rest.head?.map Entry.cut, s.trc.inSplice e.rsn⟩ : Handover) = s.handover e rest := rfl

/-- The end of the job at the tail's decision, in the words of the statements (R22). -/
theorem State.endOfDrain_eq (s : State) : s.endOfDrain = s.jobOver := by
  unfold State.jobOver
  rw [← State.setEvent_eq_withEvent]
  rfl

/-- The decision of a head that is no tail, up to the watch, which the next arming sets. -/
theorem State.completeDecision_eq {u : State} {e : Entry} {rest : List Entry} (hq : u.trc.queue = e :: rest)
    (hw : u.trc.watch = true) (ht : e.tail = false) :
    State.armDecisionFrom rest (u.completeDecision e) = State.armDecisionFrom rest (u.headLeft e rest) := by
  unfold State.completeDecision State.headLeft Trc.removeHead Trc.removeSplicesEnding decidedLimit
  simp only [ht, Bool.false_eq_true, if_false, hq, List.tail_cons]
  cases rest with
  | nil => rfl
  | cons x xs =>
    rw [hw]
    rfl

/-- TRC's arming of a queue is a run of decisions (R64, R66). -/
theorem State.armDecisionFrom_run (l : List Entry) (s : State) (hq : s.trc.queue = l) (hw : s.trc.watch = !l.isEmpty)
    (ht : ∀ e ∈ l.dropLast, e.tail = false) : DecisionRun s l (State.armDecisionFrom l s) := by
  induction l generalizing s with
  | nil =>
    have : State.armDecisionFrom [] s = s := by
      unfold State.armDecisionFrom
      rw [show (false : Bool) = s.trc.watch from hw.symm]
    rw [this]
    exact .none s
  | cons e rest ih =>
    unfold State.armDecisionFrom
    by_cases hb : (s.psu.hw - e.decisionPoint).toInt < 0
    · rw [if_pos (by simpa [isBehind, distance] using hb)]
      rw [show (true : Bool) = s.trc.watch from hw.symm]
      exact .ahead s e rest hb
    · rw [if_neg (by simpa [isBehind, distance] using hb)]
      simp only
      rw [State.handover_eq]
      have hd := s.takeDecision_taken (s.handover e rest)
      have hu : (s.takeDecision (s.handover e rest)).trc = s.trc := (s.takeDecision_frame _).trc
      cases hte : e.tail
      · rw [State.completeDecision_eq (by rw [hu, hq]) (by rw [hu, hw]; rfl) hte]
        refine .decided s _ _ e rest (by omega) hte hd (ih _ rfl rfl ?_)
        intro x hx
        refine ht x ?_
        cases rest with
        | nil => cases hx
        | cons y ys => exact List.mem_cons_of_mem _ hx
      · have hr : rest = [] := by
          cases rest with
          | nil => rfl
          | cons y ys => exact absurd (ht e (by simp)) (by simp [hte])
        subst hr
        have : State.armDecisionFrom [] ((s.takeDecision (s.handover e [])).completeDecision e) =
            ((s.takeDecision (s.handover e [])).headLeft e []).jobOver := by
          unfold State.completeDecision
          simp only [hte, if_true]
          rw [State.endOfDrain_eq]
          unfold State.armDecisionFrom State.jobOver State.headLeft Trc.removeHead Trc.removeSplicesEnding decidedLimit
          rw [← State.setEvent_eq_withEvent, ← State.setEvent_eq_withEvent]
          simp only [hu, hq]
          rfl
        rw [this]
        exact .last s _ e (by omega) hte hd

/-- TRC's crossing, reached, is a run of decisions from the head on (R65, R66). -/
theorem State.decisionCrossing_run {s : State} {e : Entry} {rest : List Entry} (hq : s.trc.queue = e :: rest)
    (hw : s.trc.watch = true) (hs : e.decisionPoint = s.psu.hw) (ht : ∀ x ∈ s.trc.queue.dropLast, x.tail = false) :
    DecisionRun s s.trc.queue s.decisionCrossing := by
  rw [State.decisionCrossing_eq hq hw hs, ← hq]
  exact State.armDecisionFrom_run _ s rfl (by rw [hw, hq]; rfl) ht

end Sys2Proof.Machine
end

