-- ==== Sys2Proof/Laws/Track.lean ====
section
/-! SUPPORT. The track queue: an entry found after an arming, a creation whole, and the end of a job written out. -/

namespace Sys2Proof.Machine

/-! ### Arming -/

theorem Trc.setCut_find (t : Trc) (r r' : Rsn) (c : CutState) : (t.setCut r c).queue.find? (fun x => x.rsn == r') =
    (t.queue.find? (fun x => x.rsn == r')).map (fun x : Entry => if x.rsn = r then { x with cut := c } else x) := by
  simp only [Trc.setCut]
  rw [List.find?_map]
  congr 1
  congr 1
  funext x
  simp only [Function.comp]; split <;> rfl

theorem Trc.setCut_last (q : List Entry) (e : Entry) (t : Trc) (c) (ht : t.queue = q ++ [e]) (hne : ∀ x ∈ q,
    x.rsn ≠ e.rsn) : (t.setCut e.rsn c).queue = q ++ [{ e with cut := c }] := by
  simp only [Trc.setCut, ht, List.map_append, List.map_cons, List.map_nil, if_true]
  congr 1
  conv => rhs; rw [← List.map_id q]
  apply List.map_congr_left
  intro x hx; simp [hne x hx]

/-- An arming leaves every entry but the PENDING ones of its list as it was. -/
theorem State.armFrom_find (l : List Entry) (s : State) (r : Rsn) (hne : ∀ e ∈ l, e.cut = .pending → e.rsn ≠ r) :
    (State.armFrom l s).trc.queue.find? (fun x => x.rsn == r) = s.trc.queue.find? (fun x => x.rsn == r) := by
  induction l generalizing s with
  | nil => rfl
  | cons e rest ih =>
    unfold State.armFrom
    split
    · exact ih s (fun x hx => hne x (by simp [hx]))
    · rename_i hp
      have hp' : e.cut = .pending := by simpa using hp
      split
      · rfl
      · rw [ih _ (fun x hx => hne x (by simp [hx]))]
        have key : ∀ c, ((s.trc.setCut e.rsn c).queue.find? (fun x => x.rsn == r)) = s.trc.queue.find?
            (fun x => x.rsn == r) := by
          intro c
          rw [Trc.setCut_find]
          cases hf : s.trc.queue.find? (fun x => x.rsn == r) with
          | none => rfl
          | some x =>
            have hx : x.rsn = r := by have := List.find?_some hf; simpa using this
            have := hne e (by simp) hp'
            simp; intro h; exact absurd (h.symm.trans hx) this
        unfold State.takeFire; split
        · exact key _
        · exact key _

/-- An arming passes over entries that are not PENDING (R85). -/
theorem State.armFrom_skip (l l' : List Entry) (h : ∀ e ∈ l, e.cut ≠ .pending) (s : State) :
    State.armFrom (l ++ l') s = State.armFrom l' s := by
  induction l with
  | nil => rfl
  | cons x xs ih =>
    rw [List.cons_append]; unfold State.armFrom
    rw [if_pos (h x (by simp))]
    cases l' with
    | nil =>
      have := ih (fun y hy => h y (by simp [hy]))
      rw [List.append_nil] at this ⊢; exact this
    | cons y ys =>
      rw [ih (fun y hy => h y (by simp [hy]))]
      conv => lhs; unfold State.armFrom

theorem State.armFrom_flags (l : List Entry) (s : State) : FlagsKept s (State.armFrom l s) := by
  induction l generalizing s with
  | nil => exact FlagsKept.rfl
  | cons e rest ih =>
    unfold State.armFrom
    split
    · exact ih s
    · split
      · exact FlagsKept.rfl
      · refine FlagsKept.trans ?_ (ih _)
        unfold State.takeFire; split
        · exact FlagsKept.setEvent s _
        · simp only; split
          · exact FlagsKept.setEvent s _
          · exact FlagsKept.rfl

theorem State.fireCrossing_flags (s : State) : FlagsKept s s.fireCrossing := by
  unfold State.fireCrossing; split
  · split
    · refine FlagsKept.trans ?_ (State.armFrom_flags _ _)
      unfold State.takeFire; split
      · exact FlagsKept.setEvent s _
      · simp only; split
        · exact FlagsKept.setEvent s _
        · exact FlagsKept.rfl
    · exact FlagsKept.rfl
  · exact FlagsKept.rfl

theorem State.offerForCutting_flags (s : State) : FlagsKept s s.offerForCutting := by
  unfold State.offerForCutting; split
  · exact State.armFrom_flags _ _
  · exact FlagsKept.rfl

theorem State.offerIf_flags (now : Bool) (s : State) : FlagsKept s (s.offerIf now) := by
  unfold State.offerIf; split
  · exact State.offerForCutting_flags s
  · exact FlagsKept.rfl

/-! ### Marks -/

/-- The spacing test of R46, in the words of the statements. -/
theorem State.spacingPasses_iff (s : State) (c) : s.spacingPasses c = true ↔ ¬ s.TooNear c := by
  unfold State.spacingPasses State.TooNear
  cases s.mru.lastMark <;> simp [distance, Quantities.repCounts]

theorem State.beforeWindow_iff (s : State) (c) :
    (∀ win, s.mru.window = some win → isBehind c win.opening = true) ↔ s.BeforeWindow c := by
  unfold State.BeforeWindow
  simp [isBehind_iff]

/-- R50: the mark locks the registration exactly when the statements say so. -/
theorem Mru.countTowardsLock_reg (s : State) (hr : s.mru.reg = .capture ∨ s.mru.reg = .locked) :
    ((s.mru.countTowardsLock s.jbc.table.lockCount).reg = .locked ↔ s.lockedAfterMark = true) ∧
   (s.lockedAfterMark = false → (s.mru.countTowardsLock s.jbc.table.lockCount).reg = .capture) := by
  unfold Mru.countTowardsLock State.lockedAfterMark
  rcases hr with hr | hr
  · simp [hr]
  · simp [hr]

/-! ### Creation -/

theorem Entry.sansCut_withCut : ∀ (e : Entry) (c : CutState), Entry.sansCut { e with cut := c } = Entry.sansCut e :=
    fun _ _ => rfl

/-- What the creation of an entry leaves (R61, R62, R63), with the knife and the flags; the offer where it is taken `now`. -/
structure Creates (now : Bool) (s : State) (q : Creation) (t : State) : Prop where
  ent : EntryCreated s t q.kind q.mark q.regErr q.regFlag
  mru : t.mru = if s.jbc.tailPending then { s.mru with reg := .idle, watch := false } else s.mru
  ksq : s.ksq.armed.isSome = true → t.ksq = s.ksq
  flags : FlagsKept s t
  offer : now = true → ((s.trc.queue ++ [s.newEntry q]).map Entry.rsn).Nodup → Offered s t [] (s.newEntry q) []

/-- A creation is what R61 to R63 say, whatever the state. -/
theorem State.createEntry_creates (now : Bool) (s : State) (q : Creation) : Creates now s q (s.createEntry now q) := by
  set e := s.newEntry q with he
  set a : State := (if e.tail then ({ s with trc := s.trc.append e } : State).tailCreated else
      { s with trc := s.trc.append e }) with ha
  have hc : s.createEntry now q = a.offerIf now := rfl
  have hk := State.offerIf_frame now a
  have atrc : a.trc = s.trc.append e := by rw [ha]; split <;> rfl
  have ajbc : a.jbc = { s.jbc with tailPending := false } := by
    rw [ha]; split
    · rfl
    · rename_i ht
      have : s.jbc.tailPending = false := by simpa [he, State.newEntry] using ht
      show s.jbc = { s.jbc with tailPending := false }
      rw [← this]
  have amru : a.mru = if s.jbc.tailPending then { s.mru with reg := .idle, watch := false } else s.mru := by
    rw [ha]; show (if e.tail = true then _ else _ : State).mru = _
    rw [show e.tail = s.jbc.tailPending from rfl]; cases s.jbc.tailPending <;> rfl
  have arest : a.psu = s.psu ∧ a.ksq = s.ksq ∧ a.gtu = s.gtu ∧ a.bsq = s.bsq ∧ a.rif = s.rif ∧ a.mge = s.mge ∧
      a.inhibitLine = s.inhibitLine ∧ a.resetHeld = s.resetHeld ∧ a.draws = s.draws ∧ a.pending = s.pending := by
    rw [ha]; split <;> exact ⟨rfl, rfl, rfl, rfl, rfl, rfl, rfl, rfl, rfl, rfl⟩
  obtain ⟨r1, r2, r3, r4, r5, r6, r7, r8, r9, r10⟩ := arest
  rw [hc]
  refine ⟨?_, ?_, ?_, ?_, ?_⟩
  · constructor
    · rw [hk.cuts _ Entry.sansCut_withCut, atrc]; simp only [Trc.append, List.map_append]; rfl
    · rw [hk.nextRsn, atrc]; rfl
    · rw [hk.window, atrc]; rfl
    · rw [hk.watch, atrc]; rfl
    · rw [hk.decided, hk.decisions, hk.splices, atrc]; exact ⟨rfl, rfl, rfl⟩
    · rw [hk.jbc, ajbc]
    · rw [hk.psu, r1]
    · rw [hk.gtu, r3]
    · rw [hk.bsq, r4]
    · rw [hk.rif, r5]
    · rw [hk.requests, hk.resetPending, hk.mask, hk.snap, hk.gen, r6]; exact ⟨rfl, rfl, rfl, rfl, rfl⟩
    · rw [hk.inhibitLine, hk.resetHeld, hk.draws, hk.pending, r7, r8, r9, r10]; exact ⟨rfl, rfl, rfl, rfl⟩
  · rw [hk.mru, amru]
  · intro h
    have : a.ksq.armed.isNone = false := by rw [r2]; cases hx : s.ksq.armed <;> simp_all
    unfold State.offerIf; split
    · simp only [State.offerForCutting, this]; exact r2
    · exact r2
  · have h1 : FlagsKept s a := by intro x hx; simpa [State.flag, r6] using hx
    exact h1.trans (State.offerIf_flags now a)
  · intro hnow hn
    subst hnow
    have hq : a.trc.queue = s.trc.queue ++ [e] := by rw [atrc]; rfl
    have hsame : SameForKnife ({ s with trc := { s.trc with queue := s.trc.queue ++ [e] } } : State) a :=
      ⟨r1, by rw [ajbc], by rw [ajbc], r2, r6, hq⟩
    rw [show a.offerIf true = a.offerForCutting from rfl, State.offerForCutting_eq (by rw [hq]; exact hn)]
    have hoff : s.offered [] e = if s.ksq.armed = none then
        ({ s with trc := { s.trc with queue := s.trc.queue ++ [e] } } : State).settled
      else { s with trc := { s.trc with queue := s.trc.queue ++ [e] } } := rfl
    have hk : SameForKnife (s.offered [] e) (if a.ksq.armed = none then a.settled else a) := by
      rw [hoff, r2]
      split
      · exact hsame.settled
      · exact hsame
    exact ⟨hk.queue, hk.ksq, hk.mge⟩

/-- A creation whose offer is not yet taken leaves its entry PENDING at the end of the queue, and KSQ as it was (R65). -/
theorem State.createEntry_unoffered (s : State) (q : Creation) :
    (s.createEntry false q).trc = s.trc.append (s.newEntry q) ∧ (s.createEntry false q).ksq = s.ksq := by
  have h : s.createEntry false q = if (s.newEntry q).tail then
      ({ s with trc := s.trc.append (s.newEntry q) } : State).tailCreated
    else { s with trc := s.trc.append (s.newEntry q) } := rfl
  rw [h]
  split <;> exact ⟨rfl, rfl⟩

/-- What follows a creation may change MRU, KSQ, the flags and the mailbox. -/
theorem EntryCreated.after {s t u : State} {k m r f} (h : EntryCreated s t k m r f)
   (h1 : u.trc = t.trc) (h2 : u.jbc = t.jbc) (h3 : u.psu = t.psu) (h4 : u.gtu = t.gtu) (h5 : u.bsq = t.bsq)
       (h6 : u.rif = t.rif)
   (h7 : u.mge.requests = t.mge.requests ∧ u.mge.resetPending = t.mge.resetPending ∧ u.mge.mask = t.mge.mask ∧
       u.mge.snap = t.mge.snap ∧ u.mge.gen = t.mge.gen)
   (h8 : u.inhibitLine = t.inhibitLine ∧ u.resetHeld = t.resetHeld ∧ u.draws = t.draws ∧ u.pending = t.pending) :
       EntryCreated s u k m r f := by
  obtain ⟨a, b, c, d⟩ := h8
  obtain ⟨e1, e2, e3, e4, e5⟩ := h7
  constructor
  · rw [h1]; exact h.entry
  · rw [h1]; exact h.nextRsn
  · rw [h1]; exact h.window
  · rw [h1]; exact h.watch
  · rw [h1]; exact h.kept
  · rw [h2]; exact h.jbc
  · rw [h3]; exact h.psu
  · rw [h4]; exact h.gtu
  · rw [h5]; exact h.bsq
  · rw [h6]; exact h.rif
  · rw [e1, e2, e3, e4, e5]; exact h.mge
  · rw [a, b, c, d]; exact h.outside

/-- A creation after a fire or an arming, seen from before it. -/
theorem EntryCreated.before_knife {v w t : State} {k m r f} (h : KnifeFrame v w) (he : EntryCreated w t k m r f) :
    EntryCreated v t k m r f := by
  have hlen : w.trc.queue.isEmpty = v.trc.queue.isEmpty := by
    have := congrArg List.length (h.cuts _ Entry.sansCut_withCut); simp at this
    cases hw : w.trc.queue <;> cases hv : v.trc.queue <;> simp_all
  constructor
  · have := he.entry; unfold State.entryFor at this
    rw [h.cuts _ Entry.sansCut_withCut, h.nextRsn, h.jbc, h.window] at this; exact this
  · rw [he.nextRsn, h.nextRsn]
  · rw [he.window, h.window, h.nextRsn]
  · rw [he.watch, h.watch, hlen]
  · have := he.kept; rw [h.decided, h.decisions, h.splices] at this; exact this
  · rw [he.jbc, h.jbc]
  · rw [he.psu, h.psu]
  · rw [he.gtu, h.gtu]
  · rw [he.bsq, h.bsq]
  · rw [he.rif, h.rif]
  · have := he.mge; rw [h.requests, h.resetPending, h.mask, h.snap, h.gen] at this; exact this
  · have := he.outside; rw [h.inhibitLine, h.resetHeld, h.draws, h.pending] at this; exact this

/-- A fire or an arming after a creation leaves the creation as it was. -/
theorem EntryCreated.after_knife {v t u : State} {k m r f} (h : KnifeFrame t u) (he : EntryCreated v t k m r f) :
    EntryCreated v u k m r f := by
  constructor
  · rw [h.cuts _ Entry.sansCut_withCut]; exact he.entry
  · rw [h.nextRsn]; exact he.nextRsn
  · rw [h.window]; exact he.window
  · rw [h.watch]; exact he.watch
  · rw [h.decided, h.decisions, h.splices]; exact he.kept
  · rw [h.jbc]; exact he.jbc
  · rw [h.psu]; exact he.psu
  · rw [h.gtu]; exact he.gtu
  · rw [h.bsq]; exact he.bsq
  · rw [h.rif]; exact he.rif
  · rw [h.requests, h.resetPending, h.mask, h.snap, h.gen]; exact he.mge
  · rw [h.inhibitLine, h.resetHeld, h.draws, h.pending]; exact he.outside

theorem EntryCreated.quantities {s t : State} {k m r f} (h : EntryCreated s t k m r f) :
    t.quantities = s.quantities := by
  unfold State.quantities; rw [h.jbc]

/-! ### Ends of a job -/

/-- The end of a job written out (R15). -/
theorem State.enterStopped_eq (s : State) (j) : s.enterStopped j = { s with
   mru := { s.mru with reg := .idle, watch := false }
   ksq := { s.ksq with armed := none, fireWatch := none, pulse := false, pulseTimer := none, owner := none }
   jbc := { s.jbc with job := j, tailPending := false, hbTimer := none } } := rfl

theorem Mge.ext_but_events (m m' : Mge) (h1 : m'.requests = m.requests) (h2 : m'.resetPending = m.resetPending)
    (h3 : m'.mask = m.mask) (h4 : m'.snap = m.snap) (h5 : m'.gen = m.gen) :
   m' = { m with flags := m'.flags, mailbox := m'.mailbox } := by
  cases m; cases m'; simp_all

end Sys2Proof.Machine
end

