-- ==== Sys2Proof/Laws/Advance.lean ====
section
/-! SUPPORT. An advance of HW whole: what lies outside the web and the track is kept by it, an advance that reaches no armed
point is the forgetting of R46 alone, and what falls together with a count is what its commands do. -/

namespace Sys2Proof.Machine

/-- The line seen, the reset input, the count of free values and the queue of commands: what no event of the web touches. -/
structure OutsideKept (s t : State) : Prop where
  inhibitLine : t.inhibitLine = s.inhibitLine
  resetHeld : t.resetHeld = s.resetHeld
  draws : t.draws = s.draws
  pending : t.pending = s.pending

theorem OutsideKept.rfl {s : State} : OutsideKept s s := by
  constructor <;> trivial

theorem OutsideKept.trans {s t u : State} (h : OutsideKept s t) (k : OutsideKept t u) : OutsideKept s u :=
  ⟨k.inhibitLine.trans h.inhibitLine, k.resetHeld.trans h.resetHeld, k.draws.trans h.draws, k.pending.trans h.pending⟩

theorem OutsideKept.setEventIf (s : State) (b : Bool) (e : Event) : OutsideKept s (s.setEventIf b e) := by
  unfold State.setEventIf
  split
  · constructor <;> trivial
  · exact .rfl

theorem OutsideKept.setEvent {s t : State} (h : OutsideKept s t) (e : Event) : OutsideKept s (t.setEvent e) :=
  ⟨h.inhibitLine, h.resetHeld, h.draws, h.pending⟩

theorem OutsideKept.withMru {s t : State} (h : OutsideKept s t) (m : Mru) : OutsideKept s { t with mru := m } :=
  ⟨h.inhibitLine, h.resetHeld, h.draws, h.pending⟩

theorem KnifeFrame.outside {s t : State} (h : KnifeFrame s t) : OutsideKept s t :=
  ⟨h.inhibitLine, h.resetHeld, h.draws, h.pending⟩

theorem State.createEntry_outside (now : Bool) (s : State) (q : Creation) : OutsideKept s (s.createEntry now q) :=
  let h := (s.createEntry_creates now q).ent.outside
  ⟨h.1, h.2.1, h.2.2.1, h.2.2.2⟩

theorem State.takeMark_outside (now : Bool) (s : State) (c : Position) : OutsideKept s (s.takeMark now c) := by
  have hs : OutsideKept s s.strayMark := by constructor <;> trivial
  have hw : OutsideKept s (s.markAgainstWindow now c) := by
    unfold State.markAgainstWindow
    split
    · exact hs
    · split
      · exact hs
      · unfold State.acceptInWindow
        exact OutsideKept.withMru (((OutsideKept.withMru .rfl _).trans (.setEventIf _ _ _)).trans
          (State.createEntry_outside _ _ _)) _
  unfold State.takeMark
  split
  · exact .rfl
  · split
    · exact (State.createEntry_outside _ s _).withMru _
    · exact hs
  · exact hw
  · exact hw

theorem State.markEdge_outside (now : Bool) (s : State) : OutsideKept s (s.markEdge now) := by
  unfold State.markEdge
  split
  · exact State.takeMark_outside now s _
  · exact .rfl

theorem State.windowEnd_outside (s : State) : OutsideKept s s.windowEnd := by
  unfold State.windowEnd
  split
  · have h := (State.recomputeFire_frame
      ({ s with psu := { s.psu with spd := speedOf s.psu.windowCount s.psu.windowMs, spdValid := true } } : State).beginWindow)
    exact ⟨h.inhibitLine, h.resetHeld, h.draws, h.pending⟩
  · exact .rfl

theorem State.registrationCrossing_outside (now : Bool) (s : State) : OutsideKept s (s.registrationCrossing now) := by
  have hf : OutsideKept s s.forgetLastMark := by
    rw [State.forgetLastMark_eq]
    exact ⟨rfl, rfl, rfl, rfl⟩
  unfold State.registrationCrossing
  simp only
  split
  · exact hf
  · split
    · unfold State.takeMiss
      exact (OutsideKept.setEvent (((hf.withMru _).trans (State.createEntry_outside _ _ _)).withMru _) _).trans
        (.setEventIf _ _ _)
    · exact hf

theorem State.takeDecision_outside (s : State) (h : Handover) : OutsideKept s (s.takeDecision h) :=
  let f := s.takeDecision_frame h
  ⟨f.inhibitLine, f.resetHeld, f.draws, f.pending⟩

theorem State.completeDecision_outside (s : State) (e : Entry) : OutsideKept s (s.completeDecision e) := by
  unfold State.completeDecision
  simp only
  split <;> exact ⟨rfl, rfl, rfl, rfl⟩

theorem State.armDecisionFrom_outside (l : List Entry) (s : State) : OutsideKept s (State.armDecisionFrom l s) := by
  induction l generalizing s with
  | nil => exact ⟨rfl, rfl, rfl, rfl⟩
  | cons e rest ih =>
    unfold State.armDecisionFrom
    split
    · exact ⟨rfl, rfl, rfl, rfl⟩
    · exact ((State.takeDecision_outside _ _).trans (State.completeDecision_outside _ e)).trans (ih _)

theorem State.decisionCrossing_outside (s : State) : OutsideKept s s.decisionCrossing := by
  unfold State.decisionCrossing
  split
  · exact State.armDecisionFrom_outside _ _
  · exact .rfl

theorem State.meetOne_outside (now : Bool) (s : State) (m : Meeting) : OutsideKept s (s.meetOne now m) := by
  cases m
  · exact State.markEdge_outside now s
  · exact s.windowEnd_outside

theorem State.meet_outside (now : Bool) (ms : List Meeting) (s : State) : OutsideKept s (s.meet now ms) := by
  induction ms generalizing s with
  | nil => exact .rfl
  | cons m rest ih => exact (State.meetOne_outside now s m).trans (ih _)

theorem State.cross_outside (now : Bool) (b : Block) (s : State) : OutsideKept s (s.cross now b) := by
  cases b
  · exact State.registrationCrossing_outside now s
  · exact (State.fireCrossing_frame s).outside
  · exact s.decisionCrossing_outside

theorem State.offerCreated_outside (before : Rsn) (s : State) : OutsideKept s (s.offerCreated before) :=
  (State.offerCreated_frame before s).outside

/-- What falls together with a count is what its commands do (R54, R87; log 4). -/
theorem State.afterMeetings_eq_meet {s : State} (h : s.resetHeld = false) (ms : List Meeting) :
    s.afterMeetings ms = s.meet true ms :=
  (State.afterMeetings_eq h (fun t m ht => (State.meetOne_outside true t m).resetHeld.trans ht) ms).1

/-- An advance that reaches no armed point is the forgetting of R46 alone, in every order of the blocks. -/
theorem State.crossings_none (o : CrossingOrder) {s : State} (h1 : s.NoMissAt s.psu.hw) (h2 : s.NoFireAt s.psu.hw)
    (h3 : s.NoDecisionAt s.psu.hw) : s.crossings o.alone = s.forgetLastMark := by
  have e := State.forgetLastMark_eq s
  have h2' : s.forgetLastMark.NoFireAt s.forgetLastMark.psu.hw := by rw [e]; exact h2
  have h3' : s.forgetLastMark.NoDecisionAt s.forgetLastMark.psu.hw := by rw [e]; exact h3
  rw [State.crossings_alone o h3]
  cases o <;>
    simp only [State.registrationCrossing_none true h1, State.fireCrossing_none h2, State.decisionCrossing_none h3,
      State.fireCrossing_none h2', State.decisionCrossing_none h3']

end Sys2Proof.Machine
end

