-- ==== Sys2Proof/Laws/Ring.lean ====
section
/-! SUPPORT. Cells on the ring: what arrives with no owned slot in progress, and where each kind of cell goes. -/

namespace Sys2Proof.Machine

theorem validHeader_iff (c : Cell) : validHeader c = true ↔ IsHeader c := by
  simp only [validHeader, IsHeader, Bool.and_eq_true, beq_iff_eq, decide_eq_true_eq, and_assoc]
  rfl

theorem not_validHeader_of_kind {c : Cell} (h : c.kind ≠ 0x10#8) : validHeader c = false := by
  simp [validHeader, kindFrameHeader, h]

theorem not_validHeader_of_check {c : Cell} (h : checkGood c = false) : validHeader c = false := by
  simp [validHeader, h]

/-- With no owned slot in progress and reset not held, an arriving cell is taken by itself (R147 to R151). -/
theorem State.receive_idle {s : State} (h : s.resetHeld = false) (h' : s.rif.sending = none) (c : Cell) :
    s.receive c = s.takeCell c := by
  simp [State.receive, h, State.endOwnedSlot, h']

/-- A cell that is no valid header, at a position the part does not own (R147, R150). -/
theorem State.receive_passes {s : State} {p : Nat} (h : s.Passes p) {c : Cell} (hc : validHeader c = false) :
    s.receive c = s.passCell p c := by
  obtain ⟨h1, h2, h3, h4, h5⟩ := h
  rw [State.receive_idle h1 h2]
  simp [State.takeCell, h3, h4, h5, hc]

/-- The status summary byte, bit by bit (R157). -/
theorem summary_eq (s : State) : s.statusSummary = s.summary := by
  unfold State.statusSummary State.summary bitAt
  generalize s.jbc.stopLatch = a; generalize s.ksq.inhibitLatch = b; generalize s.jbc.blind = c
  generalize s.jbc.waste = d; generalize s.mge.mailbox = e
  cases s.jbc.job <;> cases s.mru.reg <;> cases a <;> cases b <;> cases c <;> cases d <;> cases e <;> rfl

/-- A cell with a bad check is counted and repeated, and no more; in the slot 0 position it begins a frame (R147, R149). -/
theorem State.passCell_bad (s : State) (p : Nat) {c : Cell} (hc : checkGood c = false) :
    s.passCell p c =
      { s.passed p c with rif := { (s.passed p c).rif with crcErrors := oneMore s.rif.crcErrors } } := by
  unfold State.passCell State.countCheck State.passed
  simp only [hc, Bool.false_eq_true, if_false]
  split
  · unfold State.beginFrame
    rw [summary_eq]
    simp only [State.repeatCell, satIncrement_eq_oneMore]
    rfl
  · simp only [State.repeatCell, satIncrement_eq_oneMore]

/-- A cell with a good check is repeated and handed on by its type; in the slot 0 position it begins a frame (R147, R150,
log 10). -/
theorem State.passCell_good (s : State) (p : Nat) {c : Cell} (hc : checkGood c = true) :
    s.passCell p c = (s.passed p c).route c := by
  unfold State.passCell State.countCheck State.passed
  simp only [hc, if_true]
  split
  · unfold State.beginFrame
    rw [summary_eq]
    simp only [State.repeatCell]
    rfl
  · simp only [State.repeatCell]

/-- A cell that passes changes the slot, RING_TX, and at slot 0 the active map and the frame status alone. -/
theorem State.passed_frame (s : State) (p : Nat) (c : Cell) :
    s.passed p c = { s with rif := { s.rif with
      slot := (s.passed p c).rif.slot, ringTx := (s.passed p c).rif.ringTx, active := (s.passed p c).rif.active
      frameStatus := (s.passed p c).rif.frameStatus } } := by
  unfold State.passed
  split <;> rfl

/-- The destination test of R150, in the words of the statements. -/
theorem State.addressed_iff (s : State) (c : Cell) :
    s.addressed c = true ↔ c.body.dest = 0xFF#8 ∨ c.body.dest.toNat = s.rif.nodeId.toNat := by
  have hlt : s.rif.nodeId.toNat < 256 := by omega
  simp [State.addressed, destEveryNode, BitVec.toNat_eq, Nat.mod_eq_of_lt hlt]

/-- A cell that R150 takes nothing from is handed to no block. -/
theorem State.route_notTaken {s : State} {c : Cell} (h : NotTaken s c) : s.route c = s := by
  obtain ⟨-, h⟩ := h
  have ha := s.addressed_iff c
  have hk : ∀ b : Byte, b ∈ ([0x21#8, 0x22#8, 0x23#8, 0x30#8] : List Byte) ↔
      b = kindVerdict ∨ b = kindHeartbeat ∨ b = kindStackerStatus ∨ b = kindMgmtRequest := by
    intro b; simp [kindVerdict, kindHeartbeat, kindStackerStatus, kindMgmtRequest]
  have hal : s.addressed c = false → s.addressedAlone c = false := by
    intro hn
    simp only [State.addressed, Bool.or_eq_false_iff] at hn
    simp [State.addressedAlone, hn.2]
  unfold State.route
  rcases h with h | h | h
  · rw [hk] at h
    push Not at h
    simp [h.1, h.2.1, h.2.2.1, h.2.2.2]
  · have : sourceIsNode c = false := by simpa [sourceIsNode] using h
    simp [this]
  · have hn : s.addressed c = false := by
      rw [Bool.eq_false_iff]
      intro hc
      rcases ha.1 hc with hc | hc
      · exact h.1 hc
      · exact h.2 hc
    simp [hn, hal hn]

/-! ### What traffic on the ring keeps -/

/-- A property that no change of the blocks that carry traffic touches: the ring interface, the management engine, the batch
plans, the count of free values; and that verdicts, heartbeats and a reset keep. -/
structure KeptByTraffic (P : State → Prop) : Prop where
  rif : ∀ s r, P s → P { s with rif := r }
  mge : ∀ s m, P s → P { s with mge := m }
  bsq : ∀ s x, P s → P { s with bsq := x }
  draws : ∀ s n, P s → P { s with draws := n }
  verdict : ∀ s src p, P s → P (s.takeVerdict src p)
  heartbeat : ∀ s src p, P s → P (s.takeHeartbeat src p)
  reset : ∀ s n i a b, P s → P (s.afterReset n i a b)

namespace KeptByTraffic

variable {P : State → Prop} (k : KeptByTraffic P) {s : State}
include k

theorem setEvent (h : P s) (e : Event) : P (s.setEvent e) := k.mge _ _ h

theorem setEventIf (h : P s) (b : Bool) (e : Event) : P (s.setEventIf b e) := by
  cases b
  · exact h
  · exact k.setEvent h e

theorem lapse (h : P s) (i : Lane) : P (s.lapse i) := k.setEventIf (k.bsq _ _ h) _ _

theorem countCheck (h : P s) (c : Cell) : P (s.countCheck c) := by
  unfold State.countCheck
  split
  · exact h
  · exact k.rif _ _ h

theorem startFrame (h : P s) (c : Cell) : P (s.startFrame c) := k.rif _ _ (k.rif _ _ h)

theorem route (h : P s) (c : Cell) : P (s.route c) := by
  unfold State.route
  split
  · exact h
  · split
    · split
      · exact k.verdict _ _ _ h
      · exact h
    · split
      · split
        · exact k.heartbeat _ _ _ h
        · exact h
      · split
        · split
          · exact k.bsq _ _ h
          · exact h
        · split
          · split
            · unfold State.enqueueRequest
              split
              · exact k.mge _ _ h
              · exact k.setEvent h _
            · exact h
          · exact h

theorem passCell (h : P s) (p : Nat) (c : Cell) : P (s.passCell p c) := by
  have h1 : P ((s.repeatCell c).countCheck c) := k.countCheck (k.rif _ _ h) c
  have h2 : P (if p = 0 then ((s.repeatCell c).countCheck c).beginFrame else
      { (s.repeatCell c).countCheck c with rif := { ((s.repeatCell c).countCheck c).rif with slot := some p } }) := by
    split
    · exact k.rif _ _ h1
    · exact k.rif _ _ h1
  unfold State.passCell
  simp only
  split
  · exact k.route h2 c
  · exact h2

theorem endOwnedSlot (h : P s) : P s.endOwnedSlot := by
  unfold State.endOwnedSlot
  split
  · exact h
  · simp only
    split
    · exact k.reset _ _ _ _ _ (by
        unfold State.frameStartIfHeader
        split
        · exact k.startFrame (k.countCheck (k.rif _ _ h) _) _
        · exact k.countCheck (k.rif _ _ h) _)
    · unfold State.frameStartIfHeader
      split
      · exact k.startFrame (k.countCheck (k.rif _ _ h) _) _
      · exact k.countCheck (k.rif _ _ h) _

theorem placement (h : P s) : P s.placement.after := by
  unfold State.placement
  split
  · exact k.rif _ _ h
  · exact k.rif _ _ h
  · split
    · exact k.mge _ _ h
    · exact h

/-- A cell that arrives (R147 to R151). -/
theorem receive (h : P s) (c : Cell) : P (s.receive c) := by
  unfold State.receive
  split
  · exact k.rif _ _ h
  · have h := k.endOwnedSlot h
    generalize s.endOwnedSlot = u at h
    unfold State.takeCell
    split
    · split
      · exact k.startFrame (k.rif _ _ h) c
      · exact k.countCheck (k.rif _ _ h) c
    · split
      · exact k.rif _ _ (k.placement h)
      · split
        · exact k.startFrame (k.rif _ _ h) c
        · exact k.passCell h _ _

theorem queueReply (h : P s) (q : Request) (a : Answer) : P (s.queueReply q a) := by
  unfold State.queueReply
  simp only
  split
  · exact k.rif _ _ h
  · exact k.rif _ _ (k.draws s (s.draws + 1) h)

/-- The start of a request whose operation keeps the property (R161). -/
theorem startRequest (h : P s) (row : StartRow) (run : Request → State → State × Answer)
    (hrun : ∀ q t, P t → P (run q t).1) : P (s.startRequest row run) := by
  unfold State.startRequest
  split
  · exact h
  · split
    · unfold State.carryOut
      simp only
      split
      · exact k.queueReply (k.mge _ _ h) _ _
      · exact k.queueReply (hrun _ _ (k.mge _ _ h)) _ _
    · exact h

end KeptByTraffic

end Sys2Proof.Machine
end

