-- ==== Sys2Proof/Laws/Splices.lean ====
section
/-! SUPPORT. The splice list: what placing, joining and covering keep of the ranges, and of their number. -/

namespace Sys2Proof.Machine

theorem mem_placeRange (x : OffsetRange) (l) (y) : y ∈ placeRange x l ↔ y = x ∨ y ∈ l := by
  induction l with
  | nil => simp [placeRange]
  | cons r rest ih =>
    unfold placeRange; split
    · simp
    · simp [ih]; tauto

theorem placeRange_length (x : OffsetRange) (l) : (placeRange x l).length = l.length + 1 := by
  induction l with
  | nil => rfl
  | cons r rest ih => unfold placeRange; split <;> simp [ih]

theorem OffsetRange.hull_contains (a b : OffsetRange) (k : Int) :
    (a.first ≤ k ∧ k ≤ a.last) ∨ (b.first ≤ k ∧ k ≤ b.last) → (a.hull b).first ≤ k ∧ k ≤ (a.hull b).last := by
  simp only [OffsetRange.hull]; omega

/-- The hull of ranges covers what they cover (R81). -/
theorem foldHull_covers (js : List OffsetRange) (x : OffsetRange) (k : Int) (h : Covers (x :: js) k) :
   (js.foldl OffsetRange.hull x).first ≤ k ∧ k ≤ (js.foldl OffsetRange.hull x).last := by
  induction js generalizing x with
  | nil => obtain ⟨r, hr, h⟩ := h; simp at hr; subst hr; exact h
  | cons y ys ih =>
    apply ih
    obtain ⟨r, hr, h⟩ := h
    simp only [List.mem_cons] at hr
    rcases hr with rfl | rfl | hr
    · exact ⟨r.hull y, by simp, OffsetRange.hull_contains _ _ _ (.inl h)⟩
    · exact ⟨x.hull r, by simp, OffsetRange.hull_contains _ _ _ (.inr h)⟩
    · exact ⟨r, by simp [hr], h⟩

/-- The hull of ranges that each join one of them covers nothing more (R81). -/
theorem foldHull_exact (js : List OffsetRange) (x0 x : OffsetRange) (hx : x.first ≤ x0.first ∧
    x0.last ≤ x.last) (hj : ∀ y ∈ js, x0.joins y = true ∧ y.first ≤ y.last) (k : Int)
   (h : (js.foldl OffsetRange.hull x).first ≤ k ∧ k ≤ (js.foldl OffsetRange.hull x).last) : Covers (x :: js) k := by
  induction js generalizing x with
  | nil => exact ⟨x, by simp, h⟩
  | cons y ys ih =>
    have hy := hj y (by simp)
    have := ih (x.hull y) (by simp only [OffsetRange.hull]; omega) (fun z hz => hj z (by simp [hz])) h
    obtain ⟨r, hr, hk⟩ := this
    simp only [List.mem_cons] at hr
    rcases hr with rfl | hr
    · have hjn := hy.1
      simp only [OffsetRange.joins, Bool.and_eq_true, decide_eq_true_eq] at hjn
      simp only [OffsetRange.hull] at hk
      by_cases hxk : x.first ≤ k ∧ k ≤ x.last
      · exact ⟨x, by simp, hxk⟩
      · exact ⟨y, by simp, by omega⟩
    · exact ⟨r, by simp [hr], hk⟩

/-- The least gap is that of a listed range (R82). -/
theorem leastGap_some (x : OffsetRange) (l : List OffsetRange) (h : l ≠ []) :
    ∃ g, leastGap x l = some g ∧ ∃ r ∈ l, x.gap r = g := by
  induction l with
  | nil => exact absurd rfl h
  | cons r rest ih =>
    unfold leastGap
    cases hr : rest with
    | nil => exact ⟨x.gap r, rfl, r, by simp, rfl⟩
    | cons a as =>
      obtain ⟨g, hg, q, hq, hqg⟩ := ih (by simp [hr])
      rw [hr] at hg hq; rw [hg]
      refine ⟨_, rfl, ?_⟩
      rcases min_choice (x.gap r) g with h | h <;> rw [h]
      · exact ⟨r, by simp, rfl⟩
      · exact ⟨q, by simp at hq ⊢; tauto, hqg⟩

/-- With no room the range joins a listed one, which leaves the list (R82). -/
theorem coverNearest_eq (x : OffsetRange) (l : List OffsetRange) (h : l ≠ []) :
    ∃ near ∈ l, coverNearest x l = placeRange (x.hull near) (l.filter fun r => r != near) := by
  obtain ⟨g, hg, q, hq, hqg⟩ := leastGap_some x l h
  unfold coverNearest; rw [hg]; simp only
  cases hf : l.find? (fun r => x.gap r == g) with
  | none => rw [List.find?_eq_none] at hf; exact absurd (by simp [hqg]) (hf q hq)
  | some n => exact ⟨n, List.mem_of_find?_eq_some hf, rfl⟩

/-- The list never grows past its four ranges (R81, R82). -/
theorem insertRange_length (x : OffsetRange) (rs : List OffsetRange) (hlen : rs.length ≤ 4) :
    (insertRange x rs).length ≤ 4 := by
  set apart := rs.filter fun r => !x.joins r with hap
  have hal : apart.length ≤ rs.length := List.length_filter_le _ _
  have hins : insertRange x rs = if apart.length < 4 then placeRange
      ((rs.filter fun r => x.joins r).foldl OffsetRange.hull x) apart else coverNearest
          ((rs.filter fun r => x.joins r).foldl OffsetRange.hull x) apart := rfl
  rw [hins]; split
  · rw [placeRange_length]; omega
  · rename_i hge
    obtain ⟨n, hn, he⟩ := coverNearest_eq ((rs.filter fun r => x.joins r).foldl OffsetRange.hull x) apart
        (by intro h0; rw [h0] at hge; simp at hge)
    rw [he, placeRange_length]
    have : (apart.filter fun r => r != n).length < apart.length :=
        List.length_filter_lt_length_iff_exists.2 ⟨n, hn, by simp⟩
    omega

theorem Trc.condemn_splices_length (x : OffsetRange) (t : Trc) (h : t.splices.length ≤ 4) :
    (t.condemn x).splices.length ≤ 4 := by
  unfold Trc.condemn; split
  · exact h
  · simp only [List.length_map]; exact insertRange_length _ _ (by simpa using h)

theorem Trc.condemn_decided (x : OffsetRange) (t : Trc) :
    (t.condemn x).decided = t.decided := by unfold Trc.condemn; split <;> rfl

/-! ### The order of the list -/

/-- The list of R81, said of every two of its ranges. -/
theorem rangesInOrder_iff (l : List OffsetRange) : RangesInOrder l ↔
    (∀ r ∈ l, r.first ≤ r.last) ∧ l.Pairwise (fun r x => r.last + 1 < x.first) := by
  induction l with
  | nil => simp [RangesInOrder]
  | cons r rest ih => simp only [RangesInOrder, ih, List.pairwise_cons, List.mem_cons, forall_eq_or_imp]; tauto

/-- Two ranges of the list do not touch (R81). -/
theorem RangesInOrder.apart {l : List OffsetRange} (h : RangesInOrder l) {r x} (hr : r ∈ l) (hx : x ∈ l) (hne : r ≠ x) :
    r.last + 1 < x.first ∨ x.last + 1 < r.first := by
  induction l with
  | nil => simp at hr
  | cons y ys ih =>
    obtain ⟨-, h2, h3⟩ := h
    simp only [List.mem_cons] at hr hx
    rcases hr with rfl | hr <;> rcases hx with rfl | hx
    · exact absurd rfl hne
    · exact .inl (h2 _ hx)
    · exact .inr (h2 _ hr)
    · exact ih h3 hr hx

/-- A range apart from every listed one keeps the list in order (R79). -/
theorem placeRange_order (x : OffsetRange) (l) (h : RangesInOrder l) (hx : x.first ≤ x.last)
    (hs : ∀ y ∈ l, x.last + 1 < y.first ∨ y.last + 1 < x.first) : RangesInOrder (placeRange x l) := by
  induction l with
  | nil => simp [placeRange, RangesInOrder, hx]
  | cons r rest ih =>
    obtain ⟨h1, h2, h3⟩ := h
    unfold placeRange
    have hr := hs r (by simp)
    split
    · refine ⟨hx, fun y hy => ?_, h1, h2, h3⟩
      simp only [List.mem_cons] at hy
      rcases hy with rfl | hy
      · omega
      · have := h2 y hy; omega
    · refine ⟨h1, fun y hy => ?_, ih h3 fun y hy => hs y (by simp [hy])⟩
      rw [mem_placeRange] at hy
      rcases hy with rfl | hy
      · omega
      · exact h2 y hy

/-- A range removed keeps the list in order (R82). -/
theorem RangesInOrder.filter (p) (l : List OffsetRange) (h : RangesInOrder l) : RangesInOrder (l.filter p) := by
  rw [rangesInOrder_iff] at h ⊢
  exact ⟨fun r hr => h.1 r (List.mem_filter.1 hr).1, h.2.filter _⟩

/-- The least gap is no greater than any other (R80). -/
theorem leastGap_le (x : OffsetRange) (l : List OffsetRange) (g) (h : leastGap x l = some g) : ∀ r ∈ l, g ≤ x.gap r := by
  induction l generalizing g with
  | nil => simp
  | cons r rest ih =>
    unfold leastGap at h
    intro y hy
    simp only [List.mem_cons] at hy
    split at h
    · rename_i hn
      cases rest with
      | nil => simp at hy h; subst hy; omega
      | cons a as => obtain ⟨g', hg', -⟩ := leastGap_some x (a :: as) (by simp); rw [hg'] at hn; cases hn
    · rename_i g' hg'
      simp only [Option.some.injEq] at h
      rcases hy with rfl | hy
      · omega
      · have := ih g' hg' y hy; omega

/-- The range that a fifth joins is the nearest, and the earlier of two equally near (R80). -/
theorem coverNearest_nearest (x : OffsetRange) (l : List OffsetRange) (h : l ≠ []) (ho : RangesInOrder l) :
    ∃ near, Nearest x l near ∧ coverNearest x l = placeRange (x.hull near) (l.filter fun r => r != near) := by
  obtain ⟨g, hg, q, hq, hqg⟩ := leastGap_some x l h
  unfold coverNearest; rw [hg]; simp only
  cases hf : l.find? (fun r => x.gap r == g) with
  | none => rw [List.find?_eq_none] at hf; exact absurd (by simp [hqg]) (hf q hq)
  | some n =>
    refine ⟨n, ⟨List.mem_of_find?_eq_some hf, fun y hy => ⟨?_, fun he => ?_⟩⟩, rfl⟩
    · have h1 := List.find?_some hf
      simp only [beq_iff_eq] at h1
      show x.gap n ≤ x.gap y
      rw [h1]; exact leastGap_le x l g hg y hy
    · have he : x.gap y = x.gap n := he
      obtain ⟨h1, as, bs, hl, has⟩ := List.find?_eq_some_iff_append.1 hf
      simp only [beq_iff_eq] at h1
      subst hl
      rw [rangesInOrder_iff] at ho
      have hp := ho.2
      rw [List.pairwise_append, List.pairwise_cons] at hp
      simp only [List.mem_append, List.mem_cons] at hy
      rcases hy with hy | rfl | hy
      · have := has y hy; simp [he, h1] at this
      · exact le_refl _
      · have := hp.2.1.1 y hy
        have := ho.1 n (by simp)
        omega

/-- There is one such range. -/
theorem Nearest.unique {x : OffsetRange} {l} (ho : RangesInOrder l) {a b}
    (ha : Nearest x l a) (hb : Nearest x l b) : a = b := by
  by_contra hne
  have h1 := (ha.2 b hb.1).1
  have h2 := (hb.2 a ha.1).1
  have h3 := (ha.2 b hb.1).2 (by omega)
  have h4 := (hb.2 a ha.1).2 (by omega)
  have ho' := (rangesInOrder_iff _).1 ho
  have := ho'.1 a ha.1
  have := ho'.1 b hb.1
  rcases RangesInOrder.apart ho ha.1 hb.1 hne with h | h <;> omega

/-- The union of ranges that touch is as far from another range as they are (R79). -/
theorem foldHull_apart (js : List OffsetRange) (x y : OffsetRange) (hx : x.first ≤ x.last) (hy : y.first ≤ y.last)
    (hj : ∀ r ∈ js, r.first ≤ r.last ∧ r.first ≤ x.last + 1 ∧ x.first ≤ r.last + 1 ∧
      (r.last + 1 < y.first ∨ y.last + 1 < r.first))
    (hs : x.last + 1 < y.first ∨ y.last + 1 < x.first) :
    (js.foldl OffsetRange.hull x).first ≤ (js.foldl OffsetRange.hull x).last ∧
    ((js.foldl OffsetRange.hull x).last + 1 < y.first ∨ y.last + 1 < (js.foldl OffsetRange.hull x).first) := by
  induction js generalizing x with
  | nil => exact ⟨hx, hs⟩
  | cons r rs ih =>
    have h := hj r (by simp)
    simp only [List.foldl_cons]
    apply ih
    · simp only [OffsetRange.hull]; omega
    · intro q hq
      have := hj q (by simp [hq])
      simp only [OffsetRange.hull]; omega
    · simp only [OffsetRange.hull]; omega

/-- The union of ranges has its ends in order. -/
theorem foldHull_ordered (js : List OffsetRange) (x : OffsetRange) (hx : x.first ≤ x.last) :
    (js.foldl OffsetRange.hull x).first ≤ (js.foldl OffsetRange.hull x).last := by
  induction js generalizing x with
  | nil => exact hx
  | cons r rs ih => apply ih; simp only [OffsetRange.hull]; omega

/-! ### The flag of a record -/

/-- The processing of a SPLICE flag, in the words of the statements (R77 to R79). -/
theorem State.processSplice_eq_spliced (s : State) (r : Rsn) (f : Bool) : s.processSplice r f = s.spliced r f := by
  unfold State.processSplice State.spliced
  cases f
  · rfl
  · simp only [if_true]
    have hx : condemnedRange s.jbc.table (rsnOffset s.trc.oldestRsn r) = s.spliceRange r := rfl
    have he : (s.spliceRange r).escapes s.trc.decided = true ↔ SpliceEscapes s r := by
      simp [OffsetRange.escapes, SpliceEscapes, and_assoc]
    rw [hx]
    have hc : s.trc.condemn (s.spliceRange r) = { s.trc with splices := s.spliceListWith r } := by
      unfold Trc.condemn State.spliceListWith
      split
      · rfl
      · rfl
    rw [hc]
    by_cases h : SpliceEscapes s r
    · rw [if_pos h, he.2 h, State.setEventIf, if_pos rfl, State.setEvent_eq_withEvent]
    · rw [if_neg h, Bool.eq_false_iff.2 (mt he.1 h)]; rfl

/-- Every row but AHEAD ends in the SPLICE flag's processing, with the list, its base and the flag SPLICE_ESCAPE as they
were until then (R70). -/
theorem State.classifyVerdict_near (w : State) (r : Rsn) (v : VerdictRecord) (h : (r - w.trc.nextRsn).toInt ≤ 63) :
    ∃ u : State, w.classifyVerdict r v = u.processSplice r v.splice ∧ u.trc.splices = w.trc.splices ∧
      u.trc.oldestRsn = w.trc.oldestRsn ∧
      u.trc.decided = w.trc.decided ∧ u.jbc = w.jbc ∧ u.flag .spliceEscape = w.flag .spliceEscape := by
  have hfl : ∀ b, (w.setEventIf b .verdictConflict).flag .spliceEscape = w.flag .spliceEscape := by
    intro b; unfold State.setEventIf; split
    · rw [State.flag_setEvent]; simp
    · rfl
  have e1 : ∀ b e, (w.setEventIf b e).trc = w.trc := by intro b e; unfold State.setEventIf; split <;> rfl
  have e2 : ∀ b e, (w.setEventIf b e).jbc = w.jbc := by intro b e; unfold State.setEventIf; split <;> rfl
  unfold State.classifyVerdict
  simp only
  rw [if_neg (by simp only [windowReach, rsnOffset]; omega)]
  split
  · refine ⟨_, rfl, ?_⟩
    unfold State.storeVerdict
    exact ⟨rfl, rfl, rfl, e2 _ _, hfl _⟩
  · split
    · refine ⟨_, rfl, ?_⟩
      unfold State.mergeIntoEntry
      refine ⟨rfl, ?_, rfl, e2 _ _, hfl _⟩
      simp only [Trc.oldestRsn]
      cases hq : w.trc.queue with
      | nil => rfl
      | cons e rest => simp only [List.map_cons]; split <;> rfl
    · refine ⟨_, rfl, rfl, rfl, rfl, rfl, ?_⟩
      rw [State.flag_setEvent]; simp

end Sys2Proof.Machine
end

