-- ==== Sys2Proof/Laws/Coherence.lean ====
section
/-! SUPPORT. Capacities and coherence through each shared operation: a lemma `wellKept_f` says that operation `f` keeps
`State.WithinCapacity` and `State.Coherent` together. -/

namespace Sys2Proof.Machine

/-- Capacities and coherence together. -/
abbrev WellKept (s : State) : Prop := s.WithinCapacity ∧ s.Coherent

/-! ### Events, records and decisions -/

theorem wellKept_setEvent {s : State} (h : WellKept s) (e : Event) : WellKept (s.setEvent e) := by
  refine ⟨{ h.1 with flags := ?_ }, { h.2 with plans := h.2.plans }⟩
  show (s.mge.flags ||| e.word) &&& 0xFFE00000#32 = 0
  have h1 := h.1.flags
  have h2 : e.word &&& 0xFFE00000#32 = 0 := by cases e <;> decide
  rw [BitVec.and_comm, BitVec.and_or_distrib_left, BitVec.and_comm _ s.mge.flags, BitVec.and_comm _ e.word, h1,
      h2]; rfl

theorem wellKept_setEventIf {s : State} (h : WellKept s) (b) (e : Event) : WellKept (s.setEventIf b e) := by
  cases b
  · exact h
  · exact wellKept_setEvent h e

theorem wellKept_queueRecord {s : State} (h : WellKept s) (r) : WellKept (s.queueRecord r) := by
  unfold State.queueRecord; split
  · rename_i hl
    refine ⟨{ h.1 with records := ?_ }, { h.2 with plans := h.2.plans }⟩
    unfold recordQueueSize at hl; simp; omega
  · exact wellKept_setEvent h _

theorem wellKept_queueRecords {s : State} (h : WellKept s) (rs) : WellKept (s.queueRecords rs) := by
  induction rs generalizing s with
  | nil => exact h
  | cons r rest ih => exact ih (wellKept_queueRecord h r)

/-- A decision keeps a lane plan sound, and its list no longer (R117, R125, R126). -/
theorem LanePlan.afterDecision_sound {p : LanePlan} (h : p.Sound) (rsn i c) :
    (p.afterDecision rsn i c).plan.Sound ∧ (p.afterDecision rsn i c).plan.batches.length ≤ p.batches.length := by
  unfold LanePlan.afterDecision
  cases c with
  | none => exact ⟨h, le_refl _⟩
  | some c =>
    simp only
    have h1 : ({ p with gap := p.gap - 1 } : LanePlan).Sound := { h with gap := by have := h.gap; simp only; omega }
    split
    · unfold LanePlan.stackPiece
      cases hb : p.batches with
      | nil => simp only; exact ⟨by have := h1; rw [hb] at this; exact this, by simp⟩
      | cons head rest =>
        simp only
        split
        · rename_i hlt
          refine ⟨{ h1 with count := ?_, noHead := ?_,
                            targets := by have := h1.targets; rw [hb] at this; exact this }, le_refl _⟩
          · intro b hb'; simp at hb'; subst hb'; exact hlt
          · intro hx; simp at hx
        · have ht := h.targets; rw [hb] at ht
          have hsub : ∀ b ∈ batchesAfterCompletion head rest, b ∈ head :: rest := by
            intro b hb'; unfold batchesAfterCompletion at hb'; split at hb' <;> simp at hb' ⊢ <;> tauto
          refine ⟨⟨fun b hb' => ht b (hsub b hb'), fun b hb' => ?_, fun _ => rfl, ?_, h.timer⟩, ?_⟩
          · have := (ht b (hsub b (List.mem_of_mem_head? hb'))).1; simp only; omega
          · have := (ht head (by simp)).2.2; cases head.mode <;> simp only <;> omega
          · unfold batchesAfterCompletion; simp only; split <;> simp
    · exact ⟨h1, le_refl _⟩

theorem wellKept_countedDecision {s : State} (h : WellKept s) (hd) : WellKept (s.countedDecision hd) := by
  refine ⟨{ h.1 with batches := fun i => ?_ }, { h.2 with plans := fun i => ?_ }⟩
  · show ((Lanes.ofFn _).get i : LanePlan).batches.length ≤ 16
    rw [Lanes.get_ofFn]; simp only [State.laneOutcomes, Lanes.get_ofFn]
    exact (LanePlan.afterDecision_sound (h.2.plans i) _ _ _).2.trans (h.1.batches i)
  · show ((Lanes.ofFn _).get i : LanePlan).Sound
    rw [Lanes.get_ofFn]; simp only [State.laneOutcomes, Lanes.get_ofFn]
    exact (LanePlan.afterDecision_sound (h.2.plans i) _ _ _).1

theorem wellKept_automaticEnd {s : State} (h : WellKept s) : WellKept s.automaticEnd := by
  unfold State.automaticEnd State.setStopLatch; split <;> exact ⟨{ h.1 with records := h.1.records },
      { h.2 with plans := h.2.plans }⟩

theorem wellKept_takeDecision {s : State} (h : WellKept s) (hd) : WellKept (s.takeDecision hd) := by
  have hr : WellKept (s.recordedDecision hd) :=
      wellKept_queueRecords (wellKept_setEventIf (wellKept_setEventIf (wellKept_countedDecision h hd) _ _) _ _) _
  rw [State.takeDecision_eq]; split
  · exact wellKept_automaticEnd hr
  · exact hr

theorem wellKept_enterStopped {s : State} (h : WellKept s) (j) : WellKept (s.enterStopped j) := by
  refine ⟨{ h.1 with records := h.1.records }, { h.2 with fireWatch := rfl, pulseTimer := rfl, owner := rfl,
                                                          recovering := fun hx => (nomatch hx), noPulse := fun _ => rfl }⟩

theorem wellKept_emptyWindowAndSplices {s : State} (h : WellKept s) : WellKept s.emptyWindowAndSplices :=
  ⟨{ h.1 with splices := by simp [State.emptyWindowAndSplices] }, { h.2 with plans := h.2.plans }⟩

theorem wellKept_removeHead {s : State} (h : WellKept s) : WellKept { s with trc := s.trc.removeHead } :=
  ⟨{ h.1 with decided := Nat.min_le_right _ _ }, { h.2 with plans := h.2.plans }⟩

theorem wellKept_completeDecision {s : State} (h : WellKept s) (e : Entry) : WellKept (s.completeDecision e) := by
  unfold State.completeDecision
  have h1 : WellKept { s with trc := s.trc.removeHead.removeSplicesEnding e.rsn } :=
    ⟨{ h.1 with decided := Nat.min_le_right _ _, splices := (List.length_filter_le _ _).trans h.1.splices },
        { h.2 with plans := h.2.plans }⟩
  simp only; split
  · exact wellKept_enterStopped (wellKept_setEvent (wellKept_emptyWindowAndSplices h1) _) _
  · exact h1

theorem wellKept_flushQueue {s : State} (h : WellKept s) : WellKept s.flushQueue := by
  unfold State.flushQueue
  have : ∀ (l : List Entry) (s : State), WellKept s → WellKept (State.flushEntries l s) := by
    intro l; induction l with
    | nil => exact fun s h => h
    | cons e rest ih => exact fun s h => ih _ (wellKept_removeHead (wellKept_takeDecision h _))
  apply this; exact ⟨{ h.1 with records := h.1.records }, { h.2 with plans := h.2.plans }⟩

theorem wellKept_loseTracking {s : State} (h : WellKept s) : WellKept s.loseTracking := by
  have h1 := wellKept_setEvent (wellKept_emptyWindowAndSplices (wellKept_flushQueue h)) .trackLost
  have h2 : WellKept ((s.flushQueue.emptyWindowAndSplices.setEvent .trackLost).setStopLatch) := by unfold State.setStopLatch; exact ⟨{ h1.1 with records := h1.1.records }, { h1.2 with plans := h1.2.plans }⟩
  exact wellKept_enterStopped h2 _

theorem wellKept_abortJob {s : State} (h : WellKept s) : WellKept s.abortJob :=
    wellKept_enterStopped (wellKept_setEvent (wellKept_emptyWindowAndSplices (wellKept_flushQueue h)) _) _

theorem wellKept_setCut {s : State} (h : WellKept s) (r c) : WellKept { s with trc := s.trc.setCut r c } :=
    ⟨{ h.1 with records := h.1.records }, { h.2 with plans := h.2.plans }⟩

theorem wellKept_takeFire {s : State} (h : WellKept s) (r how) : WellKept (s.takeFire r how) := by
  by_cases hb : s.ksq.blocked = true
  · rw [State.takeFire_blocked hb]
    have h1 := wellKept_setEvent h .cutSuppressed
    exact ⟨{ h1.1 with records := h1.1.records }, { h1.2 with fireWatch := rfl }⟩
  · rw [State.takeFire_free (Bool.eq_false_iff.2 hb)]
    have hl : s.ksq.inhibitLatch = false := by
      rw [Bool.eq_false_iff]; intro hx; apply hb; simp [Ksq.blocked, hx]
    split
    · have h1 := wellKept_setEvent h .cutLate
      exact ⟨{ h1.1 with records := h1.1.records }, { h1.2 with fireWatch := rfl, pulseTimer := rfl, owner := rfl, recovering := fun _ => rfl,
                                                                noPulse := fun hx => absurd (show s.ksq.inhibitLatch = true from hx) (by rw [hl]; simp) }⟩
    · exact ⟨{ h.1 with records := h.1.records }, { h.2 with fireWatch := rfl, pulseTimer := rfl, owner := rfl, recovering := fun _ => rfl,
                                                             noPulse := fun hx => absurd (show s.ksq.inhibitLatch =
                                                                 true from hx) (by rw [hl]; simp) }⟩

theorem wellKept_armFrom (l : List Entry) {s : State} (h : WellKept s) : WellKept (State.armFrom l s) := by
  induction l generalizing s with
  | nil => exact ⟨{ h.1 with records := h.1.records }, { h.2 with fireWatch := rfl }⟩
  | cons e rest ih =>
    unfold State.armFrom; split
    · exact ih h
    · split
      · exact ⟨{ h.1 with records := h.1.records }, { h.2 with fireWatch := rfl }⟩
      · exact ih (wellKept_takeFire h _ _)

theorem wellKept_fireCrossing {s : State} (h : WellKept s) : WellKept s.fireCrossing := by
  unfold State.fireCrossing; split
  · split
    · exact wellKept_armFrom _ (wellKept_takeFire h _ _)
    · exact h
  · exact h

theorem wellKept_recomputeFire {s : State} (h : WellKept s) : WellKept s.recomputeFire := by
  unfold State.recomputeFire; split
  · exact h
  · rename_i r hr; split
    · exact h
    · split
      · exact ⟨{ h.1 with records := h.1.records }, { h.2 with fireWatch := by simp [hr] }⟩
      · exact wellKept_armFrom _ (wellKept_takeFire h _ _)

theorem wellKept_endPulse {s : State} (h : WellKept s) : WellKept { s with ksq := s.ksq.endPulse } :=
  ⟨{ h.1 with records := h.1.records }, { h.2 with pulseTimer := rfl, owner := rfl, recovering := fun hx => (nomatch hx),
                                                    noPulse := fun _ => rfl }⟩

theorem wellKept_assertInhibit {s : State} (h : WellKept s) : WellKept s.assertInhibit := by
  unfold State.assertInhibit
  have key : WellKept (State.truncatePulse { s with inhibitLine := true,
                                                    ksq := { s.ksq with inhibitLatch := true } }) := by
    have h0 : WellKept ({ s with inhibitLine := true,
                                 ksq := { s.ksq with inhibitLatch := true }.endPulse } : State) :=
      ⟨{ h.1 with records := h.1.records }, { h.2 with pulseTimer := rfl, owner := rfl, recovering := fun hx => (nomatch hx), noPulse := fun _ => rfl,
                                                       inhibit := fun _ => rfl }⟩
    unfold State.truncatePulse; split
    · split
      · exact h0
      · rename_i r _
        split
        · exact wellKept_setEvent (wellKept_setCut h0 r .suppressed) .cutSuppressed
        · exact h0
    · rename_i hp
      have hp' : s.ksq.pulse = false := Bool.eq_false_iff.2 hp
      exact ⟨{ h.1 with records := h.1.records }, { h.2 with noPulse := fun _ => hp', inhibit := fun _ => rfl }⟩
  have := wellKept_setEvent key .inhibit
  unfold State.setStopLatch; exact ⟨{ this.1 with records := this.1.records }, { this.2 with plans := this.2.plans }⟩

theorem wellKept_offerForCutting {s : State} (h : WellKept s) : WellKept s.offerForCutting := by
  unfold State.offerForCutting; split
  · exact wellKept_armFrom _ h
  · exact h

theorem wellKept_offerIf (now : Bool) {s : State} (h : WellKept s) : WellKept (s.offerIf now) := by
  unfold State.offerIf; split
  · exact wellKept_offerForCutting h
  · exact h

theorem wellKept_createEntry (now : Bool) {s : State} (h : WellKept s) (q) : WellKept (s.createEntry now q) := by
  unfold State.createEntry
  have h1 : WellKept { s with trc := s.trc.append (s.newEntry q) } :=
      ⟨{ h.1 with records := h.1.records }, { h.2 with plans := h.2.plans }⟩
  have h2 : WellKept (if (s.newEntry q).tail then ({ s with trc := s.trc.append (s.newEntry q) } : State).tailCreated else { s with trc := s.trc.append (s.newEntry q) }) := by
    split
    · unfold State.tailCreated State.idleRegistration; exact ⟨{ h1.1 with records := h1.1.records },
          { h1.2 with plans := h1.2.plans }⟩
    · exact h1
  exact wellKept_offerIf now h2

theorem wellKept_withMru {s : State} (h : WellKept s) (m) : WellKept { s with mru := m } :=
    ⟨{ h.1 with records := h.1.records }, { h.2 with plans := h.2.plans }⟩

theorem wellKept_takeMark (now : Bool) {s : State} (h : WellKept s) (c) : WellKept (s.takeMark now c) := by
  have hs : WellKept s.strayMark := wellKept_withMru h _
  have hw : ∀ win, WellKept (s.acceptInWindow now win c) :=
      fun win => wellKept_withMru (wellKept_createEntry now (wellKept_setEventIf (wellKept_withMru h _) _ _) _) _
  have ha : WellKept (s.markAgainstWindow now c) := by
    unfold State.markAgainstWindow; split
    · exact hs
    · split
      · exact hs
      · exact hw _
  unfold State.takeMark; split
  · exact h
  · split
    · exact wellKept_withMru (wellKept_createEntry now h _) _
    · exact hs
  · exact ha
  · exact ha

theorem wellKept_registrationCrossing (now : Bool) {s : State} (h : WellKept s) : WellKept (s.registrationCrossing now) := by
  have h1 : WellKept s.forgetLastMark := by
    unfold State.forgetLastMark; split
    · split
      · exact wellKept_withMru h _
      · exact h
    · exact h
  unfold State.registrationCrossing; simp only; split
  · exact h1
  · split
    · exact wellKept_setEventIf (wellKept_setEvent (wellKept_withMru (wellKept_createEntry now
          (wellKept_withMru h1 _) _) _) _) _ _
    · exact h1

theorem wellKept_armDecisionFrom (l : List Entry) {s : State} (h : WellKept s) :
    WellKept (State.armDecisionFrom l s) := by
  induction l generalizing s with
  | nil => unfold State.armDecisionFrom; exact ⟨{ h.1 with records := h.1.records }, { h.2 with plans := h.2.plans }⟩
  | cons e rest ih =>
    unfold State.armDecisionFrom; split
    · exact ⟨{ h.1 with records := h.1.records }, { h.2 with plans := h.2.plans }⟩
    · exact ih (wellKept_completeDecision (wellKept_takeDecision h _) _)

theorem wellKept_decisionCrossing {s : State} (h : WellKept s) : WellKept s.decisionCrossing := by
  unfold State.decisionCrossing; split
  · exact wellKept_armDecisionFrom _ h
  · exact h

theorem windowMsOf_mem (n : Nat) : windowMsOf n ∈ [1, 2, 4, 8] := by unfold windowMsOf; split <;> simp

theorem wellKept_beginWindow {s : State} (h : WellKept s) : WellKept s.beginWindow :=
  ⟨{ h.1 with windowMs := windowMsOf_mem _ }, { h.2 with plans := h.2.plans }⟩

theorem wellKept_windowExpiry {s : State} (h : WellKept s) : WellKept s.windowExpiry := by
  have h1 : WellKept { s with psu := { s.psu with spd := speedOf s.psu.windowCount s.psu.windowMs,
                                                  spdValid := true } } :=
    ⟨{ h.1 with speed := Nat.min_le_right _ _ }, { h.2 with plans := h.2.plans }⟩
  exact wellKept_recomputeFire (wellKept_beginWindow h1)

theorem wellKept_windowEnd {s : State} (h : WellKept s) : WellKept s.windowEnd := by
  unfold State.windowEnd; split
  · exact wellKept_windowExpiry h
  · exact h

theorem wellKept_markEdge (now : Bool) {s : State} (h : WellKept s) : WellKept (s.markEdge now) := by
  unfold State.markEdge; split
  · exact wellKept_takeMark now h _
  · exact h

theorem wellKept_meet (now : Bool) {s : State} (h : WellKept s) (ms : List Meeting) : WellKept (s.meet now ms) :=
  State.meet_keeps (P := WellKept) (fun _ => wellKept_markEdge now) (fun _ => wellKept_windowEnd) ms h

theorem wellKept_crossings {s : State} (h : WellKept s) (o) : WellKept (s.crossings o) :=
  State.crossings_keeps (P := WellKept) (fun now _ => wellKept_markEdge now) (fun _ => wellKept_windowEnd)
    (fun now _ => wellKept_registrationCrossing now) (fun _ => wellKept_fireCrossing) (fun _ => wellKept_decisionCrossing)
    (fun _ => wellKept_offerForCutting) o h

theorem wellKept_meetAll {s : State} (h : WellKept s) (o : Turns) : WellKept (s.meetAll o) :=
  wellKept_meet true (wellKept_meet true (wellKept_meet true h _) _) _

theorem wellKept_encoderChange {s : State} (h : WellKept s) (a b o) : WellKept (s.encoderChange a b o) := by
  have h0 : WellKept { s with psu := s.psu.observe a b } :=
      ⟨{ h.1 with records := h.1.records }, { h.2 with plans := h.2.plans }⟩
  unfold State.encoderChange; simp only; split
  · exact wellKept_meetAll h0 o
  · -- forward
    generalize ({ s with psu := s.psu.observe a b } : State) = u at h0
    have hp : WellKept { u with psu := u.psu.forward } := by
      refine ⟨{ h0.1 with depth := ?_, speed := ?_, windowMs := ?_ }, { h0.2 with plans := h0.2.plans }⟩
      · have hd := h0.1.depth
        show (u.psu.forward.hw - u.psu.forward.wpos).toNat ≤ 2147483647
        unfold Psu.forward; simp only; split
        · rename_i he; simp only at he ⊢
          have : u.psu.hw + 1 - (u.psu.wpos + 1) = u.psu.hw - u.psu.wpos := add_sub_add_right_eq_sub _ _ _
          rw [this]; exact hd
        · rename_i he
          have hlt : (u.psu.hw - (u.psu.wpos + 1)).toNat ≤ 2147483647 := by
            generalize u.psu.hw = x at *; generalize u.psu.wpos = y at *
            bv_omega
          split <;> exact hlt
      · have := h0.1.speed; show u.psu.forward.spd ≤ _; unfold Psu.forward; simp only; split <;>
            (try split) <;> exact this
      · have := h0.1.windowMs; show u.psu.forward.windowMs ∈ _; unfold Psu.forward; simp only; split <;>
            (try split) <;> exact this
    unfold State.forwardCount; simp only; split
    · exact wellKept_crossings hp o
    · exact wellKept_meetAll hp o
  · generalize ({ s with psu := s.psu.observe a b } : State) = u at h0
    have hp : WellKept { u with psu := u.psu.reverse } := by
      refine ⟨{ h0.1 with depth := ?_ }, { h0.2 with plans := h0.2.plans }⟩
      have hd := h0.1.depth
      show (u.psu.reverse.hw - u.psu.reverse.wpos).toNat ≤ 2147483647
      unfold Psu.reverse Psu.depth depthLimit
      generalize u.psu.hw = x at *; generalize u.psu.wpos = y at *
      simp only; split <;> bv_omega
    refine wellKept_meetAll ?_ o
    unfold State.reverseCount; simp only; split
    · apply wellKept_loseTracking; exact ⟨{ hp.1 with records := hp.1.records }, { hp.2 with plans := hp.2.plans }⟩
    · exact hp
  · apply wellKept_meetAll; apply wellKept_setEvent; exact ⟨{ h0.1 with records := h0.1.records }, { h0.2 with plans := h0.2.plans }⟩

/-! ### Verdicts and the ring -/

theorem wellKept_processSplice {s : State} (h : WellKept s) (r f) : WellKept (s.processSplice r f) := by
  unfold State.processSplice; split
  · have h1 := wellKept_setEventIf h ((condemnedRange s.jbc.table
        (rsnOffset s.trc.oldestRsn r)).escapes s.trc.decided) .spliceEscape
    exact ⟨{ h1.1 with splices := Trc.condemn_splices_length _ _ h.1.splices,
                       decided := (Trc.condemn_decided _ _).le.trans h.1.decided }, { h1.2 with plans := h1.2.plans }⟩
  · exact h

theorem wellKept_takeVerdict {s : State} (h : WellKept s) (src p) : WellKept (s.takeVerdict src p) := by
  unfold State.takeVerdict; split
  · unfold State.classifyVerdict; simp only; split
    · exact wellKept_setEvent h _
    · split
      · apply wellKept_processSplice; unfold State.storeVerdict
        have h1 := wellKept_setEventIf h (verdictConflict (s.trc.heldVerdict? (word16 p.b4 p.b5))
            (verdictOf p)) .verdictConflict
        exact ⟨{ h1.1 with splices := h.1.splices, decided := h.1.decided }, { h1.2 with plans := h1.2.plans }⟩
      · split
        · apply wellKept_processSplice; unfold State.mergeIntoEntry
          have h1 := wellKept_setEventIf h (verdictConflict ((s.trc.entry? (word16 p.b4 p.b5)).bind Entry.verdict)
              (verdictOf p)) .verdictConflict
          exact ⟨{ h1.1 with splices := h.1.splices, decided := h.1.decided }, { h1.2 with plans := h1.2.plans }⟩
        · exact wellKept_processSplice (wellKept_setEvent h _) _ _
  · exact h

theorem wellKept_takeHeartbeat {s : State} (h : WellKept s) (src p) : WellKept (s.takeHeartbeat src p) := by
  unfold State.takeHeartbeat; split
  · exact ⟨{ h.1 with records := h.1.records }, { h.2 with blind := by simp [Jbc.acceptHeartbeat] }⟩
  · exact h

theorem wellKept_withPlans {s : State} (h : WellKept s) (b : Lanes LanePlan) (h1 : ∀ i,
    (b.get i).batches.length ≤ 16) (h2 : ∀ i, (b.get i).Sound) : WellKept { s with bsq := b } :=
  ⟨{ h.1 with batches := h1 }, { h.2 with plans := h2 }⟩

theorem wellKept_takeStackerStatus {s : State} (h : WellKept s) (src p) : WellKept (s.takeStackerStatus src p) := by
  unfold State.takeStackerStatus
  apply wellKept_withPlans h
  · intro i; rw [Lanes.get_ofFn]; simp only; split
    · exact h.1.batches i
    · exact h.1.batches i
  · intro i; rw [Lanes.get_ofFn]; simp only; split
    · exact { h.2.plans i with timer := (rfl : ((s.bsq.get i).renew (pocketStateOf (pocketByte p (s.gtu.table.get i).pocket))).statusAge.isSome = !((s.bsq.get i).renew (pocketStateOf (pocketByte p (s.gtu.table.get i).pocket))).stale) }
    · exact h.2.plans i

theorem wellKept_setPlan {s : State} (h : WellKept s) (i p) (h1 : p.batches.length ≤ 16) (h2 : p.Sound) :
    WellKept (s.setPlan i p) := by
  unfold State.setPlan
  apply wellKept_withPlans h <;> intro j <;> rw [Lanes.get_set] <;> split
  · exact h1
  · exact h.1.batches j
  · exact h2
  · exact h.2.plans j

theorem wellKept_lapse {s : State} (h : WellKept s) (i) : WellKept (s.lapse i) := by
  unfold State.lapse
  have hs : LanePlan.Sound { s.bsq.get i with stale := true, statusAge := none } := { h.2.plans i with timer := rfl }
  exact wellKept_setEventIf (wellKept_setPlan h i { s.bsq.get i with stale := true,
                                                                     statusAge := none } (h.1.batches i) hs) _ _

theorem wellKept_enqueueRequest {s : State} (h : WellKept s) (q) : WellKept (s.enqueueRequest q) := by
  unfold State.enqueueRequest; split
  · rename_i hl
    exact ⟨{ h.1 with requests := by unfold requestQueueSize at hl; simp; omega }, { h.2 with plans := h.2.plans }⟩
  · exact wellKept_setEvent h _

theorem wellKept_route {s : State} (h : WellKept s) (c) : WellKept (s.route c) := by
  unfold State.route
  split
  · exact h
  · split
    · split
      · exact wellKept_takeVerdict h _ _
      · exact h
    · split
      · split
        · exact wellKept_takeHeartbeat h _ _
        · exact h
      · split
        · split
          · exact wellKept_takeStackerStatus h _ _
          · exact h
        · split
          · split
            · exact wellKept_enqueueRequest h _
            · exact h
          · exact h

theorem wellKept_beginFrame {s : State} (h : WellKept s) : WellKept s.beginFrame := by
  refine ⟨{ h.1 with records := h.1.records }, { h.2 with framed := fun hu => ?_ }⟩
  obtain ⟨h1, n, k, h2, h3, h4, h5, h6⟩ := h.2.framed hu
  exact ⟨h1, n, 0, h2, rfl, h4, h5, by omega⟩

theorem wellKept_startFrame {s : State} (h : WellKept s) (c) (hc : validHeader c = true) :
    WellKept (s.startFrame c) := by
  have hh := (validHeader_iff c).1 hc
  refine ⟨{ h.1 with records := h.1.records },
      { h.2 with framed := fun _ => ⟨rfl, headerSlots c, 0, rfl, rfl, hh.2.2.2.1, hh.2.2.2.2, ?_⟩ }⟩
  have := hh.2.2.2.1; unfold headerSlots; omega

theorem wellKept_repeatCell {s : State} (h : WellKept s) (c) :
    WellKept (s.repeatCell c) := by unfold State.repeatCell; exact ⟨{ h.1 with records := h.1.records }, { h.2 with plans := h.2.plans }⟩

theorem wellKept_countCheck {s : State} (h : WellKept s) (c) : WellKept (s.countCheck c) := by
  unfold State.countCheck; split
  · exact h
  · exact ⟨{ h.1 with records := h.1.records }, { h.2 with plans := h.2.plans }⟩

/-- On an UP link the next position lies in the frame (R148). -/
theorem WellKept.nextPosition {s : State} (h : WellKept s) (hu : s.rif.link = .up) :
    s.rif.linkTimer.isSome = true ∧ ∃ n, s.rif.slots = some n ∧ 4 ≤ n ∧ n ≤ 32 ∧ s.rif.nextPosition < n := by
  obtain ⟨h1, n, k, h2, h3, h4, h5, h6⟩ := h.2.framed hu
  refine ⟨h1, n, h2, h4, h5, ?_⟩
  unfold Rif.nextPosition; rw [h2, h3]; simp only; split <;> omega

theorem wellKept_passCell {s : State} (h : WellKept s) (hu : s.rif.link = .up) (c) :
    WellKept (s.passCell s.rif.nextPosition c) := by
  unfold State.passCell
  have h1 := wellKept_countCheck (wellKept_repeatCell h c) c
  have h2 : WellKept (if s.rif.nextPosition = 0 then ((s.repeatCell c).countCheck c).beginFrame else
      { (s.repeatCell c).countCheck c with rif := { ((s.repeatCell c).countCheck c).rif with slot := some s.rif.nextPosition } }) := by
    split
    · exact wellKept_beginFrame h1
    · refine ⟨{ h1.1 with records := h1.1.records }, { h1.2 with framed := fun _ => ?_ }⟩
      obtain ⟨a, n, b, c1, d, e⟩ := WellKept.nextPosition h hu
      have e1 : ((s.repeatCell c).countCheck c).rif.linkTimer = s.rif.linkTimer ∧
          ((s.repeatCell c).countCheck c).rif.slots = s.rif.slots := by
        unfold State.countCheck; split <;> exact ⟨rfl, rfl⟩
      exact ⟨by show ((s.repeatCell c).countCheck c).rif.linkTimer.isSome = true; rw [e1.1]; exact a, n, _,
          by show ((s.repeatCell c).countCheck c).rif.slots = _; rw [e1.2]; exact b, rfl, c1, d, e⟩
  simp only; split
  · exact wellKept_route h2 c
  · exact h2

theorem wellKept_afterReset (n i a b) (s : State) : WellKept (s.afterReset n i a b) := by
  refine ⟨⟨Nat.zero_le 32, Nat.zero_le 8, Nat.zero_le 4, fun j => ?_, Nat.zero_le 4, Nat.zero_le 32768,
      (by decide : ((0:BitVec 32) - 0).toNat ≤ 2147483647), Nat.zero_le 262143, (by decide : 4 ∈ [1,2,4,8]),
          (by decide : (0:BitVec 32) &&& 4292870144#32 = 0), (by decide : (0:BitVec 32) &&& 4292870144#32 = 0)⟩,
              ⟨fun j => ?_, rfl, rfl, rfl, fun h => h, fun h => (nomatch h), fun _ => rfl, ?_, fun h => ?_⟩⟩
  · show ((Lanes.all lanePlanAtReset).get j).batches.length ≤ 16; rw [Lanes.get_all]; decide
  · show ((Lanes.all lanePlanAtReset).get j).Sound; rw [Lanes.get_all]
    exact ⟨fun b hb => by simp [lanePlanAtReset] at hb, fun b hb => by simp [lanePlanAtReset] at hb, fun _ => rfl, by decide, rfl⟩
  · show jbcAtReset.blind = true ↔ jbcAtReset.hbStage ≠ .alive; decide
  · exact absurd (show LinkState.down = .up from h) (by decide)

theorem wellKept_endOwnedSlot {s : State} (h : WellKept s) : WellKept s.endOwnedSlot := by
  unfold State.endOwnedSlot; split
  · exact h
  · rename_i o ho
    have h0 : WellKept { s with rif := { s.rif with sending := none } } :=
        ⟨{ h.1 with records := h.1.records }, { h.2 with plans := h.2.plans }⟩
    simp only; split
    · exact wellKept_afterReset _ _ _ _ _
    · unfold State.frameStartIfHeader; split
      · rename_i hv; exact wellKept_startFrame (wellKept_countCheck h0 _) _ hv
      · exact wellKept_countCheck h0 _

theorem wellKept_startOwnedSlot {s : State} (h : WellKept s) (hu : s.rif.link = .up) (c) :
    WellKept (s.startOwnedSlot s.rif.nextPosition c) := by
  have hp : WellKept s.placement.after ∧ s.placement.after.rif.linkTimer = s.rif.linkTimer ∧
      s.placement.after.rif.slots = s.rif.slots := by
    unfold State.placement; split
    · rename_i r rest hr
      refine ⟨⟨{ h.1 with records := ?_ }, { h.2 with plans := h.2.plans }⟩, rfl, rfl⟩
      have := h.1.records; rw [hr] at this; simp at this ⊢; omega
    · rename_i q rest hr hq
      refine ⟨⟨{ h.1 with replies := ?_ }, { h.2 with plans := h.2.plans }⟩, rfl, rfl⟩
      have := h.1.replies; rw [hq] at this; simp at this ⊢; omega
    · split
      · exact ⟨⟨{ h.1 with records := h.1.records }, { h.2 with plans := h.2.plans }⟩, rfl, rfl⟩
      · exact ⟨h, rfl, rfl⟩
  obtain ⟨h1, h2, h3⟩ := hp
  refine ⟨{ h1.1 with records := h1.1.records }, { h1.2 with framed := fun _ => ?_ }⟩
  obtain ⟨a, n, b, c1, d, e⟩ := WellKept.nextPosition h hu
  exact ⟨by show s.placement.after.rif.linkTimer.isSome = true; rw [h2]; exact a, n, _,
      by show s.placement.after.rif.slots = _; rw [h3]; exact b, rfl, c1, d, e⟩

theorem wellKept_takeCell {s : State} (h : WellKept s) (c) : WellKept (s.takeCell c) := by
  unfold State.takeCell; split
  · split
    · rename_i hv; exact wellKept_startFrame (wellKept_repeatCell h c) c hv
    · exact wellKept_countCheck (wellKept_repeatCell h c) c
  · rename_i hu
    split
    · exact wellKept_startOwnedSlot h hu c
    · split
      · rename_i hv; exact wellKept_startFrame (wellKept_repeatCell h c) c hv
      · exact wellKept_passCell h hu c

theorem wellKept_receive {s : State} (h : WellKept s) (c) : WellKept (s.receive c) := by
  unfold State.receive; split
  · exact wellKept_repeatCell h c
  · exact wellKept_takeCell (wellKept_endOwnedSlot h) c

theorem wellKept_queueReply {s : State} (h : WellKept s) (hl : s.rif.replies.length < 8) (q a) :
    WellKept (s.queueReply q a) := by
  unfold State.queueReply; simp only; split
  · exact ⟨{ h.1 with replies := by simp; omega }, { h.2 with plans := h.2.plans }⟩
  · exact ⟨{ h.1 with replies := by simp; omega }, { h.2 with plans := h.2.plans }⟩

/-- The start of a request keeps both, when the work of its row does and queues no reply of its own (R161, R162). -/
theorem wellKept_startRequest {s : State} (h : WellKept s) (row run) (hrun : ∀ q t, WellKept t →
    WellKept (run q t).1 ∧ (run q t).1.rif.replies = t.rif.replies) : WellKept (s.startRequest row run) := by
  unfold State.startRequest; split
  · exact h
  · rename_i q rest hq
    split
    · rename_i hc
      have hl : s.rif.replies.length < 8 := by
        simp only [State.canStart, Bool.and_eq_true, decide_eq_true_eq] at hc; exact hc.1.2
      have hp : WellKept s.popRequest :=
          ⟨{ h.1 with requests := by have := h.1.requests; simp [State.popRequest]; omega },
              { h.2 with plans := h.2.plans }⟩
      unfold State.carryOut; simp only; split
      · exact wellKept_queueReply hp hl _ _
      · obtain ⟨h1, h2⟩ := hrun q s.popRequest hp
        exact wellKept_queueReply h1 (by rw [h2]; exact hl) _ _
    · exact h

/-! ### Writes -/

/-- The first argument of APPEND_BATCH out of range (R120, R175). -/
theorem AppendArgs.firstOutOfRange_some (a : AppendArgs) (k : Nat) (ht : a.target ≤ 65535) (hg : a.tag ≤ 65535) :
    a.firstOutOfRange = some k ↔ (k = 0 ∧ 5 < a.lane) ∨ (k = 1 ∧ a.lane ≤ 5 ∧ a.target = 0) ∨ (k = 3 ∧ a.lane ≤ 5 ∧
        1 ≤ a.target ∧ 1 < a.mode) ∨
      (k = 4 ∧ a.lane ≤ 5 ∧ 1 ≤ a.target ∧ a.mode ≤ 1 ∧ 15 < a.gap) ∨ (k = 5 ∧ a.lane ≤ 5 ∧ 1 ≤ a.target ∧
          a.mode ≤ 1 ∧ a.gap ≤ 15 ∧ 1 < a.loop) := by
  unfold AppendArgs.firstOutOfRange
  split_ifs <;> simp <;> omega

/-- The arguments of APPEND_BATCH in range (R120, R175). -/
theorem AppendArgs.firstOutOfRange_none (a : AppendArgs) (ht : a.target ≤ 65535) (hg : a.tag ≤ 65535) :
    a.firstOutOfRange = none ↔ a.lane ≤ 5 ∧ 1 ≤ a.target ∧ a.mode ≤ 1 ∧ a.gap ≤ 15 ∧ a.loop ≤ 1 := by
  unfold AppendArgs.firstOutOfRange
  split_ifs <;> simp <;> omega

/-- A WRITE that R121 admits keeps the plan sound. -/
theorem LanePlan.writeBatch_sound {p : LanePlan} (h : p.Sound) {slot} {b : Batch} (hb : p.batches[slot]? = some b)
    (field v : Nat)
   (hv : (!batchInRange field v || (field == 0 && slot == 0 && decide (v ≤ p.count))) = false) :
       ({ p with batches := p.batches.set slot (b.write field v) } : LanePlan).Sound := by
  simp only [Bool.or_eq_false_iff, Bool.not_eq_false'] at hv
  obtain ⟨hr, hs⟩ := hv
  have hmem := List.mem_of_getElem? hb
  have hbt := h.targets b hmem
  have hw : 1 ≤ (b.write field v).target ∧ (b.write field v).target ≤ 65535 ∧ (b.write field v).gap ≤ 15 := by
    unfold Batch.write; unfold batchInRange at hr
    split <;> simp_all
  refine ⟨fun x hx => ?_, fun x hx => ?_, fun hx => ?_, h.gap, h.timer⟩
  · rcases List.mem_or_eq_of_mem_set hx with hx | hx
    · exact h.targets x hx
    · subst hx; exact hw
  · simp only at hx
    cases hq : p.batches with
    | nil => rw [hq] at hb; simp at hb
    | cons y ys =>
      rw [hq] at hb hx
      cases slot with
      | zero =>
        simp at hb; subst hb; simp at hx; subst hx
        have hc := h.count y (by rw [hq]; rfl)
        unfold Batch.write; split
        · simp at hs; simp only; omega
        all_goals exact hc
      | succ k => simp at hx; subst hx; exact h.count y (by rw [hq]; rfl)
  · simp at hx; exact h.noHead hx

theorem wellKept_setRow {s : State} (h : WellKept s) (i r) :
    WellKept (s.setRow i r) := by unfold State.setRow; exact ⟨{ h.1 with records := h.1.records }, { h.2 with plans := h.2.plans }⟩

theorem wellKept_runWrite : ∀ q t, WellKept t → WellKept (State.runWrite q t).1 ∧
    (State.runWrite q t).1.rif.replies = t.rif.replies := by
  intro q t h
  unfold State.runWrite; split
  · split
    · unfold State.writeJob; split
      · exact ⟨h, rfl⟩
      · split
        · exact ⟨⟨{ h.1 with records := h.1.records }, { h.2 with plans := h.2.plans }⟩, rfl⟩
        · exact ⟨h, rfl⟩
    · exact ⟨h, rfl⟩
  · unfold State.writeLane; simp only; split
    · exact ⟨h, rfl⟩
    · split
      · exact ⟨wellKept_setRow h _ _, rfl⟩
      · exact ⟨wellKept_setRow h _ _, rfl⟩
  · unfold State.writeBatch; simp only; split
    · exact ⟨h, rfl⟩
    · split
      · exact ⟨h, rfl⟩
      · rename_i b hb; split
        · exact ⟨h, rfl⟩
        · rename_i hv
          refine ⟨wellKept_setPlan h _ _ (by simp; exact h.1.batches _) (LanePlan.writeBatch_sound
              (h.2.plans _) hb _ _ (Bool.eq_false_iff.2 hv)), rfl⟩
  · unfold State.writeRing; split <;> split <;> first
      | exact ⟨h, rfl⟩
      | exact ⟨⟨{ h.1 with records := h.1.records }, { h.2 with plans := h.2.plans }⟩, rfl⟩
  · exact ⟨h, rfl⟩

theorem LanePlan.discardStatus_sound {p : LanePlan} (h : p.Sound) : p.discardStatus.Sound := { h with timer := rfl }

theorem wellKept_runAppendBatch :
    ∀ q t, WellKept t → WellKept (State.runAppendBatch q t).1 ∧
        (State.runAppendBatch q t).1.rif.replies = t.rif.replies := by
  intro q t h
  unfold State.runAppendBatch; simp only; split
  · exact ⟨h, rfl⟩
  · rename_i hn
    have ht : q.appendArgs.target ≤ 65535 := Nat.le_of_lt_succ (word16 q.a7 q.a8).isLt
    have hg : q.appendArgs.tag ≤ 65535 := Nat.le_of_lt_succ (word16 q.a9 q.a10).isLt
    have hf := (AppendArgs.firstOutOfRange_none q.appendArgs ht hg).1 hn
    split
    · exact ⟨h, rfl⟩
    · rename_i hl
      unfold batchListSize at hl
      have hp := h.2.plans (laneOf q.appendArgs.lane)
      refine ⟨wellKept_setPlan h _ _ (by simp; omega) ⟨fun b hb => ?_, fun b hb => ?_,
          fun hx => by simp at hx, hp.gap, hp.timer⟩, rfl⟩
      · simp at hb; rcases hb with hb | rfl
        · exact hp.targets b hb
        · exact ⟨hf.2.1, ht, hf.2.2.2.1⟩
      · cases hq : (t.bsq.get (laneOf q.appendArgs.lane)).batches with
        | nil => rw [hq] at hb; simp at hb; subst hb; have :=
            hp.noHead hq; show (t.bsq.get _).count < _; rw [this]; exact hf.2.1
        | cons y ys => rw [hq] at hb; simp at hb; subst hb; exact hp.count y (by rw [hq]; rfl)

theorem State.abortJob_replies (t : State) : t.abortJob.rif.replies = t.rif.replies := by
  have := t.flushQueue_frame.rif
  show t.flushQueue.rif.replies = _
  rw [this]

theorem wellKept_startJob {s : State} (h : WellKept s) : WellKept s.startJob := by
  refine ⟨{ h.1 with batches := fun i => ?_,
                     splices := by simp [State.startJob, Trc.startJob], decided := by simp [State.startJob, Trc.startJob], depth := by simp [State.startJob, Psu.startJob] }, { h.2 with plans := fun i => ?_, blind := by simp [State.startJob, Jbc.startJob] }⟩
  · show ((Lanes.ofFn _).get i : LanePlan).batches.length ≤ 16; rw [Lanes.get_ofFn]; exact h.1.batches i
  · show ((Lanes.ofFn _).get i : LanePlan).Sound; rw [Lanes.get_ofFn]
    exact { h.2.plans i with count := fun b hb => (h.2.plans i).targets b (List.mem_of_mem_head? hb) |>.1,
                             noHead := fun _ => rfl, gap := by simp }

end Sys2Proof.Machine
end

