-- ==== Sys2Proof/Laws/Deciding.lean ====
section
/-! SUPPORT. An advance of HW that decides: MRU has no part in a decision, and where the decision point is all that the
advance reaches, every order of the blocks comes to the same decisions. -/

namespace Sys2Proof.Machine

/-- The forgetting of R46 reads MRU and the web alone. -/
theorem State.forgetLastMark_congr {v x : State} (hm : x.mru = v.mru) (hp : x.psu = v.psu) :
    x.forgetLastMark = { x with mru := v.forgetLastMark.mru } := by
  rw [State.forgetLastMark_eq, State.forgetLastMark_eq]
  have : x.ForgetsLastMarkAt x.psu.hw ↔ v.ForgetsLastMarkAt v.psu.hw := by unfold State.ForgetsLastMarkAt; rw [hm, hp]
  simp only [this, hm]

theorem State.setEventIf_withMru (s : State) (m : Mru) (b e) :
    ({ s with mru := m } : State).setEventIf b e = { s.setEventIf b e with mru := m } := by
  cases b <;> rfl

theorem State.queueRecords_withMru (rs : List Record) (s : State) (m : Mru) :
    ({ s with mru := m } : State).queueRecords rs = { s.queueRecords rs with mru := m } := by
  induction rs generalizing s with
  | nil => rfl
  | cons r rest ih =>
    show (({ s with mru := m } : State).queueRecord r).queueRecords rest =
      { (s.queueRecord r).queueRecords rest with mru := m }
    rw [← ih]
    congr 1
    unfold State.queueRecord
    split <;> rfl

/-- A decision neither reads nor writes MRU. -/
theorem State.takeDecision_withMru (s : State) (m : Mru) (h : Handover) :
    ({ s with mru := m } : State).takeDecision h = { s.takeDecision h with mru := m } := by
  have e : ({ s with mru := m } : State).recordedDecision h = { s.recordedDecision h with mru := m } := by
    set A := !(stackChanges (s.laneOutcomes h.entry.rsn (s.decisionCodes h))).isEmpty with hA
    set B := anyEmptied (s.laneOutcomes h.entry.rsn (s.decisionCodes h)) with hB
    show ((({ s.countedDecision h with mru := m } : State).setEventIf A .stackDone).setEventIf B .laneDone).queueRecords
        (s.queuedRecords h) =
      { (((s.countedDecision h).setEventIf A .stackDone).setEventIf B .laneDone).queueRecords (s.queuedRecords h) with mru := m }
    rw [State.setEventIf_withMru (s.countedDecision h) m,
      State.setEventIf_withMru ((s.countedDecision h).setEventIf A .stackDone) m,
      State.queueRecords_withMru _ (((s.countedDecision h).setEventIf A .stackDone).setEventIf B .laneDone) m]
  rw [State.takeDecision_eq, State.takeDecision_eq, e]
  have hc : (anyEmptied (({ s with mru := m } : State).laneOutcomes h.entry.rsn
        (({ s with mru := m } : State).decisionCodes h)) &&
        ({ s.recordedDecision h with mru := m } : State).everyEnabledListEmpty) =
      (anyEmptied (s.laneOutcomes h.entry.rsn (s.decisionCodes h)) &&
        (s.recordedDecision h).everyEnabledListEmpty) := rfl
  rw [hc]
  split
  · unfold State.automaticEnd State.setStopLatch; simp only; split <;> rfl
  · rfl

/-- What TRC's arming leaves of the web, MRU, KSQ and NEXT_RSN. -/
theorem State.armDecisionFrom_kept (l : List Entry) (s : State) : (State.armDecisionFrom l s).psu = s.psu ∧
    ((State.armDecisionFrom l s).mru = s.mru ∨
      (State.armDecisionFrom l s).mru = { s.mru with reg := .idle, watch := false }) ∧
    ((State.armDecisionFrom l s).ksq = s.ksq ∨ (State.armDecisionFrom l s).ksq.armed = none) ∧
    (State.armDecisionFrom l s).trc.nextRsn = s.trc.nextRsn := by
  induction l generalizing s with
  | nil => exact ⟨rfl, .inl rfl, .inl rfl, rfl⟩
  | cons e rest ih =>
    unfold State.armDecisionFrom
    split
    · exact ⟨rfl, .inl rfl, .inl rfl, rfl⟩
    · simp only
      set h : Handover := ⟨e, false, rest.head?.map Entry.cut, s.trc.inSplice e.rsn⟩ with hh
      have hf := s.takeDecision_frame h
      obtain ⟨i1, i2, i3, i4⟩ := ih ((s.takeDecision h).completeDecision e)
      have hc : ((s.takeDecision h).completeDecision e).psu = s.psu ∧
          (((s.takeDecision h).completeDecision e).mru = s.mru ∨
            ((s.takeDecision h).completeDecision e).mru = { s.mru with reg := .idle, watch := false }) ∧
          (((s.takeDecision h).completeDecision e).ksq = s.ksq ∨
            ((s.takeDecision h).completeDecision e).ksq.armed = none) ∧
          ((s.takeDecision h).completeDecision e).trc.nextRsn = s.trc.nextRsn := by
        unfold State.completeDecision
        simp only
        split
        · refine ⟨hf.psu, .inr ?_, .inr rfl, by rw [← hf.trc]; rfl⟩
          show ({ (s.takeDecision h).mru with reg := .idle, watch := false } : Mru) = _
          rw [hf.mru]
        · exact ⟨hf.psu, .inl hf.mru, .inl hf.ksq, by rw [← hf.trc]; rfl⟩
      obtain ⟨c1, c2, c3, c4⟩ := hc
      refine ⟨i1.trans c1, ?_, ?_, i4.trans c4⟩
      · rcases i2 with i2 | i2 <;> rcases c2 with c2 | c2 <;> rw [i2, c2]
        · exact .inl rfl
        · exact .inr rfl
        · exact .inr rfl
        · exact .inr rfl
      · rcases i3 with i3 | i3
        · rcases c3 with c3 | c3
          · exact .inl (i3.trans c3)
          · exact .inr (by rw [i3]; exact c3)
        · exact .inr i3

/-- Arming the head, where no decision is the tail's, neither reads nor writes MRU. -/
theorem State.armDecisionFrom_withMru (l : List Entry) (hl : ∀ e ∈ l, e.tail = false) (s : State) (m : Mru) :
    State.armDecisionFrom l { s with mru := m } = { State.armDecisionFrom l s with mru := m } := by
  induction l generalizing s with
  | nil => rfl
  | cons e rest ih =>
    unfold State.armDecisionFrom
    simp only
    split
    · rfl
    · rw [State.takeDecision_withMru, ← ih (fun x hx => hl x (by simp [hx]))]
      congr 1
      unfold State.completeDecision
      simp only [hl e (by simp), Bool.false_eq_true, if_false]

/-- One decision, the next head ahead. -/
theorem State.decisionCrossing_one {x : State} {e rest} (hq : x.trc.queue = e :: rest) (hw : x.trc.watch = true)
    (hS : e.decisionPoint = x.psu.hw)
   (ha : ∀ y, rest.head? = some y → (x.psu.hw - y.decisionPoint).toInt < 0) (ht : e.tail = false) :
   x.decisionCrossing = (x.takeDecision (x.handover e rest)).headLeft e rest := by
  have hf := x.takeDecision_frame (x.handover e rest)
  rw [State.decisionCrossing_eq hq hw hS]
  conv => lhs; unfold State.armDecisionFrom
  rw [if_neg (by simp [isBehind, distance, hS])]
  simp only
  rw [State.handover_eq, State.completeDecision_eq (by rw [hf.trc, hq]) (by rw [hf.trc, hw]) ht]
  cases rest with
  | nil => rfl
  | cons y ys =>
    unfold State.armDecisionFrom
    rw [if_pos]
    · rfl
    · rw [isBehind_iff]
      show ((x.takeDecision _).psu.hw - _).toInt < 0
      rw [hf.psu]; exact ha y rfl

/-- The advance that reaches a decision point alone: the decisions of the machine that has advanced, before or after the
forgetting. -/
theorem State.crossings_decision {s : State} {a b : Bool} (o : CrossingOrder) {e rest}
    (h1 : s.NoMissAt (s.psu.hw + 1)) (h2 : s.NoFireAt (s.psu.hw + 1))
    (hw : s.trc.watch = true) (hq : s.trc.queue = e :: rest) (hS : e.decisionPoint = s.psu.hw + 1) :
    (s.advanced a b).crossings o.alone = (s.forwarded a b).decisionCrossing ∨
    (s.advanced a b).crossings o.alone = (s.advanced a b).decisionCrossing.forgetLastMark := by
  set v := s.advanced a b with hv
  have hvw : v.forgetLastMark = s.forwarded a b := State.advanced_forgetLastMark s a b
  have r0 : v.registrationCrossing false = s.forwarded a b := by rw [State.registrationCrossing_none false h1, hvw]
  have f0 : v.fireCrossing = v := State.fireCrossing_none h2
  have f1 : (s.forwarded a b).fireCrossing = s.forwarded a b := State.fireCrossing_none h2
  have kept : ∀ w : State, w.psu = v.psu → w.trc = v.trc → w.ksq = v.ksq → w.mru.watch = v.mru.watch →
      w.mru.window = v.mru.window →
      w.decisionCrossing.NoMissAt w.decisionCrossing.psu.hw ∧ w.decisionCrossing.NoFireAt w.decisionCrossing.psu.hw ∧
        w.decisionCrossing.trc.nextRsn = v.trc.nextRsn := by
    intro w p1 p2 p3 p4 p5
    rw [State.decisionCrossing_eq (s := w) (e := e) (rest := rest)
      (by rw [p2]; exact hq) (by rw [p2]; exact hw) (by rw [p1]; exact hS)]
    obtain ⟨k1, k2, k3, k4⟩ := State.armDecisionFrom_kept (e :: rest) w
    rw [k1, p1]
    refine ⟨?_, ?_, by rw [k4, p2]⟩
    · rcases k2 with k2 | k2
      · intro hx; rw [k2] at hx ⊢; rw [p4] at hx; rw [p5]; exact h1 hx
      · intro hx; rw [k2] at hx; simp at hx
    · rcases k3 with k3 | k3
      · intro hx; rw [k3, p3] at hx ⊢; exact h2 hx
      · intro hx; rw [k3] at hx; simp at hx
  have kw := kept (s.forwarded a b) rfl rfl rfl (by unfold State.forwarded; simp only; split <;> rfl)
    (by unfold State.forwarded; simp only; split <;> rfl)
  have kv := kept v rfl rfl rfl rfl rfl
  have r2 : v.decisionCrossing.registrationCrossing false = v.decisionCrossing.forgetLastMark :=
    State.registrationCrossing_none false kv.1
  have f2 : (s.forwarded a b).decisionCrossing.fireCrossing = (s.forwarded a b).decisionCrossing :=
    State.fireCrossing_none kw.2.1
  have f3 : v.decisionCrossing.fireCrossing = v.decisionCrossing := State.fireCrossing_none kv.2.1
  have f4 : v.decisionCrossing.forgetLastMark.fireCrossing = v.decisionCrossing.forgetLastMark := by
    apply State.fireCrossing_none
    rw [State.forgetLastMark_eq]; exact kv.2.1
  have n4 : v.decisionCrossing.forgetLastMark.trc.nextRsn = v.trc.nextRsn := by
    rw [State.forgetLastMark_eq]; exact kv.2.2
  rw [State.crossings_due _ (State.decisionDue_true (s := v) hq hw hS), State.takeTurns_alone]
  cases o <;> simp only [r0, f0, f1, r2, f2, f3, f4, State.offerCreated_none kw.2.2, State.offerCreated_none n4,
    true_or, or_true]

end Sys2Proof.Machine
end

