-- ==== Sys2Proof/Laws/Discipline.lean ====
section
/-! SUPPORT. The job discipline and the account of pieces through each shared operation: a lemma `disciplined_f`
says that operation `f` keeps `State.JobDiscipline` and, where `b` holds, the account of them. -/

namespace Sys2Proof.Machine

/-- The account of pieces: the two clauses of `State.PiecesAccounted` beside the job discipline. -/
def Tallied (s : State) : Prop :=
  (∃ n : Nat, (s.jbc.job ≠ .idle → n = s.jbc.table.lanes) ∧ ∀ i : Lane,
    (i.val < n → (s.gtu.counters.get i).total = BitVec.ofNat 32 s.trc.decisions) ∧
    (n ≤ i.val → s.gtu.counters.get i = tallyAtReset)) ∧
  (s.jbc.job ≠ .idle → BitVec.ofNat 16 s.trc.decisions =
    s.trc.nextRsn - BitVec.ofNat 16 s.jbc.table.firstRsn - BitVec.ofNat 16 s.trc.queue.length)

/-- The job discipline and, where `b` holds, the account of pieces. -/
def Disciplined (b : Prop) (s : State) : Prop := s.JobDiscipline ∧ (b → Tallied s)

/-- The account of a machine whose counters and count of decisions are `s`'s. -/
theorem Tallied.congr {s t : State} (h : Tallied s) (hc : t.gtu.counters = s.gtu.counters)
    (hd : t.trc.decisions = s.trc.decisions) (hj : t.jbc.job = s.jbc.job) (hl : t.jbc.table.lanes = s.jbc.table.lanes)
    (hn : t.jbc.job ≠ .idle → t.trc.nextRsn - BitVec.ofNat 16 t.jbc.table.firstRsn - BitVec.ofNat 16 t.trc.queue.length =
      s.trc.nextRsn - BitVec.ofNat 16 s.jbc.table.firstRsn - BitVec.ofNat 16 s.trc.queue.length) : Tallied t := by
  obtain ⟨⟨n, h1, h2⟩, h3⟩ := h
  refine ⟨⟨n, fun hi => ?_, fun i => ?_⟩, fun hi => ?_⟩
  · rw [hl]; exact h1 (hj ▸ hi)
  · rw [hc, hd]; exact h2 i
  · rw [hd, hn hi]; exact h3 (hj ▸ hi)

/-- In IDLE the account is of the counters alone. -/
theorem Tallied.idle {s t : State} (h : Tallied s) (hc : t.gtu.counters = s.gtu.counters)
    (hd : t.trc.decisions = s.trc.decisions) (hj : t.jbc.job = .idle) : Tallied t := by
  obtain ⟨⟨n, -, h2⟩, -⟩ := h
  exact ⟨⟨n, fun hi => absurd hj hi, fun i => by rw [hc, hd]; exact h2 i⟩, fun hi => absurd hj hi⟩

/-- Distinct RSNs of 64 values are at most 64 (R75). -/
theorem window_length {l : List HeldVerdict} {n : Rsn} (hd : (l.map HeldVerdict.rsn).Nodup)
    (hb : ∀ h ∈ l, 0 ≤ (h.rsn - n).toInt ∧ (h.rsn - n).toInt ≤ 63) : l.length ≤ 64 := by
  have h1 : (l.map fun h => (h.rsn - n).toNat).Nodup := by
    have : (l.map fun h => (h.rsn - n).toNat) = (l.map HeldVerdict.rsn).map fun r => (r - n).toNat := by
      rw [List.map_map]; rfl
    rw [this]
    refine List.Nodup.map (fun x y hxy => ?_) hd
    have : x - n = y - n := BitVec.eq_of_toNat_eq hxy
    exact (sub_left_inj).1 this
  have h2 : (l.map fun h => (h.rsn - n).toNat) ⊆ List.range 64 := by
    intro k hk
    obtain ⟨h, hm, rfl⟩ := List.mem_map.1 hk
    have := hb h hm
    rw [BitVec.toInt_eq_toNat_cond] at this
    have hl := (h.rsn - n).isLt
    rw [List.mem_range]
    split at this <;> omega
  have := (List.subperm_of_subset h1 h2).length_le
  simpa using this

/-- MRU in IDLE with its watch disarmed is sound. -/
theorem Mru.Sound.idled {t : JobTable} {m : Mru} (h : m.Sound t) : ({ m with reg := .idle, watch := false } : Mru).Sound t where
  watch := by simp
  window := by simp
  missRun := ⟨by simp, h.missRun.2⟩
  run := ⟨by simp, h.run.2⟩

/-- What of an entry the discipline reads. -/
abbrev Entry.rsnTail (e : Entry) : Rsn × Bool := (e.rsn, e.tail)

theorem rsnsEndAt_congr {l l' : List Entry} {n} (h : l.map Entry.rsnTail = l'.map Entry.rsnTail)
    (k : rsnsEndAt l n) : rsnsEndAt l' n := by
  induction l generalizing l' with
  | nil => cases l' with
    | nil => trivial
    | cons _ _ => simp at h
  | cons e r ih => cases l' with
    | nil => simp at h
    | cons e' r' =>
      simp only [List.map_cons, List.cons.injEq] at h
      obtain ⟨h1, h2⟩ := h
      have hl : r.length = r'.length := by simpa using congrArg List.length h2
      refine ⟨?_, ih h2 k.2⟩
      have : e'.rsn = e.rsn := (congrArg Prod.fst h1).symm
      rw [this, ← hl]; exact k.1

theorem tails_congr {l l' : List Entry} (h : l.map Entry.rsnTail = l'.map Entry.rsnTail) (P : Prop) (k : ∀ e ∈ l,
    e.tail = true → P) : ∀ e ∈ l', e.tail = true → P := by
  intro e he ht
  have : Entry.rsnTail e ∈ l.map Entry.rsnTail := by rw [h]; exact List.mem_map_of_mem he
  obtain ⟨x, hx, hxe⟩ := List.mem_map.1 this
  exact k x hx ((congrArg Prod.snd hxe).trans ht)

theorem newest_congr {l l' : List Entry} (h : l.map Entry.rsnTail = l'.map Entry.rsnTail) (k : ∀ e ∈ l.dropLast,
    e.tail = false) : ∀ e ∈ l'.dropLast, e.tail = false := by
  intro e he
  have h2 : l.dropLast.map Entry.rsnTail = l'.dropLast.map Entry.rsnTail := by
    rw [List.map_dropLast, List.map_dropLast, h]
  have : Entry.rsnTail e ∈ l.dropLast.map Entry.rsnTail := by rw [h2]; exact List.mem_map_of_mem he
  obtain ⟨x, hx, hxe⟩ := List.mem_map.1 this
  exact (congrArg Prod.snd hxe).symm.trans (k x hx)

/-- The discipline and the account read the same in `s` and `t`. -/
structure SameDiscipline (s t : State) : Prop where
  q : s.trc.queue.map Entry.rsnTail = t.trc.queue.map Entry.rsnTail
  win : t.trc.window = s.trc.window
  nr : t.trc.nextRsn = s.trc.nextRsn
  spl : s.trc.splices = [] → (s.jbc.job = .idle ∨ s.jbc.job = .halt) → t.trc.splices = []
  job : t.jbc.job = s.jbc.job
  tp : t.jbc.tailPending = s.jbc.tailPending
  held : t.jbc.held = s.jbc.held
  hqt : quantitiesOf t.jbc.table = quantitiesOf s.jbc.table
  lanes : t.jbc.table.lanes = s.jbc.table.lanes
  first : t.jbc.table.firstRsn = s.jbc.table.firstRsn
  cut : t.jbc.table.cutOffset = s.jbc.table.cutOffset
  oc : t.jbc.ocEff = s.jbc.ocEff
  hbs : t.jbc.hbStage = s.jbc.hbStage
  hbt : t.jbc.hbTimer.isSome = s.jbc.hbTimer.isSome
  reg : t.mru.reg = s.mru.reg
  watch : t.mru.watch = s.mru.watch
  mwin : t.mru.window.isSome = s.mru.window.isSome
  runs : t.mru.missRun = s.mru.missRun ∧ t.mru.run = s.mru.run
  limits : t.jbc.table.missLimit = s.jbc.table.missLimit ∧ t.jbc.table.lockCount = s.jbc.table.lockCount
  decisions : t.trc.decisions = s.trc.decisions
  ksq : (s.jbc.job = .idle ∨ s.jbc.job = .halt) → s.trc.queue = [] → s.ksq.armed = none → s.ksq.pulse = false →
      t.ksq.armed = none ∧ t.ksq.pulse = false
  gw : t.gtu.gateWord = s.gtu.gateWord
  ct : t.gtu.counters = s.gtu.counters

theorem eq_none_of_isSome_eq {α β} {a : Option α} {b : Option β} (h : a.isSome = b.isSome) : b = none → a = none := by
  cases a <;> cases b <;> simp_all

/-- The discipline depends on what `SameDiscipline` compares alone. -/
theorem Disciplined.congr {b : Prop} {s t : State} (h : Disciplined b s) (k : SameDiscipline s t) :
    Disciplined b t := by
  obtain ⟨d, u⟩ := h
  have hlen : t.trc.queue.length = s.trc.queue.length := by simpa using (congrArg List.length k.q).symm
  have hnil : t.trc.queue = [] ↔
      s.trc.queue = [] := by rw [← List.length_eq_zero_iff, ← List.length_eq_zero_iff, hlen]
  refine ⟨{ quiet := ?_, numbered := ?_, window := ?_, gates := ?_, newest := newest_congr k.q d.newest, tail := ?_,
            pending := ?_, held := ?_, trim := ?_, supervised := ?_, limits := ?_, registration := ?_ },
          fun hb => ?_⟩
  · intro hj; rw [k.job] at hj
    obtain ⟨a1, a2, a3, a4, a5, a6, a7, a8, a9⟩ := d.quiet hj
    have := k.ksq hj a1 a6 a7
    exact ⟨hnil.2 a1, k.win.trans a2, k.spl a3 hj, k.reg.trans a4, k.watch.trans a5, this.1, this.2, k.tp.trans a8,
        eq_none_of_isSome_eq k.hbt a9⟩
  · rw [k.nr]; exact rsnsEndAt_congr k.q d.numbered
  · rw [k.win, k.nr]; exact d.window
  · rw [hnil, k.gw]; exact d.gates
  · rw [k.job, k.tp, k.reg, k.watch]; exact tails_congr k.q _ d.tail
  · rw [k.tp, k.job]; exact d.pending
  · rw [k.job, k.held, k.hqt]; exact d.held
  · rw [k.job, k.cut, k.oc]; exact d.trim
  · rw [k.hbt, k.job, k.hbs]; exact d.supervised
  · rw [k.limits.1, k.limits.2]; exact d.limits
  · have r := d.registration
    exact
      { watch := by rw [k.watch, k.reg]; exact r.watch
        window := by rw [k.watch, k.mwin]; exact r.window
        missRun := by rw [k.watch, k.runs.1, k.limits.1]; exact r.missRun
        run := by rw [k.reg, k.runs.2, k.limits.2]; exact r.run }
  · exact (u hb).congr k.ct k.decisions k.job k.lanes (fun _ => by rw [k.nr, k.first, hlen])

theorem disciplined_setEvent {b} {s : State} (h : Disciplined b s) (e) : Disciplined b (s.setEvent e) :=
    Disciplined.congr h (by constructor <;> first | rfl | exact ⟨rfl, rfl⟩ | (intros; assumption) | (intros; exact ⟨by assumption, by assumption⟩))

theorem disciplined_setEventIf {b} {s : State} (h : Disciplined b s) (c e) :
    Disciplined b (s.setEventIf c e) := by cases c; exact h; exact disciplined_setEvent h e

theorem knifeFrame_rsnTails {s t : State} (k : KnifeFrame s t) :
    t.trc.queue.map Entry.rsnTail = s.trc.queue.map Entry.rsnTail := by
  have := congrArg (List.map Entry.rsnTail) (k.cuts Entry.sansCut (fun _ _ => rfl))
  rw [List.map_map, List.map_map] at this; exact this

theorem knifeFrame_sameDiscipline {s t : State} (k : KnifeFrame s t) (hk : (s.jbc.job = .idle ∨ s.jbc.job = .halt) →
    s.trc.queue = [] → s.ksq.armed = none → s.ksq.pulse = false → t.ksq.armed = none ∧ t.ksq.pulse = false) :
        SameDiscipline s t where
  q := (knifeFrame_rsnTails k).symm
  win := k.window
  nr := k.nextRsn
  spl h _ := k.splices.trans h
  job := by rw [k.jbc]
  tp := by rw [k.jbc]
  held := by rw [k.jbc]
  hqt := by rw [k.jbc]
  lanes := by rw [k.jbc]
  first := by rw [k.jbc]
  cut := by rw [k.jbc]
  oc := by rw [k.jbc]
  hbs := by rw [k.jbc]
  hbt := by rw [k.jbc]
  reg := by rw [k.mru]
  watch := by rw [k.mru]
  mwin := by rw [k.mru]
  runs := by rw [k.mru]; exact ⟨rfl, rfl⟩
  limits := by rw [k.jbc]; exact ⟨rfl, rfl⟩
  decisions := k.decisions
  ksq := hk
  gw := by rw [k.gtu]
  ct := by rw [k.gtu]

theorem disciplined_offerForCutting {b} {s : State} (h : Disciplined b s) : Disciplined b s.offerForCutting := by
  refine Disciplined.congr h (knifeFrame_sameDiscipline s.offerForCutting_frame ?_)
  intro _ hq ha hp
  unfold State.offerForCutting State.armNext; rw [hq, ha]; exact ⟨rfl, hp⟩

theorem disciplined_fireCrossing {b} {s : State} (h : Disciplined b s) : Disciplined b s.fireCrossing := by
  refine Disciplined.congr h (knifeFrame_sameDiscipline s.fireCrossing_frame ?_)
  intro _ hq ha hp
  unfold State.fireCrossing; rw [ha]; exact ⟨ha, hp⟩

theorem disciplined_recomputeFire {b} {s : State} (h : Disciplined b s) : Disciplined b s.recomputeFire := by
  refine Disciplined.congr h (knifeFrame_sameDiscipline s.recomputeFire_frame ?_)
  intro _ hq ha hp
  unfold State.recomputeFire; rw [ha]; exact ⟨ha, hp⟩

theorem disciplined_withKsq {b} {s : State} (h : Disciplined b s) (k : Ksq) (ha : s.ksq.armed = none →
    k.armed = none) (hp : s.ksq.pulse = false → k.pulse = false) : Disciplined b { s with ksq := k } := by
  refine Disciplined.congr h ?_
  constructor <;> first | rfl | exact ⟨rfl, rfl⟩ | (intros; assumption) | (intro _ _ h1 h2; exact ⟨ha h1, hp h2⟩)

/-- No tail entry is queued. -/
def NoTail (s : State) : Prop := ∀ e ∈ s.trc.queue, e.tail = false

/-- A job runs or drains. -/
def InJob (s : State) : Prop := s.jbc.job = .run ∨ s.jbc.job = .drain

theorem InJob.not_stopped {s : State} (h : InJob s) : ¬ (s.jbc.job = .idle ∨ s.jbc.job = .halt) := by
  rcases h with h | h <;> rw [h] <;> simp

theorem rsnsEndAt_append {l : List Entry} {n : Rsn} {e : Entry} (h : rsnsEndAt l n) (he : e.rsn = n) :
    rsnsEndAt (l ++ [e]) (n + 1) := by
  induction l with
  | nil => refine ⟨?_, trivial⟩; rw [he]; simp
  | cons x r ih =>
    refine ⟨?_, ih h.2⟩
    show x.rsn = n + 1 - BitVec.ofNat 16 ((r ++ [e]).length + 1)
    rw [h.1]; rw [List.length_append, List.length_singleton]
    have : BitVec.ofNat 16 (r.length + 1 + 1) = BitVec.ofNat 16 (r.length + 1) + 1 := by rw [BitVec.ofNat_add]; rfl
    rw [this]; generalize BitVec.ofNat 16 (r.length + 1) = z; bv_omega

/-- An entry appended, with the two effects of a tail (R22, R61, R62). -/
theorem disciplined_append {b} {s : State} (h : Disciplined b s) (hn : NoTail s) (ha : InJob s) (e : Entry)
    (he : e.rsn = s.trc.nextRsn) (het : e.tail = s.jbc.tailPending) :
    Disciplined b (if e.tail then ({ s with trc := s.trc.append e } : State).tailCreated else
        { s with trc := s.trc.append e }) := by
  obtain ⟨d, u⟩ := h
  have base : ∀ t : State, t.trc = s.trc.append e → t.jbc.job = s.jbc.job → t.jbc.table = s.jbc.table →
      t.jbc.held = s.jbc.held → t.jbc.ocEff = s.jbc.ocEff → t.jbc.hbStage = s.jbc.hbStage →
          t.jbc.hbTimer = s.jbc.hbTimer → t.gtu = s.gtu → t.jbc.tailPending = false → (e.tail = true →
              t.mru.reg = .idle ∧ t.mru.watch = false) → t.mru.Sound s.jbc.table → Disciplined b t := by
    intro t h1 h2 h3 h4 h5 h6 h7 h8 h9 h10 h11
    refine ⟨{ quiet := fun hq => absurd (h2 ▸ hq) (InJob.not_stopped ha), numbered := ?_, window := ?_, gates := ?_,
              newest := ?_, tail := ?_, pending := ?_, held := ?_, trim := ?_, supervised := ?_
              limits := by rw [h3]; exact d.limits, registration := by rw [h3]; exact h11 }, fun hb => ?_⟩
    · rw [h1]; exact rsnsEndAt_append d.numbered he
    · rw [h1]; simp only [Trc.append]
      refine ⟨le_trans (List.length_filter_le _ _) d.window.1,
        (d.window.2.1).sublist (List.Sublist.map _ List.filter_sublist), fun x hx => ?_⟩
      rw [List.mem_filter] at hx
      have := d.window.2.2 x hx.1
      have hne := hx.2; simp only [bne_iff_ne, ne_eq] at hne
      generalize x.rsn = y at *; generalize s.trc.nextRsn = z at *
      have : y - z ≠ 0 := fun hh => hne (by bv_omega)
      have h3 : y - (z + 1) = (y - z) - 1 := by bv_omega
      rw [h3]; generalize y - z = w at *
      have e1 := BitVec.toInt_eq_toNat_cond w
      have e2 := BitVec.toInt_eq_toNat_cond (w - 1)
      have : w.toNat ≠ 0 := fun hh => this (BitVec.eq_of_toNat_eq hh)
      have hw := w.isLt
      have : (w - 1).toNat = w.toNat - 1 := by bv_omega
      split at e1 <;> split at e2 <;> omega
    · rw [h1]; intro hh; simp [Trc.append] at hh
    · rw [h1]; simp only [Trc.append, List.dropLast_concat]; exact hn
    · rw [h1, h2]; intro x hx ht
      simp only [Trc.append, List.mem_append, List.mem_singleton] at hx
      rcases hx with hx | rfl
      · rw [hn x hx] at ht; cases ht
      · have := h10 ht
        exact ⟨d.pending (by rw [← het]; exact ht), h9, this.1, this.2⟩
    · rw [h9]; intro hx; cases hx
    · rw [h2, h3, h4]; exact d.held
    · rw [h2, h3, h5]; exact d.trim
    · rw [h2, h6, h7]; exact d.supervised
    · refine (u hb).congr (by rw [h8]) (by rw [h1]; rfl) h2 (by rw [h3]) (fun _ => ?_)
      rw [h1, h3]
      simp only [Trc.append, List.length_append, List.length_singleton]
      rw [BitVec.ofNat_add]
      generalize BitVec.ofNat 16 s.trc.queue.length = z; generalize BitVec.ofNat 16 s.jbc.table.firstRsn =
          y; generalize s.trc.nextRsn = x
      bv_omega
  split
  · exact base _ rfl rfl rfl rfl rfl rfl rfl rfl rfl (fun _ => ⟨rfl, rfl⟩) d.registration.idled
  · rename_i hf
    exact base _ rfl rfl rfl rfl rfl rfl rfl rfl (by rw [← het]; exact Bool.eq_false_iff.2 hf)
        (fun hx => absurd hx hf) d.registration

theorem disciplined_offerIf {b} (now : Bool) {s : State} (h : Disciplined b s) : Disciplined b (s.offerIf now) := by
  unfold State.offerIf; split
  · exact disciplined_offerForCutting h
  · exact h

/-- A creation in a job with no tail queued, and what MRU holds after it. -/
theorem disciplined_createEntry {b} (now : Bool) {s : State} (h : Disciplined b s) (hn : NoTail s) (ha : InJob s) (q) :
    Disciplined b (s.createEntry now q) ∧ (s.createEntry now q).jbc.job = s.jbc.job ∧
        (s.createEntry now q).mru = (if s.jbc.tailPending then { s.mru with reg := .idle, watch := false } else s.mru) ∧
      (s.jbc.tailPending = false → NoTail (s.createEntry now q)) ∧ (s.createEntry now q).jbc.tailPending = false ∧
      (s.createEntry now q).jbc.table = s.jbc.table := by
  unfold State.createEntry
  have h1 := disciplined_append h hn ha (s.newEntry q) rfl rfl
  have et : (s.newEntry q).tail = s.jbc.tailPending := rfl
  refine ⟨disciplined_offerIf now h1, ?_, ?_, ?_, ?_, ?_⟩
  · rw [(State.offerIf_frame now _).jbc]; split <;> rfl
  · rw [(State.offerIf_frame now _).mru, et]; split <;> rfl
  · intro hp
    have := knifeFrame_rsnTails (State.offerIf_frame now (if (s.newEntry q).tail = true then
        ({ s with trc := s.trc.append (s.newEntry q) } : State).tailCreated else
            { s with trc := s.trc.append (s.newEntry q) }))
    have key := tails_congr this.symm False ?_
    · intro e he; rw [Bool.eq_false_iff]; exact key e he
    · rw [et, hp]; intro e he ht
      simp [Trc.append] at he
      rcases he with he | rfl
      · rw [hn e he] at ht; cases ht
      · rw [et, hp] at ht; cases ht
  · rw [(State.offerIf_frame now _).jbc, et]
    cases hp : s.jbc.tailPending
    · exact hp
    · rfl
  · rw [(State.offerIf_frame now _).jbc]; split <;> rfl

/-! ### Marks, flushes, decisions and the encoder -/

/-- MRU replaced by a sound one where no queued tail keeps it in IDLE, or where it stays in IDLE. -/
theorem disciplined_withMru {b} {s : State} (h : Disciplined b s) (ha : InJob s) {m : Mru} (hs : m.Sound s.jbc.table)
    (hm : NoTail s ∨ (m.reg = .idle ∧ m.watch = false)) : Disciplined b { s with mru := m } := by
  obtain ⟨d, u⟩ := h
  refine ⟨{ d with quiet := fun hq => absurd hq (InJob.not_stopped ha), tail := fun e he ht => ?_, registration := hs }, u⟩
  rcases hm with hn | hm
  · exact absurd (hn e he) (by rw [ht]; simp)
  · exact ⟨(d.tail e he ht).1, (d.tail e he ht).2.1, hm⟩

/-- A piece of MRU that the discipline does not read. -/
theorem disciplined_touchMru {b} {s : State} (h : Disciplined b s) (m : Mru) (h1 : m.reg = s.mru.reg)
    (h2 : m.watch = s.mru.watch) (h3 : m.window = s.mru.window) (h4 : m.missRun = s.mru.missRun)
    (h5 : m.run = s.mru.run) : Disciplined b { s with mru := m } :=
  Disciplined.congr h
    { q := rfl, win := rfl, nr := rfl, spl := fun h _ => h, job := rfl, tp := rfl, held := rfl, hqt := rfl, lanes := rfl
      first := rfl, cut := rfl, oc := rfl, hbs := rfl, hbt := rfl, reg := h1, watch := h2, mwin := by rw [h3]
      runs := ⟨h4, h5⟩, limits := ⟨rfl, rfl⟩, decisions := rfl, ksq := fun _ _ h3 h4 => ⟨h3, h4⟩, gw := rfl, ct := rfl }

/-- A creation does not look at MRU: with another it makes the same machine, but for MRU (R61). -/
theorem State.createEntry_withMru (now : Bool) (s : State) (m : Mru) (q : Creation) (m' : Mru) :
    { ({ s with mru := m } : State).createEntry now q with mru := m' } = { s.createEntry now q with mru := m' } := by
  have hf : ∀ (r) (how) (t : State) (m m' : Mru), { ({ t with mru := m } : State).takeFire r how with mru := m' } =
      { t.takeFire r how with mru := m' } := by
    intro r how t m m'
    by_cases hb : t.ksq.blocked = true
    · rw [State.takeFire_blocked (s := t) hb, State.takeFire_blocked (s := { t with mru := m }) hb]
    · rw [State.takeFire_free (s := t) (by simpa using hb), State.takeFire_free (s := { t with mru := m }) (by simpa using hb)]
      rfl
  have ha : ∀ (l : List Entry) (t u : State), (∀ m', { t with mru := m' } = { u with mru := m' }) →
      ∀ m', { State.armFrom l t with mru := m' } = { State.armFrom l u with mru := m' } := by
    intro l
    induction l with
    | nil =>
      intro t u h m'
      have := h m'
      cases t; cases u
      simp only [State.mk.injEq] at this
      simp only [State.armFrom, this]
    | cons e rest ih =>
      intro t u h m'
      have e1 : t = { u with mru := t.mru } := h t.mru
      rw [e1]
      generalize t.mru = m
      unfold State.armFrom
      split
      · exact ih { u with mru := m } u (fun _ => rfl) m'
      · split
        · rename_i hb
          have hb' : isBehind u.psu.hw (u.firePoint e) = true := hb
          rw [if_pos hb']
          rfl
        · rename_i hb
          have hb' : ¬ isBehind u.psu.hw (u.firePoint e) = true := hb
          rw [if_neg hb']
          exact ih (({ u with mru := m } : State).takeFire _ _) (u.takeFire _ _) (fun m' => hf _ _ u m m') m'
  have ho : ∀ t u : State, (∀ m', { t with mru := m' } = { u with mru := m' }) →
      ∀ m', { t.offerIf now with mru := m' } = { u.offerIf now with mru := m' } := by
    intro t u h m'
    have e1 : t = { u with mru := t.mru } := h t.mru
    rw [e1]
    generalize t.mru = m
    unfold State.offerIf State.offerForCutting
    split
    · split
      · exact ha u.trc.queue { u with mru := m } u (fun _ => rfl) m'
      · rfl
    · rfl
  unfold State.createEntry
  refine ho _ _ (fun m' => ?_) m'
  have e : ({ s with mru := m } : State).newEntry q = s.newEntry q := rfl
  simp only [e]
  by_cases ht : (s.newEntry q).tail = true
  · rw [if_pos ht, if_pos ht]; rfl
  · rw [if_neg ht, if_neg ht]

/-- A registration at work, or a miss watch armed, is in a job with no tail queued. -/
theorem Disciplined.registering {b} {s : State} (h : Disciplined b s) (hr : s.mru.reg ≠ .idle ∨ s.mru.watch = true) :
    NoTail s ∧ InJob s := by
  constructor
  · intro e he; rw [Bool.eq_false_iff]; intro ht
    have := h.1.tail e he ht
    rcases hr with hr | hr
    · exact hr this.2.2.1
    · rw [this.2.2.2] at hr; cases hr
  · unfold InJob
    cases hj : s.jbc.job
    · have := h.1.quiet (Or.inl hj); rcases hr with hr | hr
      · exact absurd this.2.2.2.1 hr
      · rw [this.2.2.2.2.1] at hr; cases hr
    · exact Or.inl rfl
    · exact Or.inr rfl
    · have := h.1.quiet (Or.inr hj); rcases hr with hr | hr
      · exact absurd this.2.2.2.1 hr
      · rw [this.2.2.2.2.1] at hr; cases hr

/-- MRU replaced after a creation by a sound one, which is in IDLE where the tail was created. -/
theorem disciplined_createThenMru {b} (now : Bool) {s : State} (h : Disciplined b s) (hn : NoTail s) (ha : InJob s) (q) {m : Mru}
    (hs : m.Sound s.jbc.table) (hf : s.jbc.tailPending = true → m.reg = .idle ∧ m.watch = false) :
    Disciplined b { s.createEntry now q with mru := m } := by
  obtain ⟨h1, h2, _, h4, _, h6⟩ := disciplined_createEntry now h hn ha q
  have ha' : InJob (s.createEntry now q) := by unfold InJob; rw [h2]; exact ha
  apply disciplined_withMru h1 ha' (by rw [h6]; exact hs)
  cases hp : s.jbc.tailPending
  · exact Or.inl (h4 hp)
  · exact Or.inr (hf hp)

theorem Mru.Sound.countTowardsLock {t : JobTable} {m : Mru} (h : m.Sound t) (hl : t.lockCount ≤ 8) :
    (m.countTowardsLock t.lockCount).Sound t := by
  unfold Mru.countTowardsLock
  split
  · rename_i hr
    have hw : m.watch = true := h.watch.2 (Or.inl hr)
    have hlt := h.run.1 hr
    refine { watch := ?_, window := h.window, missRun := h.missRun, run := ⟨?_, ?_⟩ }
    · simp only [hw, true_iff]; split <;> simp
    · simp only; split
      · intro hx; cases hx
      · intro _; omega
    · simp only; omega
  · exact h

theorem Mru.Sound.searchAccepted {t : JobTable} {m : Mru} {tail : Bool}
    (hl : 1 ≤ t.missLimit ∧ 1 ≤ t.lockCount) (ht : tail = true → m.reg = .idle ∧ m.watch = false) (q c) :
    (m.searchAccepted q c tail).Sound t := by
  unfold Mru.searchAccepted Mru.anchor
  cases tail
  · exact { watch := by simp, window := fun _ => rfl, missRun := ⟨fun _ => hl.1, by simp⟩, run := ⟨fun _ => hl.2, by simp⟩ }
  · have := ht rfl
    exact { watch := by simp [this], window := fun _ => rfl, missRun := ⟨fun _ => hl.1, by simp⟩, run := ⟨fun _ => hl.2, by simp⟩ }

theorem Mru.Sound.windowAccepted {t : JobTable} {m : Mru} {tail : Bool} (h : m.Sound t) (hl : 1 ≤ t.missLimit)
    (hr : tail = false → m.reg = .capture ∨ m.reg = .locked) (q c e) : (m.windowAccepted q c e tail).Sound t := by
  unfold Mru.windowAccepted Mru.anchor
  cases tail
  · exact { watch := by simpa using hr rfl, window := fun _ => rfl, missRun := ⟨fun _ => hl, by simp⟩, run := h.run }
  · exact { watch := h.watch, window := h.window, missRun := ⟨fun _ => hl, by simp⟩, run := h.run }

/-- A miss keeps MRU sound: MISS_RUN rises, and at MISS_LIMIT the watch is disarmed (R52). -/
theorem Mru.Sound.missed {t : JobTable} {m : Mru} {tail : Bool} (h : m.Sound t) (hl : t.missLimit ≤ 15)
    (hw : m.watch = true) (q c) (x : Mru)
    (hx : x = if tail then { m.countMiss with reg := .idle, watch := false } else m.countMiss) :
    (x.afterMiss q c tail (m.missRun + 1 == t.missLimit)).Sound t := by
  subst hx
  have hm := h.missRun.1 hw
  have hr := h.watch.1 hw
  have hrun : m.countMiss.run ≤ 8 := by
    unfold Mru.countMiss; simp only; split <;> simp [h.run.2]
  have hmiss : m.countMiss.missRun = m.missRun + 1 := rfl
  unfold Mru.afterMiss
  cases tail
  · simp only [Bool.false_eq_true, if_false]
    split
    · exact { watch := by simp, window := by simp, missRun := ⟨by simp, by simp only [Mru.stepE, hmiss]; omega⟩
              run := ⟨by simp, hrun⟩ }
    · rename_i hne
      have hne : m.missRun + 1 ≠ t.missLimit := by simpa using hne
      refine { watch := by simpa [Mru.stepE, Mru.countMiss] using hr, window := fun _ => rfl
               missRun := ⟨fun _ => by simp only [Mru.stepE, hmiss]; omega, by simp only [Mru.stepE, hmiss]; omega⟩
               run := ⟨fun hc => ?_, hrun⟩ }
      have hc : m.reg = .capture := hc
      have := h.run.1 hc
      simp [Mru.stepE, Mru.countMiss, hc]; omega
  · exact { watch := by simp, window := by simp, missRun := ⟨by simp, by simp only [if_true, hmiss]; omega⟩
            run := ⟨by simp, hrun⟩ }

theorem disciplined_takeMark {b} (now : Bool) {s : State} (h : Disciplined b s) (c) : Disciplined b (s.takeMark now c) := by
  have hs : Disciplined b s.strayMark := disciplined_touchMru h _ rfl rfl rfl rfl rfl
  have hl := h.1.limits
  have e2 : ∀ (u : State) (b e), (u.setEventIf b e).trc = u.trc ∧ (u.setEventIf b e).jbc = u.jbc ∧
      (u.setEventIf b e).mru = u.mru := by
    intro u b e; cases b <;> exact ⟨rfl, rfl, rfl⟩
  have hw : s.mru.reg = .capture ∨ s.mru.reg = .locked → ∀ win, Disciplined b (s.acceptInWindow now win c) := by
    intro hr win
    obtain ⟨hn, ha⟩ := Disciplined.registering h (Or.inl (by rcases hr with hr | hr <;> rw [hr] <;> simp))
    have hc := h.1.registration.countTowardsLock hl.2.2.2
    unfold State.acceptInWindow; simp only
    have h1 := disciplined_setEventIf (disciplined_withMru h ha hc (Or.inl hn))
        (s.mru.reg == .capture && (s.mru.countTowardsLock s.jbc.table.lockCount).reg == .locked) .lockGained
    generalize hu : (({ s with mru := s.mru.countTowardsLock s.jbc.table.lockCount } : State).setEventIf
        (s.mru.reg == .capture && (s.mru.countTowardsLock s.jbc.table.lockCount).reg == .locked) .lockGained) = u at h1
    have e3 : u.trc = s.trc ∧ u.jbc = s.jbc ∧ u.mru = s.mru.countTowardsLock s.jbc.table.lockCount := by
      rw [← hu]; exact e2 _ _ _
    have hn' : NoTail u := by unfold NoTail; rw [e3.1]; exact hn
    have ha' : InJob u := by unfold InJob; rw [e3.2.1]; exact ha
    have hm := fun q => (disciplined_createEntry now h1 hn' ha' q).2.2.1
    refine disciplined_createThenMru now h1 hn' ha' _ ?_ ?_
    · rw [hm, e3.2.1, e3.2.2]
      refine Mru.Sound.windowAccepted (by split; exact hc.idled; exact hc) hl.1 (fun hp => ?_) _ _ _
      have hp : s.jbc.tailPending = false := hp
      rw [hp]
      simp only [Bool.false_eq_true, if_false]
      unfold Mru.countTowardsLock
      split
      · simp only; split <;> simp
      · exact hr
    · intro hp
      rw [hm]
      have hp' : s.jbc.tailPending = true := by rw [← e3.2.1]; exact hp
      rw [hp, hp']
      exact ⟨rfl, rfl⟩
  have hm : s.mru.reg = .capture ∨ s.mru.reg = .locked → Disciplined b (s.markAgainstWindow now c) := by
    intro hr
    unfold State.markAgainstWindow; split
    · exact hs
    · split
      · exact hs
      · exact hw hr _
  unfold State.takeMark; split
  · exact h
  · rename_i hr; split
    · unfold State.acceptInSearch; simp only
      obtain ⟨hn, ha⟩ := Disciplined.registering h (Or.inl (by rw [hr]; simp))
      have hm := (disciplined_createEntry now h hn ha { kind := .seen, mark := c, regErr := some 0, regFlag := .fault }).2.2.1
      refine disciplined_createThenMru now h hn ha _ ?_ ?_
      · rw [hm]
        refine Mru.Sound.searchAccepted ⟨hl.1, hl.2.2.1⟩
          (fun hp => ?_) _ _
        rw [hp]; exact ⟨rfl, rfl⟩
      · intro hp; rw [hm, hp]; exact ⟨rfl, rfl⟩
    · exact hs
  · rename_i hr; exact hm (Or.inl hr)
  · rename_i hr; exact hm (Or.inr hr)

theorem disciplined_markEdge {b} (now : Bool) {s : State} (h : Disciplined b s) : Disciplined b (s.markEdge now) := by
  unfold State.markEdge; split
  · exact disciplined_takeMark now h _
  · exact h

theorem disciplined_registrationCrossing {b} (now : Bool) {s : State} (h : Disciplined b s) :
    Disciplined b (s.registrationCrossing now) := by
  have h1 : Disciplined b s.forgetLastMark := by
    unfold State.forgetLastMark; split
    · split
      · exact disciplined_touchMru h _ rfl rfl rfl rfl rfl
      · exact h
    · exact h
  unfold State.registrationCrossing; simp only
  generalize s.forgetLastMark = u at h1
  split
  · exact h1
  · split
    · rename_i win _ hc
      simp only [Bool.and_eq_true] at hc
      obtain ⟨hn, ha⟩ := Disciplined.registering h1 (Or.inr hc.1)
      unfold State.takeMiss; simp only
      apply disciplined_setEventIf; apply disciplined_setEvent
      rw [State.createEntry_withMru]
      have hm : ∀ q, (({ u with mru := u.mru.countMiss } : State).createEntry now q).mru =
          if u.jbc.tailPending then { u.mru.countMiss with reg := .idle, watch := false } else u.mru.countMiss := by
        intro q
        unfold State.createEntry
        rw [(State.offerIf_frame now _).mru]
        show (if u.jbc.tailPending = true then _ else _ : State).mru = _
        split <;> rfl
      refine disciplined_createThenMru now h1 hn ha _ (h1.1.registration.missed h1.1.limits.2.1 hc.1 _ _ _ (hm _)) ?_
      intro hp
      have hp' : u.jbc.tailPending = true := hp
      rw [hm, hp']
      exact ⟨rfl, rfl⟩
    · exact h1

/-- A job left with an empty queue, window and splice list (R15). -/
theorem disciplined_enterStopped {b} {s : State} (j : JobState) (hj : j = .idle ∨ j = .halt) (hq : s.trc.queue = [])
    (hw : s.trc.window = []) (hs : s.trc.splices = [])
    (hg : ∀ i, s.gtu.gateWord.get i = .reject) (hh : j = .halt →
        s.jbc.held = some (quantitiesOf s.jbc.table))
    (hl : 1 ≤ s.jbc.table.missLimit ∧ s.jbc.table.missLimit ≤ 15 ∧ 1 ≤ s.jbc.table.lockCount ∧ s.jbc.table.lockCount ≤ 8)
    (hm : s.mru.Sound s.jbc.table) (hu : b → Tallied s ∧ (j = .halt → s.jbc.job ≠ .idle)) :
    Disciplined b (s.enterStopped j) := by
  have na : ∀ {p : Prop}, (j = .run ∨ j = .drain) →
      p := by intro p h; rcases hj with h1 | h1 <;> rw [h1] at h <;> simp at h
  refine ⟨{ quiet := fun _ => ⟨hq, hw, hs, rfl, rfl, rfl, rfl, rfl, rfl⟩, numbered := ?_, window := ?_,
            gates := fun _ => hg, newest := ?_, tail := ?_, pending :=
                fun h => absurd (show false = true from h) (by simp), held := ?_, trim :=
                    fun h => na h, supervised := ⟨fun h => absurd (show (none : Option Nat).isSome = true from h)
                        (by simp), fun h => na h.1⟩, limits := hl, registration := hm.idled }, fun hb => ?_⟩
  · show rsnsEndAt s.trc.queue _; rw [hq]; trivial
  · show s.trc.window.length ≤ 64 ∧ (s.trc.window.map _).Nodup ∧ ∀ h ∈ s.trc.window, _; rw [hw]; simp
  · show ∀ e ∈ s.trc.queue.dropLast, _; rw [hq]; simp
  · show ∀ e ∈ s.trc.queue, _; rw [hq]; simp
  · intro hx
    have hx' : j ≠ .idle := hx
    exact hh (by rcases hj with h | h; exact absurd h hx'; exact h)
  · obtain ⟨hu, hi⟩ := hu hb
    rcases hj with h | h
    · exact hu.idle rfl rfl h
    · obtain ⟨⟨n, h1, h2⟩, h3⟩ := hu
      exact ⟨⟨n, fun _ => h1 (hi h), h2⟩, fun _ => h3 (hi h)⟩

theorem Tally.total_held (t : Tally) (n : BitVec 32) :
    ({ t with rejHold := t.rejHold + n } : Tally).total = t.total + n := by
  simp only [Tally.total]; ac_rfl

/-- A flush empties the queue, closes every gate and counts every piece (R67, R111). -/
theorem disciplined_flushQueue {b} {s : State} (h : Disciplined b s) :
    s.flushQueue.trc.queue = [] ∧ s.flushQueue.jbc = s.jbc ∧ s.flushQueue.mru = s.mru ∧
      (∀ i, s.flushQueue.gtu.gateWord.get i = .reject) ∧ (b → Tallied s.flushQueue) := by
  have hf := s.flushQueue_frame
  have ht := s.flushQueue_trc
  refine ⟨by rw [ht], hf.jbc, hf.mru, ?_, fun hb => ?_⟩
  · intro i; rw [hf.gateWord]; split
    · rename_i h0; exact h.1.gates h0 i
    · rw [Lanes.get_all]
  · have hjbc : s.flushQueue.jbc = s.jbc := hf.jbc
    by_cases hi : s.jbc.job = .idle
    · have hq : s.trc.queue = [] := (h.1.quiet (Or.inl hi)).1
      have hs : s.flushQueue = { s with trc := { s.trc with watch := false } } := by
        unfold State.flushQueue; rw [hq]; rfl
      rw [hs]
      exact (h.2 hb).idle rfl rfl hi
    · obtain ⟨⟨n, h1, h2⟩, h3⟩ := h.2 hb
      refine ⟨⟨n, fun hj => by rw [hjbc]; exact h1 (hjbc ▸ hj), fun i => ⟨fun hl => ?_, fun hl => ?_⟩⟩, fun hj => ?_⟩
      · rw [h1 hi] at hl
        rw [hf.held i (by simpa [State.laneUsed] using hl), ht]
        show ({ s.gtu.counters.get i with rejHold := (s.gtu.counters.get i).rejHold + _ } : Tally).total = _
        rw [Tally.total_held, (h2 i).1 (by rw [h1 hi]; exact hl)]
        simp [BitVec.ofNat_add]
      · rw [h1 hi] at hl
        rw [(hf.unused i (by simpa [State.laneUsed] using hl)).1]
        exact (h2 i).2 (by rw [h1 hi]; exact hl)
      · rw [ht, hjbc]
        simp only [List.length_nil, BitVec.ofNat_add]
        rw [h3 hi]
        simp

theorem disciplined_loseTracking {b} {s : State} (h : Disciplined b s) (ha : InJob s) :
    Disciplined b s.loseTracking := by
  obtain ⟨h1, h2, h5, h3, h4⟩ := disciplined_flushQueue h
  unfold State.loseTracking
  have hi : s.jbc.job ≠ .idle := fun hx => InJob.not_stopped ha (Or.inl hx)
  refine disciplined_enterStopped .halt (Or.inr rfl) h1 rfl rfl h3 (fun _ => ?_) ?_ ?_ (fun hb => ⟨?_, fun _ => ?_⟩)
  · show s.flushQueue.jbc.held = some (quantitiesOf s.flushQueue.jbc.table); rw [h2]; exact h.1.held hi
  · show 1 ≤ s.flushQueue.jbc.table.missLimit ∧ s.flushQueue.jbc.table.missLimit ≤ 15 ∧
      1 ≤ s.flushQueue.jbc.table.lockCount ∧ s.flushQueue.jbc.table.lockCount ≤ 8
    rw [h2]; exact h.1.limits
  · show s.flushQueue.mru.Sound s.flushQueue.jbc.table; rw [h2, h5]; exact h.1.registration
  · exact (h4 hb).congr rfl rfl rfl rfl (fun _ => rfl)
  · show s.flushQueue.jbc.job ≠ .idle; rw [h2]; exact hi

theorem disciplined_abortJob {b} {s : State} (h : Disciplined b s) : Disciplined b s.abortJob := by
  obtain ⟨h1, h2, h5, h3, h4⟩ := disciplined_flushQueue h
  unfold State.abortJob
  refine disciplined_enterStopped .idle (Or.inl rfl) h1 rfl rfl h3 (by simp) ?_ ?_ (fun hb => ⟨?_, by simp⟩)
  · show 1 ≤ s.flushQueue.jbc.table.missLimit ∧ s.flushQueue.jbc.table.missLimit ≤ 15 ∧
      1 ≤ s.flushQueue.jbc.table.lockCount ∧ s.flushQueue.jbc.table.lockCount ≤ 8
    rw [h2]; exact h.1.limits
  · show s.flushQueue.mru.Sound s.flushQueue.jbc.table; rw [h2, h5]; exact h.1.registration
  · exact (h4 hb).congr rfl rfl rfl rfl (fun _ => rfl)

/-- One decision of the head and its completion (R69, R110). -/
theorem disciplined_decideHead {b} {s : State} (h : Disciplined b s) {e rest} (hq : s.trc.queue = e :: rest) (sp) :
    Disciplined b ((s.takeDecision { entry := e, flush := false, successor := rest.head?.map Entry.cut,
                                     inSplice := sp }).completeDecision e) ∧
      ((s.takeDecision { entry := e, flush := false, successor := rest.head?.map Entry.cut,
                         inSplice := sp }).completeDecision e).trc.queue = rest := by
  set hd : Handover := { entry := e, flush := false, successor := rest.head?.map Entry.cut, inSplice := sp } with hhd
  have hf := s.takeDecision_frame hd
  have ha : InJob s := by
    unfold InJob
    cases hj : s.jbc.job
    · have := (h.1.quiet (Or.inl hj)).1; rw [hq] at this; cases this
    · exact Or.inl rfl
    · exact Or.inr rfl
    · have := (h.1.quiet (Or.inr hj)).1; rw [hq] at this; cases this
  have hg : rest = [] → ∀ i, (s.takeDecision hd).gtu.gateWord.get i = .reject := by
    intro hr i
    rw [State.takeDecision_gtu]
    have hne : s.laneCode hd i ≠ .stacked := by
      intro hc2; revert hc2; unfold State.laneCode; simp only
      split
      · simp
      · rw [if_pos (by rw [hhd, hr]; simp [Handover.badCut])]; simp
    simp only [Gtu.applyCodes, Lanes.get_ofFn, State.decisionCodes]
    cases s.laneUsed i
    · rfl
    · simp [hne]
  have hct : b → ∀ t : State, t.jbc.table = s.jbc.table → t.gtu.counters = (s.takeDecision hd).gtu.counters →
      t.trc.decisions = s.trc.decisions + 1 → t.trc.nextRsn = s.trc.nextRsn → t.trc.queue = rest → Tallied t := by
    intro hb t h2 h3 h6 h4 h5
    obtain ⟨⟨n, k1, k2⟩, k3⟩ := h.2 hb
    have hi : s.jbc.job ≠ .idle := fun hx => InJob.not_stopped ha (Or.inl hx)
    have k1 := k1 hi
    refine ⟨⟨n, fun _ => by rw [h2]; exact k1, fun i => ⟨fun hl => ?_, fun hl => ?_⟩⟩, fun _ => ?_⟩
    · rw [h3, h6, State.takeDecision_counters, if_pos (by rw [k1] at hl; simpa [State.laneUsed] using hl),
          Tally.total_bump, (k2 i).1 hl, BitVec.ofNat_add]
      rfl
    · rw [h3, State.takeDecision_counters, if_neg (by rw [k1] at hl; simpa [State.laneUsed] using hl)]
      exact (k2 i).2 hl
    · rw [h6, h4, h5, h2, BitVec.ofNat_add, k3 hi, hq, List.length_cons, BitVec.ofNat_add]
      generalize s.trc.nextRsn = x
      generalize BitVec.ofNat 16 s.jbc.table.firstRsn = y
      generalize BitVec.ofNat 16 rest.length = z
      bv_omega
  have hdec : (s.takeDecision hd).trc.removeHead.decisions = s.trc.decisions + 1 := by rw [hf.trc]; rfl
  have hrest : (s.takeDecision hd).trc.removeHead.queue = rest := by rw [hf.trc]; simp [Trc.removeHead, hq]
  obtain ⟨g1, g2, g3⟩ : (s.takeDecision hd).jbc = { s.jbc with job := (s.takeDecision hd).jbc.job,
                                                               tailPending := (s.takeDecision hd).jbc.tailPending,
                                                                   stopLatch := (s.takeDecision hd).jbc.stopLatch } ∧
     InJob (s.takeDecision hd) ∧ (((s.takeDecision hd).jbc.job = s.jbc.job ∧
         (s.takeDecision hd).jbc.tailPending = s.jbc.tailPending) ∨ (s.jbc.job = .run ∧
             (s.takeDecision hd).jbc.job = .drain)) := by
    have hr := (s.recordedDecision_frame hd).jbc
    have hr' : (s.recordedDecision hd).jbc = s.jbc := hr
    rw [State.takeDecision_eq]; split
    · unfold State.automaticEnd
      rcases ha with ha | ha
      · have hx : (s.recordedDecision hd).jbc.job = .run := by rw [hr']; exact ha
        rw [hx]; simp only; rw [hr']; exact ⟨by trivial, Or.inr rfl, Or.inr ⟨ha, by trivial⟩⟩
      · have hx : (s.recordedDecision hd).jbc.job = .drain := by rw [hr']; exact ha
        rw [hx]; unfold State.setStopLatch; simp only; rw [hr']; exact ⟨rfl, Or.inr (by simp only; exact ha),
            Or.inl ⟨rfl, rfl⟩⟩
    · unfold InJob; rw [hr']; exact ⟨rfl, ha, Or.inl ⟨rfl, rfl⟩⟩
  have htab : (s.takeDecision hd).jbc.table = s.jbc.table := by rw [g1]
  unfold State.completeDecision; simp only
  split
  · rename_i ht
    have hr : rest = [] := by
      cases rest with
      | nil => rfl
      | cons y ys => have := h.1.newest e (by rw [hq]; simp); rw [ht] at this; cases this
    unfold State.endOfDrain
    refine ⟨disciplined_enterStopped .idle (Or.inl rfl) (hrest.trans hr) rfl rfl (hg hr) (by simp) ?_ ?_
      (fun hb => ⟨hct hb _ htab rfl hdec (by show (s.takeDecision hd).trc.nextRsn = _; rw [hf.trc]) hrest, by simp⟩), hrest⟩
    · show 1 ≤ (s.takeDecision hd).jbc.table.missLimit ∧ (s.takeDecision hd).jbc.table.missLimit ≤ 15 ∧
        1 ≤ (s.takeDecision hd).jbc.table.lockCount ∧ (s.takeDecision hd).jbc.table.lockCount ≤ 8
      rw [htab]; exact h.1.limits
    · show (s.takeDecision hd).mru.Sound (s.takeDecision hd).jbc.table
      rw [htab, hf.mru]; exact h.1.registration
  · rename_i ht
    have ht : e.tail = false := Bool.eq_false_iff.2 ht
    refine ⟨?_, hrest⟩
    have hi : s.jbc.job ≠ .idle := fun hx => InJob.not_stopped ha (Or.inl hx)
    have hi' : (s.takeDecision hd).jbc.job ≠ .idle := fun hx => InJob.not_stopped g2 (Or.inl hx)
    have hhb : (s.takeDecision hd).jbc.hbTimer = s.jbc.hbTimer ∧
        (s.takeDecision hd).jbc.hbStage = s.jbc.hbStage := by rw [g1]; exact ⟨rfl, rfl⟩
    refine ⟨{ quiet := fun hx => absurd hx (InJob.not_stopped (s := s.takeDecision hd) g2), numbered := ?_,
              window := ?_, gates := fun hx => hg (hrest ▸ hx), newest := ?_, tail := ?_, pending := ?_, held :=
                  fun _ => ?_, trim := fun _ => ?_, supervised := ?_
              limits := by
                show 1 ≤ (s.takeDecision hd).jbc.table.missLimit ∧ (s.takeDecision hd).jbc.table.missLimit ≤ 15 ∧
                  1 ≤ (s.takeDecision hd).jbc.table.lockCount ∧ (s.takeDecision hd).jbc.table.lockCount ≤ 8
                rw [htab]; exact h.1.limits
              registration := by
                show (s.takeDecision hd).mru.Sound (s.takeDecision hd).jbc.table
                rw [htab, hf.mru]; exact h.1.registration }, fun hb => ?_⟩
    · show rsnsEndAt (s.takeDecision hd).trc.removeHead.queue (s.takeDecision hd).trc.nextRsn
      rw [hrest, hf.trc]; have := h.1.numbered; rw [hq] at this; exact this.2
    · show (s.takeDecision hd).trc.window.length ≤ 64 ∧ ((s.takeDecision hd).trc.window.map _).Nodup ∧ ∀ x ∈ (s.takeDecision hd).trc.window,
          0 ≤ (x.rsn - (s.takeDecision hd).trc.nextRsn).toInt ∧ _
      rw [hf.trc]; exact h.1.window
    · show ∀ x ∈ (s.takeDecision hd).trc.removeHead.queue.dropLast, _
      rw [hrest]; intro x hx
      apply h.1.newest; rw [hq]
      cases rest with
      | nil => simp at hx
      | cons y ys => rw [List.dropLast_cons_of_ne_nil (by simp)]; exact List.mem_cons_of_mem _ hx
    · show ∀ x ∈ (s.takeDecision hd).trc.removeHead.queue, x.tail = true → (s.takeDecision hd).jbc.job = .drain ∧
          (s.takeDecision hd).jbc.tailPending = false ∧ (s.takeDecision hd).mru.reg = .idle ∧
              (s.takeDecision hd).mru.watch = false
      rw [hrest, hf.mru]; intro x hx hxt
      have := h.1.tail x (by rw [hq]; exact List.mem_cons_of_mem _ hx) hxt
      rcases g3 with g3 | g3
      · rw [g3.1, g3.2]; exact this
      · rw [this.1] at g3; cases g3.1
    · show (s.takeDecision hd).jbc.tailPending = true → (s.takeDecision hd).jbc.job = .drain
      rcases g3 with g3 | g3
      · rw [g3.1, g3.2]; exact h.1.pending
      · intro _; exact g3.2
    · show (s.takeDecision hd).jbc.held = _; rw [show (s.takeDecision hd).jbc.held = s.jbc.held by rw [g1]]
      show s.jbc.held = some (quantitiesOf (s.takeDecision hd).jbc.table); rw [htab]; exact h.1.held hi
    · show (s.takeDecision hd).jbc.table.cutOffset - 2000 ≤ (s.takeDecision hd).jbc.ocEff ∧
          (s.takeDecision hd).jbc.ocEff ≤ (s.takeDecision hd).jbc.table.cutOffset + 2000
      rw [htab, show (s.takeDecision hd).jbc.ocEff = s.jbc.ocEff by rw [g1]]; exact h.1.trim ha
    · show (s.takeDecision hd).jbc.hbTimer.isSome = true ↔ InJob (s.takeDecision hd) ∧
          (s.takeDecision hd).jbc.hbStage ≠ .expired
      rw [hhb.1, hhb.2]
      have := h.1.supervised
      constructor
      · intro hx; exact ⟨g2, (this.1 hx).2⟩
      · intro hx; exact this.2 ⟨ha, hx.2⟩
    · exact hct hb _ htab rfl hdec (by show (s.takeDecision hd).trc.nextRsn = _; rw [hf.trc]) hrest

theorem disciplined_withWatch {b} {s : State} (h : Disciplined b s) (w : Bool) :
    Disciplined b { s with trc := { s.trc with watch := w } } :=
        Disciplined.congr h (by constructor <;> first | rfl | exact ⟨rfl, rfl⟩ | (intros; assumption) | (intros; exact ⟨by assumption, by assumption⟩))

theorem disciplined_armDecisionFrom {b} (l : List Entry) {s : State} (h : Disciplined b s) (hq : s.trc.queue = l) :
    Disciplined b (State.armDecisionFrom l s) := by
  induction l generalizing s with
  | nil => exact disciplined_withWatch h false
  | cons e rest ih =>
    unfold State.armDecisionFrom; split
    · exact disciplined_withWatch h true
    · obtain ⟨h1, h2⟩ := disciplined_decideHead h hq (s.trc.inSplice e.rsn)
      exact ih h1 h2

theorem disciplined_decisionCrossing {b} {s : State} (h : Disciplined b s) : Disciplined b s.decisionCrossing := by
  unfold State.decisionCrossing; split
  · exact disciplined_armDecisionFrom _ h rfl
  · exact h

theorem disciplined_withPsu {b} {s : State} (h : Disciplined b s) (p) : Disciplined b { s with psu := p } :=
    Disciplined.congr h (by constructor <;> first | rfl | exact ⟨rfl, rfl⟩ | (intros; assumption) | (intros; exact ⟨by assumption, by assumption⟩))

theorem disciplined_windowEnd {b} {s : State} (h : Disciplined b s) : Disciplined b s.windowEnd := by
  unfold State.windowEnd; split
  · exact disciplined_recomputeFire (disciplined_withPsu h _)
  · exact h

theorem disciplined_meet {b} (now : Bool) (ms : List Meeting) {s : State} (h : Disciplined b s) :
    Disciplined b (s.meet now ms) :=
  State.meet_keeps (P := Disciplined b) (fun _ => disciplined_markEdge now) (fun _ => disciplined_windowEnd) ms h

theorem disciplined_meetAll {b} {s : State} (h : Disciplined b s) (o) : Disciplined b (s.meetAll o) :=
  disciplined_meet _ _ (disciplined_meet _ _ (disciplined_meet _ _ h))

theorem disciplined_crossings {b} {s : State} (h : Disciplined b s) (o) : Disciplined b (s.crossings o) :=
  State.crossings_keeps (P := Disciplined b) (fun now _ => disciplined_markEdge now) (fun _ => disciplined_windowEnd)
    (fun now _ => disciplined_registrationCrossing now) (fun _ => disciplined_fireCrossing)
    (fun _ => disciplined_decisionCrossing) (fun _ => disciplined_offerForCutting) o h

theorem disciplined_encoderChange {b} {s : State} (h : Disciplined b s) (x y o) :
    Disciplined b (s.encoderChange x y o) := by
  have h0 : Disciplined b { s with psu := s.psu.observe x y } := disciplined_withPsu h _
  unfold State.encoderChange; simp only; split
  · exact disciplined_meetAll h0 o
  · unfold State.forwardCount; simp only; split
    · exact disciplined_crossings (disciplined_withPsu h0 _) o
    · exact disciplined_meetAll (disciplined_withPsu h0 _) o
  · refine disciplined_meetAll ?_ o
    unfold State.reverseCount; simp only; split
    · rename_i hl
      refine disciplined_loseTracking (disciplined_withPsu (disciplined_withPsu h0 _) _) ?_
      simp only [State.excursionLost, Bool.and_eq_true] at hl
      exact (jobActive_iff _).1 hl.1.1
    · exact disciplined_withPsu h0 _
  · exact disciplined_meetAll (disciplined_setEvent (disciplined_withPsu h0 _) _) o

/-! ### Verdicts, supervision, the ring and requests -/

theorem disciplined_processSplice {b} {s : State} (h : Disciplined b s) (ha : InJob s) (r f) :
    Disciplined b (s.processSplice r f) := by
  unfold State.processSplice; split
  · have h1 := disciplined_setEventIf h ((condemnedRange s.jbc.table
        (rsnOffset s.trc.oldestRsn r)).escapes s.trc.decided) .spliceEscape
    simp only
    have hc : ∀ x, (s.trc.condemn x).queue = s.trc.queue ∧ (s.trc.condemn x).window = s.trc.window ∧
        (s.trc.condemn x).nextRsn = s.trc.nextRsn ∧ (s.trc.condemn x).decisions = s.trc.decisions := by
      intro x; unfold Trc.condemn; split <;> exact ⟨rfl, rfl, rfl, rfl⟩
    have e2 : ∀ (u : State) (b e), (u.setEventIf b e).trc = u.trc ∧ (u.setEventIf b e).jbc = u.jbc := by
      intro u b e; cases b <;> exact ⟨rfl, rfl⟩
    refine Disciplined.congr h1 { q := ?_, win := ?_, nr := ?_, spl := ?_, job := rfl, tp := rfl, held := rfl,
                                  hqt := rfl, lanes := rfl, first := rfl, cut := rfl, oc := rfl, hbs := rfl, hbt :=
                                      rfl, reg := rfl, watch := rfl, mwin := rfl, runs := ⟨rfl, rfl⟩, limits := ⟨rfl, rfl⟩, decisions := ?_, ksq := fun _ _ h3 h4 => ⟨h3, h4⟩, gw :=
                                          rfl, ct := rfl }
    · rw [(e2 _ _ _).1]; simp only; rw [(hc _).1]
    · rw [(e2 _ _ _).1]; simp only; rw [(hc _).2.1]
    · rw [(e2 _ _ _).1]; simp only; rw [(hc _).2.2.1]
    · intro _ hj; rw [(e2 _ _ _).2] at hj; exact absurd hj (InJob.not_stopped ha)
    · rw [(e2 _ _ _).1]; simp only; rw [(hc _).2.2.2]
  · exact h

/-- A verdict put in the window adds its RSN where it was not held (R75). -/
theorem putVerdict_rsns (r v) (l : List HeldVerdict) :
    (putVerdict r v l).map HeldVerdict.rsn = if r ∈ l.map HeldVerdict.rsn then l.map HeldVerdict.rsn else
        l.map HeldVerdict.rsn ++ [r] := by
  induction l with
  | nil => simp [putVerdict]
  | cons x xs ih =>
    unfold putVerdict; split
    · rename_i hx; subst hx; simp
    · rename_i hx
      have hx' : ¬ r = x.rsn := fun hh => hx hh.symm
      rw [List.map_cons, ih, List.map_cons]
      by_cases hm : r ∈ xs.map HeldVerdict.rsn
      · rw [if_pos hm, if_pos (List.mem_cons_of_mem _ hm)]
      · rw [if_neg hm, if_neg (by rw [List.mem_cons]; tauto)]; rfl

theorem disciplined_withTrack {b} {s : State} (h : Disciplined b s) (ha : InJob s) (t : Trc)
    (hq : s.trc.queue.map Entry.rsnTail = t.queue.map Entry.rsnTail) (hn : t.nextRsn = s.trc.nextRsn)
    (hd : t.decisions = s.trc.decisions) (hw : (t.window.map HeldVerdict.rsn).Nodup ∧ ∀ h ∈ t.window, 0 ≤ (h.rsn - t.nextRsn).toInt ∧
       (h.rsn - t.nextRsn).toInt ≤ 63) : Disciplined b { s with trc := t } := by
  have h0 : Disciplined b { s with trc := { t with window := s.trc.window } } :=
    Disciplined.congr h { q := hq, win := rfl, nr := hn, spl := fun _ hj => absurd hj (InJob.not_stopped ha),
                          job := rfl, tp := rfl, held := rfl, hqt := rfl, lanes := rfl, first := rfl, cut :=
                              rfl, oc := rfl, hbs := rfl, hbt := rfl, reg := rfl, watch := rfl, mwin := rfl
                          runs := ⟨rfl, rfl⟩, limits := ⟨rfl, rfl⟩, decisions := hd
                          ksq := fun _ _ h3 h4 => ⟨h3, h4⟩, gw := rfl, ct := rfl }
  refine ⟨{ h0.1 with quiet := fun hx => absurd hx (InJob.not_stopped ha), window := ⟨window_length hw.1 hw.2, hw⟩ },
    fun hb => (h0.2 hb).congr rfl rfl rfl rfl (fun _ => rfl)⟩

theorem disciplined_takeVerdict {b} {s : State} (h : Disciplined b s) (src p) :
    Disciplined b (s.takeVerdict src p) := by
  unfold State.takeVerdict; split
  · rename_i hc
    have ha : InJob s := (jobActive_iff s).1 (by simp only [Bool.and_eq_true] at hc; exact hc.1)
    have e2 : ∀ (u : State) (b e), (u.setEventIf b e).trc = u.trc ∧ (u.setEventIf b e).jbc = u.jbc := by
      intro u b e; cases b <;> exact ⟨rfl, rfl⟩
    unfold State.classifyVerdict; simp only; split
    · exact disciplined_setEvent h _
    · rename_i hle; split
      · rename_i h0
        apply disciplined_processSplice
        · unfold State.storeVerdict; simp only
          refine disciplined_withTrack (disciplined_setEventIf h _ _)
              (by unfold InJob; rw [(e2 _ _ _).2]; exact ha) _ (by rw [(e2 _ _ _).1]) (by rw [(e2 _ _ _).1])
              (by rw [(e2 _ _ _).1]) ?_
          simp only
          have hw := h.1.window.2
          rw [putVerdict_rsns]
          constructor
          · split
            · exact hw.1
            · rename_i hm; rw [List.nodup_append]; exact ⟨hw.1,
                  by simp, by intro x hx y hy hxy; simp at hy; subst hy; subst hxy; exact hm hx⟩
          · intro x hx
            have hx' : x.rsn ∈ (putVerdict (word16 p.b4 p.b5) (mergeVerdict (s.trc.heldVerdict? (word16 p.b4 p.b5))
                (verdictOf p)) s.trc.window).map HeldVerdict.rsn := List.mem_map_of_mem hx
            rw [putVerdict_rsns] at hx'
            have hm : x.rsn ∈ s.trc.window.map HeldVerdict.rsn ∨ x.rsn = word16 p.b4 p.b5 := by
              split at hx'
              · exact Or.inl hx'
              · simpa using hx'
            rcases hm with hm | hm
            · obtain ⟨y, hy, hye⟩ := List.mem_map.1 hm
              rw [← hye]; exact hw.2 y hy
            · rw [hm]; exact ⟨h0, not_lt.1 hle⟩
        · unfold State.storeVerdict InJob; simp only; rw [(e2 _ _ _).2]; exact ha
      · split
        · apply disciplined_processSplice
          · unfold State.mergeIntoEntry; simp only
            refine disciplined_withTrack (disciplined_setEventIf h _ _)
                (by unfold InJob; rw [(e2 _ _ _).2]; exact ha) _ ?_ (by rw [(e2 _ _ _).1]) (by rw [(e2 _ _ _).1]) h.1.window.2
            rw [(e2 _ _ _).1, List.map_map]; apply List.map_congr_left; intro x _
            simp only [Function.comp]; split <;> rfl
          · unfold State.mergeIntoEntry InJob; simp only; rw [(e2 _ _ _).2]; exact ha
        · exact disciplined_processSplice (disciplined_setEvent h _) ha _ _
  · exact h

theorem disciplined_takeHeartbeat {b} {s : State} (h : Disciplined b s) (src p) :
    Disciplined b (s.takeHeartbeat src p) := by
  unfold State.takeHeartbeat; split
  · rename_i hc
    have ha : InJob s := (jobActive_iff s).1 (by simp only [Bool.and_eq_true] at hc; exact hc.1.1)
    exact ⟨{ h.1 with quiet := fun hx => absurd hx (InJob.not_stopped ha),
                      supervised := ⟨fun _ => ⟨ha, by simp [Jbc.acceptHeartbeat]⟩, fun _ => rfl⟩ }, h.2⟩
  · exact h

theorem disciplined_heartbeatExpiry {b} {s : State} (h : Disciplined b s) (hs : s.jbc.hbTimer.isSome = true) :
    Disciplined b s.heartbeatExpiry := by
  have ha : InJob s := (h.1.supervised.1 hs).1
  have hn := (h.1.supervised.1 hs).2
  unfold State.heartbeatExpiry; split
  · apply disciplined_setEvent
    exact ⟨{ h.1 with quiet := fun hx => absurd hx (InJob.not_stopped ha),
                      supervised := ⟨fun _ => ⟨ha, by simp⟩, fun _ => rfl⟩ }, h.2⟩
  · apply disciplined_setEvent
    exact ⟨{ h.1 with quiet := fun hx => absurd hx (InJob.not_stopped ha),
                      supervised := ⟨fun hx => absurd (show (none : Option Nat).isSome = true from hx) (by simp),
                          fun hx => absurd rfl hx.2⟩ }, h.2⟩
  · rename_i hx; exact absurd hx hn

theorem disciplined_withPlans {b} {s : State} (h : Disciplined b s) (x) : Disciplined b { s with bsq := x } :=
    Disciplined.congr h (by constructor <;> first | rfl | exact ⟨rfl, rfl⟩ | (intros; assumption) | (intros; exact ⟨by assumption, by assumption⟩))

theorem disciplined_withRif {b} {s : State} (h : Disciplined b s) (x) : Disciplined b { s with rif := x } :=
    Disciplined.congr h (by constructor <;> first | rfl | exact ⟨rfl, rfl⟩ | (intros; assumption) | (intros; exact ⟨by assumption, by assumption⟩))

theorem disciplined_withMge {b} {s : State} (h : Disciplined b s) (x) : Disciplined b { s with mge := x } :=
    Disciplined.congr h (by constructor <;> first | rfl | exact ⟨rfl, rfl⟩ | (intros; assumption) | (intros; exact ⟨by assumption, by assumption⟩))

theorem disciplined_afterReset {b} (n i x y) (s : State) : Disciplined b (s.afterReset n i x y) := by
  refine ⟨{ quiet := fun _ => ⟨rfl, rfl, rfl, rfl, rfl, rfl, rfl, rfl, rfl⟩, numbered := trivial,
            window := ⟨Nat.zero_le 64, List.nodup_nil, fun h hh => absurd hh List.not_mem_nil⟩
            limits := (by decide : 1 ≤ 3 ∧ 3 ≤ 15 ∧ 1 ≤ 2 ∧ 2 ≤ 8)
            registration :=
              { watch := by simp [State.afterReset, mruAtReset], window := by simp [State.afterReset, mruAtReset]
                missRun := by simp [State.afterReset, mruAtReset], run := by simp [State.afterReset, mruAtReset] }
            gates := fun _ i => ?_, newest :=
                fun h hh => absurd hh List.not_mem_nil, tail := fun h hh => absurd hh List.not_mem_nil, pending :=
                    fun h => absurd (show false = true from h) (by decide), held := fun h => absurd rfl h, trim :=
                        fun h => ?_, supervised := ⟨fun h => absurd (show false = true from h) (by decide),
                            fun h => ?_⟩ }, fun _ => ⟨⟨0, fun h => absurd rfl h,
                                fun i => ⟨fun h => absurd h (Nat.not_lt_zero _), fun _ => ?_⟩⟩, fun h => absurd rfl h⟩⟩
  · show (Lanes.all _).get i = _; rw [Lanes.get_all]
  · have h : JobState.idle = .run ∨ JobState.idle = .drain := h; simp at h
  · have h : JobState.idle = .run ∨ JobState.idle = .drain := h.1; simp at h
  · show (Lanes.all tallyAtReset).get i = _; rw [Lanes.get_all]

/-- The discipline through traffic on the ring. -/
theorem disciplined_traffic (b : Prop) : KeptByTraffic (Disciplined b) where
  rif _ _ h := disciplined_withRif h _
  mge _ _ h := disciplined_withMge h _
  bsq _ _ h := disciplined_withPlans h _
  draws _ _ h := Disciplined.congr h (by constructor <;> first | rfl | exact ⟨rfl, rfl⟩ | (intros; assumption) | (intros; exact ⟨by assumption, by assumption⟩))
  verdict _ _ _ h := disciplined_takeVerdict h _ _
  heartbeat _ _ _ h := disciplined_takeHeartbeat h _ _
  reset _ _ _ _ _ _ := disciplined_afterReset _ _ _ _ _

theorem disciplined_setRow {b} {s : State} (h : Disciplined b s) (i r) : Disciplined b (s.setRow i r) :=
    Disciplined.congr h (by unfold State.setRow; constructor <;> first | rfl | exact ⟨rfl, rfl⟩ | (intros; assumption) | (intros; exact ⟨by assumption, by assumption⟩))

/-- A value in the range of its field leaves MISS_LIMIT and LOCK_COUNT in theirs (2.1, R13). -/
theorem limits_set {t : JobTable} (h : 1 ≤ t.missLimit ∧ t.missLimit ≤ 15 ∧ 1 ≤ t.lockCount ∧ t.lockCount ≤ 8)
    {f : JobField} {v : Int} (hr : f.inRange v = true) :
    1 ≤ (t.set v f).missLimit ∧ (t.set v f).missLimit ≤ 15 ∧ 1 ≤ (t.set v f).lockCount ∧ (t.set v f).lockCount ≤ 8 := by
  simp only [JobField.inRange, Bool.and_eq_true, decide_eq_true_eq] at hr
  cases f <;> try exact h
  · have h1 : (1 : Int) ≤ v ∧ v ≤ 15 := hr
    show 1 ≤ v.toNat ∧ v.toNat ≤ 15 ∧ 1 ≤ t.lockCount ∧ t.lockCount ≤ 8
    omega
  · have h1 : (1 : Int) ≤ v ∧ v ≤ 8 := hr
    show 1 ≤ t.missLimit ∧ t.missLimit ≤ 15 ∧ 1 ≤ v.toNat ∧ v.toNat ≤ 8
    omega

/-- A job table written in IDLE (R29). -/
theorem disciplined_withTable {b} {s : State} (h : Disciplined b s) (hi : s.jbc.job = .idle) {t : JobTable}
    (hl : 1 ≤ t.missLimit ∧ t.missLimit ≤ 15 ∧ 1 ≤ t.lockCount ∧ t.lockCount ≤ 8) :
    Disciplined b { s with jbc := { s.jbc with table := t } } := by
  have hq := h.1.quiet (Or.inl hi)
  have hr := h.1.registration
  refine ⟨{ h.1 with held := fun hx => absurd hi hx, trim := fun hx => ?_, limits := hl, registration := ?_ },
    fun hb => (h.2 hb).idle rfl rfl hi⟩
  rotate_left
  · exact { watch := hr.watch, window := hr.window
            missRun := ⟨fun hw => by simp [hq] at hw, hr.missRun.2⟩
            run := ⟨fun hc => by simp [hq] at hc, hr.run.2⟩ }
  have hx : s.jbc.job = .run ∨ s.jbc.job = .drain := hx
  rw [hi] at hx; simp at hx

theorem disciplined_runWrite {b} : ∀ q t, Disciplined b t → Disciplined b (State.runWrite q t).1 := by
  intro q t h
  unfold State.runWrite; split
  · split
    · unfold State.writeJob; split
      · exact h
      · rename_i hi; split
        · rename_i hr
          exact disciplined_withTable h (not_not.1 hi) (limits_set h.1.limits hr)
        · exact h
    · exact h
  · unfold State.writeLane; simp only; split
    · exact h
    · split
      · exact disciplined_setRow h _ _
      · exact disciplined_setRow h _ _
  · unfold State.writeBatch; simp only; split
    · exact h
    · split
      · exact h
      · split
        · exact h
        · exact disciplined_withPlans h _
  · unfold State.writeRing; split <;> split <;> first | exact h | exact disciplined_withRif h _
  · exact h

theorem disciplined_withStopLatch {b} {s : State} (h : Disciplined b s) (v) :
    Disciplined b { s with jbc := { s.jbc with stopLatch := v } } :=
        Disciplined.congr h (by constructor <;> first | rfl | exact ⟨rfl, rfl⟩ | (intros; assumption) | (intros; exact ⟨by assumption, by assumption⟩))

theorem disciplined_withWaste {b} {s : State} (h : Disciplined b s) (v) :
    Disciplined b { s with jbc := { s.jbc with waste := v } } :=
        Disciplined.congr h (by constructor <;> first | rfl | exact ⟨rfl, rfl⟩ | (intros; assumption) | (intros; exact ⟨by assumption, by assumption⟩))

theorem disciplined_startJob {b} {s : State} (h : Disciplined b s) (hi : s.jbc.job = .idle) :
    Disciplined b s.startJob := by
  have hq := h.1.quiet (Or.inl hi)
  have q0 : s.startJob.trc.queue = [] := hq.1
  have na : ¬ (s.startJob.jbc.job = .idle ∨ s.startJob.jbc.job = .halt) :=
      InJob.not_stopped (s := s.startJob) (Or.inl rfl)
  refine ⟨{ quiet := fun hx => absurd hx na,
            numbered := by rw [q0]; trivial
            window := ⟨Nat.zero_le 64, List.nodup_nil, fun h hh => absurd hh List.not_mem_nil⟩
            limits := h.1.limits
            registration := by refine ⟨?_, ?_, ?_, ?_⟩ <;> simp [State.startJob, Mru.startJob]
            gates := fun _ i => h.1.gates hq.1 i
            newest := by rw [q0]; simp
            tail := by rw [q0]; simp
            pending := fun hx => absurd (show false = true from hx) (by decide)
            held := fun _ => rfl
            trim := fun _ => ?_
            supervised := ⟨fun _ => ⟨Or.inl rfl, by simp [State.startJob, Jbc.startJob]⟩, fun _ => rfl⟩ },
    fun _ => ⟨⟨s.jbc.table.lanes, fun _ => rfl, fun i => ⟨fun _ => ?_, fun _ => ?_⟩⟩, fun _ => ?_⟩⟩
  · show s.jbc.table.cutOffset - 2000 ≤ s.jbc.table.cutOffset ∧ s.jbc.table.cutOffset ≤ s.jbc.table.cutOffset + 2000
    omega
  · show ((Lanes.all tallyAtReset).get i).total = BitVec.ofNat 32 0
    rw [Lanes.get_all]; decide
  · show (Lanes.all tallyAtReset).get i = _; rw [Lanes.get_all]
  · rw [q0]
    show BitVec.ofNat 16 0 = BitVec.ofNat 16 s.jbc.table.firstRsn - BitVec.ofNat 16 s.jbc.table.firstRsn - BitVec.ofNat 16 0
    simp

end Sys2Proof.Machine
end

