-- ==== Sys2Proof/Laws/Registration.lean ====
section
/-! SUPPORT. What MRU's three creations leave, each said once: the mark in SEARCH, the mark in a window, and the miss. -/

namespace Sys2Proof.Machine

/-! ### The events of the knife -/

/-- No flag but the knife's own two differs. -/
def KnifeFlags (s t : State) : Prop := ∀ e : Event, e ≠ .cutSuppressed → e ≠ .cutLate → t.flag e = s.flag e

theorem State.takeFire_knifeFlags (r : Rsn) (how : FireFound) (s : State) : KnifeFlags s (s.takeFire r how) := by
  intro e h1 h2
  have hs : ∀ e' : Event, e ≠ e' → (s.setEvent e').flag e = s.flag e := fun e' h => by
    rw [State.flag_setEvent]
    simp [h]
  unfold State.takeFire
  split
  · exact hs _ h1
  · simp only
    split
    · exact hs _ h2
    · rfl

theorem State.armFrom_knifeFlags (l : List Entry) (s : State) : KnifeFlags s (State.armFrom l s) := by
  induction l generalizing s with
  | nil => exact fun _ _ _ => rfl
  | cons e rest ih =>
    unfold State.armFrom
    split
    · exact ih s
    · split
      · exact fun _ _ _ => rfl
      · exact fun x h1 h2 => (ih _ x h1 h2).trans (State.takeFire_knifeFlags _ _ s x h1 h2)

theorem State.fireCrossing_knifeFlags (s : State) : KnifeFlags s s.fireCrossing := by
  unfold State.fireCrossing
  split
  · split
    · exact fun e h1 h2 => (State.armFrom_knifeFlags _ _ e h1 h2).trans (State.takeFire_knifeFlags _ _ s e h1 h2)
    · exact fun _ _ _ => rfl
  · exact fun _ _ _ => rfl

theorem State.createEntry_knifeFlags (now : Bool) (s : State) (q : Creation) : KnifeFlags s (s.createEntry now q) := by
  have ho : ∀ a : State, KnifeFlags a (a.offerIf now) := fun a => by
    unfold State.offerIf State.offerForCutting
    split
    · split
      · exact State.armFrom_knifeFlags _ a
      · exact fun _ _ _ => rfl
    · exact fun _ _ _ => rfl
  intro e h1 h2
  refine (ho _ e h1 h2).trans ?_
  split <;> rfl

/-! ### Offers -/

/-- Machines that hold the same for KSQ offer alike. -/
theorem SameForKnife.offered {s t : State} {before : List Event} {e : Entry}
    (h : SameForKnife (({ s with trc := { s.trc with queue := s.trc.queue ++ [e] } } : State).withEvents before)
      { t with trc := { t.trc with queue := t.trc.queue ++ [e] } }) :
    SameForKnife (s.offered before e) (t.offered [] e) := by
  have ht : t.offered [] e = if t.ksq.armed = none then
      ({ t with trc := { t.trc with queue := t.trc.queue ++ [e] } } : State).settled
    else { t with trc := { t.trc with queue := t.trc.queue ++ [e] } } := rfl
  have hk : t.ksq = (({ s with trc := { s.trc with queue := s.trc.queue ++ [e] } } : State).withEvents before).ksq := h.ksq
  rw [ht]
  unfold State.offered
  simp only [← hk]
  by_cases ha : t.ksq.armed = none
  · rw [if_pos ha, if_pos ha]
    exact h.settled
  · rw [if_neg ha, if_neg ha]
    exact h

/-! ### The three creations -/

/-- What an accepted mark in SEARCH leaves (R47). -/
structure SearchMark (s : State) (c : Position) (t : State) : Prop where
  created : EntryCreated s t .seen c (some 0) .fault
  mru : t.mru = { s.anchoredAt c with
    lastRegErr := 0, lastMark := some c, missRun := 0, run := 0
    reg := if s.jbc.tailPending then .idle else .capture, watch := !s.jbc.tailPending }
  offered : ((s.trc.queue ++ [s.entryFor .seen c (some 0) .fault]).map Entry.rsn).Nodup →
    Offered s t [] (s.entryFor .seen c (some 0) .fault) []

theorem State.acceptInSearch_spec (s : State) (c : Position) : SearchMark s c (s.acceptInSearch true c) := by
  have hc := s.createEntry_creates true { kind := .seen, mark := c, regErr := some 0, regFlag := .fault }
  refine ⟨?_, ?_, fun hn => ?_⟩
  · exact hc.ent.after rfl rfl rfl rfl rfl rfl ⟨rfl, rfl, rfl, rfl, rfl⟩ ⟨rfl, rfl, rfl, rfl⟩
  · unfold State.acceptInSearch
    simp only [hc.mru, hc.ent.quantities]
    cases s.jbc.tailPending <;> rfl
  · have ho := hc.offer rfl hn
    exact ⟨ho.queue, ho.ksq, ho.mge⟩

/-- What an accepted mark in a window leaves (R49, R50, R51, R53). -/
structure WindowMark (s : State) (win : MarkWindow) (c : Position) (t : State) : Prop where
  created : EntryCreated s t .seen c (some (c - win.centre).toInt)
    (if s.lockedAfterMark = true ∧ (c - win.centre).toInt.natAbs ≤ s.quantities.tol then .ok else .fault)
  gained : s.mru.reg = .capture → s.lockedAfterMark = true → t.flag .lockGained = true
  noMiss : t.flag .markMiss = s.flag .markMiss
  mru : t.mru = Mru.windowAccepted s.quantities c (c - win.centre).toInt s.jbc.tailPending
    (if s.jbc.tailPending then { s.mru.countTowardsLock s.jbc.table.lockCount with reg := .idle, watch := false }
      else s.mru.countTowardsLock s.jbc.table.lockCount)
  offered : ∀ e, e = s.entryFor .seen c (some (c - win.centre).toInt)
      (if s.lockedAfterMark = true ∧ (c - win.centre).toInt.natAbs ≤ s.quantities.tol then .ok else .fault) →
    ((s.trc.queue ++ [e]).map Entry.rsn).Nodup →
      Offered s t (if s.mru.reg = .capture ∧ s.lockedAfterMark = true then [.lockGained] else []) e []

theorem State.acceptInWindow_spec {s : State} (win : MarkWindow) (c : Position)
    (hr : s.mru.reg = .capture ∨ s.mru.reg = .locked) : WindowMark s win c (s.acceptInWindow true win c) := by
  have hL := Mru.countTowardsLock_reg s hr
  have hgain : (s.mru.reg == .capture && (s.mru.countTowardsLock s.jbc.table.lockCount).reg == .locked) =
      decide (s.mru.reg = .capture ∧ s.lockedAfterMark = true) := by
    rw [Bool.eq_iff_iff]
    simp [hL.1]
  set re := (c - win.centre).toInt with hre
  set u : State := ({ s with mru := s.mru.countTowardsLock s.jbc.table.lockCount } : State).setEventIf
    (decide (s.mru.reg = .capture ∧ s.lockedAfterMark = true)) .lockGained with hu
  have hparts : u.trc = s.trc ∧ u.jbc = s.jbc ∧ u.psu = s.psu ∧ u.gtu = s.gtu ∧ u.bsq = s.bsq ∧ u.rif = s.rif ∧
      u.ksq = s.ksq ∧ u.mru = s.mru.countTowardsLock s.jbc.table.lockCount ∧
      u.mge = (s.withEvents (if s.mru.reg = .capture ∧ s.lockedAfterMark = true then [.lockGained] else [])).mge ∧
      (u.mge.requests = s.mge.requests ∧ u.mge.resetPending = s.mge.resetPending ∧ u.mge.mask = s.mge.mask ∧
        u.mge.snap = s.mge.snap ∧ u.mge.gen = s.mge.gen) ∧
      (u.inhibitLine = s.inhibitLine ∧ u.resetHeld = s.resetHeld ∧ u.draws = s.draws ∧ u.pending = s.pending) := by
    rw [hu, State.withEvents_eq]
    unfold State.setEventIf
    by_cases h : s.mru.reg = .capture ∧ s.lockedAfterMark = true
    · rw [if_pos (by simpa using h), if_pos h]
      exact ⟨rfl, rfl, rfl, rfl, rfl, rfl, rfl, rfl, rfl, ⟨rfl, rfl, rfl, rfl, rfl⟩, rfl, rfl, rfl, rfl⟩
    · rw [if_neg (by simpa using h), if_neg h]
      exact ⟨rfl, rfl, rfl, rfl, rfl, rfl, rfl, rfl, rfl, ⟨rfl, rfl, rfl, rfl, rfl⟩, rfl, rfl, rfl, rfl⟩
  obtain ⟨g1, g2, g3, g4, g5, g6, g7, g8, g9, ⟨k1, k2, k3, k4, k5⟩, k6, k7, k8, k9⟩ := hparts
  have hq : u.quantities = s.quantities := by unfold State.quantities; rw [g2]
  set flag : RegFlag := if s.lockedAfterMark = true ∧ re.natAbs ≤ s.quantities.tol then .ok else .fault with hflag
  have hf : regFlagOf ((s.mru.countTowardsLock s.jbc.table.lockCount).reg == .locked &&
      decide (re.natAbs ≤ u.quantities.tol)) = flag := by
    rw [hq, hflag]
    unfold regFlagOf
    by_cases h1 : s.lockedAfterMark = true <;> by_cases h2 : re.natAbs ≤ s.quantities.tol <;>
      simp [h1, h2, hL.1.2, mt hL.1.1]
  have hfin : s.acceptInWindow true win c =
      { u.createEntry true { kind := .seen, mark := c, regErr := some re, regFlag := flag } with
        mru := (u.createEntry true { kind := .seen, mark := c, regErr := some re, regFlag := flag }).mru.windowAccepted
          (u.createEntry true { kind := .seen, mark := c, regErr := some re, regFlag := flag }).quantities c re
          s.jbc.tailPending } := by
    rw [← hf, hu, ← hgain]
    rfl
  have hc := u.createEntry_creates true { kind := .seen, mark := c, regErr := some re, regFlag := flag }
  have hent : u.entryFor .seen c (some re) flag = s.entryFor .seen c (some re) flag := by
    unfold State.entryFor
    rw [g1, g2]
  rw [hfin]
  refine ⟨?_, fun h1 h2 => ?_, ?_, ?_, fun e he hn => ?_⟩
  · have h := hc.ent
    refine EntryCreated.after (t := u.createEntry true { kind := .seen, mark := c, regErr := some re, regFlag := flag }) ?_
      rfl rfl rfl rfl rfl rfl ⟨rfl, rfl, rfl, rfl, rfl⟩ ⟨rfl, rfl, rfl, rfl⟩
    have hx := h.entry
    have hk := h.kept
    have hm := h.mge
    have ho := h.outside
    rw [g1] at hx hk
    rw [hent] at hx
    rw [k1, k2, k3, k4, k5] at hm
    rw [k6, k7, k8, k9] at ho
    exact ⟨hx, by rw [h.nextRsn, g1], by rw [h.window, g1], by rw [h.watch, g1], hk, by rw [h.jbc, g2],
      by rw [h.psu, g3], by rw [h.gtu, g4], by rw [h.bsq, g5], by rw [h.rif, g6], hm, ho⟩
  · refine hc.flags _ ?_
    rw [hu]
    simp [State.setEventIf, h1, h2, State.flag_setEvent]
  · refine (u.createEntry_knifeFlags true _ .markMiss (by decide) (by decide)).trans ?_
    rw [hu]
    unfold State.setEventIf
    split
    · rw [State.flag_setEvent]
      simp only [show (Event.markMiss = Event.lockGained) = False from by simp, decide_false, Bool.or_false]
      rfl
    · rfl
  · simp only [hc.mru, hc.ent.quantities, hq, g2, g8, ← hre]
  · have ho := hc.offer rfl (by
      rw [g1]
      show (List.map Entry.rsn (s.trc.queue ++ [u.entryFor .seen c (some re) flag])).Nodup
      rw [hent, ← he]
      exact hn)
    have hsame := SameForKnife.offered (s := s) (t := u) (e := e)
      (before := if s.mru.reg = .capture ∧ s.lockedAfterMark = true then [.lockGained] else [])
      ⟨by rw [State.withEvents_eq]; exact g3, by rw [State.withEvents_eq]; simp only [g2],
        by rw [State.withEvents_eq]; simp only [g2], by rw [State.withEvents_eq]; exact g7,
        by rw [State.withEvents_eq]; simp only [g9, State.withEvents_eq],
        by rw [State.withEvents_eq]; simp only [g1]⟩
    have hee : u.newEntry { kind := .seen, mark := c, regErr := some re, regFlag := flag } = e := by
      rw [he]; exact hent
    rw [hee] at ho
    exact ⟨ho.queue.trans hsame.queue, ho.ksq.trans hsame.ksq, ho.mge.trans hsame.mge⟩

/-- The registration flag of a miss's entry (R52 step 4). -/
def State.missFlag (s : State) : RegFlag :=
  if s.mru.reg = .locked ∧ s.mru.missRun + 1 < s.jbc.table.missLimit then .ok else .fault

/-- What a miss of window `win` leaves (R52, R53). -/
structure MissTaken (win : MarkWindow) (s t : State) : Prop where
  created : EntryCreated s t .synth win.centre none s.missFlag
  missed : t.flag .markMiss = true
  lost : s.mru.reg = .locked → s.mru.missRun + 1 = s.jbc.table.missLimit → t.flag .lockLost = true
  mru : t.mru = (if s.jbc.tailPending then { s.mru.countMiss with reg := .idle, watch := false }
    else s.mru.countMiss).afterMiss s.quantities win.centre s.jbc.tailPending s.missReachesLimit
  ksq : s.ksq.armed.isSome = true → t.ksq = s.ksq
  offered : ∀ e, e = s.entryFor .synth win.centre none s.missFlag → ((s.trc.queue ++ [e]).map Entry.rsn).Nodup →
    Offered s t [] e
      (.markMiss :: if s.mru.reg = .locked ∧ s.mru.missRun + 1 = s.jbc.table.missLimit then [.lockLost] else [])

theorem State.takeMiss_spec (win : MarkWindow) (s : State) : MissTaken win s (s.takeMiss true win) := by
  set q : Creation := { kind := .synth, mark := win.centre, regErr := none, regFlag := s.missFlag } with hq
  set u : State := { s with mru := s.mru.countMiss } with hu
  have hc := u.createEntry_creates true q
  have hflag : regFlagOf s.missIsGood = s.missFlag := by
    unfold regFlagOf State.missFlag State.missIsGood
    by_cases h1 : s.mru.reg = .locked <;> by_cases h2 : s.mru.missRun + 1 < s.jbc.table.missLimit <;> simp [h1, h2]
  have hlost : (s.missReachesLimit && s.mru.reg == .locked) =
      decide (s.mru.reg = .locked ∧ s.mru.missRun + 1 = s.jbc.table.missLimit) := by
    rw [Bool.eq_iff_iff]
    simp [State.missReachesLimit, and_comm]
  have hfin : s.takeMiss true win =
      (({ u.createEntry true q with
        mru := (u.createEntry true q).mru.afterMiss (u.createEntry true q).quantities win.centre s.jbc.tailPending
          s.missReachesLimit } : State).setEvent .markMiss).setEventIf
        (decide (s.mru.reg = .locked ∧ s.mru.missRun + 1 = s.jbc.table.missLimit)) .lockLost := by
    rw [← hlost, hq, ← hflag, hu]
    rfl
  have hsame : ∀ (b : Bool) (v : State), (v.setEventIf b .lockLost).mru = v.mru ∧ (v.setEventIf b .lockLost).ksq = v.ksq ∧
      (v.setEventIf b .lockLost).trc = v.trc := fun b v => by cases b <;> exact ⟨rfl, rfl, rfl⟩
  rw [hfin]
  refine ⟨?_, ?_, fun h1 h2 => ?_, ?_, fun ha => ?_, fun e he hn => ?_⟩
  · have h := hc.ent
    have h' : EntryCreated s (u.createEntry true q) .synth win.centre none s.missFlag :=
      ⟨h.entry, h.nextRsn, h.window, h.watch, h.kept, h.jbc, h.psu, h.gtu, h.bsq, h.rif, h.mge, h.outside⟩
    cases decide (s.mru.reg = .locked ∧ s.mru.missRun + 1 = s.jbc.table.missLimit)
    · exact h'.after rfl rfl rfl rfl rfl rfl ⟨rfl, rfl, rfl, rfl, rfl⟩ ⟨rfl, rfl, rfl, rfl⟩
    · exact h'.after rfl rfl rfl rfl rfl rfl ⟨rfl, rfl, rfl, rfl, rfl⟩ ⟨rfl, rfl, rfl, rfl⟩
  · refine FlagsKept.setEventIf _ _ _ _ ?_
    simp [State.flag_setEvent]
  · rw [decide_eq_true (show s.mru.reg = .locked ∧ _ from ⟨h1, h2⟩)]
    simp [State.setEventIf, State.flag_setEvent]
  · rw [(hsame _ _).1]
    show (u.createEntry true q).mru.afterMiss _ _ _ _ = _
    rw [hc.mru, hc.ent.quantities]
    rfl
  · rw [(hsame _ _).2.1]
    exact hc.ksq ha
  · have hee : u.newEntry q = e := he.symm
    have ho := hc.offer rfl (by rw [hee]; exact hn)
    rw [hee] at ho
    have hs := SameForKnife.offered (s := s) (t := u) (e := e) (before := []) ⟨rfl, rfl, rfl, rfl, rfl, rfl⟩
    refine ⟨?_, ?_, ?_⟩
    · rw [(hsame _ _).2.2]
      exact ho.queue.trans hs.queue
    · rw [(hsame _ _).2.1]
      exact ho.ksq.trans hs.ksq
    · have hm : (u.createEntry true q).mge = (s.offered [] e).mge := ho.mge.trans hs.mge
      rw [State.withEvents_eq, ← hm]
      by_cases h : s.mru.reg = .locked ∧ s.mru.missRun + 1 = s.jbc.table.missLimit
      · rw [if_pos h, decide_eq_true h]
        rfl
      · rw [if_neg h, decide_eq_false h]
        rfl

/-- An armed window end reached is the miss (R52). -/
theorem State.registrationCrossing_reached (now : Bool) {s : State} {win : MarkWindow}
    (hr : s.mru.reg = .capture ∨ s.mru.reg = .locked)
    (hw : s.mru.watch = true) (hwin : s.mru.window = some win) (he : win.ending = s.psu.hw) :
    s.registrationCrossing now = s.takeMiss now win := by
  have : s.forgetLastMark = s := by
    unfold State.forgetLastMark
    rcases hr with h | h <;> simp [h]
  unfold State.registrationCrossing
  rw [this]
  simp [hwin, hw, he]

/-- A creation whose entry is not the only one with its S at `h` arms no decision there. -/
theorem EntryCreated.noDecision {s t : State} {k m r f} {h : Position} (he : EntryCreated s t k m r f)
    (hn : s.NoDecisionAt h) (hs : s.trc.queue = [] → (placed s.jbc.table s.jbc.ocEff m).2 ≠ h) : t.NoDecisionAt h := by
  intro hw hx
  rw [he.watch] at hw
  have hd := congrArg (fun l : List Entry => (l.head?).map Entry.decisionPoint) he.entry
  have hc : ∀ l : List Entry, ((l.map Entry.sansCut).head?).map Entry.decisionPoint = (l.head?).map Entry.decisionPoint :=
    fun l => by cases l <;> rfl
  simp only [hc] at hd
  rw [hx] at hd
  cases hv : s.trc.queue with
  | nil =>
    rw [hv] at hd
    exact hs hv (Option.some.inj hd).symm
  | cons a as =>
    rw [hv] at hd hw
    refine hn (by simpa using hw) ?_
    rw [hv]
    exact hd.symm

/-- A fire or an arming arms no decision. -/
theorem KnifeFrame.noDecision {s t : State} {h : Position} (hf : KnifeFrame s t) (hn : s.NoDecisionAt h) :
    t.NoDecisionAt h := by
  intro hw hx
  refine hn (by rw [← hf.watch]; exact hw) ?_
  have e := congrArg (fun l : List Entry => (l.head?).map Entry.decisionPoint) (hf.cuts _ Entry.sansCut_withCut)
  have hc : ∀ l : List Entry, ((l.map Entry.sansCut).head?).map Entry.decisionPoint = (l.head?).map Entry.decisionPoint :=
    fun l => by cases l <;> rfl
  simp only [hc] at e
  rw [← e]
  exact hx

end Sys2Proof.Machine
end

