-- ==== Sys2Proof/Laws/Requests.lean ====
section
/-! SUPPORT. The start of a request, once for every row: when it starts, what a failed check answers, and what the answer of
the part's own work adds. -/

namespace Sys2Proof.Machine

theorem State.startRequest_cannot (row : StartRow) (run : Request → State → State × Answer) {s : State}
    (h : s.canStart = false) : s.startRequest row run = s := by
  unfold State.startRequest
  split <;> simp [h]

/-- A head request of the row that can start is carried out (R161). -/
theorem State.startRequest_starts {s : State} {q : Request} {rest : List Request} (h : s.Starts q rest)
    {row : StartRow} (hrow : q.startRow = row) (run : Request → State → State × Answer) :
    s.startRequest row run = s.carryOut run q := by
  obtain ⟨h1, h2, h3, h4⟩ := h
  have hc : s.canStart = true := by simp [State.canStart, h1, h3, h4, replyQueueSize]
  unfold State.startRequest
  rw [h2]
  simp [hc, hrow]

/-- The check that fails answers with value 0, and nothing else changes (R162). -/
theorem State.carryOut_fails {s : State} {q : Request} {rest : List Request} (hq : s.mge.requests = q :: rest)
    {r : Result} (hr : s.requestCheck q = some r) (run : Request → State → State × Answer) :
    s.carryOut run q = s.answered rest (q.reply r 0) := by
  have hc : s.popRequest.requestCheck q = some r := hr
  unfold State.carryOut
  simp only [hc]
  simp [State.queueReply, State.popRequest, hq, State.answered, Request.reply]

/-- Past the checks, the work is done on the machine without the head request and its answer queued (R161). -/
theorem State.carryOut_passes {s : State} {q : Request} (hr : s.requestCheck q = none)
    (run : Request → State → State × Answer) :
    s.carryOut run q = (run q s.popRequest).1.queueReply q (run q s.popRequest).2 := by
  have hc : s.popRequest.requestCheck q = none := hr
  simp only [State.carryOut, hc]

theorem State.queueReply_some (s : State) (q : Request) (r : Result) (v : BitVec 32) :
    s.queueReply q ⟨r, some v⟩ = { s with rif := { s.rif with replies := s.rif.replies ++ [q.reply r v] } } := rfl

theorem State.queueReply_none (s : State) (q : Request) (r : Result) :
    s.queueReply q ⟨r, none⟩ =
      { s with rif := { s.rif with replies := s.rif.replies ++ [q.reply r (Config.refusalValue s.draws)] },
               draws := s.draws + 1 } := rfl

/-- An answer with no effect but the reply. -/
theorem State.answer_some {s : State} {q : Request} {rest : List Request} (hq : s.mge.requests = q :: rest)
    (r : Result) (v : BitVec 32) : s.popRequest.queueReply q ⟨r, some v⟩ = s.answered rest (q.reply r v) := by
  simp [State.queueReply, State.popRequest, hq, State.answered, Request.reply]

/-- A refusal with a value that no rule states. -/
theorem State.answer_none {s : State} {q : Request} {rest : List Request} (hq : s.mge.requests = q :: rest)
    (r : Result) :
    s.popRequest.queueReply q ⟨r, none⟩ = s.answeredFree rest (q.reply r (Config.refusalValue s.draws)) := by
  simp [State.queueReply, State.popRequest, hq, State.answeredFree, State.answered, Request.reply]

/-- The ACCESS check of R162, in the words of the statements. -/
theorem State.mayCommand_iff (s : State) (q : Request) :
    s.MayCommand q ↔ ¬ (s.rif.managerNode ≠ 0 ∧ q.source.toNat ≠ s.rif.managerNode.toNat) := by
  unfold State.MayCommand
  tauto

/-- A request of an operation other than READ and WRITE passes every check when it may command the part. -/
theorem State.requestCheck_other {s : State} {q : Request} {op : Op} (ho : opOf q.op = some op) (h1 : op ≠ .read)
    (h2 : op ≠ .write) (hm : op = .snapshot ∨ s.MayCommand q) : s.requestCheck q = none := by
  have hm' := s.mayCommand_iff q
  unfold State.requestCheck
  rw [ho]
  simp only [h1, h2, false_or, false_and, if_false]
  rw [if_neg]
  rintro ⟨-, h3, h4⟩
  rcases hm with hm | hm
  · exact h3 hm
  · exact (hm'.1 hm) h4

/-- A WRITE that may command the part to a valid address passes the checks unless the address is read-only. -/
theorem State.requestCheck_write {s : State} {q : Request} (ho : q.op = 0x02#8) (hm : s.MayCommand q)
    (hv : validAddress q.table q.row q.field = true) :
    s.requestCheck q = if readOnlyAddress q.table q.field then some .readonly else none := by
  have hm' := (s.mayCommand_iff q).1 hm
  have h2 : opOf q.op = some .write := by rw [ho]; rfl
  unfold State.requestCheck
  rw [h2]
  simp only [hv]
  rw [if_neg (fun h => hm' h.2.2)]
  simp

/-- A READ of a valid address passes the checks, from any node. -/
theorem State.requestCheck_read (s : State) {q : Request} (ho : q.op = 0x01#8)
    (hv : validAddress q.table q.row q.field = true) : s.requestCheck q = none := by
  have h2 : opOf q.op = some .read := by rw [ho]; rfl
  unfold State.requestCheck
  rw [h2]
  simp [hv]

/-- The valid addresses, in the words of the statements (11.3). -/
theorem validAddress_iff (t r f : Nat) : validAddress t r f = true ↔ ValidAddress t r f := by
  unfold validAddress ValidAddress
  split <;> simp_all
  tauto

end Sys2Proof.Machine
end

