-- ==== Sys2Proof/Laws/Spacing.lean ====
section
/-! SUPPORT. Why the track queue holds at most 128 entries (R18, R62): the arithmetic of the GEOMETRY and CAPACITY checks, and
`State.Spaced` through each shared operation that moves HW, creates or removes an entry. -/

namespace Sys2Proof.Machine

/-! ### Entries apart on the web -/

/-- How far an entry's mark lies behind position `h`. -/
abbrev Entry.age (h : Position) (e : Entry) : Nat := (h - e.mark).toNat

/-- The distance from an entry's mark to its decision point. -/
abbrev Entry.span (e : Entry) : Nat := (e.decisionPoint - e.mark).toNat

theorem marksApart_tail {h : Position} {d : Nat} {e : Entry} {l : List Entry} (k : marksApart h d (e :: l)) :
    marksApart h d l := by
  cases l with
  | nil => trivial
  | cons f rest => exact k.2

/-- The oldest entry is the farthest behind, by `d` counts for each entry after it. -/
theorem marksApart_age {h : Position} {d : Nat} {e : Entry} {l : List Entry} (k : marksApart h d (e :: l)) :
    d * l.length ≤ e.age h ∧ ∀ x ∈ l, x.age h ≤ e.age h := by
  induction l generalizing e with
  | nil => exact ⟨by simp, by simp⟩
  | cons f rest ih =>
    obtain ⟨h1, h2⟩ := ih k.2
    have h3 : f.age h + d ≤ e.age h := k.1
    refine ⟨?_, fun x hx => ?_⟩
    · rw [List.length_cons, Nat.mul_add]
      omega
    · rcases List.mem_cons.1 hx with rfl | hx
      · omega
      · have := h2 x hx
        omega

theorem marksApart_append {h : Position} {d : Nat} {l : List Entry} {x : Entry} (k : marksApart h d l)
    (hx : ∀ e, l.getLast? = some e → x.age h + d ≤ e.age h) : marksApart h d (l ++ [x]) := by
  induction l with
  | nil => trivial
  | cons e rest ih =>
    cases rest with
    | nil => exact ⟨hx e rfl, trivial⟩
    | cons f rest' => exact ⟨k.1, ih k.2 (fun y hy => hx y (by rw [List.getLast?_cons_cons]; exact hy))⟩

/-- One count ahead, ages short of the whole circle stay as far apart. -/
theorem marksApart_advance {h : Position} {d : Nat} {l : List Entry} (k : marksApart h d l)
    (hs : ∀ e ∈ l, e.age h < 4294967295) : marksApart (h + 1) d l := by
  have ha : ∀ e : Entry, e.age h < 4294967295 → e.age (h + 1) = e.age h + 1 := by
    intro e he
    unfold Entry.age at *
    bv_omega
  induction l with
  | nil => trivial
  | cons e rest ih =>
    cases rest with
    | nil => trivial
    | cons f rest' =>
      refine ⟨?_, ih k.2 (fun x hx => hs x (List.mem_cons_of_mem _ hx))⟩
      show f.age (h + 1) + d ≤ e.age (h + 1)
      rw [ha f (hs f (by simp)), ha e (hs e (by simp))]
      have : f.age h + d ≤ e.age h := k.1
      omega

/-- What of an entry spacing reads. -/
abbrev Entry.place (e : Entry) : Position × Position := (e.mark, e.decisionPoint)

theorem marksApart_congr {h : Position} {d : Nat} {l l' : List Entry} (hp : l'.map Entry.place = l.map Entry.place)
    (k : marksApart h d l) : marksApart h d l' := by
  induction l generalizing l' with
  | nil =>
    cases l' with
    | nil => trivial
    | cons _ _ => simp at hp
  | cons e rest ih =>
    cases l' with
    | nil => trivial
    | cons e' rest' =>
      simp only [List.map_cons, List.cons.injEq] at hp
      cases rest with
      | nil =>
        cases rest' with
        | nil => trivial
        | cons _ _ => simp at hp
      | cons f r =>
        cases rest' with
        | nil => trivial
        | cons f' r' =>
          refine ⟨?_, ih hp.2 k.2⟩
          have h1 : e'.mark = e.mark := congrArg Prod.fst hp.1
          have h2 : f'.mark = f.mark := by
            have := hp.2
            simp only [List.map_cons, List.cons.injEq] at this
            exact congrArg Prod.fst this.1
          rw [h1, h2]
          exact k.1

/-! ### The arithmetic of the checks (R17, R18, R31, R32) -/

/-- The table passes the checks of JOB_START that R18 rests on. -/
structure JobTable.Passed (t : JobTable) : Prop where
  complete : t.Complete
  geometry : ∀ k, 1 ≤ k → k ≤ 7 → GeometryCondition t k
  capacity : capacityNeeded t ≤ 128

/-- rep_counts. -/
abbrev repOf (t : JobTable) : Nat := (derivedOf t).repFx / 65536

/-- w. -/
abbrev halfOf (t : JobTable) : Nat := (derivedOf t).w

/-- The decision distance R18 counts with. -/
abbrev reachOf (t : JobTable) : Nat := convOf t (t.gateDist + t.cutOffset.natAbs + 2000)

theorem convOf_mono (t : JobTable) {a b : Nat} (h : a ≤ b) : convOf t a ≤ convOf t b := by
  unfold convOf
  exact Nat.div_le_div_right (Nat.add_le_add_right (Nat.mul_le_mul_right _ h) _)

theorem JobTable.Passed.ranges {t : JobTable} (h : t.Passed) :
    10000 ≤ t.encScale ∧ t.encScale ≤ 2000000 ∧ 10000 ≤ t.repeatLength ∧ t.repeatLength ≤ 1000000 ∧
      t.knifeDist ≤ 4000000 ∧ t.gateDist ≤ 4000000 ∧ t.cutOffset.natAbs ≤ 500000 ∧ t.markWindow ≤ 50000 ∧
      t.gateGuard ≤ 100000 ∧ t.reverseTol ≤ 200000 := by
  have k : ∀ f, f.low ≤ t.get f ∧ t.get f ≤ f.high := fun f => h.complete f (by cases f <;> decide)
  have h1 : (10000 : Int) ≤ t.encScale ∧ (t.encScale : Int) ≤ 2000000 := k .encScale
  have h2 : (10000 : Int) ≤ t.repeatLength ∧ (t.repeatLength : Int) ≤ 1000000 := k .repeatLength
  have h3 : (50000 : Int) ≤ t.knifeDist ∧ (t.knifeDist : Int) ≤ 4000000 := k .knifeDist
  have h4 : (50000 : Int) ≤ t.gateDist ∧ (t.gateDist : Int) ≤ 4000000 := k .gateDist
  have h5 : (-500000 : Int) ≤ t.cutOffset ∧ (t.cutOffset : Int) ≤ 500000 := k .cutOffset
  have h6 : (100 : Int) ≤ t.markWindow ∧ (t.markWindow : Int) ≤ 50000 := k .markWindow
  have h7 : (0 : Int) ≤ t.gateGuard ∧ (t.gateGuard : Int) ≤ 100000 := k .gateGuard
  have h8 : (0 : Int) ≤ t.reverseTol ∧ (t.reverseTol : Int) ≤ 200000 := k .reverseTol
  omega

/-- The quantities of a job that passed the checks (R36: rep_counts exceeds 2 * w by 37 and more). -/
theorem JobTable.Passed.quantities {t : JobTable} (h : t.Passed) :
    2 * halfOf t + 37 ≤ repOf t ∧ repOf t ≤ 2000001 ∧ reachOf t ≤ 9004001 ∧ (derivedOf t).rev ≤ 400001 := by
  obtain ⟨h1, h2, h3, h4, h5, h6, h7, h8, h9, h10⟩ := h.ranges
  have g3 : 2 * t.markWindow + 4000 ≤ t.repeatLength := h.geometry 3 (by omega) (by omega)
  have m1 : (2 * t.markWindow + 4000) * t.encScale ≤ t.repeatLength * t.encScale := Nat.mul_le_mul_right _ g3
  have m2 : t.repeatLength * t.encScale ≤ 1000000 * 2000000 := Nat.mul_le_mul h4 h2
  have m3 : (t.gateDist + t.cutOffset.natAbs + 2000) * t.encScale ≤ 4502000 * 2000000 :=
    Nat.mul_le_mul (by omega) h2
  have m4 : t.reverseTol * t.encScale ≤ 200000 * 2000000 := Nat.mul_le_mul h10 h2
  rw [Nat.add_mul, Nat.mul_assoc] at m1
  unfold repOf halfOf reachOf derivedOf convOf
  generalize t.repeatLength * t.encScale = r at *
  generalize t.markWindow * t.encScale = p at *
  generalize (t.gateDist + t.cutOffset.natAbs + 2000) * t.encScale = x at *
  generalize t.reverseTol * t.encScale = y at *
  refine ⟨?_, ?_, ?_, ?_⟩ <;> (try simp only) <;> omega

/-- The decision distance of an entry made under a trim within its limits: beyond w, and within the reach (R37, R41). -/
theorem JobTable.Passed.span {t : JobTable} (h : t.Passed) {oc : Int} (h1 : t.cutOffset - 2000 ≤ oc)
    (h2 : oc ≤ t.cutOffset + 2000) :
    halfOf t < convOf t (t.gateDist + oc - t.gateGuard).toNat ∧
      convOf t (t.gateDist + oc - t.gateGuard).toNat ≤ reachOf t := by
  obtain ⟨r1, r2, r3, r4, r5, r6, r7, r8, r9, r10⟩ := h.ranges
  have g4 : 0 < (t.knifeDist : Int) + t.cutOffset - 2000 := h.geometry 4 (by omega) (by omega)
  have g5 : (t.repeatLength : Int) + t.markWindow + t.gateGuard ≤ (t.gateDist : Int) - t.knifeDist :=
    h.geometry 5 (by omega) (by omega)
  refine ⟨?_, convOf_mono t (by omega)⟩
  have hm : t.markWindow + 10000 ≤ (t.gateDist + oc - t.gateGuard).toNat := by omega
  refine Nat.lt_of_lt_of_le ?_ (convOf_mono t hm)
  show convOf t t.markWindow < _
  unfold convOf
  rw [Nat.add_mul]
  have : 10000 * 10000 ≤ 10000 * t.encScale := Nat.mul_le_mul_left _ r1
  omega

/-- A queue whose head is less than the reach behind HW has at most 128 entries (R18). -/
theorem JobTable.Passed.length {t : JobTable} (h : t.Passed) {p : Position} {e : Entry} {l : List Entry}
    (k : marksApart p (repOf t - halfOf t) (e :: l)) (ha : e.age p < reachOf t + 1) : (e :: l).length ≤ 128 := by
  obtain ⟨q1, -, -, -⟩ := h.quantities
  have hc := h.capacity
  have hd : 0 < repOf t - halfOf t := by omega
  have h1 := (marksApart_age k).1
  have h2 : capacityNeeded t = (reachOf t + (repOf t - halfOf t) - 1) / (repOf t - halfOf t) + 2 := rfl
  generalize repOf t - halfOf t = d at *
  generalize reachOf t = x at *
  have h3 : l.length ≤ (x + d - 1) / d := by
    rw [Nat.le_div_iff_mul_le hd, Nat.mul_comm]
    omega
  rw [List.length_cons]
  omega

/-! ### Spacing while an advance of HW is being taken -/

/-- `State.Spaced` but for its head and its window clause. -/
structure SpacedCore (s : State) : Prop where
  job : InJob s → s.jbc.table.Passed ∧ s.psu.reported = false ∧ (s.psu.hw - s.psu.wpos).toNat ≤ (derivedOf s.jbc.table).rev
  apart : marksApart s.psu.hw (repOf s.jbc.table - halfOf s.jbc.table) s.trc.queue
  reach : ∀ e ∈ s.trc.queue, e.span ≤ reachOf s.jbc.table
  newest : ∀ e, s.trc.queue.getLast? = some e → s.mru.lastMark = some e.mark

/-- The head is less than its decision distance plus `x` behind HW, and its decision point is armed. -/
def HeadAt (x : Nat) (s : State) : Prop :=
  ∀ e, s.trc.queue.head? = some e → s.trc.watch = true ∧ e.age s.psu.hw < e.span + x

/-- An armed window end is less than `y` counts behind HW. -/
def WindowAt (y : Nat) (s : State) : Prop :=
  s.mru.watch = true → ∃ m win, s.mru.lastMark = some m ∧ s.mru.window = some win ∧
    win = windowOf s.mru.eInt s.mru.eFrac (halfOf s.jbc.table) ∧
    ((win.centre - m).toNat = repOf s.jbc.table ∨ (win.centre - m).toNat = repOf s.jbc.table + 1) ∧
    (s.psu.hw - m).toNat < (win.centre - m).toNat + halfOf s.jbc.table + y

/-- The spacing with `x` counts of grace at the head and `y` at the window end. -/
structure Spacing (x y : Nat) (s : State) : Prop where
  core : SpacedCore s
  head : HeadAt x s
  window : WindowAt y s

/-- The discipline and the spacing. -/
structure SpacedAt (x y : Nat) (s : State) : Prop extends Spacing x y s where
  disc : Disciplined False s

theorem lt_add_zero (a b : Nat) : a < b + 0 ↔ a < b := Iff.rfl

/-- With no grace the head's clause is that of `State.Spaced`. -/
theorem headAt_zero (s : State) : HeadAt 0 s ↔ ∀ e, s.trc.queue.head? = some e →
    s.trc.watch = true ∧ (s.psu.hw - e.mark).toNat < (e.decisionPoint - e.mark).toNat :=
  ⟨fun h e he => ⟨(h e he).1, (lt_add_zero _ _).1 (h e he).2⟩, fun h e he => ⟨(h e he).1, (lt_add_zero _ _).2 (h e he).2⟩⟩

/-- With no grace the window's clause is that of `State.Spaced`. -/
theorem windowAt_zero (s : State) : WindowAt 0 s ↔ (s.mru.watch = true → ∃ m win, s.mru.lastMark = some m ∧
    s.mru.window = some win ∧ win = windowOf s.mru.eInt s.mru.eFrac (halfOf s.jbc.table) ∧
    ((win.centre - m).toNat = repOf s.jbc.table ∨ (win.centre - m).toNat = repOf s.jbc.table + 1) ∧
    (s.psu.hw - m).toNat < (win.centre - m).toNat + halfOf s.jbc.table) := by
  constructor
  · intro h hw
    obtain ⟨m, win, h1, h2, h3, h4, h5⟩ := h hw
    exact ⟨m, win, h1, h2, h3, h4, (lt_add_zero _ _).1 h5⟩
  · intro h hw
    obtain ⟨m, win, h1, h2, h3, h4, h5⟩ := h hw
    exact ⟨m, win, h1, h2, h3, h4, (lt_add_zero _ _).2 h5⟩

theorem spacedAt_iff (s : State) : SpacedAt 0 0 s ↔ s.JobDiscipline ∧ s.Spaced := by
  constructor
  · intro h
    exact ⟨h.disc.1,
      { job := fun hj => ⟨(h.core.job hj).1.complete, (h.core.job hj).1.geometry, (h.core.job hj).1.capacity, (h.core.job hj).2⟩
        apart := h.core.apart, reach := h.core.reach, head := (headAt_zero s).1 h.head, newest := h.core.newest
        window := (windowAt_zero s).1 h.window }⟩
  · rintro ⟨d, h⟩
    exact { disc := ⟨d, fun hf => hf.elim⟩
            core := { job := fun hj => ⟨⟨(h.job hj).1, (h.job hj).2.1, (h.job hj).2.2.1⟩, (h.job hj).2.2.2⟩
                      apart := h.apart, reach := h.reach, newest := h.newest }
            head := (headAt_zero s).2 h.head, window := (windowAt_zero s).2 h.window }

theorem SpacedAt.mono {x y x' y' : Nat} {s : State} (h : SpacedAt x y s) (hx : x ≤ x') (hy : y ≤ y') : SpacedAt x' y' s :=
  { disc := h.disc, core := h.core
    head := fun e he => ⟨(h.head e he).1, by have := (h.head e he).2; omega⟩
    window := fun hw => by
      obtain ⟨m, win, h1, h2, h3, h4, h5⟩ := h.window hw
      exact ⟨m, win, h1, h2, h3, h4, by omega⟩ }

/-- Outside a job is IDLE or HALT. -/
theorem not_inJob {s : State} (hj : ¬ InJob s) : s.jbc.job = .idle ∨ s.jbc.job = .halt := by
  unfold InJob at hj
  cases h : s.jbc.job <;> simp_all

/-- Entries are queued in a job alone (R15). -/
theorem State.JobDiscipline.inJob {s : State} (d : s.JobDiscipline) (h : s.trc.queue ≠ []) : InJob s := by
  by_contra hns
  exact h (d.quiet (not_inJob hns)).1

/-- Outside a job nothing is tracked or armed. -/
theorem SpacedAt.quiet {x y : Nat} {s : State} (d : Disciplined False s) (hj : ¬ InJob s) : SpacedAt x y s := by
  obtain ⟨h1, -, -, -, h5, -⟩ := d.1.quiet (not_inJob hj)
  exact { disc := d
          core := { job := fun h => absurd h hj, apart := by rw [h1]; trivial, reach := by rw [h1]; simp
                    newest := by rw [h1]; simp }
          head := by unfold HeadAt; rw [h1]; simp
          window := fun hw => by rw [h5] at hw; cases hw }

/-- The spacing reads the same in `s` and `t`. -/
structure SameSpacing (s t : State) : Prop where
  place : t.trc.queue.map Entry.place = s.trc.queue.map Entry.place
  watch : t.trc.watch = s.trc.watch
  lastMark : t.mru.lastMark = s.mru.lastMark
  window : t.mru.window = s.mru.window
  eInt : t.mru.eInt = s.mru.eInt
  eFrac : t.mru.eFrac = s.mru.eFrac
  armed : t.mru.watch = true → s.mru.watch = true
  hw : t.psu.hw = s.psu.hw
  wpos : t.psu.wpos = s.psu.wpos
  reported : t.psu.reported = s.psu.reported
  table : t.jbc.table = s.jbc.table
  job : InJob t → InJob s

theorem SameSpacing.mem {s t : State} (k : SameSpacing s t) {e : Entry} (he : e ∈ t.trc.queue) :
    ∃ e' ∈ s.trc.queue, e'.place = e.place := by
  have : e.place ∈ s.trc.queue.map Entry.place := by rw [← k.place]; exact List.mem_map_of_mem he
  obtain ⟨e', h1, h2⟩ := List.mem_map.1 this
  exact ⟨e', h1, h2⟩

theorem Spacing.congr {x y : Nat} {s t : State} (h : Spacing x y s) (k : SameSpacing s t) : Spacing x y t := by
  refine { core := { job := fun hj => ?_, apart := ?_, reach := fun e he => ?_, newest := fun e he => ?_ }
           head := fun e he => ?_, window := fun hw => ?_ }
  · rw [k.table, k.reported, k.hw, k.wpos]
    exact h.core.job (k.job hj)
  · rw [k.table, k.hw]
    exact marksApart_congr k.place h.core.apart
  · obtain ⟨e', h1, h2⟩ := k.mem he
    have := h.core.reach e' h1
    rw [k.table]
    unfold Entry.span at *
    rw [show e.mark = e'.mark from (congrArg Prod.fst h2).symm,
      show e.decisionPoint = e'.decisionPoint from (congrArg Prod.snd h2).symm]
    exact this
  · have hl := congrArg List.getLast? k.place
    rw [List.getLast?_map, List.getLast?_map, he, Option.map_some] at hl
    obtain ⟨e', h1, h2⟩ := Option.map_eq_some_iff.1 hl.symm
    rw [k.lastMark, h.core.newest e' h1]
    exact congrArg some (congrArg Prod.fst h2)
  · have hl := congrArg List.head? k.place
    rw [List.head?_map, List.head?_map, he, Option.map_some] at hl
    obtain ⟨e', h1, h2⟩ := Option.map_eq_some_iff.1 hl.symm
    obtain ⟨h3, h4⟩ := h.head e' h1
    refine ⟨by rw [k.watch]; exact h3, ?_⟩
    rw [k.hw]
    unfold Entry.span Entry.age at *
    rw [show e.mark = e'.mark from (congrArg Prod.fst h2).symm,
      show e.decisionPoint = e'.decisionPoint from (congrArg Prod.snd h2).symm]
    exact h4
  · rw [k.lastMark, k.window, k.eInt, k.eFrac, k.hw, k.table]
    exact h.window (k.armed hw)

theorem SpacedAt.congr {x y : Nat} {s t : State} (h : SpacedAt x y s) (d : Disciplined False t) (k : SameSpacing s t) :
    SpacedAt x y t := { h.toSpacing.congr k with disc := d }

theorem knifeFrame_sameSpacing {s t : State} (k : KnifeFrame s t) : SameSpacing s t where
  place := by
    have := congrArg (List.map Entry.place) (k.cuts Entry.sansCut (fun _ _ => rfl))
    rw [List.map_map, List.map_map] at this
    exact this
  watch := k.watch
  lastMark := by rw [k.mru]
  window := by rw [k.mru]
  eInt := by rw [k.mru]
  eFrac := by rw [k.mru]
  armed := by rw [k.mru]; exact id
  hw := by rw [k.psu]
  wpos := by rw [k.psu]
  reported := by rw [k.psu]
  table := by rw [k.jbc]
  job := by unfold InJob; rw [k.jbc]; exact id

theorem spaced_fireCrossing {x y : Nat} {s : State} (h : SpacedAt x y s) : SpacedAt x y s.fireCrossing :=
  h.congr (disciplined_fireCrossing h.disc) (knifeFrame_sameSpacing s.fireCrossing_frame)

theorem spaced_recomputeFire {x y : Nat} {s : State} (h : SpacedAt x y s) : SpacedAt x y s.recomputeFire :=
  h.congr (disciplined_recomputeFire h.disc) (knifeFrame_sameSpacing s.recomputeFire_frame)

theorem spaced_windowEnd {x y : Nat} {s : State} (h : SpacedAt x y s) : SpacedAt x y s.windowEnd := by
  unfold State.windowEnd
  split
  · exact spaced_recomputeFire (h.congr (disciplined_withPsu h.disc _) (by constructor <;> first | rfl | exact id))
  · exact h

theorem quantities_eq {s : State} (d : s.JobDiscipline) (hj : InJob s) : s.quantities = derivedOf s.jbc.table := by
  unfold State.quantities
  rw [d.held (fun hi => InJob.not_stopped hj (Or.inl hi))]
  rfl

/-! ### Creating an entry -/

/-- What of a creation spacing reads (R61). -/
theorem State.createEntry_place (now : Bool) (s : State) (q : Creation) :
    (s.createEntry now q).trc.queue.map Entry.place = (s.trc.queue ++ [s.newEntry q]).map Entry.place ∧
      (s.createEntry now q).trc.watch = (s.trc.watch || s.trc.queue.isEmpty) ∧ (s.createEntry now q).psu = s.psu ∧
      (s.createEntry now q).jbc.job = s.jbc.job ∧ (s.createEntry now q).jbc.table = s.jbc.table := by
  unfold State.createEntry
  simp only
  have key : ∀ u : State, u.trc = s.trc.append (s.newEntry q) → u.psu = s.psu → u.jbc.job = s.jbc.job →
      u.jbc.table = s.jbc.table → (u.offerIf now).trc.queue.map Entry.place =
        (s.trc.queue ++ [s.newEntry q]).map Entry.place ∧
      (u.offerIf now).trc.watch = (s.trc.watch || s.trc.queue.isEmpty) ∧ (u.offerIf now).psu = s.psu ∧
      (u.offerIf now).jbc.job = s.jbc.job ∧ (u.offerIf now).jbc.table = s.jbc.table := by
    intro u h1 h2 h3 h4
    have hf := knifeFrame_sameSpacing (u.offerIf_frame now)
    have hk := u.offerIf_frame now
    refine ⟨?_, ?_, hk.psu.trans h2, ?_, ?_⟩
    · rw [hf.place, h1]; rfl
    · rw [hf.watch, h1]; rfl
    · rw [hk.jbc]; exact h3
    · rw [hk.jbc]; exact h4
  split
  · exact key _ rfl rfl rfl rfl
  · exact key _ rfl rfl rfl rfl

/-- What a creation leaves of MRU and of the held quantities (R56, R61). -/
theorem State.createEntry_mru (now : Bool) (s : State) (q : Creation) :
    (s.createEntry now q).mru = (if s.jbc.tailPending then { s.mru with reg := .idle, watch := false } else s.mru) ∧
      (s.createEntry now q).quantities = s.quantities := by
  unfold State.createEntry
  simp only
  have hf := State.offerIf_frame now (if (s.newEntry q).tail = true then
    ({ s with trc := s.trc.append (s.newEntry q) } : State).tailCreated else { s with trc := s.trc.append (s.newEntry q) })
  have et : (s.newEntry q).tail = s.jbc.tailPending := rfl
  constructor
  · rw [hf.mru, et]
    split <;> rfl
  · unfold State.quantities
    rw [hf.jbc]
    split <;> rfl

/-- An entry created in a job, at most w behind HW and far enough beyond the newest, with what MRU holds after it. -/
theorem spaced_create (now : Bool) {x y y' : Nat} {s : State} (h : SpacedAt x y' s) (hj : InJob s) (q : Creation) {m : Mru}
    (d : Disciplined False { s.createEntry now q with mru := m }) (hl : m.lastMark = some q.mark)
    (ha : (s.psu.hw - q.mark).toNat ≤ halfOf s.jbc.table)
    (hn : ∀ e, s.trc.queue.getLast? = some e →
      (s.psu.hw - q.mark).toNat + (repOf s.jbc.table - halfOf s.jbc.table) ≤ e.age s.psu.hw)
    (hw : WindowAt y { s with mru := m }) : SpacedAt x y { s.createEntry now q with mru := m } := by
  obtain ⟨c1, c2, c3, c4, c5⟩ := s.createEntry_place now q
  obtain ⟨p1, p2, p3⟩ := h.core.job hj
  obtain ⟨t1, t2⟩ := h.disc.1.trim hj
  obtain ⟨s1, s2⟩ := p1.span t1 t2
  have hspan : (s.newEntry q).span = convOf s.jbc.table (s.jbc.table.gateDist + s.jbc.ocEff - s.jbc.table.gateGuard).toNat := by
    have e : (s.newEntry q).decisionPoint = q.mark +
        BitVec.ofNat 32 (convOf s.jbc.table (s.jbc.table.gateDist + s.jbc.ocEff - s.jbc.table.gateGuard).toNat) := rfl
    unfold Entry.span
    rw [e]
    show (q.mark + _ - q.mark).toNat = _
    have := p1.quantities.2.2.1
    generalize convOf s.jbc.table (s.jbc.table.gateDist + s.jbc.ocEff - s.jbc.table.gateGuard).toNat = n at *
    have e2 : q.mark + BitVec.ofNat 32 n - q.mark = BitVec.ofNat 32 n := by bv_omega
    rw [e2, BitVec.toNat_ofNat]
    omega
  -- the machine with the new entry appended, and nothing else
  have base : SpacedCore { s with mru := m, trc := { s.trc with queue := s.trc.queue ++ [s.newEntry q] } } := by
    refine { job := h.core.job, apart := marksApart_append h.core.apart hn, reach := ?_, newest := ?_ }
    · intro e he
      rcases List.mem_append.1 he with he | he
      · exact h.core.reach e he
      · rw [List.mem_singleton.1 he, hspan]
        exact s2
    · intro e he
      simp only [List.getLast?_append, List.getLast?_singleton, Option.some_or, Option.some.injEq] at he
      subst he
      exact hl
  have hhead : HeadAt x { s with mru := m, trc := { s.trc with
      queue := s.trc.queue ++ [s.newEntry q], watch := s.trc.watch || s.trc.queue.isEmpty } } := by
    intro e he
    cases hq : s.trc.queue with
    | nil =>
      simp only [hq, List.nil_append, List.head?_cons, Option.some.injEq] at he
      subst he
      refine ⟨by simp, ?_⟩
      rw [hspan]
      show (s.psu.hw - q.mark).toNat < _
      omega
    | cons f rest =>
      simp only [hq, List.cons_append, List.head?_cons, Option.some.injEq] at he
      subst he
      have := h.head f (by rw [hq]; rfl)
      exact ⟨by simp [this.1], this.2⟩
  have all : Spacing x y { s with mru := m, trc := { s.trc with
      queue := s.trc.queue ++ [s.newEntry q], watch := s.trc.watch || s.trc.queue.isEmpty } } :=
    { core := ⟨base.job, base.apart, base.reach, base.newest⟩, head := hhead, window := hw }
  refine { all.congr (t := { s.createEntry now q with mru := m }) ?_ with disc := d }
  exact
    { place := c1, watch := c2, lastMark := rfl, window := rfl, eInt := rfl, eFrac := rfl, armed := id
      hw := congrArg Psu.hw c3, wpos := congrArg Psu.wpos c3, reported := congrArg Psu.reported c3, table := c5
      job := by unfold InJob; simp only [c4]; exact id }

/-! ### Marks and misses -/

/-- The quantities of a job, as MRU reads them. -/
theorem derived_repCounts (t : JobTable) : (derivedOf t).repCounts = repOf t := rfl

/-- After a mark at `c` the centre lies rep_counts or rep_counts + 1 beyond it (R36). -/
theorem anchor_centre (t : JobTable) (c : Position) (m : Mru) (hr : repOf t ≤ 2000001) :
    ∃ win, (m.anchor (derivedOf t) c).window = some win ∧
      win = windowOf (m.anchor (derivedOf t) c).eInt (m.anchor (derivedOf t) c).eFrac (halfOf t) ∧
      ((win.centre - c).toNat = repOf t ∨ (win.centre - c).toNat = repOf t + 1) := by
  refine ⟨_, rfl, rfl, ?_⟩
  unfold windowOf roundE advance
  simp only [derived_repCounts]
  generalize repOf t = r at *
  split
  · right
    bv_omega
  · left
    bv_omega

/-- After a miss the centre lies rep_counts or rep_counts + 1 beyond the centre before it (R36). -/
theorem step_centre (t : JobTable) (m : Mru) (hr : repOf t ≤ 2000001) :
    ∃ win, (m.stepE (derivedOf t)).window = some win ∧
      win = windowOf (m.stepE (derivedOf t)).eInt (m.stepE (derivedOf t)).eFrac (halfOf t) ∧
      ((win.centre - roundE m.eInt m.eFrac).toNat = repOf t ∨ (win.centre - roundE m.eInt m.eFrac).toNat = repOf t + 1) := by
  refine ⟨_, rfl, rfl, ?_⟩
  unfold windowOf roundE advance
  simp only [derived_repCounts]
  have hf := m.eFrac.isLt
  have hq : (derivedOf t).repFrac < 65536 := Nat.mod_lt _ (by decide)
  generalize repOf t = r at *
  generalize (derivedOf t).repFrac = z at *
  generalize m.eInt = i at *
  generalize m.eFrac.toNat = f at *
  have e : (BitVec.ofNat 16 ((f + z) % 65536)).toNat = (f + z) % 65536 := by simp
  rw [e]
  by_cases h1 : 32768 ≤ (f + z) % 65536 <;> by_cases h2 : 32768 ≤ f <;> simp only [h1, h2, if_true, if_false]
  · have : i + BitVec.ofNat 32 (r + (f + z) / 65536) + 1 - (i + 1) = BitVec.ofNat 32 (r + (f + z) / 65536) := by bv_omega
    rw [this, BitVec.toNat_ofNat]
    omega
  · have : i + BitVec.ofNat 32 (r + (f + z) / 65536) + 1 - i = BitVec.ofNat 32 (r + (f + z) / 65536 + 1) := by bv_omega
    rw [this, BitVec.toNat_ofNat]
    omega
  · have : i + BitVec.ofNat 32 (r + (f + z) / 65536) - (i + 1) = BitVec.ofNat 32 (r + (f + z) / 65536) - 1 := by bv_omega
    rw [this]
    have : 1 ≤ r + (f + z) / 65536 := by omega
    have : BitVec.ofNat 32 (r + (f + z) / 65536) - 1 = BitVec.ofNat 32 (r + (f + z) / 65536 - 1) := by bv_omega
    rw [this, BitVec.toNat_ofNat]
    omega
  · have : i + BitVec.ofNat 32 (r + (f + z) / 65536) - i = BitVec.ofNat 32 (r + (f + z) / 65536) := by bv_omega
    rw [this, BitVec.toNat_ofNat]
    omega

/-- The window clause right after a mark at HW. -/
theorem windowAt_anchor {s : State} (p : s.jbc.table.Passed) (m : Mru) {y : Nat} (m' : Mru)
    (h1 : m'.lastMark = some s.psu.hw) (h2 : m'.window = (m.anchor (derivedOf s.jbc.table) s.psu.hw).window)
    (h3 : m'.eInt = (m.anchor (derivedOf s.jbc.table) s.psu.hw).eInt)
    (h4 : m'.eFrac = (m.anchor (derivedOf s.jbc.table) s.psu.hw).eFrac) : WindowAt y { s with mru := m' } := by
  intro _
  obtain ⟨q1, q2, -, -⟩ := p.quantities
  obtain ⟨win, w1, w2, w3⟩ := anchor_centre s.jbc.table s.psu.hw m q2
  refine ⟨s.psu.hw, win, h1, h2.trans w1, ?_, w3, ?_⟩
  · show win = windowOf m'.eInt m'.eFrac _
    rw [h3, h4]; exact w2
  · show (s.psu.hw - s.psu.hw).toNat < _
    rw [BitVec.sub_self]
    show 0 < _
    rcases w3 with w | w <;> rw [w] <;> omega

theorem spaced_setEventIf {x y : Nat} {s : State} (h : SpacedAt x y s) (b : Bool) (e : Event) :
    SpacedAt x y (s.setEventIf b e) := by
  refine h.congr (disciplined_setEventIf h.disc b e) ?_
  cases b <;> constructor <;> first | rfl | exact id

/-- A stray, and a forgetting, change nothing that spacing reads of a queue that holds entries. -/
theorem spaced_touchMru {x y : Nat} {s : State} (h : SpacedAt x y s) {m : Mru} (d : Disciplined False { s with mru := m })
    (h1 : m.lastMark = s.mru.lastMark) (h2 : m.window = s.mru.window) (h3 : m.eInt = s.mru.eInt)
    (h4 : m.eFrac = s.mru.eFrac) (h5 : m.watch = s.mru.watch) : SpacedAt x y { s with mru := m } :=
  h.congr d { place := rfl, watch := rfl, lastMark := h1, window := h2, eInt := h3, eFrac := h4
              armed := fun hw => h5 ▸ hw, hw := rfl, wpos := rfl, reported := rfl, table := rfl, job := id }

/-- The mark of an entry created at HW leaves the spacing of R46 behind it. -/
theorem spaced_acceptInSearch (now : Bool) {x y : Nat} {s : State} (h : SpacedAt x y s) (hj : InJob s)
    (hp : s.spacingPasses s.psu.hw = true) (d : Disciplined False (s.acceptInSearch now s.psu.hw)) :
    SpacedAt x y (s.acceptInSearch now s.psu.hw) := by
  obtain ⟨p1, -, -⟩ := h.core.job hj
  have hq := quantities_eq h.disc.1 hj
  unfold State.acceptInSearch at d ⊢
  simp only at d ⊢
  refine spaced_create now h hj _ d ?_ ?_ ?_ ?_
  · unfold Mru.searchAccepted; simp only; split <;> rfl
  · show (s.psu.hw - s.psu.hw).toNat ≤ _
    simp
  · intro e he
    show (s.psu.hw - s.psu.hw).toNat + _ ≤ _
    unfold State.spacingPasses at hp
    rw [h.core.newest e he, hq] at hp
    have hp : ((repOf s.jbc.table : Nat) : Int) - (halfOf s.jbc.table : Nat) ≤ (s.psu.hw - e.mark).toInt :=
      of_decide_eq_true hp
    have q1 := p1.quantities.1
    rw [BitVec.sub_self]
    show 0 + _ ≤ (s.psu.hw - e.mark).toNat
    rw [BitVec.toInt_eq_toNat_cond] at hp
    have := (s.psu.hw - e.mark).isLt
    generalize repOf s.jbc.table = r at *
    generalize halfOf s.jbc.table = w at *
    split at hp <;> omega
  · rw [(s.createEntry_mru now _).2, hq]
    unfold Mru.searchAccepted
    exact windowAt_anchor p1 _ _ (by simp only; split <;> rfl) (by simp only; split <;> rfl) (by simp only; split <;> rfl)
      (by simp only; split <;> rfl)

/-- A mark accepted in its window, at most w before its centre, leaves the spacing of R36 behind it. -/
theorem spaced_acceptInWindow (now : Bool) {x y : Nat} {s : State}
    (h : SpacedAt x y s) (hy : y ≤ 1) (hj : InJob s) {win : MarkWindow}
    (hwin : s.mru.window = some win) (hw : s.mru.watch = true) (hb : isBehind s.psu.hw win.opening = false)
    (d0 : Disciplined False { s with mru := s.mru.countTowardsLock s.jbc.table.lockCount })
    (d : Disciplined False (s.acceptInWindow now win s.psu.hw)) : SpacedAt x y (s.acceptInWindow now win s.psu.hw) := by
  obtain ⟨p1, -, -⟩ := h.core.job hj
  obtain ⟨q1, q2, -, -⟩ := p1.quantities
  obtain ⟨m, win', e1, e2, e3, e4, e5⟩ := h.window hw
  rw [hwin] at e2
  obtain rfl := Option.some.inj e2
  -- how far the mark lies beyond the last one
  have far : repOf s.jbc.table - halfOf s.jbc.table ≤ (s.psu.hw - m).toNat := by
    have e6 : win.opening = win.centre - BitVec.ofNat 32 (halfOf s.jbc.table) := by rw [e3]; rfl
    unfold isBehind distance at hb
    rw [e6] at hb
    have hb := of_decide_eq_false hb
    rw [BitVec.toInt_eq_toNat_cond] at hb
    generalize repOf s.jbc.table = r at *
    generalize halfOf s.jbc.table = w at *
    generalize win.centre = c at *
    generalize s.psu.hw = p at *
    have := (p - (c - BitVec.ofNat 32 w)).isLt
    clear e3 e6 hwin
    rcases e4 with e4 | e4 <;> rw [e4] at e5 <;> (split at hb <;> bv_omega)
  have h0 : SpacedAt x y { s with mru := s.mru.countTowardsLock s.jbc.table.lockCount } := by
    refine spaced_touchMru h d0 ?_ ?_ ?_ ?_ ?_ <;> (unfold Mru.countTowardsLock; split <;> rfl)
  unfold State.acceptInWindow at d ⊢
  simp only at d ⊢
  have h1 := spaced_setEventIf h0
    (s.mru.reg == .capture && (s.mru.countTowardsLock s.jbc.table.lockCount).reg == .locked) .lockGained
  generalize hu : (({ s with mru := s.mru.countTowardsLock s.jbc.table.lockCount } : State).setEventIf
    (s.mru.reg == .capture && (s.mru.countTowardsLock s.jbc.table.lockCount).reg == .locked) .lockGained) = u at *
  have e7 : u.trc = s.trc ∧ u.jbc = s.jbc ∧ u.psu = s.psu := by
    rw [← hu]
    generalize (s.mru.reg == .capture && (s.mru.countTowardsLock s.jbc.table.lockCount).reg == .locked) = b
    cases b <;> exact ⟨rfl, rfl, rfl⟩
  obtain ⟨u1, u2, u3⟩ := e7
  have hj' : InJob u := by unfold InJob; rw [u2]; exact hj
  have hq := quantities_eq h1.disc.1 hj'
  refine spaced_create now h1 hj' _ d ?_ ?_ ?_ ?_
  · unfold Mru.windowAccepted; simp only; split <;> rfl
  · show (u.psu.hw - s.psu.hw).toNat ≤ _
    rw [u3]
    simp
  · intro e he
    show (u.psu.hw - s.psu.hw).toNat + _ ≤ _
    rw [u1] at he
    have := h.core.newest e he
    rw [e1] at this
    obtain rfl := Option.some.inj this
    rw [u3, u2, BitVec.sub_self]
    show 0 + _ ≤ (s.psu.hw - e.mark).toNat
    omega
  · rw [(u.createEntry_mru now _).2, hq]
    unfold Mru.windowAccepted
    cases ht : s.jbc.tailPending
    · simp only [Bool.false_eq_true, if_false, ← u3]
      exact windowAt_anchor (by rw [u2]; exact p1) s.mru _ rfl rfl rfl rfl
    · intro hx
      simp only [(u.createEntry_mru now _).1, u2, ht, if_true] at hx
      cases hx

theorem spaced_markEdge (now : Bool) {x y : Nat} {s : State} (h : SpacedAt x y s) (hy : y ≤ 1) :
    SpacedAt x y (s.markEdge now) := by
  have d := disciplined_markEdge now h.disc
  have reg := h.disc.1.registration
  have lim := h.disc.1.limits
  have stray : Disciplined False s.strayMark → SpacedAt x y s.strayMark := fun d => spaced_touchMru h d rfl rfl rfl rfl rfl
  unfold State.markEdge at d ⊢
  split at d
  · rename_i hw
    rw [if_pos hw]
    rw [hw] at d ⊢
    have win : s.mru.reg = .capture ∨ s.mru.reg = .locked → Disciplined False (s.markAgainstWindow now s.psu.hw) →
        SpacedAt x y (s.markAgainstWindow now s.psu.hw) := by
      intro hr d
      obtain ⟨hn, ha⟩ := h.disc.registering (Or.inl (by rcases hr with hr | hr <;> rw [hr] <;> simp))
      unfold State.markAgainstWindow at d ⊢
      cases hm : s.mru.window with
      | none => simp only [hm] at d ⊢; exact stray d
      | some win =>
        simp only [hm] at d ⊢
        cases hb : isBehind s.psu.hw win.opening with
        | true => simp only [hb, if_true] at d ⊢; exact stray d
        | false =>
          simp only [hb, Bool.false_eq_true, if_false] at d ⊢
          exact spaced_acceptInWindow now h hy ha hm (reg.watch.2 hr) hb
            (disciplined_withMru h.disc ha (reg.countTowardsLock lim.2.2.2) (Or.inl hn)) d
    unfold State.takeMark at d ⊢
    cases hr : s.mru.reg with
    | idle => simp only; exact h
    | search =>
      simp only [hr] at d ⊢
      split at d
      · rename_i hp
        rw [if_pos hp]
        obtain ⟨-, ha⟩ := h.disc.registering (Or.inl (by rw [hr]; simp))
        exact spaced_acceptInSearch now h ha hp d
      · rename_i hp
        rw [if_neg hp]
        exact stray d
    | capture => simp only [hr] at d ⊢; exact win (Or.inl hr) d
    | locked => simp only [hr] at d ⊢; exact win (Or.inr hr) d
  · rename_i hw
    rw [if_neg hw]
    exact h

/-- The age of every entry is less than its head's decision distance (R18). -/
theorem Spacing.age_lt {x y : Nat} {s : State} (h : Spacing x y s) {e : Entry} (he : e ∈ s.trc.queue) :
    e.age s.psu.hw < reachOf s.jbc.table + x := by
  cases hq : s.trc.queue with
  | nil => rw [hq] at he; cases he
  | cons f rest =>
    have h1 := (h.head f (by rw [hq]; rfl)).2
    have h2 := h.core.reach f (by rw [hq]; simp)
    have h3 := h.core.apart
    rw [hq] at h3
    rw [hq] at he
    rcases List.mem_cons.1 he with rfl | he
    · omega
    · have := (marksApart_age h3).2 e he
      omega

theorem spaced_forgetLastMark {x y : Nat} {s : State} (h : SpacedAt x y s) (hx : x ≤ 1)
    (d : Disciplined False s.forgetLastMark) : SpacedAt x y s.forgetLastMark := by
  unfold State.forgetLastMark at d ⊢
  split at d
  · rename_i m hr hm
    split at d
    · rename_i hd
      rw [if_pos hd]
      have hj := (h.disc.registering (Or.inl (by rw [hr]; simp))).2
      have hempty : ∀ e, s.trc.queue.getLast? ≠ some e := by
        intro e he
        have h1 := h.core.newest e he
        rw [hm] at h1
        obtain rfl := Option.some.inj h1
        have h2 := h.toSpacing.age_lt (List.mem_of_getLast? he)
        obtain ⟨p1, -, -⟩ := h.core.job hj
        have q := p1.quantities.2.2.1
        have h3 : e.age s.psu.hw < 2147483647 := by omega
        unfold distance lastMarkReach at hd
        unfold Entry.age at h3
        rw [BitVec.toInt_eq_toNat_cond] at hd
        split at hd <;> omega
      refine { core := ⟨h.core.job, h.core.apart, h.core.reach, fun e he => absurd he (hempty e)⟩, head := h.head
               window := fun hw => ?_, disc := d }
      have := h.disc.1.registration.watch.1 hw
      rw [hr] at this
      simp at this
    · rename_i hd
      rw [if_neg hd]
      exact h
  · exact h

/-- The miss at the armed window end: an entry w behind HW, rep_counts or rep_counts + 1 beyond the last (R36, R52). -/
theorem spaced_takeMiss (now : Bool) {x y : Nat} {s : State} (h : SpacedAt x y s) {win : MarkWindow}
    (hwin : s.mru.window = some win)
    (hw : s.mru.watch = true) (he : s.psu.hw = win.ending) (d : Disciplined False (s.takeMiss now win)) :
    SpacedAt x 0 (s.takeMiss now win) := by
  obtain ⟨hn, hj⟩ := h.disc.registering (Or.inr hw)
  obtain ⟨p1, -, -⟩ := h.core.job hj
  obtain ⟨q1, q2, -, -⟩ := p1.quantities
  have hq := quantities_eq h.disc.1 hj
  obtain ⟨m, win', e1, e2, e3, e4, e5⟩ := h.window hw
  rw [hwin] at e2
  obtain rfl := Option.some.inj e2
  have e6 : s.psu.hw = win.centre + BitVec.ofNat 32 (halfOf s.jbc.table) := by rw [he, e3]; rfl
  have hage : (s.psu.hw - win.centre).toNat = halfOf s.jbc.table := by
    rw [e6]
    generalize halfOf s.jbc.table = w at *
    generalize win.centre = c at *
    have : c + BitVec.ofNat 32 w - c = BitVec.ofNat 32 w := by bv_omega
    rw [this, BitVec.toNat_ofNat]
    omega
  unfold State.takeMiss at d ⊢
  simp only at d ⊢
  -- MRU after the miss
  obtain ⟨f1, f2⟩ := ({ s with mru := s.mru.countMiss } : State).createEntry_mru now
    { kind := .synth, mark := win.centre, regErr := none, regFlag := regFlagOf s.missIsGood }
  have f2' : (({ s with mru := s.mru.countMiss } : State).createEntry now
      { kind := .synth, mark := win.centre, regErr := none, regFlag := regFlagOf s.missIsGood }).quantities =
      derivedOf s.jbc.table := f2.trans hq
  rw [f1, f2'] at d ⊢
  simp only at d ⊢
  generalize hm' : (if s.jbc.tailPending = true then { s.mru.countMiss with reg := .idle, watch := false } else s.mru.countMiss).afterMiss
      (derivedOf s.jbc.table) win.centre s.jbc.tailPending s.missReachesLimit = m' at *
  rw [State.createEntry_withMru] at d ⊢
  have hlast : m'.lastMark = some win.centre := by
    rw [← hm']; unfold Mru.afterMiss; simp only; split <;> (try split) <;> rfl
  have hwindow : WindowAt 0 { s with mru := m' } := by
    intro hx
    have hx : m'.watch = true := hx
    cases ht : s.jbc.tailPending with
    | true =>
      rw [← hm', ht] at hx
      cases hx
    | false =>
      obtain ⟨win', w1, w2, w3⟩ := step_centre s.jbc.table { s.mru.countMiss with lastMark := some win.centre } q2
      have hc : win.centre = roundE s.mru.eInt s.mru.eFrac := by rw [e3]; rfl
      have g : m'.window = some win' ∧ win' = windowOf m'.eInt m'.eFrac (halfOf s.jbc.table) := by
        rw [← hm', ht]
        unfold Mru.afterMiss
        simp only [Bool.false_eq_true, if_false]
        split <;> exact ⟨w1, w2⟩
      refine ⟨win.centre, win', hlast, g.1, g.2, ?_, ?_⟩
      · rw [hc]; exact w3
      · show (s.psu.hw - win.centre).toNat < _
        rw [hage, hc]
        rcases w3 with w3 | w3
        · rw [show (win'.centre - roundE s.mru.eInt s.mru.eFrac).toNat = repOf s.jbc.table from w3]
          show halfOf s.jbc.table < repOf s.jbc.table + halfOf s.jbc.table + 0
          omega
        · rw [show (win'.centre - roundE s.mru.eInt s.mru.eFrac).toNat = repOf s.jbc.table + 1 from w3]
          show halfOf s.jbc.table < repOf s.jbc.table + 1 + halfOf s.jbc.table + 0
          omega
  have dm : Disciplined False { s.createEntry now
      { kind := .synth, mark := win.centre, regErr := none, regFlag := regFlagOf s.missIsGood } with mru := m' } := by
    refine Disciplined.congr d ?_
    generalize (s.missReachesLimit && s.mru.reg == .locked) = b
    cases b <;> constructor <;> first
      | rfl
      | exact ⟨rfl, rfl⟩
      | exact fun h _ => h
      | exact fun _ _ h1 h2 => ⟨h1, h2⟩
  refine spaced_setEventIf (SpacedAt.congr (spaced_create now h hj _ dm hlast ?_ ?_ hwindow) (disciplined_setEvent dm _)
    (by constructor <;> first | rfl | exact id)) _ _
  · show (s.psu.hw - win.centre).toNat ≤ _
    omega
  · intro e hl
    have := h.core.newest e hl
    rw [e1] at this
    obtain rfl := Option.some.inj this
    show (s.psu.hw - win.centre).toNat + _ ≤ (s.psu.hw - e.mark).toNat
    rw [hage, e6]
    generalize repOf s.jbc.table = r at *
    generalize halfOf s.jbc.table = w at *
    generalize win.centre = c at *
    clear e3 hwin e6 he hage hwindow d dm
    rcases e4 with e4 | e4 <;> bv_omega

theorem spaced_registrationCrossing (now : Bool) {x : Nat} {s : State} (h : SpacedAt x 1 s) (hx : x ≤ 1) :
    SpacedAt x 0 (s.registrationCrossing now) := by
  have d := disciplined_registrationCrossing now h.disc
  have df : Disciplined False s.forgetLastMark := by
    unfold State.forgetLastMark
    split
    · split
      · exact disciplined_touchMru h.disc _ rfl rfl rfl rfl rfl
      · exact h.disc
    · exact h.disc
  have h1 := spaced_forgetLastMark h hx df
  unfold State.registrationCrossing at d ⊢
  simp only at d ⊢
  generalize s.forgetLastMark = u at h1 d ⊢
  cases hm : u.mru.window with
  | none =>
    simp only
    refine { h1 with window := fun hw => ?_ }
    obtain ⟨m, win, -, e2, -⟩ := h1.window hw
    rw [hm] at e2
    cases e2
  | some win =>
    simp only [hm] at d ⊢
    split at d
    · rename_i hc
      rw [if_pos hc]
      simp only [Bool.and_eq_true, beq_iff_eq] at hc
      exact spaced_takeMiss now h1 hm hc.1 hc.2 d
    · rename_i hc
      rw [if_neg hc]
      refine { h1 with window := fun hw => ?_ }
      obtain ⟨m, win', e1, e2, e3, e4, e5⟩ := h1.window hw
      refine ⟨m, win', e1, e2, e3, e4, ?_⟩
      rw [hm] at e2
      obtain rfl := Option.some.inj e2
      have hne : u.psu.hw ≠ win.ending := by
        intro he
        exact hc (by rw [hw, he]; simp)
      have e6 : win.ending = win.centre + BitVec.ofNat 32 (halfOf u.jbc.table) := by rw [e3]; rfl
      rw [e6] at hne
      have hj := (h1.disc.registering (Or.inr hw)).2
      obtain ⟨p1, -, -⟩ := h1.core.job hj
      obtain ⟨q1, q2, -, -⟩ := p1.quantities
      generalize repOf u.jbc.table = r at *
      generalize halfOf u.jbc.table = w at *
      generalize win.centre = c at *
      generalize u.psu.hw = p at *
      clear e3 e6 hc
      have : (p - m).toNat ≠ (c - m).toNat + w := by
        intro hh
        exact hne (by rcases e4 with e4 | e4 <;> bv_omega)
      omega

/-! ### Decisions -/

theorem spaced_armDecisionFrom {y : Nat} (l : List Entry) {s : State} (d : Disciplined False s) (hq : s.trc.queue = l)
    (hc : SpacedCore s) (hw : WindowAt y s) (ha : ∀ e ∈ l, e.age s.psu.hw ≤ 10000000 ∧ e.span ≤ 10000000) :
    SpacedAt 0 y (State.armDecisionFrom l s) := by
  induction l generalizing s with
  | nil =>
    refine { core := ⟨hc.job, hc.apart, hc.reach, hc.newest⟩, head := fun e he => ?_, window := hw
             disc := disciplined_armDecisionFrom [] d hq }
    have he : s.trc.queue.head? = some e := he
    rw [hq] at he
    cases he
  | cons e rest ih =>
    have dd := disciplined_armDecisionFrom (e :: rest) d hq
    unfold State.armDecisionFrom at dd ⊢
    split at dd
    · rename_i hb
      rw [if_pos hb]
      refine { core := ⟨hc.job, hc.apart, hc.reach, hc.newest⟩, head := fun f hf => ?_, window := hw, disc := dd }
      have hf : s.trc.queue.head? = some f := hf
      rw [hq] at hf
      obtain rfl := Option.some.inj hf
      refine ⟨rfl, ?_⟩
      obtain ⟨a1, a2⟩ := ha e (by simp)
      rw [isBehind_iff] at hb
      show (s.psu.hw - e.mark).toNat < (e.decisionPoint - e.mark).toNat + 0
      unfold Entry.age at a1
      unfold Entry.span at a2
      rw [BitVec.toInt_eq_toNat_cond] at hb
      generalize s.psu.hw = p at *
      generalize e.decisionPoint = c at *
      generalize e.mark = m at *
      split at hb <;> bv_omega
    · rename_i hb
      rw [if_neg hb]
      simp only
      obtain ⟨d1, d2⟩ := disciplined_decideHead d hq (s.trc.inSplice e.rsn)
      set t := (s.takeDecision { entry := e, flush := false, successor := rest.head?.map Entry.cut
                                 inSplice := s.trc.inSplice e.rsn }).completeDecision e with ht
      by_cases hj : InJob t
      · have hf := s.takeDecision_frame { entry := e, flush := false, successor := rest.head?.map Entry.cut
                                          inSplice := s.trc.inSplice e.rsn }
        have hne : e.tail = false := by
          rw [Bool.eq_false_iff]
          intro he
          refine InJob.not_stopped hj (Or.inl ?_)
          rw [ht]
          unfold State.completeDecision
          simp only [he, if_true]
          rfl
        have hjs : InJob s := d.1.inJob (by rw [hq]; simp)
        have k1 : t.psu = s.psu ∧ t.mru = s.mru ∧ t.jbc.table = s.jbc.table := by
          rw [ht]
          unfold State.completeDecision
          simp only [hne, Bool.false_eq_true, if_false]
          exact ⟨hf.psu, hf.mru, by rw [hf.jbc]⟩
        obtain ⟨k1, k2, k3⟩ := k1
        refine ih d1 d2 ?_ ?_ ?_
        · refine { job := fun _ => ?_, apart := ?_, reach := fun x hx => ?_, newest := fun x hx => ?_ }
          · rw [k1, k3]; exact hc.job hjs
          · rw [k1, k3, d2]
            have := hc.apart
            rw [hq] at this
            exact marksApart_tail this
          · rw [k3]
            rw [d2] at hx
            exact hc.reach x (by rw [hq]; exact List.mem_cons_of_mem _ hx)
          · rw [k2]
            rw [d2] at hx
            refine hc.newest x ?_
            rw [hq]
            cases rest with
            | nil => cases hx
            | cons f r => rw [List.getLast?_cons_cons]; exact hx
        · unfold WindowAt
          rw [k1, k2, k3]
          exact hw
        · intro x hx
          rw [k1]
          exact ha x (List.mem_cons_of_mem _ hx)
      · refine SpacedAt.quiet dd (fun hx => hj ?_)
        have hr := (d1.1.quiet (not_inJob hj)).1
        rw [d2] at hr
        rw [hr] at hx
        exact hx

theorem spaced_decisionCrossing {y : Nat} {s : State} (h : SpacedAt 1 y s) : SpacedAt 0 y s.decisionCrossing := by
  unfold State.decisionCrossing State.decisionDue
  cases hq : s.trc.queue with
  | nil =>
    rw [if_neg (by simp)]
    exact { h with head := fun e he => by rw [hq] at he; cases he }
  | cons e rest =>
    obtain ⟨hw, ha⟩ := h.head e (by rw [hq]; rfl)
    simp only
    split
    · have hj : InJob s := h.disc.1.inJob (by rw [hq]; simp)
      have q := (h.core.job hj).1.quantities.2.2.1
      refine spaced_armDecisionFrom _ h.disc hq h.core h.window (fun x hx => ?_)
      rw [← hq] at hx
      have h1 := h.toSpacing.age_lt hx
      have h2 := h.core.reach x hx
      omega
    · rename_i hc
      refine { h with head := fun f hf => ?_ }
      rw [hq] at hf
      obtain rfl := Option.some.inj hf
      refine ⟨hw, ?_⟩
      have hne : s.psu.hw ≠ e.decisionPoint := by
        intro he
        exact hc (by rw [hw, he]; simp)
      have : e.age s.psu.hw ≠ e.span := by
        intro hh
        have := BitVec.eq_of_toNat_eq hh
        exact hne (by
          generalize s.psu.hw = p at *
          generalize e.decisionPoint = c at *
          generalize e.mark = m at *
          bv_omega)
      omega

/-! ### The web -/

theorem spaced_meet (now : Bool) {x y : Nat} (hy : y ≤ 1) (ms : List Meeting) {s : State} (h : SpacedAt x y s) :
    SpacedAt x y (s.meet now ms) :=
  State.meet_keeps (P := SpacedAt x y) (fun _ h => spaced_markEdge now h hy) (fun _ h => spaced_windowEnd h) ms h

theorem spaced_meetAll {x y : Nat} (hy : y ≤ 1) {s : State} (h : SpacedAt x y s) (o : Turns) : SpacedAt x y (s.meetAll o) :=
  spaced_meet true hy _ (spaced_meet true hy _ (spaced_meet true hy _ h))

/-- After an advance, the turns take the head and the window end back to their places. -/
theorem spaced_takeTurns (now : Bool) {s : State} (h : SpacedAt 1 1 s) (o : Turns) : SpacedAt 0 0 (s.takeTurns now o) := by
  unfold State.takeTurns
  have m : ∀ {x y : Nat} (_ : y ≤ 1) (ms : List Meeting) {s : State}, SpacedAt x y s → SpacedAt x y (s.meet now ms) :=
    fun hy ms _ h => spaced_meet now hy ms h
  have z : ∀ {x : Nat} (_ : x ≤ 1) {s : State}, SpacedAt x 1 s → SpacedAt x 0 (s.cross now .mru) :=
    fun hx _ h => spaced_registrationCrossing now h hx
  have f : ∀ {x y : Nat} {s : State}, SpacedAt x y s → SpacedAt x y (s.cross now .ksq) := fun h => spaced_fireCrossing h
  have t : ∀ {y : Nat} {s : State}, SpacedAt 1 y s → SpacedAt 0 y (s.cross now .trc) := fun h => spaced_decisionCrossing h
  have a := m (by omega) o.first h
  cases o.order <;> simp only [blocksOf]
  · exact t (m (by omega) _ (f (m (by omega) _ (z (by omega) a))))
  · exact f (m (by omega) _ (t (m (by omega) _ (z (by omega) a))))
  · exact t (m (by omega) _ (z (by omega) (m (by omega) _ (f a))))
  · exact z (by omega) (m (by omega) _ (t (m (by omega) _ (f a))))
  · exact f (m (by omega) _ (z (by omega) (m (by omega) _ (t a))))
  · exact z (by omega) (m (by omega) _ (f (m (by omega) _ (t a))))

/-- After an advance, the crossings take the head and the window end back to their places; an offer moves neither. -/
theorem spaced_crossings {s : State} (h : SpacedAt 1 1 s) (o : Turns) : SpacedAt 0 0 (s.crossings o) := by
  unfold State.crossings
  split
  · unfold State.offerCreated
    have ht := spaced_takeTurns false h o
    split
    · exact ht
    · exact ht.congr (disciplined_offerForCutting ht.disc) (knifeFrame_sameSpacing (State.offerForCutting_frame _))
  · exact spaced_takeTurns true h o

/-- One advance of HW brings every age one count closer. -/
theorem spaced_advance {s : State} (h : SpacedAt 0 0 s) {p : Psu} (h1 : p.hw = s.psu.hw + 1) (h2 : p.wpos = s.psu.wpos + 1)
    (h3 : p.reported = s.psu.reported) : SpacedAt 1 1 { s with psu := p } := by
  have d := disciplined_withPsu h.disc p
  by_cases hj : InJob s
  · obtain ⟨p1, p2, p3⟩ := h.core.job hj
    obtain ⟨q1, q2, q3, q4⟩ := p1.quantities
    have hage : ∀ e ∈ s.trc.queue, e.age (s.psu.hw + 1) = e.age s.psu.hw + 1 := by
      intro e he
      have := h.toSpacing.age_lt he
      unfold Entry.age at *
      have : (s.psu.hw - e.mark).toNat < 4294967295 := by omega
      bv_omega
    refine { core := { job := fun _ => ⟨p1, ?_, ?_⟩, apart := ?_, reach := h.core.reach, newest := h.core.newest }
             head := fun e he => ?_, window := fun hw => ?_, disc := d }
    · show p.reported = false
      rw [h3]; exact p2
    · show (p.hw - p.wpos).toNat ≤ _
      rw [h1, h2]
      have : s.psu.hw + 1 - (s.psu.wpos + 1) = s.psu.hw - s.psu.wpos := by bv_omega
      rw [this]
      exact p3
    · show marksApart p.hw _ _
      rw [h1]
      refine marksApart_advance h.core.apart (fun e he => ?_)
      have := h.toSpacing.age_lt he
      omega
    · obtain ⟨a1, a2⟩ := h.head e he
      refine ⟨a1, ?_⟩
      show e.age p.hw < _
      rw [h1, hage e (List.mem_of_mem_head? he)]
      omega
    · obtain ⟨m, win, e1, e2, e3, e4, e5⟩ := h.window hw
      refine ⟨m, win, e1, e2, e3, e4, ?_⟩
      show (p.hw - m).toNat < _
      rw [h1]
      have : (s.psu.hw - m).toNat < 4294967295 := by rcases e4 with e4 | e4 <;> rw [e4] at e5 <;> omega
      have : (s.psu.hw + 1 - m).toNat = (s.psu.hw - m).toNat + 1 := by bv_omega
      show _ < (win.centre - m).toNat + halfOf s.jbc.table + 1
      have e5 : (s.psu.hw - m).toNat < (win.centre - m).toNat + halfOf s.jbc.table + 0 := e5
      omega
  · exact SpacedAt.quiet d hj

/-- A count that leaves HW where it is. -/
theorem spaced_withWpos {x y : Nat} {s : State} (h : SpacedAt x y s) {p : Psu} (h1 : p.hw = s.psu.hw)
    (h2 : InJob s → p.reported = false ∧ (p.hw - p.wpos).toNat ≤ (derivedOf s.jbc.table).rev) :
    SpacedAt x y { s with psu := p } := by
  refine { core := { job := fun hj => ⟨(h.core.job hj).1, h2 hj⟩, apart := ?_, reach := h.core.reach, newest := h.core.newest }
           head := fun e he => ?_, window := fun hw => ?_, disc := disciplined_withPsu h.disc p }
  · show marksApart p.hw _ _
    rw [h1]; exact h.core.apart
  · show _ ∧ e.age p.hw < _
    rw [h1]; exact h.head e he
  · obtain ⟨m, win, e⟩ := h.window hw
    refine ⟨m, win, ?_⟩
    show _ ∧ _ ∧ _ ∧ _ ∧ (p.hw - m).toNat < _
    rw [h1]; exact e

theorem spaced_encoderChange {s : State} (h : SpacedAt 0 0 s) (a b : Bool) (o : Turns) : SpacedAt 0 0 (s.encoderChange a b o) := by
  have h0 : SpacedAt 0 0 { s with psu := s.psu.observe a b } :=
    spaced_withWpos h rfl (fun hj => (h.core.job hj).2)
  unfold State.encoderChange
  simp only
  split
  · exact spaced_meetAll (by omega) h0 o
  · unfold State.forwardCount
    simp only
    split
    · rename_i hw
      have hw : s.psu.wpos = s.psu.hw := hw
      refine spaced_crossings (spaced_advance h0 ?_ ?_ ?_) o <;> simp [Psu.forward, Psu.observe, hw]
    · rename_i hw
      have hw : s.psu.wpos ≠ s.psu.hw := hw
      refine spaced_meetAll (by omega) (spaced_withWpos h0 ?_ (fun hj => ?_)) o
      · unfold Psu.forward Psu.observe
        simp only [hw, if_false]
        split <;> rfl
      · obtain ⟨-, p2, p3⟩ := h.core.job hj
        unfold Psu.forward Psu.observe
        simp only [hw, if_false]
        split
        · rename_i he
          refine ⟨rfl, ?_⟩
          show (s.psu.hw - (s.psu.wpos + 1)).toNat ≤ _
          rw [he, BitVec.sub_self]
          exact Nat.zero_le _
        · refine ⟨p2, ?_⟩
          show (s.psu.hw - (s.psu.wpos + 1)).toNat ≤ _
          have : (s.psu.hw - (s.psu.wpos + 1)).toNat ≤ (s.psu.hw - s.psu.wpos).toNat := by bv_omega
          exact Nat.le_trans this p3
  · refine spaced_meetAll (by omega) ?_ o
    have d := disciplined_encoderChange h.disc a b o
    unfold State.reverseCount
    simp only
    split
    · rename_i hl
      simp only [State.excursionLost, Bool.and_eq_true] at hl
      refine SpacedAt.quiet (disciplined_loseTracking (disciplined_withPsu (disciplined_withPsu h0.disc _) _)
        ((jobActive_iff _).1 hl.1.1)) (fun hx => ?_)
      rcases hx with hx | hx <;> cases hx
    · rename_i hl
      by_cases hj : InJob s
      · obtain ⟨p1, p2, p3⟩ := h.core.job hj
        obtain ⟨-, -, -, q4⟩ := p1.quantities
        have hdepth : ((s.psu.observe a b).reverse.hw - (s.psu.observe a b).reverse.wpos).toNat ≤ (derivedOf s.jbc.table).rev := by
          by_contra hgt
          apply hl
          unfold State.excursionLost
          have e1 : ({ s with psu := (s.psu.observe a b).reverse } : State).jobActive = true := (jobActive_iff _).2 hj
          have e2 : ({ s with psu := (s.psu.observe a b).reverse } : State).quantities = derivedOf s.jbc.table := by
            show s.quantities = _
            exact quantities_eq h.disc.1 hj
          have e3 : (s.psu.observe a b).reverse.reported = false := p2
          simp only [e1, e2, e3, Bool.true_and, Bool.not_false, Bool.and_true, decide_eq_true_eq]
          exact Nat.lt_of_not_le hgt
        refine spaced_withWpos h0 ?_ (fun _ => ⟨p2, hdepth⟩)
        have hne : s.psu.depth ≠ depthLimit := by
          unfold Psu.depth depthLimit
          omega
        show (if (s.psu.observe a b).depth = depthLimit then _ else _) = _
        rw [if_neg (show ¬ (s.psu.observe a b).depth = depthLimit from hne)]
      · exact SpacedAt.quiet (disciplined_withPsu h0.disc _) hj
  · refine spaced_meetAll (by omega) ?_ o
    refine SpacedAt.congr (spaced_withWpos h0 (p := (s.psu.observe a b).illegal) rfl (fun hj => (h.core.job hj).2))
      (disciplined_setEvent (disciplined_withPsu h0.disc _) _) ?_
    constructor <;> first | rfl | exact id

/-! ### Everything else -/

theorem spaced_flushed {s : State} (d : Disciplined False s) (h : s.jbc.job = .idle ∨ s.jbc.job = .halt) : SpacedAt 0 0 s :=
  SpacedAt.quiet d (fun hx => InJob.not_stopped hx h)

/-- Splices and verdicts put nothing in the queue and take nothing from it. -/
theorem State.takeVerdict_sameSpacing (s : State) (src : Byte) (p : Payload) : SameSpacing s (s.takeVerdict src p) := by
  have e : ∀ (u : State) (b : Bool) (e : Event), (u.setEventIf b e).trc = u.trc ∧ (u.setEventIf b e).jbc = u.jbc ∧
      (u.setEventIf b e).mru = u.mru ∧ (u.setEventIf b e).psu = u.psu := by
    intro u b e
    cases b <;> exact ⟨rfl, rfl, rfl, rfl⟩
  have sp : ∀ (u : State) (r : Rsn) (f : Bool), SameSpacing s u → SameSpacing s (u.processSplice r f) := by
    intro u r f h
    unfold State.processSplice
    split
    · simp only
      have hc : ∀ x, (u.trc.condemn x).queue = u.trc.queue ∧ (u.trc.condemn x).watch = u.trc.watch := by
        intro x
        unfold Trc.condemn
        split <;> exact ⟨rfl, rfl⟩
      obtain ⟨-, e2, e3, e4⟩ := e u ((condemnedRange u.jbc.table (rsnOffset u.trc.oldestRsn r)).escapes u.trc.decided)
        .spliceEscape
      exact
        { place := by simp only [(hc _).1]; exact h.place, watch := by simp only [(hc _).2]; exact h.watch
          lastMark := by simp only [e3]; exact h.lastMark, window := by simp only [e3]; exact h.window
          eInt := by simp only [e3]; exact h.eInt, eFrac := by simp only [e3]; exact h.eFrac
          armed := by simp only [e3]; exact h.armed, hw := by simp only [e4]; exact h.hw
          wpos := by simp only [e4]; exact h.wpos, reported := by simp only [e4]; exact h.reported
          table := by simp only [e2]; exact h.table, job := by unfold InJob; simp only [e2]; exact h.job }
    · exact h
  have same : SameSpacing s s := by constructor <;> first | rfl | exact id
  have ev : ∀ ev, SameSpacing s (s.setEvent ev) := fun _ => by constructor <;> first | rfl | exact id
  unfold State.takeVerdict
  split
  · unfold State.classifyVerdict
    simp only
    split
    · exact ev _
    · split
      · refine sp _ _ _ ?_
        unfold State.storeVerdict
        simp only
        generalize verdictConflict _ _ = b
        cases b <;> constructor <;> first | rfl | exact id
      · split
        · refine sp _ _ _ ?_
          unfold State.mergeIntoEntry
          simp only
          generalize verdictConflict _ _ = b
          have hp : ∀ v : Option VerdictRecord, (s.trc.queue.map fun e : Entry =>
              if e.rsn = word16 p.b4 p.b5 then { e with verdict := v } else e).map Entry.place =
                s.trc.queue.map Entry.place := by
            intro v
            rw [List.map_map]
            apply List.map_congr_left
            intro x _
            simp only [Function.comp]
            split <;> rfl
          cases b <;> constructor <;> first | rfl | exact id | exact hp _
        · exact sp _ _ _ (ev _)
  · exact same

/-- Spacing through traffic on the ring. -/
theorem spaced_traffic : KeptByTraffic (SpacedAt 0 0) where
  rif _ _ h := h.congr (disciplined_withRif h.disc _) (by constructor <;> first | rfl | exact id)
  mge _ _ h := h.congr (disciplined_withMge h.disc _) (by constructor <;> first | rfl | exact id)
  bsq _ _ h := h.congr (disciplined_withPlans h.disc _) (by constructor <;> first | rfl | exact id)
  draws _ _ h := h.congr ((disciplined_traffic False).draws _ _ h.disc) (by constructor <;> first | rfl | exact id)
  verdict s _ _ h := h.congr (disciplined_takeVerdict h.disc _ _) (s.takeVerdict_sameSpacing _ _)
  heartbeat s _ _ h := by
    refine h.congr (disciplined_takeHeartbeat h.disc _ _) ?_
    unfold State.takeHeartbeat
    split <;> constructor <;> first | rfl | exact id
  reset _ _ _ _ _ _ := spaced_flushed (disciplined_afterReset _ _ _ _ _) (Or.inl rfl)

theorem spaced_setRow {s : State} (h : SpacedAt 0 0 s) (i : Lane) (r : LaneRow) : SpacedAt 0 0 (s.setRow i r) :=
  h.congr (disciplined_setRow h.disc i r) (by unfold State.setRow; constructor <;> first | rfl | exact id)

/-- WRITE requests (R13, R115, R123, R153, R158): the job table is written in IDLE alone. -/
theorem spaced_runWrite (q : Request) {s : State} (h : SpacedAt 0 0 s) : SpacedAt 0 0 (State.runWrite q s).1 := by
  unfold State.runWrite
  split
  · split
    · unfold State.writeJob
      split
      · exact h
      · rename_i hi
        split
        · rename_i hr
          exact spaced_flushed (disciplined_withTable h.disc (not_not.1 hi) (limits_set h.disc.1.limits hr))
            (Or.inl (not_not.1 hi))
        · exact h
    · exact h
  · unfold State.writeLane
    simp only
    split
    · exact h
    · split <;> exact spaced_setRow h _ _
  · unfold State.writeBatch
    simp only
    split
    · exact h
    · split
      · exact h
      · split
        · exact h
        · exact spaced_traffic.bsq _ _ h
  · unfold State.writeRing
    split <;> split <;> first | exact h | exact spaced_traffic.rif _ _ h
  · exact h

/-- A WRITE to SPEED_WINDOW in its range, in any job state (R10): no check of JOB_START looks at it but the range. -/
theorem spaced_speedWindowWrite {s : State} (h : SpacedAt 0 0 s) {v : Nat} (hv : v ≤ 3) {p : Psu} (h1 : p.hw = s.psu.hw)
    (h2 : p.wpos = s.psu.wpos) (h3 : p.reported = s.psu.reported) :
    SpacedAt 0 0 { s with jbc := { s.jbc with table := { s.jbc.table with speedWindow := v } }, psu := p } := by
  have d : Disciplined False { s with jbc := { s.jbc with table := { s.jbc.table with speedWindow := v } } } :=
    Disciplined.congr h.disc (by
      constructor <;> first | rfl | exact ⟨rfl, rfl⟩ | exact fun h _ => h | exact fun _ _ h1 h2 => ⟨h1, h2⟩)
  refine { core := { job := fun hj => ⟨?_, ?_⟩, apart := ?_, reach := h.core.reach, newest := h.core.newest }
           head := fun e he => ?_, window := fun hw => ?_, disc := disciplined_withPsu d p }
  · have c := (h.core.job hj).1
    refine ⟨fun f hf => ?_, c.geometry, c.capacity⟩
    have := c.complete f hf
    cases f <;> first
      | exact this
      | (show (0 : Int) ≤ (v : Int) ∧ (v : Int) ≤ 3; omega)
  · show p.reported = false ∧ (p.hw - p.wpos).toNat ≤ _
    rw [h1, h2, h3]
    exact (h.core.job hj).2
  · show marksApart p.hw _ _
    rw [h1]
    exact h.core.apart
  · show _ ∧ e.age p.hw < _
    rw [h1]
    exact h.head e he
  · obtain ⟨m, win, e⟩ := h.window hw
    refine ⟨m, win, ?_⟩
    show _ ∧ _ ∧ _ ∧ _ ∧ (p.hw - m).toNat < _
    rw [h1]
    exact e

/-- What JOB_START checks is what R18 rests on (R16 to R18). -/
theorem passed_of_startRefusal {s : State} (h : s.startRefusal = none) : s.jbc.table.Passed := by
  unfold State.startRefusal at h
  split at h
  · cases h
  · split at h
    · cases h
    · rename_i hu
      split at h
      · cases h
      · rename_i hg
        split at h
        · cases h
        · rename_i hc
          refine { complete := fun f hf => ?_, geometry := fun k h1 h2 => ?_, capacity := ?_ }
          · unfold JobTable.firstUnset at hu
            rw [List.findIdx?_eq_none_iff] at hu
            have := hu f hf
            simpa [JobTable.unset, JobField.inRange] using this
          · unfold geometryFailure at hg
            rw [Option.map_eq_none_iff, List.findIdx?_eq_none_iff] at hg
            have hall : ∀ b ∈ geometryConditions s.jbc.table, b = true := fun b hb => by simpa using hg b hb
            simp only [geometryConditions, List.mem_cons, List.not_mem_nil, or_false, forall_eq_or_imp, forall_eq,
              decide_eq_true_eq] at hall
            obtain ⟨g1, g2, g3, g4, g5, g6, g7⟩ := hall
            have hk : k = 1 ∨ k = 2 ∨ k = 3 ∨ k = 4 ∨ k = 5 ∨ k = 6 ∨ k = 7 := by omega
            rcases hk with rfl | rfl | rfl | rfl | rfl | rfl | rfl
            exacts [g1, g2, g3, g4, g5, g6, g7]
          · exact Nat.le_of_not_lt hc

/-- An accepted JOB_START: the table has passed its checks, and nothing is tracked yet (R16 to R20). -/
theorem spaced_startJob {s : State} (d : Disciplined False s) (hi : s.jbc.job = .idle) (p : s.jbc.table.Passed) :
    SpacedAt 0 0 s.startJob := by
  have hq : s.startJob.trc.queue = [] := (d.1.quiet (Or.inl hi)).1
  refine { core := { job := fun _ => ⟨p, rfl, ?_⟩, apart := by rw [hq]; trivial, reach := by rw [hq]; simp
                     newest := by rw [hq]; simp }
           head := by unfold HeadAt; rw [hq]; simp, window := fun hw => ?_, disc := disciplined_startJob d hi }
  · show (s.psu.wpos - s.psu.wpos).toNat ≤ _
    rw [BitVec.sub_self]
    exact Nat.zero_le _
  · have hw : false = true := hw
    cases hw

/-- A queue is within its 128 entries (R62). -/
theorem State.Spaced.length {s : State} (d : s.JobDiscipline) (h : s.Spaced) : s.trc.queue.length ≤ 128 := by
  cases hq : s.trc.queue with
  | nil => simp
  | cons e rest =>
    have hj : InJob s := d.inJob (by rw [hq]; simp)
    obtain ⟨p1, p2, p3, -⟩ := h.job hj
    have ha := h.apart
    rw [hq] at ha
    refine JobTable.Passed.length ⟨p1, p2, p3⟩ ha ?_
    have h1 := (h.head e (by rw [hq]; rfl)).2
    have h2 := h.reach e (by rw [hq]; simp)
    unfold Entry.age reachOf
    omega

end Sys2Proof.Machine
end

