-- ==== Sys2Proof/WellFormed.lean ====
section
/-! DEFINITION. Which commands are well formed: the cell a ring command carries is one that the command's row can name.
The meanings do not lean on this: a ring command's cell is always taken for what its bytes say it is (log 8). -/

namespace Sys2Proof

open Machine

/-- The cell of a command whose row fixes the type code. -/
def cellOfKind (kind : Byte) (b : CellBody) : Cell := ⟨kind, b⟩

/-- A good cell from a node of the ring: what a row that takes a cell in can carry (R149, R150). -/
def goodNodeCell (c : Cell) : Bool := checkGood c && sourceIsNode c

/-- The state-independent part of a row's description, as a check on the command. -/
def Instr.wellFormed : Instr → Bool
  | .frameHeader b => validHeader (cellOfKind kindFrameHeader b)
  | .invalidHeader c => !validHeader c
  | .badCheckCell c => !checkGood c
  | .verdict b => goodNodeCell (cellOfKind kindVerdict b)
  | .heartbeat b => goodNodeCell (cellOfKind kindHeartbeat b)
  | .stackerStatus b => goodNodeCell (cellOfKind kindStackerStatus b)
  | .mgmtRequest b => goodNodeCell (cellOfKind kindMgmtRequest b)
  | .cellRepeated c => checkGood c
  | .encoderTransition _ _ _ => true
  | .markEdge => true
  | .speedWindowExpiry => true
  | .knifeInhibitAsserted => true
  | .pulseTimerExpiry => true
  | .recoveryTimerExpiry => true
  | .heartbeatTimerExpiry => true
  | .statusTimerExpiry _ => true
  | .linkTimerExpiry => true
  | .ownedSlotStart _ => true
  | .slotEnd => true
  | .read => true
  | .write => true
  | .speedWindowWrite => true
  | .stackerNodeWrite => true
  | .pocketWrite => true
  | .statusAgeLimitWrite => true
  | .maskWrite => true
  | .slotMapWrite => true
  | .appendBatch => true
  | .jobStart => true
  | .jobStop => true
  | .jobAbort => true
  | .trim => true
  | .waste => true
  | .snapshot => true
  | .clearEvents => true
  | .releaseStop => true
  | .resetNode => true
  | .badOp => true
  | .deviceResetAssert => true
  | .deviceResetEnd _ _ _ _ => true
  | .knifeInhibitReleased => true

end Sys2Proof
end

