-- ==== Sys2Proof/Tests/Slice0.lean ====
section
/-! SUPPORT. The model's own tests: well-formedness, the figures of the manual's worked case, and for every obligation with
hypotheses a concrete machine that meets them, clause by clause. -/

namespace Sys2Proof.Tests

open Sys2Proof Sys2Proof.Machine

set_option Elab.async false

/-! ### Small machines -/

/-- The job table of the worked case (12.1). -/
def jobTable : JobTable :=
  { encScale := 19685, repeatLength := 101600, knifeDist := 1250000, gateDist := 3000000, cutOffset := 3000,
    markWindow := 2000, markTol := 1000, missLimit := 3, lockCount := 2, knifeLag := 6000, knifePulse := 100,
    knifeRecovery := 8000, lateTol := 500, gateGuard := 20000, reverseTol := 1000, speedWindow := 2, hbPeriod := 200,
    verdictNode := 7, firstRsn := 700, spliceBefore := 2, spliceAfter := 1, lanes := 2 }

/-- A batch of `target` pieces. -/
def batchOf (target : Nat) (loop : Bool) : Batch := { target := target, mode := .gap, gap := 1, tag := 10, loop := loop }

/-- The part with that job table, and lane 0 enabled with one batch of 2. -/
def loaded : State :=
  { State.reset with
    jbc := { jbcAtReset with table := jobTable }
    gtu := { gtuAtReset with table := gtuAtReset.table.set 0 { laneRowAtReset with enable := true } }
    bsq := State.reset.bsq.set 0 { lanePlanAtReset with batches := [batchOf 2 false] } }

/-- Just after an accepted JOB_START. -/
def running : State := loaded.startJob

/-- One mark taken at position 0: entry 700, armed for cutting, and MRU in CAPTURE. -/
def tracked : State := running.takeMark true 0

/-- The entry 700 of `tracked`. -/
def entry : Entry :=
  { rsn := 700, mark := 0, kind := .seen, regErr := some 0, regFlag := .fault, cutTarget := 24665, decisionPoint := 58720,
    cut := .pending, verdict := none, tail := false }

/-- `s` with the web at position `p`. -/
def atWeb (s : State) (p : Position) : State := { s with psu := { s.psu with wpos := p, hw := p } }

/-- `s` with WPOS `n` counts behind HW. -/
def behind (s : State) (n : Position) : State := { s with psu := { s.psu with wpos := s.psu.hw - n } }

def inJob (s : State) (j : JobState) : State := { s with jbc := { s.jbc with job := j } }

def withQueue (s : State) (q : List Entry) : State := { s with trc := { s.trc with queue := q, watch := true } }

def withReg (s : State) (r : RegState) : State := { s with mru := { s.mru with reg := r } }

/-- `s` with the tail pending, in DRAIN. -/
def draining (s : State) : State := { s with jbc := { s.jbc with job := .drain, tailPending := true } }

/-- `s` on an UP link of 8 slots, the next cell at position `p`. -/
def onRing (s : State) (p : Nat) : State :=
  { s with rif := { s.rif with
      link := .up, linkTimer := some 0, slots := some 8, slot := some (if p = 0 then 7 else p - 1)
      frameStatus := some 0 } }

/-- A request from node 1. -/
def request (op : Byte) (a : Payload) : Request :=
  { source := 1, tag := 9, op := op, a6 := a.b4, a7 := a.b5, a8 := a.b6, a9 := a.b7, a10 := a.b8, a11 := a.b9,
    a12 := a.b10, a13 := a.b11 }

/-- A READ or WRITE from node 1. -/
def access (op table row field : Byte) (v : BitVec 32) : Request :=
  request op ⟨table, row, field, byteOf v 3, byteOf v 2, byteOf v 1, byteOf v 0, 0, 0, 0⟩

/-- `s` with `q` the only request waiting. -/
def asked (s : State) (q : Request) : State := { s with mge := { s.mge with requests := [q] } }

/-- `s` with MANAGER_NODE set. -/
def managedBy (s : State) (n : BitVec 5) : State := { s with rif := { s.rif with managerNode := n } }

/-- A cell of a type, from a node, to every node. -/
def cellFrom (kind source : Byte) (p : Payload) : Cell := sealCell kind source 0xFF#8 0 p

/-- A payload with its first four bytes given. -/
def bytes4 (a b c d : Byte) : Payload := { payloadZero with b4 := a, b5 := b, b6 := c, b7 := d }

/-- A cell with its check spoilt. -/
def spoilt (c : Cell) : Cell := { c with body := { c.body with check := c.body.check + 1 } }

def headerCell (n : Byte) : Cell := cellFrom 0x10#8 0 (bytes4 0 1 n 0)

/-! ### Well-formedness: one term that each check refuses, one that it takes -/

theorem test_wellFormed_refuses :
    (Instr.frameHeader (headerCell 3).body).wellFormed = false ∧
    (Instr.invalidHeader (headerCell 4)).wellFormed = false ∧
    (Instr.badCheckCell (headerCell 4)).wellFormed = false ∧
    (Instr.verdict (spoilt (cellFrom 0x21#8 7 payloadZero)).body).wellFormed = false ∧
    (Instr.heartbeat (cellFrom 0x22#8 32 payloadZero).body).wellFormed = false ∧
    (Instr.stackerStatus (cellFrom 0x23#8 255 payloadZero).body).wellFormed = false ∧
    (Instr.mgmtRequest (spoilt (cellFrom 0x30#8 1 payloadZero)).body).wellFormed = false ∧
    (Instr.cellRepeated (spoilt (headerCell 4))).wellFormed = false := by decide +kernel

theorem test_wellFormed_takes :
    (Instr.frameHeader (headerCell 4).body).wellFormed = true ∧
    (Instr.frameHeader (headerCell 32).body).wellFormed = true ∧
    (Instr.invalidHeader (headerCell 33)).wellFormed = true ∧
    (Instr.badCheckCell (spoilt (headerCell 4))).wellFormed = true ∧
    (Instr.verdict (cellFrom 0x21#8 31 payloadZero).body).wellFormed = true ∧
    (Instr.markEdge).wellFormed = true := by decide +kernel

/-! ### Figures that the manual states -/

/-- 13.5: the check of the nine characters "123456789". -/
theorem test_crc_of_nine_characters :
    crc16 [0x31#8, 0x32#8, 0x33#8, 0x34#8, 0x35#8, 0x36#8, 0x37#8, 0x38#8, 0x39#8] = 0x29B1#16 := by decide +kernel

/-- 12.1: the quantities held for the worked case. -/
theorem test_worked_quantities :
    quantitiesOf jobTable = ⟨131071738, 39, 20, 20, 10, 8000⟩ ∧ (quantitiesOf jobTable).repCounts = 1999 ∧
      capacityOf jobTable = 33 := by decide +kernel

/-- Chapter 3: T, S and F of the mark at 1,000,000 at SPD 788. -/
theorem test_worked_positions :
    cutTargetOf jobTable 3000 1000000 = 1024665 ∧ decisionPointOf jobTable 3000 1000000 = 1058720 ∧
      leadOf 788 6000 = 296 ∧
      firePointOf 788 6000 { entry with mark := 1000000, cutTarget := 1024665 } = 1024369 := by decide +kernel

/-- 12.5: a splice on 706 with six entries decided reaches back to 704, and condemns 706 and 707. -/
theorem test_worked_splice :
    let s := { withQueue running [{ entry with rsn := 706 }] with
      trc := { (withQueue running [{ entry with rsn := 706 }]).trc with nextRsn := 735, decided := 6 } }
    SpliceEscapes s 706 ∧ (s.processSplice 706 true).trc.splices = [⟨706, 707⟩] := by decide +kernel

/-- R80: a fifth range is merged with the nearest. -/
theorem test_fifth_splice_range :
    insertRange ⟨20, 22⟩ [⟨0, 1⟩, ⟨5, 6⟩, ⟨10, 11⟩, ⟨30, 31⟩] = [⟨0, 1⟩, ⟨5, 6⟩, ⟨10, 11⟩, ⟨20, 31⟩] ∧
    insertRange ⟨7, 9⟩ [⟨0, 1⟩, ⟨5, 6⟩, ⟨10, 11⟩, ⟨30, 31⟩] = [⟨0, 1⟩, ⟨5, 11⟩, ⟨30, 31⟩] := by decide +kernel

/-- The small machine of the witnesses is what the model makes of one mark. -/
theorem test_tracked :
    tracked.trc.queue = [entry] ∧ tracked.ksq.armed = some 700 ∧ tracked.ksq.fireWatch = some 24665 ∧
      tracked.mru.reg = .capture ∧ tracked.mru.window = some ⟨2000, 1961, 2039⟩ := by decide +kernel

/-- No bits in the table: no word spells a command (log 22). -/
theorem test_no_word_spells_a_command : decodeTableWord 8 0x3F = none := by decide

/-! ### Every hypothesis can be met: steps, the clock, reset -/

theorem test_EmptyQueueLetsOneClockPeriodPass :
    (running.pending = [] ∧ running.resetHeld = false) ∧
    (running.assertReset.pending = [] ∧ running.assertReset.resetHeld = true) := by decide +kernel

theorem test_DeviceResetEndGivesTheAfterResetState :
    running.assertReset.resetHeld = true ∧ running.resetHeld = false := by decide +kernel

theorem test_HeldResetOnlyRepeatsCells :
    running.assertReset.resetHeld = true ∧ Instr.cellRepeated (headerCell 3) ≠ .deviceResetAssert ∧
      carriedCell (.cellRepeated (headerCell 3)) = some (headerCell 3) ∧ carriedCell .markEdge = none := by
  decide +kernel

theorem test_HeldResetOnlyRepeatsCells_no_end (p : BitVec 5) (k a b : Bool) :
    Instr.markEdge ≠ .deviceResetEnd p k a b := by simp

theorem test_OutputLinesFollowTheirBlocks :
    running.assertReset.resetHeld = true ∧
    (running.resetHeld = false ∧ running.setStopLatch.jbc.stopLatch = true ∧ loaded.jbc.job = .idle ∧
      (inJob running .halt).jbc.job = .halt ∧ running.jbc.table.lanes ≤ (2 : Lane).val) ∧
    (running.jbc.stopLatch = false ∧ running.jbc.job = .run ∧ (inJob running .drain).jbc.job = .drain ∧
      (1 : Lane).val < running.jbc.table.lanes) := by decide +kernel

/-! ### The web -/

/-- An unchanged pair and an illegal change; a forward count one behind HW and far behind it, and one at HW, with nothing
armed at all and with points armed elsewhere; an excursion of exactly rev, which loses nothing, nor does one of any depth in
IDLE, at the depth limit too. -/
theorem test_EncoderChangesMoveTheWeb :
    (running.resetHeld = false ∧ false = running.psu.encA ∧ false = running.psu.encB ∧
      true ≠ running.psu.encA ∧ true ≠ running.psu.encB) ∧
    (forwardStep running.psu.encA running.psu.encB true false ∧ (behind running 1).psu.wpos ≠ (behind running 1).psu.hw ∧
      (behind running 2147483647).psu.wpos ≠ (behind running 2147483647).psu.hw) ∧
    (running.psu.wpos = running.psu.hw ∧ running.NoMissAt 1 ∧ running.NoFireAt 1 ∧ running.NoDecisionAt 1) ∧
    (tracked.psu.wpos = tracked.psu.hw ∧ tracked.mru.watch = true ∧ tracked.ksq.armed.isSome = true ∧
      tracked.trc.watch = true ∧ tracked.NoMissAt 1 ∧ tracked.NoFireAt 1 ∧ tracked.NoDecisionAt 1) ∧
    (reverseStep running.psu.encA running.psu.encB false true ∧
      ¬ LosesTracking (behind running 19) false true ∧ ¬ LosesTracking (behind loaded 2147483647) false true ∧
      (afterReverse (behind loaded 2147483647).psu false true).hw = -1) :=
  ⟨by decide +kernel, by decide +kernel, by decide +kernel, by decide +kernel, by decide +kernel⟩

/-- The advance that comes to 2^31 - 1 counts beyond the last mark, and one that falls a count short of it. -/
theorem test_SearchForgetsADistantMark :
    let far (p : Position) : State := { atWeb running p with mru := { running.mru with lastMark := some 0 } }
    (∀ s ∈ [far 2147483646, far 2147483645], s.AtFront true false ∧ s.mru.reg = .search ∧ s.mru.lastMark = some 0 ∧
      s.NoMissAt (s.psu.hw + 1) ∧ s.NoFireAt (s.psu.hw + 1) ∧ s.NoDecisionAt (s.psu.hw + 1)) ∧
    ((far 2147483646).psu.hw + 1 - 0).toInt = 2147483647 ∧ ((far 2147483645).psu.hw + 1 - 0).toInt ≠ 2147483647 := by
  decide +kernel

theorem test_MeetingsAreTakenInTheirTurn :
    running.resetHeld = false ∧ running.AtFront true false ∧ ¬ (behind running 1).AtFront true false ∧
      ¬ running.AtFront false true ∧ running.NoDecisionAt (running.psu.hw + 1) ∧
    (atWeb (withQueue running [entry]) 58719).AtFront true false ∧
      ¬ (atWeb (withQueue running [entry]) 58719).NoDecisionAt 58720 := by decide +kernel

theorem test_ReverseExcursionHaltsTheJob :
    (behind tracked 20).resetHeld = false ∧ reverseStep tracked.psu.encA tracked.psu.encB false true ∧
      LosesTracking (behind tracked 20) false true ∧ LosesTracking (draining (behind tracked 20)) false true := by
  decide +kernel

/-- `s` with its speed window `age` clock periods old. -/
def aged (s : State) (age : Nat) : State := { s with psu := { s.psu with windowAge := age } }

/-- A window one period short of its length; one that has run it with nothing armed, and with an armed entry whose new F is
one count ahead of HW. -/
theorem test_SpeedWindowExpiryMeasuresTheSpeed :
    (running.resetHeld = false ∧ running.ksq.armed = none ∧ ¬ (aged running 99999).WindowRunOut ∧
      (aged running 100000).WindowRunOut) ∧
    ((aged (atWeb tracked 24664) 100000).WindowRunOut ∧ (atWeb tracked 24664).ksq.armed = some 700 ∧
      (atWeb tracked 24664).trc.queue.find? (fun x => x.rsn == 700) = some entry ∧
      ((atWeb tracked 24664).psu.hw - fireAt (afterWindow (atWeb tracked 24664)).spd 6000 entry).toInt < 0) := by
  decide +kernel

/-- The new F at HW, at the lateness limit, and beyond it, with the knife free, inhibited, and recovering; and the window end
taken first at the advance that reaches the watched F, which then lies ahead, or at HW. -/
theorem test_RecomputedFirePointReachedIsALateFire :
    let renewed (s : State) : State := { s with psu := afterWindow s }
    let past (p : Position) : State := aged (atWeb tracked p) 100000
    let watching (p : Position) (n : Int) : State :=
      { past p with psu := { (past p).psu with windowCount := n }, ksq := { tracked.ksq with fireWatch := some (p + 1) } }
    let first (s : State) : State := { s.forwarded true false with psu := afterWindow (s.advanced true false) }
    (∀ s ∈ [past 24665, past 24675, past 24676, (past 24665).assertInhibit, watching 24664 (-1), watching 24000 (-1)],
      s.resetHeld = false ∧ s.WindowRunOut ∧ s.ksq.armed = some 700 ∧
        s.trc.queue.find? (fun x => x.rsn == 700) = some entry ∧ (s.trc.queue.map Entry.rsn).Nodup) ∧
    ((renewed (past 24665)).lateness entry = 0 ∧ (renewed (past 24675)).lateness entry = tracked.quantities.lt ∧
      (renewed (past 24676)).lateness entry = tracked.quantities.lt + 1) ∧
    (¬ tracked.Blocked ∧ (past 24665).assertInhibit.Blocked) ∧
    (∀ s ∈ [watching 24664 (-1), watching 24000 (-1)], s.AtFront true false ∧ s.ksq.fireWatch = some (s.psu.hw + 1) ∧
      s.NoMissAt (s.psu.hw + 1) ∧ s.NoDecisionAt (s.psu.hw + 1)) ∧
    ((first (watching 24664 (-1))).lateness entry = 0 ∧ (first (watching 24000 (-1))).lateness entry < 0) := by
  decide +kernel

/-! ### Marks -/

/-- The spacing test at its boundary: 1,959 counts beyond the last mark are too near, 1,960 are not. -/
theorem test_spacing :
    (atWeb (withReg tracked .search) 1959).TooNear 1959 ∧ ¬ (atWeb (withReg tracked .search) 1960).TooNear 1960 := by
  refine ⟨⟨0, by decide +kernel, by decide +kernel⟩, ?_⟩
  rintro ⟨m, hm, h⟩
  obtain rfl : m = 0 := by simpa using (show (some 0 : Option Position) = some m from hm).symm
  exact absurd h (by decide +kernel)

/-- With no last mark nothing is too near. -/
theorem not_tooNear {s : State} (h : s.mru.lastMark = none) (c : Position) : ¬ s.TooNear c := by
  rintro ⟨m, hm, -⟩
  rw [h] at hm
  cases hm

/-- A replay; a mark in IDLE; one a count before the window's opening; and one with no window.  (Too near: `test_spacing`.) -/
theorem test_MarksThatCreateNoEntry :
    (behind tracked 1).psu.wpos ≠ (behind tracked 1).psu.hw ∧ loaded.mru.reg = .idle ∧
    (tracked.mru.reg = .capture ∧ (atWeb tracked 1960).BeforeWindow 1960) ∧
    ((withReg running .locked).mru.reg = .locked ∧ (withReg running .locked).BeforeWindow 0) := by decide +kernel

/-- With no last mark, for the tail and for none.  (At the least spacing: `test_spacing`.) -/
theorem test_MarkInSearchCreatesAFaultEntry :
    (∀ s ∈ [running, draining running], s.resetHeld = false ∧ s.psu.wpos = s.psu.hw ∧ s.mru.reg = .search) ∧
    running.jbc.tailPending = false ∧ (draining running).jbc.tailPending = true ∧
    ¬ running.TooNear running.psu.wpos ∧ ¬ (draining running).TooNear (draining running).psu.wpos :=
  ⟨by decide +kernel, rfl, rfl, not_tooNear rfl _, not_tooNear rfl _⟩

/-- At the opening, in CAPTURE below and at the lock count and in LOCKED, for the tail and for none; at the tolerance and
beyond it. -/
theorem test_MarkInWindowCreatesAJudgedEntry :
    (∀ s ∈ [atWeb tracked 1961, atWeb (withReg tracked .locked) 1961, draining (atWeb tracked 1961),
        { atWeb tracked 1961 with mru := { tracked.mru with run := 1 } }],
      s.resetHeld = false ∧ s.psu.wpos = s.psu.hw ∧ (s.mru.reg = .capture ∨ s.mru.reg = .locked) ∧
        s.mru.window = some ⟨2000, 1961, 2039⟩ ∧ ¬ s.BeforeWindow s.psu.wpos) ∧
    tracked.lockedAfterMark = false ∧
    ({ atWeb tracked 1961 with mru := { tracked.mru with run := 1 } } : State).lockedAfterMark = true ∧
    (withReg tracked .locked).lockedAfterMark = true ∧
    ((1980 : Position) - 2000).toInt.natAbs ≤ tracked.quantities.tol ∧
    tracked.quantities.tol < ((1979 : Position) - 2000).toInt.natAbs := by decide +kernel

/-- A miss in CAPTURE and in LOCKED, below the limit and at it, for the tail, and with an empty queue. -/
theorem test_MissSynthesizesAMark :
    let at2 (s : State) : State := { s with mru := { s.mru with missRun := 2 } }
    let late := atWeb tracked 2038
    (∀ s ∈ [late, withReg late .locked, at2 (withReg late .locked), at2 late, draining late, withQueue late []],
      s.AtFront true false ∧ (s.mru.reg = .capture ∨ s.mru.reg = .locked) ∧ s.mru.watch = true ∧
        s.mru.window = some ⟨2000, 1961, 2039⟩ ∧ (2039 : Position) = s.psu.hw + 1 ∧ s.NoDecisionAt (s.psu.hw + 1) ∧
        (s.trc.queue = [] → (placed s.jbc.table s.jbc.ocEff 2000).2 ≠ s.psu.hw + 1)) ∧
    (late.ksq.armed.isSome = true ∧ late.NoFireAt (late.psu.hw + 1)) ∧
    late.mru.missRun + 1 ≠ late.jbc.table.missLimit ∧ (at2 late).mru.missRun + 1 = (at2 late).jbc.table.missLimit := by
  decide +kernel

/-- The mark at the window end in CAPTURE and in LOCKED, for the tail and for none, and with an empty queue. -/
theorem test_MarkFirstAtTheWindowEndTakesNoMiss :
    let late := atWeb tracked 2038
    ∀ s ∈ [late, withReg late .locked, draining late, withQueue late []],
      s.AtFront true false ∧ (s.mru.reg = .capture ∨ s.mru.reg = .locked) ∧ s.mru.watch = true ∧
        s.mru.window = some ⟨2000, 1961, 2039⟩ ∧ (2039 : Position) = s.psu.hw + 1 ∧
        (2039 : Position) = 2000 + BitVec.ofNat 32 s.quantities.w ∧ s.quantities.w < 2147483648 ∧ ¬ s.BeforeWindow 2039 ∧
        (s.anchoredAt 2039).window.map MarkWindow.ending ≠ some 2039 ∧
        s.NoFireAt (s.psu.hw + 1) ∧ s.NoDecisionAt (s.psu.hw + 1) ∧
        (s.trc.queue = [] → (placed s.jbc.table s.jbc.ocEff 2039).2 ≠ s.psu.hw + 1) := by decide +kernel

/-! ### The knife -/

/-- `s` with a speed so high that F is the mark itself. -/
def fast (s : State) : State := { s with psu := { s.psu with spd := 262143, spdValid := true } }

/-- The RSNs of the queue stay distinct with the next entry's. -/
abbrev NewRsn (s : State) (kind : MarkKind) (mark : Position) : Prop :=
  ((s.trc.queue ++ [s.entryFor kind mark none .fault]).map Entry.rsn).Nodup

/-- `tracked` with its entry cut and nothing armed. -/
def cutAlready (s : State) : State :=
  { withQueue s [{ entry with cut := .done }] with ksq := { s.ksq with armed := none, fireWatch := none } }

/-- From a mark in SEARCH, a mark in the window and a miss: F ahead of HW, F reached with the knife free and inhibited, and
another entry armed.  (No mark too near: `not_tooNear`.) -/
theorem test_NewEntryIsOfferedToTheKnife :
    (∀ s ∈ [running, fast running, (fast running).assertInhibit, { withReg tracked .search with mru :=
        { tracked.mru with reg := .search, lastMark := none } }],
      s.resetHeld = false ∧ s.psu.wpos = s.psu.hw ∧ s.mru.reg = .search ∧ s.mru.lastMark = none ∧ NewRsn s .seen 0) ∧
    (running.lateness entry < 0 ∧ (fast running).lateness entry = 0 ∧ ¬ (fast running).Blocked ∧
      (fast running).assertInhibit.Blocked ∧ running.ksq.armed = none ∧ tracked.ksq.armed = some 700) ∧
    (∀ s ∈ [atWeb tracked 2000, cutAlready (atWeb tracked 2000), fast (cutAlready (atWeb tracked 2000))],
      s.resetHeld = false ∧ s.psu.wpos = s.psu.hw ∧ s.mru.reg = .capture ∧ s.mru.window = some ⟨2000, 1961, 2039⟩ ∧
        ¬ s.BeforeWindow s.psu.wpos ∧ NewRsn s .seen 2000) ∧
    (∀ s ∈ [atWeb tracked 2038, cutAlready (atWeb tracked 2038), fast (cutAlready (atWeb tracked 2038))],
      s.AtFront true false ∧ s.mru.reg = .capture ∧ s.mru.watch = true ∧ s.mru.window = some ⟨2000, 1961, 2039⟩ ∧
        (2039 : Position) = s.psu.hw + 1 ∧ s.NoFireAt 2039 ∧ s.NoDecisionAt 2039 ∧ s.trc.queue ≠ [] ∧
        NewRsn s .synth 2000) ∧
    0 < (fast (cutAlready (atWeb tracked 2039))).lateness { entry with mark := 2000, cutTarget := 26665 } :=
  ⟨by decide +kernel, by decide +kernel, by decide +kernel, by decide +kernel, by decide +kernel⟩

/-- The entry after `entry`. -/
def second : Entry := { entry with rsn := 701, mark := 2000, cutTarget := 26665, decisionPoint := 60720 }

/-- On time with the knife free, and inhibited; with a further pending entry whose F lies ahead, with one that HW has reached
too, and with none. -/
theorem test_CrossingTheFirePointFiresTheKnife :
    ∀ s ∈ [atWeb tracked 24664, (atWeb tracked 24664).assertInhibit, atWeb (withQueue tracked [entry, second]) 24664,
        atWeb (withQueue tracked [entry, { second with cutTarget := 24665 }]) 24664],
      s.AtFront true false ∧ s.NoMissAt (s.psu.hw + 1) ∧ s.NoDecisionAt (s.psu.hw + 1) ∧ s.ksq.armed = some 700 ∧
        s.ksq.fireWatch = some (s.psu.hw + 1) ∧ (s.trc.queue.map Entry.rsn).Nodup := by decide +kernel

/-- `tracked` with its knife just fired. -/
def fired : State := tracked.takeFire 700 .crossing

/-- `s` with the pulse and recovery timers of its knife at these counts. -/
def timed (s : State) (pulse recovery : Option Nat) : State :=
  { s with ksq := { s.ksq with pulseTimer := pulse, recoveryTimer := recovery } }

/-- Each timer run out, with time left and stopped, the recovery timer also with a pulse running; the line asserted already,
and asserted with no pulse, with a pulse whose owner has left the queue, and with one whose owner is in it. -/
theorem test_KnifeInputAndTimersFollowTheirRules :
    (fired.resetHeld = false ∧ (timed fired (some 0) (some 9)).ksq.pulse = true ∧
      (timed fired (some 0) (some 9)).ksq.pulseTimer = some 0 ∧ fired.ksq.pulseTimer ≠ some 0 ∧
      tracked.ksq.pulse = false ∧ tracked.ksq.recoveryTimer ≠ some 0) ∧
    ((timed tracked none (some 0)).ksq.recoveryTimer = some 0 ∧ (timed tracked none (some 0)).ksq.pulse = false ∧
      (timed fired (some 0) (some 0)).ksq.recoveryTimer = some 0 ∧ (timed fired (some 0) (some 0)).ksq.pulse = true) ∧
    tracked.assertInhibit.inhibitLine = true ∧
    (tracked.inhibitLine = false ∧ tracked.ksq.pulse = false) ∧
    ((withQueue fired []).inhibitLine = false ∧ (withQueue fired []).ksq.pulse = true ∧
      ∀ e ∈ (withQueue fired []).trc.queue, e.rsn ≠ 700) ∧
    (fired.inhibitLine = false ∧ fired.ksq.pulse = true ∧ fired.ksq.owner = some 700 ∧
      { entry with cut := .done } ∈ fired.trc.queue) := by decide +kernel

/-! ### Decisions -/

/-- A verdict of PASS in every lane but the third, which fails. -/
def verdict : VerdictRecord := { lanes := ⟨.pass, .pass, .fail, .notInspected, .pass, .pass⟩, splice := false }

/-- An entry with no reject cause of its own. -/
def goodEntry : Entry := { entry with regFlag := .ok, cut := .done, verdict := some verdict }

/-- That entry with a cut behind it. -/
def goodHead : Handover := { entry := goodEntry, flush := false, successor := some .doneLate, inSplice := false }

/-- `s` with lanes 0 to 3 enabled, each with one batch of 2 pieces of which one is stacked, all four below LANES. -/
def working (s : State) : State :=
  { s with
    jbc := { s.jbc with table := { jobTable with lanes := 4 } }
    gtu := { s.gtu with table := Lanes.all { laneRowAtReset with enable := true } }
    bsq := Lanes.all { lanePlanAtReset with batches := [batchOf 2 false], count := 1 } }

/-- Lane 0 of `s` with plan `p`. -/
def withPlan (s : State) (p : LanePlan) : State := { s with bsq := s.bsq.set 0 p }

/-- Every cause of the order is met in turn, each with those before it absent. -/
theorem test_CodesFollowTheCauseOrder :
    let s := working running
    let gap := withPlan s { lanePlanAtReset with batches := [batchOf 2 false], gap := 1 }
    let node := { s with gtu := { s.gtu with table := Lanes.all { laneRowAtReset with enable := true, stackerNode := 9 } } }
    s.laneCode { goodHead with flush := true } 0 = .rejHold ∧
    s.laneCode { goodHead with successor := none } 0 = .rejCut ∧
    s.laneCode { goodHead with successor := some .suppressed } 0 = .rejCut ∧
    s.laneCode { goodHead with entry := { goodEntry with regFlag := .fault } } 0 = .rejRegister ∧
    s.laneCode { goodHead with inSplice := true } 0 = .rejSplice ∧
    (withPlan s lanePlanAtReset).laneCode goodHead 0 = .rejLane ∧
    s.laneCode goodHead 2 = .rejInspect ∧ s.laneCode goodHead 3 = .rejUnknown ∧
    node.laneCode goodHead 0 = .rejStacker ∧ gap.laneCode goodHead 0 = .rejGap ∧ s.laneCode goodHead 0 = .stacked := by
  decide +kernel

/-- One count before S: with a next entry and without, with room in the record queue and without. -/
theorem test_CrossingTheDecisionPointDecidesTheHead :
    let full (s : State) : State :=
      { s with rif := { s.rif with records := List.replicate 32 (.disposition ((working running).recordOf goodHead)) } }
    let s := atWeb (withQueue (working running) [goodEntry, { goodEntry with rsn := 701, decisionPoint := 58721 }]) 58719
    let one := atWeb (withQueue (working running) [goodEntry]) 58719
    (∀ s' ∈ [s, one, full s], s'.AtFront true false ∧ s'.NoMissAt (s'.psu.hw + 1) ∧ s'.NoFireAt (s'.psu.hw + 1) ∧
      s'.trc.watch = true ∧ s'.trc.queue.head? = some goodEntry ∧ goodEntry.decisionPoint = s'.psu.hw + 1 ∧
      goodEntry.tail = false ∧
      ∀ x ∈ s'.trc.queue.tail.head?, (s'.psu.hw + 1 - x.decisionPoint).toInt < 0) ∧
    s.rif.records.length < 32 ∧ (full s).rif.records.length = 32 ∧ 3 < s.jbc.table.lanes ∧ s.jbc.table.lanes ≤ 4 ∧
    (one.trc.queue = [goodEntry] ∧ one.ksq.armed = none ∧ one.rif.records.length < 32 ∧
      ¬ Hold one (one.handover goodEntry []) ∧
      Hold { one with jbc := { one.jbc with waste := true } } (one.handover goodEntry [])) := by
  decide +kernel

/-- A mark accepted at the advance that decides a head with no successor, at a speed whose lead reaches back to the mark: the
piece is rejected for its cut with the mark first and with the decision first, and the new entry is cut at once (log 29). -/
theorem test_creationAtTheDecisionWaitsForIt :
    let one := atWeb (withQueue (working running) [goodEntry]) 58719
    let s : State := { one with
      psu := { one.psu with spd := 65535, spdValid := true }, trc := { one.trc with nextRsn := 701 }
      jbc := { one.jbc with table := { one.jbc.table with knifeLag := 10000 } } }
    ∀ o ∈ [{ CrossingOrder.mruKsqTrc.alone with first := [.mark] }, { CrossingOrder.trcMruKsq.alone with third := [.mark] }],
      (s.after (.encoderTransition true false o)).trc.queue.map Entry.cut = [.doneLate] ∧
      ((s.after (.encoderTransition true false o)).rif.records.map fun
        | .disposition d => d.codes.get 0
        | .stackChange _ => .stacked) = [.rejCut] := by
  decide +kernel

theorem test_EveryDecisionCountsOnePieceForEachLane :
    (3 : Lane).val < (working running).jbc.table.lanes ∧ (working running).jbc.table.lanes ≤ (4 : Lane).val := by
  decide +kernel

/-- One advance decides the head, the head behind it too, and stops at a third that lies ahead; and with the tail reached as
well, the job ends. -/
theorem test_HeadsAlreadyReachedAreDecidedAtOnce :
    let reached : Entry := { goodEntry with rsn := 701 }
    let ahead : Entry := { goodEntry with rsn := 702, decisionPoint := 58721 }
    let run := atWeb (withQueue (working running) [goodEntry, reached, ahead]) 58719
    let ending := atWeb (inJob (withReg (withQueue running [goodEntry, { reached with tail := true }]) .idle) .drain) 58719
    (∀ s ∈ [run, ending], s.AtFront true false ∧ s.NoMissAt (s.psu.hw + 1) ∧ s.NoFireAt (s.psu.hw + 1) ∧
      s.trc.watch = true ∧ s.trc.queue.head? = some goodEntry ∧ goodEntry.decisionPoint = s.psu.hw + 1 ∧
      (∀ x ∈ s.trc.queue.dropLast, x.tail = false) ∧ (∀ x ∈ s.trc.queue, x.tail = true → s.mru.reg = .idle)) ∧
    run.mru.reg ≠ .idle ∧ ∃ x ∈ ending.trc.queue, x.tail = true := by decide +kernel

/-- At the crossing: a lane not stacked; a piece below TARGET; and pieces at TARGET, with a batch behind, none behind, and a
loop; two lanes emptied while a third keeps a batch, and the last lists emptied, one lane or two, in RUN and in DRAIN. -/
theorem test_StackedPiecesFillBatchesAndEmptyingTheLastListEndsTheJob :
    let next : Entry := { goodEntry with rsn := 701, decisionPoint := 58721 }
    let s := atWeb (withQueue (working running) [goodEntry, next]) 58719
    let h (x : State) := x.handover goodEntry [next]
    let plan (bs : List Batch) (n : Nat) : LanePlan := { lanePlanAtReset with batches := bs, count := n }
    let one := withPlan { s with bsq := Lanes.all lanePlanAtReset } (plan [batchOf 2 false] 1)
    let two : State := { one with bsq := one.bsq.set 1 (plan [batchOf 2 false] 1) }
    (∀ x ∈ [s, one, two, inJob two .drain], x.AtFront true false ∧ x.NoMissAt (x.psu.hw + 1) ∧ x.NoFireAt (x.psu.hw + 1) ∧
      x.trc.watch = true ∧ x.trc.queue = [goodEntry, next] ∧ goodEntry.decisionPoint = x.psu.hw + 1 ∧
      (x.psu.hw + 1 - next.decisionPoint).toInt < 0) ∧
    ((0 : Lane).val < s.jbc.table.lanes ∧ s.jbc.table.lanes ≤ (4 : Lane).val ∧ s.laneCode (h s) 2 ≠ .stacked) ∧
    (∀ p ∈ [plan [batchOf 2 false] 0, plan [batchOf 2 false] 1, plan [batchOf 2 true] 1,
        plan [batchOf 2 false, batchOf 3 false] 1],
      (withPlan s p).laneCode (h (withPlan s p)) 0 = .stacked ∧ s.rif.records.length + 7 ≤ 32) ∧
    (0 + 1 < (batchOf 2 false).target ∧ (batchOf 2 false).target ≤ 1 + 1) ∧
    (s.Completes (h s) 0 (batchOf 2 false) [] ∧ s.Completes (h s) 1 (batchOf 2 false) [] ∧ (batchOf 2 false).loop = false ∧
      (2 : Lane).val < s.jbc.table.lanes ∧ (s.gtu.table.get 2).enable = true ∧ (s.bsq.get 2).batches ≠ []) ∧
    (∀ x ∈ [one, inJob one .drain], x.Completes (h x) 0 (batchOf 2 false) [] ∧
      ∀ j : Lane, j ≠ 0 → (x.bsq.get j).batches = []) ∧
    (∀ x ∈ [two, inJob two .drain], x.Completes (h x) 0 (batchOf 2 false) [] ∧ x.Completes (h x) 1 (batchOf 2 false) [] ∧
      ∀ j : Lane, j ≠ 0 → j ≠ 1 → (x.bsq.get j).batches = []) := by
  refine ⟨?_, ?_, ?_, ?_, ?_, ?_, ?_⟩ <;> decide +kernel

theorem test_TailDecisionEndsTheJob :
    let s := atWeb (inJob (withReg (withQueue running [{ entry with tail := true }]) .idle) .drain) 58719
    s.AtFront true false ∧ s.NoMissAt (s.psu.hw + 1) ∧ s.NoFireAt (s.psu.hw + 1) ∧ s.trc.watch = true ∧
      s.trc.queue = [{ entry with tail := true }] ∧ (58720 : Position) = s.psu.hw + 1 ∧ s.jbc.job = .drain := by
  decide +kernel

/-! ### Stacker status -/

/-- `running` with lane 1 supervised by node 9, pocket 7, its status timer running. -/
def supervised : State :=
  { running with
    gtu := { running.gtu with table := running.gtu.table.set 1 { laneRowAtReset with stackerNode := 9, pocket := 7 } }
    bsq := running.bsq.set 1 { lanePlanAtReset with pocketState := .ready, statusAge := some 500001, stale := false } }

/-- From the lane's node and from another, in the slot 0 position and at the first and the last of the frame; the timer
stopped, one period short of its limit, at it and beyond it, with STACKER_STALE and without. -/
theorem test_StackerStatusRenewsAndItsTimerLapses :
    let old (n : Nat) : State :=
      { supervised with bsq := supervised.bsq.set 1 { supervised.bsq.get 1 with statusAge := some n } }
    (∀ p ∈ [0, 1, 7], (onRing supervised p).Passes p) ∧
    (∀ c ∈ [cellFrom 0x23#8 9 payloadZero, cellFrom 0x23#8 10 payloadZero], (onRing supervised 1).Addressed c) ∧
    ((supervised.gtu.table.get 1).stackerNode.toNat = (9 : Byte).toNat ∧ (supervised.gtu.table.get 0).stackerNode = 0) ∧
    (supervised.resetHeld = false ∧ (supervised.bsq.get 0).statusAge = none ∧
      (supervised.gtu.table.get 1).ageLimit * 25000 = 500000 ∧
      ∀ n ∈ [499999, 500000, 500001], ((old n).bsq.get 1).statusAge = some n) ∧
    (StaleEvent supervised 1 ∧ ¬ StaleEvent (inJob supervised .halt) 1) := by decide +kernel

/-! ### The job -/

/-- A request of an op code alone. -/
def plain (op : Byte) : Request := request op payloadZero

theorem geometry_of_worked_case : ∀ k, 1 ≤ k → k ≤ 7 → GeometryCondition jobTable k := by
  intro k h1 h2
  interval_cases k <;> simp only [GeometryCondition] <;> decide +kernel

/-- With every node allowed, and with the manager alone. -/
theorem test_AcceptedJobStartEntersRun :
    (∀ s ∈ [asked loaded (plain 0x10), asked (managedBy loaded 1) (plain 0x10)],
      s.Starts (plain 0x10) [] ∧ s.MayCommand (plain 0x10) ∧ s.jbc.job = .idle ∧ s.jbc.stopLatch = false ∧
        s.ksq.inhibitLatch = false ∧ s.jbc.table.Complete ∧ capacityNeeded s.jbc.table ≤ 128 ∧ s.jbc.table = jobTable ∧
        ∃ i : Lane, i.val < s.jbc.table.lanes ∧ (s.gtu.table.get i).enable = true ∧ (s.bsq.get i).batches ≠ []) ∧
    (plain 0x10).op = 0x10#8 := by decide +kernel

/-- `loaded` with another job table, and JOB_START asked. -/
def startWith (t : JobTable) : State := asked { loaded with jbc := { loaded.jbc with table := t } } (plain 0x10)

/-- A table that fails GEOMETRY condition `k`, 1 to 5, those before it true.  (Conditions 4 and 5 imply 6, and the least
ENC_SCALE and REPEAT give 100 counts, so 6 and 7 are never the first to fail in a table with every field in its range.) -/
def failing (k : Nat) : JobTable :=
  match k with
  | 1 => { jobTable with cutOffset := 50801 }
  | 2 => { jobTable with markTol := 2001 }
  | 3 => { jobTable with markWindow := 48801 }
  | 4 => { jobTable with knifeDist := 50000, cutOffset := -48000 }
  | _ => { jobTable with gateDist := 1373599 }

/-- A table with more track than 128 entries. -/
def longTrack : JobTable := { jobTable with gateDist := 4000000, repeatLength := 30000 }

theorem test_lowestUnset : (startWith { jobTable with verdictNode := 0, lanes := 0 }).jbc.table.LowestUnset 17 :=
  ⟨.verdictNode, by decide +kernel, by decide +kernel, by decide +kernel⟩

theorem test_geometry_fails : ∀ k, 1 ≤ k → k ≤ 5 → (startWith (failing k)).jbc.table.Complete ∧
    ¬ GeometryCondition (failing k) k ∧ ∀ j, 1 ≤ j → j < k → GeometryCondition (failing k) j := by
  intro k h1 h2
  interval_cases k <;> refine ⟨by decide +kernel, by simp only [GeometryCondition]; decide +kernel, ?_⟩ <;>
    (intro j hj1 hj2; interval_cases j <;> simp only [GeometryCondition] <;> decide +kernel)

theorem test_geometry_of_longTrack : ∀ k, 1 ≤ k → k ≤ 7 → GeometryCondition longTrack k := by
  intro k h1 h2
  interval_cases k <;> simp only [GeometryCondition] <;> decide +kernel

/-- In another job state; with the stop latch, the inhibit latch and both; too much track; no work.  (A field unset, a
GEOMETRY condition false: the three theorems before.) -/
theorem test_RefusedJobStartNamesTheFirstFailedCheck :
    let ask (s : State) : State := asked s (plain 0x10)
    (∀ j ∈ [JobState.run, .drain, .halt], (ask (inJob loaded j)).Starts (plain 0x10) [] ∧
      (ask (inJob loaded j)).jbc.job ≠ .idle) ∧
    ((ask loaded.setStopLatch).latches = 1 ∧ (ask loaded.assertInhibit).latches = 3 ∧
      ({ ask loaded with ksq := { loaded.ksq with inhibitLatch := true } } : State).latches = 2 ∧ (ask loaded).latches = 0) ∧
    ((startWith longTrack).jbc.table = longTrack ∧ longTrack.Complete ∧ 128 < capacityNeeded longTrack) ∧
    (capacityNeeded jobTable ≤ 128 ∧ ∀ i : Lane, i.val < jobTable.lanes →
      ((withPlan loaded lanePlanAtReset).gtu.table.get i).enable = true →
        ((withPlan loaded lanePlanAtReset).bsq.get i).batches = []) := by decide +kernel

/-- JOB_STOP in RUN, HALT, IDLE and DRAIN; JOB_ABORT in every job state. -/
theorem test_StopDrainsAndAbortFlushes :
    ∀ j ∈ [JobState.idle, .run, .drain, .halt], ∀ q ∈ [plain 0x11, plain 0x12],
      (asked (inJob tracked j) q).Starts q [] ∧ (asked (inJob tracked j) q).MayCommand q ∧
        (asked (inJob tracked j) q).jbc.job = j := by decide +kernel

/-- A TRIM by `d`. -/
def trimBy (n : Int) : Request :=
  let d := BitVec.ofInt 32 n
  request 0x13 (bytes4 (byteOf d 3) (byteOf d 2) (byteOf d 1) (byteOf d 0))

/-- To the ends of the reach, and one beyond each; in every job state. -/
theorem test_TrimClampsTheCutOffset :
    (∀ j ∈ [JobState.idle, .run, .drain, .halt], ∀ d ∈ [(2000 : Int), -2000, 2001, -2001],
      (asked (inJob running j) (trimBy d)).Starts (trimBy d) [] ∧ (asked (inJob running j) (trimBy d)).MayCommand (trimBy d) ∧
        (asked (inJob running j) (trimBy d)).jbc.job = j ∧ (trimBy d).op = 0x13#8 ∧ (trimBy d).delta = d) ∧
    running.jbc.table.cutOffset - 2000 ≤ running.jbc.ocEff + -2000 ∧
    running.jbc.ocEff + 2000 ≤ running.jbc.table.cutOffset + 2000 ∧
    running.jbc.ocEff + -2001 < running.jbc.table.cutOffset - 2000 ∧
    running.jbc.table.cutOffset + 2000 < running.jbc.ocEff + 2001 := by decide +kernel

/-- WASTE with 0, 1 and 2 in every job state; RELEASE_STOP with the line asserted and released. -/
theorem test_WasteAndReleaseStopFollowTheirTables :
    (∀ j ∈ [JobState.idle, .run, .drain, .halt], ∀ v ∈ [0, 1, 2],
      let q := request 0x14 (bytes4 (BitVec.ofNat 8 v) 0 0 0)
      (asked (inJob running j) q).Starts q [] ∧ (asked (inJob running j) q).MayCommand q ∧ q.a6.toNat = v) ∧
    (∀ s ∈ [running, running.assertInhibit], (asked s (plain 0x15)).Starts (plain 0x15) [] ∧
      (asked s (plain 0x15)).MayCommand (plain 0x15)) ∧
    running.inhibitLine = false ∧ running.assertInhibit.inhibitLine = true ∧
    running.assertInhibit.resetHeld = false := by decide +kernel

/-- The expected token, in RUN and DRAIN; another token; another node; and another job state.  The timer stopped, with time
left, and run out in stage 0 and in stage 1. -/
theorem test_HeartbeatsAreSupervised :
    let beat (n t : Byte) : CellBody := (cellFrom 0x22#8 n (bytes4 t 0 0 0)).body
    let out (s : State) : State := { s with jbc := { s.jbc with hbTimer := some 0 } }
    (∀ p ∈ [0, 1, 7], (onRing running p).Passes p) ∧
    (∀ b ∈ [beat 7 1, beat 7 2, beat 8 1], (onRing running 1).Addressed ⟨0x22#8, b⟩) ∧
    (ExpectedHeartbeat (onRing running 1) (beat 7 1) ∧ ExpectedHeartbeat (onRing (inJob running .drain) 1) (beat 7 1) ∧
      1 ≤ running.jbc.table.hbPeriod) ∧
    (¬ ExpectedHeartbeat (onRing running 1) (beat 7 2) ∧ ¬ ExpectedHeartbeat (onRing running 1) (beat 8 1) ∧
      ¬ ExpectedHeartbeat (onRing loaded 1) (beat 7 1)) ∧
    (running.resetHeld = false ∧ loaded.jbc.hbTimer = none ∧ running.jbc.hbTimer ≠ none ∧ running.jbc.hbTimer ≠ some 0) ∧
    ((out running).jbc.hbTimer = some 0 ∧ (out running).jbc.hbStage = .alive ∧
      (out (out running).heartbeatExpiry).jbc.hbTimer = some 0 ∧
      (out (out running).heartbeatExpiry).jbc.hbStage = .blind) := by decide +kernel

/-! ### The ring -/

/-- A header of 4 and of 32 slots, with the link DOWN and with it UP in the slot 0 position; the link timer stopped, one
period short of 2 ms and at it, with the link UP and with it DOWN. -/
theorem test_LinkFollowsHeadersAndItsTimer :
    let after (n : Nat) (l : LinkState) : State :=
      { onRing running 0 with rif := { (onRing running 0).rif with link := l, linkTimer := some n } }
    (IsHeader (headerCell 4) ∧ IsHeader (headerCell 32) ∧ (headerCell 4).kind = 0x10#8) ∧
    (running.resetHeld = false ∧ running.rif.sending = none ∧ running.rif.link = .down ∧ running.rif.linkTimer = none) ∧
    ((onRing running 0).rif.link = .up ∧ (onRing running 0).rif.owns (onRing running 0).rif.nextPosition = false) ∧
    (∀ l ∈ [LinkState.up, .down], ∀ n ∈ [49999, 50000],
      (after n l).rif.linkTimer = some n ∧ (after n l).rif.link = l ∧ (after n l).resetHeld = false) := by
  decide +kernel

/-- At the first and last position of the frame: a bad cell, a cell of another type, one for another node, one from no
node; in the slot 0 position a spoilt header and a header of 3 slots; and with the link DOWN. -/
theorem test_CellsThePartDoesNotTakeAreRepeated :
    (∀ p ∈ [0, 1, 7], (onRing running p).Passes p) ∧
    (checkGood (spoilt (headerCell 8)) = false ∧ ¬ IsHeader (spoilt (headerCell 8))) ∧
    (∀ c ∈ [cellFrom 0x40#8 6 payloadZero, cellFrom 0x21#8 32 payloadZero, sealCell 0x30#8 1 6 0 payloadZero, headerCell 3],
      checkGood c = true ∧ ¬ IsHeader c ∧ NotTaken (onRing running 1) c) ∧
    (running.resetHeld = false ∧ running.rif.sending = none ∧ running.rif.link = .down) := by decide +kernel

/-- A VERDICT for `r` from node `n`: the code of the first lane, PASS in the second, and the flags byte. -/
def verdictCell (n : Byte) (r : Rsn) (first flags : Byte) : CellBody :=
  (cellFrom 0x21#8 n { payloadZero with b4 := hiByte r, b5 := loByte r, b6 := first, b7 := 1, b12 := flags }).body

/-- `tracked` with a record held for 701, and with the entry 700 holding one. -/
def judged : State :=
  { tracked with trc := { tracked.trc with
      queue := [{ entry with verdict := some verdict }], window := [⟨701, verdict⟩] } }

/-- Not taken; ahead of the window by one; at both ends of the window, with and without a record held there; before the
oldest; and for the entry in the queue, with a record that conflicts and one that does not; each with its SPLICE flag and
without. -/
theorem test_VerdictIsStoredMergedOrDiscarded :
    (∀ p ∈ [0, 1, 7], (onRing judged p).Passes p) ∧
    (∀ r ∈ [699, 700, 701, 764, 765], ∀ v ∈ [1, 2], ∀ k ∈ [0, 1],
      let b := verdictCell 7 (BitVec.ofNat 16 r) (BitVec.ofNat 8 v) (BitVec.ofNat 8 k)
      (onRing judged 1).Addressed ⟨0x21#8, b⟩ ∧ TakesVerdicts (onRing judged 1) b ∧ (cellRsn b).toNat = r ∧
        (cellVerdict b).splice = decide (k = 1)) ∧
    (¬ TakesVerdicts (onRing judged 1) (verdictCell 8 701 1 0) ∧ ¬ TakesVerdicts (onRing loaded 1) (verdictCell 7 701 1 0)) ∧
    (judged.trc.nextRsn = 701 ∧ judged.trc.oldestRsn = 700) ∧
    (63 < ((765 : Rsn) - 701).toInt ∧ ((764 : Rsn) - 701).toInt ≤ 63 ∧ ((699 : Rsn) - 700).toInt < 0) ∧
    (judged.heldIn 764 = none ∧ judged.heldIn 701 = some verdict) ∧
    (judged.trc.queue.find? (fun x => x.rsn == 700) = some { entry with verdict := some verdict }) ∧
    (Conflict verdict (cellVerdict (verdictCell 7 701 2 0)) ∧ ¬ Conflict verdict (cellVerdict (verdictCell 7 701 1 0))) ∧
    tracked.trc.queue.find? (fun x => x.rsn == 700) = some entry := by decide +kernel

/-- The four ranges of a full list. -/
def fourRanges : List OffsetRange := [⟨0, 1⟩, ⟨5, 6⟩, ⟨10, 11⟩, ⟨30, 31⟩]

theorem test_fourRanges : RangesInOrder fourRanges := by simp only [fourRanges, RangesInOrder]; decide

/-- A flag for an RSN in the window, one in the queue and one decided, at the last RSN but AHEAD's; a range that escapes by
its first RSN alone, one that does not, one wholly decided, with an empty list and with one that holds a range. -/
theorem test_SpliceFlagCondemnsItsRange :
    let s : State := { onRing tracked 0 with trc := { tracked.trc with decided := 3, splices := [⟨710, 712⟩] } }
    (s.Passes 0 ∧ ∀ r ∈ [696, 700, 701, 764],
      let b := verdictCell 7 (BitVec.ofNat 16 r) 1 1
      s.Addressed ⟨0x21#8, b⟩ ∧ TakesVerdicts s b ∧ (cellRsn b - s.trc.nextRsn).toInt ≤ 63 ∧
        b.payload.b12.getLsbD 0 = true) ∧
    (SpliceEscapes s 701 ∧ (s.spliceRange 701).first = -1 ∧ 0 ≤ (s.spliceRange 701).last) ∧
    (¬ SpliceEscapes s 702 ∧ ¬ SpliceEscapes tracked 701) ∧
    (SpliceEscapes s 696 ∧ (s.spliceRange 696).last = -3 ∧ ¬ SpliceEscapes s 695) := by decide +kernel

/-- A range that joins one of the four, and two that would be a fifth: nearest to the range on its right, and as near to the
range on its left as to that on its right. -/
theorem test_SpliceFlagCondemnsItsRange_joining :
    fourRanges.length ≤ 4 ∧ (fourRanges.filter fun y => !(⟨7, 9⟩ : OffsetRange).joins y).length < 4 ∧
    (4 ≤ (fourRanges.filter fun y => !(⟨20, 28⟩ : OffsetRange).joins y).length ∧ Nearest ⟨20, 28⟩ fourRanges ⟨30, 31⟩) ∧
    (4 ≤ (fourRanges.filter fun y => !(⟨3, 3⟩ : OffsetRange).joins y).length ∧ Nearest ⟨3, 3⟩ fourRanges ⟨0, 1⟩ ∧
      gapBetween ⟨3, 3⟩ ⟨0, 1⟩ = gapBetween ⟨3, 3⟩ ⟨5, 6⟩) := by decide +kernel

/-- With room for one request more, with none, to another node, to every node, and for a part that only listens. -/
theorem test_ManagementRequestIsQueuedOrDropped :
    let sent (d : Nat) : Cell := sealCell 0x30#8 1 (BitVec.ofNat 8 d) 0 (bytes4 9 1 0 0)
    let holding (n : Nat) : State :=
      onRing { running with mge := { running.mge with requests := List.replicate n (plain 0x01) } } 1
    (onRing running 0).Passes 0 ∧
    (∀ n ∈ [3, 4], (holding n).Passes 1 ∧ (holding n).mge.requests.length = n ∧ (holding n).rif.nodeId = 5) ∧
    (∀ d ∈ [5, 6, 255, 0], checkGood (sent d) = true ∧ (sent d).body.source.toNat ≤ 31 ∧ (sent d).kind = 0x30#8) ∧
    ({ onRing running 1 with rif := { (onRing running 1).rif with nodeId := 0, active := ⟨0, 0, 0, 0⟩ } } : State).Passes 1 := by
  decide +kernel

/-- With a record, a reply, a notice, and nothing to send. -/
theorem test_OwnedSlotCarriesTheOldestOfTheFirstKind :
    let mine := onRing running 5
    let record : Record := .disposition ((working running).recordOf goodHead)
    let reply : Reply := (plain 0x01).reply .ok 0
    (∀ s ∈ [mine, { mine with rif := { mine.rif with records := [record] } },
        { mine with rif := { mine.rif with replies := [reply] } },
        { mine with mge := { mine.mge with mailbox := true } }],
      s.resetHeld = false ∧ s.rif.sending = none ∧ s.rif.link = .up ∧ s.rif.owns s.rif.nextPosition = true) ∧
    mine.rif.records = [] ∧ mine.rif.replies = [] ∧ mine.mge.mailbox = false := by decide +kernel

/-- A STACK_CHANGE at the ends of its ranges. -/
def change : StackChange :=
  { rsn := 700, lane := 5, tag := 10, count := 65535, mode := .flag, gap := 15, nextTag := none, stacksDone := 256 }

/-- A DISPOSITION with REG_ERR `r`. -/
def disposition (r : Int) : Disposition :=
  { rsn := 700, codes := Lanes.all .rejHold, kind := .synth, late := true, blind := true, regErr := r }

theorem test_SentCellsHaveTheirLayout :
    (change.gap ≤ 15 ∧ change.count ≤ 65535 ∧ change.payload.b6 = 0xFD#8 ∧ (Record.stackChange change).kind = 0x49#8) ∧
    (∀ r ∈ [(-32767 : Int), 32767], -32767 ≤ (disposition r).regErr ∧ (disposition r).regErr ≤ 32767 ∧
      ((disposition r).payload.b10 ++ (disposition r).payload.b11 : BitVec 16).toInt = r) := by decide +kernel

/-- `running` with an owned slot in progress. -/
def sendingIn (c : Cell) (r : Option Reply) : State :=
  { onRing running 6 with rif := { (onRing running 6).rif with sending := some ⟨c, r⟩ } }

/-- No slot in progress; the reply of an accepted RESET_NODE; another reply, a refused RESET_NODE and none, with a bad cell, a
good one and a header consumed. -/
theorem test_SlotEndCountsFramesAndResets :
    (running.resetHeld = false ∧ running.rif.sending = none) ∧
    (((plain 0x2F).reply .ok 0).op = 0x2F#8 ∧ ((plain 0x2F).reply .ok 0).result = .ok) ∧
    (∀ r ∈ [(plain 0x01).reply .ok 0, (plain 0x2F).reply .state 0], r.op ≠ 0x2F#8 ∨ r.result ≠ .ok) ∧
    (∀ c ∈ [spoilt (headerCell 8), cellFrom 0 3 payloadZero, headerCell 8],
      (sendingIn c none).resetHeld = false ∧ (sendingIn c none).rif.sending = some ⟨c, none⟩) ∧
    (checkGood (spoilt (headerCell 8)) = false ∧ checkGood (cellFrom 0 3 payloadZero) = true ∧
      ¬ IsHeader (cellFrom 0 3 payloadZero) ∧ IsHeader (headerCell 8)) := by decide +kernel

/-- A cell that comes while an owned slot is in progress, and one that comes while none is. -/
theorem test_ArrivingCellEndsTheOwnedSlotFirst :
    (sendingIn (headerCell 8) none).resetHeld = false ∧ (sendingIn (headerCell 8) none).rif.sending.isSome = true ∧
      (onRing running 1).rif.sending = none ∧ (carriedCell (.cellRepeated (headerCell 3))).isSome = true := by
  decide +kernel

/-! ### Management requests -/

/-- `q` is the head request of `asked s q`, can start, and may command. -/
abbrev Asks (s : State) (q : Request) : Prop := (asked s q).Starts q [] ∧ (asked s q).MayCommand q

/-- The first and the last field of every table; a batch slot within its list and beyond it. -/
theorem test_ReadAnswersTheValueHeld :
    (∀ x ∈ [(0, 0, 0), (0, 0, 21), (1, 0, 0), (1, 5, 4), (2, 0, 0), (2, 0, 4), (3, 0, 0), (3, 5, 11), (4, 0, 0), (4, 1, 0),
        (4, 6, 11), (5, 0, 0), (5, 0, 23), (6, 0, 0), (6, 0, 7), (7, 0, 0), (7, 0, 1)],
      let q := access 0x01 (BitVec.ofNat 8 x.1) (BitVec.ofNat 8 x.2.1) (BitVec.ofNat 8 x.2.2) 0
      Asks loaded q ∧ q.op = 0x01#8 ∧
        ((asked loaded q).fieldsAt q.a6.toNat q.a7.toNat)[q.a8.toNat]?.isSome = true) ∧
    (let q := access 0x01 2 1 4 0
     Asks loaded q ∧ q.a6 = 2 ∧ q.a7.toNat ≤ 95 ∧ q.a8.toNat ≤ 4 ∧
       ((asked loaded q).bsq.get (laneOf (q.a7.toNat / 16))).batches.length ≤ q.a7.toNat % 16) := by decide +kernel

/-- REPEAT at both ends of its range and one beyond each; CUT_OFFSET negative; outside IDLE; SPEED_WINDOW 3 and 4. -/
theorem test_JobTableIsWrittenInIdle :
    (∀ x ∈ [((1 : Nat), (10000 : Int)), (1, 1000000), (1, 9999), (1, 1000001), (4, -500000), (4, -500001), (15, 3), (15, 4)],
      let q := access 0x02 0 0 (BitVec.ofNat 8 x.1) (BitVec.ofInt 32 x.2)
      Asks loaded q ∧ Asks running q ∧ q.op = 0x02#8 ∧ q.a6 = 0 ∧ q.a7 = 0 ∧ q.a8.toNat = x.1 ∧ q.jobValue = x.2) ∧
    (jobFields[1]? = some .repeatLength ∧ jobRanges[1]? = some (10000, 1000000)) ∧
    (jobFields[4]? = some .cutOffset ∧ jobRanges[4]? = some (-500000, 500000)) ∧
    (jobFields[15]? = some .speedWindow ∧ jobRanges[15]? = some (0, 3)) ∧
    loaded.jbc.job = .idle ∧ running.jbc.job ≠ .idle := by decide +kernel

/-- ENABLE and NI_POLICY with 1 and 2; batch fields in range, out of it, at a slot that does not exist and outside IDLE; the
three ring fields at their limits. -/
theorem test_OtherTablesAreWrittenUnderTheirRules :
    (∀ x ∈ [((1 : Nat), (5 : Nat), (0 : Nat), (1 : Nat)), (1, 0, 1, 2), (2, 0, 0, 1), (2, 0, 0, 0), (2, 0, 0, 65536), (2, 0, 1, 1),
        (2, 0, 2, 15), (2, 0, 2, 16), (2, 0, 3, 65535), (2, 0, 4, 1), (2, 95, 4, 1), (6, 0, 5, 31), (6, 0, 5, 32), (6, 0, 6, 31),
        (6, 0, 6, 32), (6, 0, 7, 255), (6, 0, 7, 254)],
      let q := access 0x02 (BitVec.ofNat 8 x.1) (BitVec.ofNat 8 x.2.1) (BitVec.ofNat 8 x.2.2.1) (BitVec.ofNat 32 x.2.2.2)
      Asks loaded q ∧ Asks running q ∧ q.op = 0x02#8 ∧ q.a6.toNat = x.1 ∧ q.a7.toNat = x.2.1 ∧ q.a8.toNat = x.2.2.1 ∧
        q.writeValue.toNat = x.2.2.2) ∧
    (loaded.jbc.job = .idle ∧ running.jbc.job ≠ .idle) ∧
    ((asked loaded (access 0x02 2 0 0 1)).batchSlot (access 0x02 2 0 0 1) = some (batchOf 2 false) ∧
      (asked loaded (access 0x02 2 95 4 1)).batchSlot (access 0x02 2 95 4 1) = none) ∧
    (asked loaded (access 0x02 2 0 0 1)).BatchValueFits (access 0x02 2 0 0 1) ∧
    (asked loaded (access 0x02 2 0 2 15)).BatchValueFits (access 0x02 2 0 2 15) ∧
    ¬ (asked loaded (access 0x02 2 0 0 0)).BatchValueFits (access 0x02 2 0 0 0) ∧
    ¬ (asked loaded (access 0x02 2 0 0 65536)).BatchValueFits (access 0x02 2 0 0 65536) ∧
    ¬ (asked loaded (access 0x02 2 0 2 16)).BatchValueFits (access 0x02 2 0 2 16) := by
  refine ⟨by decide +kernel, by decide +kernel, by decide +kernel, ?_⟩
  refine ⟨?_, ?_, ?_, ?_, ?_⟩ <;> decide +kernel

/-- Each field at its limits and beyond; a node and a pocket that change and that do not; a renewal younger than the new
limit and older, with STACKER_STALE and without. -/
theorem test_StackerFieldsAreWrittenWithTheirEffects :
    (∀ x ∈ [((2 : Nat), (31 : Nat)), (2, 9), (2, 32), (3, 7), (3, 0), (3, 8), (4, 0), (4, 1), (4, 20), (4, 21), (4, 255), (4, 256)],
      let q := access 0x02 1 1 (BitVec.ofNat 8 x.1) (BitVec.ofNat 32 x.2)
      Asks supervised q ∧ Asks (inJob supervised .halt) q ∧ q.op = 0x02#8 ∧ q.a6 = 1 ∧ q.a7.toNat ≤ 5 ∧ q.a8.toNat = x.1 ∧
        q.writeValue.toNat = x.2) ∧
    (let q := access 0x02 1 1 4 20
     OlderThan (supervised.lanePlan q) 20 ∧ ¬ OlderThan (supervised.lanePlan q) 21 ∧
       StaleEvent supervised (laneOf q.a7.toNat) ∧ ¬ StaleEvent (inJob supervised .halt) (laneOf q.a7.toNat)) := by
  decide +kernel

/-- An entry out of range; the last entry cleared; the last entry moved; an entry added. -/
theorem test_SlotMapKeepsOneSlot :
    (∀ x ∈ [((1 : Nat), (32 : Nat)), (1, 0), (1, 31), (4, 31)],
      let q := access 0x02 6 0 (BitVec.ofNat 8 x.1) (BitVec.ofNat 32 x.2)
      Asks running q ∧ q.op = 0x02#8 ∧ q.a6 = 6 ∧ q.a7 = 0 ∧ q.a8.toNat = x.1 ∧ q.writeValue.toNat = x.2) ∧
    (asked running (access 0x02 6 0 1 0)).mapWith (access 0x02 6 0 1 0) = ⟨0, 0, 0, 0⟩ ∧
    (asked running (access 0x02 6 0 1 31)).mapWith (access 0x02 6 0 1 31) ≠ ⟨0, 0, 0, 0⟩ ∧
    (asked running (access 0x02 6 0 4 31)).mapWith (access 0x02 6 0 4 31) ≠ ⟨0, 0, 0, 0⟩ := by decide +kernel

/-- The greatest mask and one beyond; a WRITE to FLAGS; a READ of the mask. -/
theorem test_MaskTakesOnlyPositionsThatNameFlags :
    (∀ q ∈ [access 0x02 7 0 1 2097151, access 0x02 7 0 1 2097152, access 0x02 7 0 0 0, access 0x01 7 0 1 0],
      Asks running q ∧ q.a6 = 7 ∧ q.a7 = 0) ∧
    (access 0x02 7 0 1 2097151).writeValue.toNat < 2097152 ∧ 2097152 ≤ (access 0x02 7 0 1 2097152).writeValue.toNat := by
  decide +kernel

/-- An APPEND_BATCH: lane, target low byte, mode, gap and loop. -/
def append (lane target mode gap loop : Nat) : Request :=
  let b (n : Nat) : Byte := BitVec.ofNat 8 n
  request 0x03 ⟨b lane, 0, b target, 0, 0, b mode, b gap, b loop, 0, 0⟩

/-- Every fault; and a fit at the ends of the ranges, with fifteen batches listed and with sixteen. -/
theorem test_AppendBatchJoinsTheLanesList :
    let list (n : Nat) : State := withPlan running { lanePlanAtReset with batches := List.replicate n (batchOf 2 false) }
    (∀ x ∈ [(0, append 6 1 0 0 0), (1, append 5 0 0 0 0), (3, append 0 1 2 0 0), (4, append 0 1 0 16 0), (5, append 0 1 0 0 2)],
      Asks running x.2 ∧ x.2.op = 0x03#8 ∧ x.2.AppendFault x.1) ∧
    (append 0 1 1 15 1).AppendFits ∧
    (∀ n ∈ [15, 16], Asks (list n) (append 0 1 1 15 1) ∧
      ((asked (list n) (append 0 1 1 15 1)).bsq.get (laneOf (append 0 1 1 15 1).a6.toNat)).batches.length = n) := by
  decide +kernel

theorem test_SnapshotClearEventsAndResetNode :
    (∀ q ∈ [plain 0x20, plain 0x21, plain 0x2F], Asks loaded q ∧ Asks running q) ∧
    loaded.jbc.job = .idle ∧ running.jbc.job ≠ .idle := by decide +kernel

/-- An unknown op; a command from another node than the manager; an address out of its table, read and written; a read-only
address of each kind. -/
theorem test_FailedChecksAnswerInOrder :
    (∀ q ∈ [plain 0x04, plain 0x00, plain 0x10, access 0x01 8 0 0 0, access 0x02 0 0 22 0, access 0x02 3 5 11 0,
        access 0x02 6 0 0 0], (asked running q).Starts q []) ∧
    ((plain 0x04).op ∉ knownOps ∧ (plain 0x00).op ∉ knownOps) ∧
    ((plain 0x10).op ∈ knownOps ∧ (plain 0x10).op ∉ openOps ∧
      ¬ (asked (managedBy running 2) (plain 0x10)).MayCommand (plain 0x10)) ∧
    (¬ ValidAddress 8 0 0 ∧ ¬ ValidAddress 0 0 22) ∧ (ValidAddress 3 5 11 ∧ ValidAddress 6 0 0) ∧
    (access 0x02 3 5 11 0).a6 ∈ [3, 4, 5] ∧ (access 0x02 6 0 0 0).a6 ∈ [6, 7] ∧ (access 0x02 6 0 0 0).a8 = 0 := by
  refine ⟨by decide +kernel, by decide +kernel, by decide +kernel, ⟨by decide, by decide⟩, ⟨by decide, by decide⟩, ?_⟩
  decide +kernel

/-- Each reason to wait. -/
theorem test_RequestsWaitForRoomAndTheirTurn :
    running.assertReset.resetHeld = true ∧
    ({ running with mge := { running.mge with resetPending := true } } : State).mge.resetPending = true ∧
    8 ≤ ({ running with rif := { running.rif with replies := List.replicate 8 ((plain 0x01).reply .ok 0) } } :
      State).rif.replies.length ∧
    running.mge.requests = [] ∧
    (asked running (plain 0x10)).mge.requests.head? = some (plain 0x10) ∧ (plain 0x10).startRow ≠ .trim := by decide +kernel

/-- A flag clear and enabled, clear and not enabled, set; a full mailbox; a READ of FLAGS. -/
theorem test_EventsSetFlagsAndFillTheMailbox :
    let enabled : State := { running with mge := { running.mge with mask := 1 } }
    let e : Event := .linkDown
    (running.mge.mask.getLsbD e.bit = false ∧ (running.setEvent e).flag e = true) ∧
    ((enabled.mge.mask.getLsbD 0 = true ∨ e.bit ≠ 0) ∧ ∃ e' ∈ [Event.linkDown, .encFault], enabled.flag e' = false) ∧
    ({ running with mge := { running.mge with mailbox := true } } : State).mge.mailbox = true ∧
    Asks running (access 0x01 7 0 0 0) := by decide +kernel

/-! ### Invariants -/

/-- `tracked` with two commands waiting. -/
def waiting : State := { tracked with pending := [.markEdge, .speedWindowExpiry] }

theorem test_EveryStepKeepsCapacitiesAndCoherence : waiting.WithinCapacity ∧ waiting.Coherent ∧ ∃ t, step waiting = .next t :=
  ⟨{ records := by decide +kernel, replies := by decide +kernel, requests := by decide +kernel
     batches := by decide +kernel, splices := by decide +kernel, decided := by decide +kernel, depth := by decide +kernel
     speed := by decide +kernel, windowMs := by decide +kernel, flags := by decide +kernel, mask := by decide +kernel },
   { plans := fun i => by
       have h : ∀ i : Lane, (∀ b ∈ (waiting.bsq.get i).batches, 1 ≤ b.target ∧ b.target ≤ 65535 ∧ b.gap ≤ 15) ∧
           (∀ b ∈ (waiting.bsq.get i).batches.head?, (waiting.bsq.get i).count < b.target) ∧
           ((waiting.bsq.get i).batches = [] → (waiting.bsq.get i).count = 0) ∧ (waiting.bsq.get i).gap ≤ 15 ∧
           (waiting.bsq.get i).statusAge.isSome = !(waiting.bsq.get i).stale := by decide +kernel
       exact ⟨(h i).1, (h i).2.1, (h i).2.2.1, (h i).2.2.2.1, (h i).2.2.2.2⟩
     fireWatch := by decide +kernel, pulseTimer := by decide +kernel, owner := by decide +kernel
     inhibit := by decide +kernel, recovering := by decide +kernel, noPulse := by decide +kernel
     blind := by decide +kernel, framed := fun h => absurd h (by decide +kernel) },
   ⟨_, rfl⟩⟩

theorem test_EveryStepKeepsTheJobDiscipline : waiting.JobDiscipline ∧ ∃ t, step waiting = .next t :=
  ⟨{ quiet := by decide +kernel, numbered := ⟨by decide +kernel, trivial⟩, window := by decide +kernel
     gates := by decide +kernel, newest := by decide +kernel, tail := by decide +kernel, pending := by decide +kernel
     held := by decide +kernel, trim := by decide +kernel, supervised := by decide +kernel, limits := by decide +kernel
     registration := { watch := by decide +kernel, window := by decide +kernel, missRun := by decide +kernel
                       run := by decide +kernel } },
   ⟨_, rfl⟩⟩

theorem waiting_table : waiting.jbc.table = jobTable := by decide +kernel

theorem test_AJobCannotFillTheTrackQueue : waiting.JobDiscipline ∧ waiting.Spaced ∧ ∃ t, step waiting = .next t :=
  ⟨test_EveryStepKeepsTheJobDiscipline.1,
   { job := fun _ => ⟨by decide +kernel, waiting_table ▸ geometry_of_worked_case, by decide +kernel, by decide +kernel,
       by decide +kernel⟩
     apart := by rw [show waiting.trc.queue = [entry] from by decide +kernel]; trivial
     reach := by decide +kernel
     head := fun e h => by
       obtain rfl : entry = e := by simpa using (show some entry = some e from h)
       decide +kernel
     newest := fun e h => by
       obtain rfl : entry = e := by simpa using (show some entry = some e from h)
       decide +kernel
     window := fun _ => ⟨0, ⟨2000, 1961, 2039⟩, by decide +kernel⟩ },
   ⟨_, rfl⟩⟩

theorem test_EveryStepAccountsForEveryPiece : waiting.PiecesAccounted ∧ ∃ t, step waiting = .next t :=
  ⟨{ job := test_EveryStepKeepsTheJobDiscipline.1, totals := ⟨2, by decide +kernel⟩, numbers := by decide +kernel },
   ⟨_, rfl⟩⟩

end Sys2Proof.Tests
end

