-- ==== Sys2Proof/Proofs/CauseOrder.lean ====
section
/-! PROOF. The cause order of R101: GTU's checks in the words of the statements, and which code each cause gives. -/

namespace Sys2Proof.Machine

/-! ### The checks, in the words of the statements -/

/-- GTU's test of cause 1 (R102). -/
theorem State.holds_iff (s : State) (h : Handover) : s.holds h = true ↔ Hold s h := by
  simp [State.holds, or_assoc]

/-- The bounds that R103's table calls bad. -/
theorem CutState.bad_iff (c : CutState) : c.bad = true ↔ Unmade c := by
  cases c <;> simp [CutState.bad, Unmade]

/-- GTU's test of cause 2, a missing successor among its grounds (R103). -/
theorem Handover.badCut_iff (h : Handover) : h.badCut = true ↔ CutMissing h := by
  unfold Handover.badCut CutMissing
  cases h.successor with
  | none => simp
  | some c => simp [CutState.bad_iff]

/-- GTU's test of cause 5 (R105). -/
theorem State.noWork_iff (s : State) (i : Lane) :
    (!(s.gtu.table.get i).enable || (s.bsq.get i).batches.isEmpty) = true ↔ NoWork s i := by
  simp

/-- Causes 6 and 7 are the table of R106. -/
theorem State.inspectionCode_eq_inspected (s : State) (h : Handover) (i : Lane) :
    inspectionCode s.jbc.blind h.entry.verdict (s.gtu.table.get i).niPolicy i = Inspected s h i := by
  unfold inspectionCode Inspected
  cases s.jbc.blind with
  | true => rfl
  | false =>
    cases h.entry.verdict with
    | none => rfl
    | some v =>
      cases hv : v.lanes.get i <;> cases (s.gtu.table.get i).niPolicy <;> simp [hv]

/-- GTU's test of cause 8: a lane with no stacker node is not supervised (R107). -/
theorem State.stackerNotReady_iff (s : State) (i : Lane) :
    ((s.gtu.table.get i).stackerNode != 0 && !(s.bsq.get i).ready) = true ↔ StackerNotReady s i := by
  simp [LanePlan.ready]

/-- Inspection passes the lane, or gives the code of cause 6 or of cause 7. -/
theorem inspected_cases (s : State) (h : Handover) (i : Lane) :
    Inspected s h i = none ∨ Inspected s h i = some .rejInspect ∨ Inspected s h i = some .rejUnknown := by
  unfold Inspected
  split <;> simp

/-! ### The table of R101 -/

/-- The lane's code, a line for each cause of R101 in the words of the statements. -/
theorem State.laneCode_eq (s : State) (h : Handover) (i : Lane) :
    s.laneCode h i =
      if Hold s h then .rejHold
      else if CutMissing h then .rejCut
      else if h.entry.regFlag = .fault then .rejRegister
      else if h.inSplice = true then .rejSplice
      else if NoWork s i then .rejLane
      else (Inspected s h i).getD
        (if StackerNotReady s i then .rejStacker else if 0 < (s.bsq.get i).gap then .rejGap else .stacked) := by
  simp only [State.laneCode, State.inspectionCode_eq_inspected, State.holds_iff, Handover.badCut_iff, State.noWork_iff,
    State.stackerNotReady_iff]
  cases Inspected s h i <;> rfl

/-- Settles O23: down the table of R101, a case for each cause that is the first to hold, and one for none. -/
theorem codesFollowTheCauseOrder : Obligations.CodesFollowTheCauseOrder := by
  unfold Obligations.CodesFollowTheCauseOrder WholeEntryGoodBut
  intro s h i
  rw [State.laneCode_eq]
  by_cases hold : Hold s h
  · simp [hold]
  by_cases cut : CutMissing h
  · simp [hold, cut]
  cases reg : h.entry.regFlag with
  | fault => simp [hold, cut]
  | ok =>
    cases splice : h.inSplice with
    | true => simp [hold, cut]
    | false =>
      by_cases idle : NoWork s i
      · simp [hold, cut, idle]
      obtain passed | found | found := inspected_cases s h i
      · by_cases stacker : StackerNotReady s i
        · simp [hold, cut, idle, passed, eq_true stacker]
        · obtain gap | gap := Nat.eq_zero_or_pos (s.bsq.get i).gap
          · simp [hold, cut, idle, passed, stacker, gap]
          · simp [hold, cut, idle, passed, stacker, gap, gap.ne']
      · simp [hold, cut, idle, found]
      · simp [hold, cut, idle, found]

end Sys2Proof.Machine
end

section
/-! PROOF. Requests to the EVENT table (R168, R169): the mask, the flags word, and what an event does to both and to the
mailbox. -/

namespace Sys2Proof.Machine

/-! ### Starts that pass the checks, and starts that do not (R161, R162) -/

/-- A request that starts is the head of the queue. -/
theorem State.Starts.queue {s : State} {q : Request} {rest : List Request} (start : s.Starts q rest) :
    s.mge.requests = q :: rest := start.2.1

/-- A request past the checks: its work on the machine without the head, its answer queued. -/
theorem State.startRequest_passes {s : State} {q : Request} {rest : List Request} {row : StartRow}
    (start : s.Starts q rest) (hrow : q.startRow = row) (check : s.requestCheck q = none)
    (run : Request → State → State × Answer) :
    s.startRequest row run = (run q s.popRequest).1.queueReply q (run q s.popRequest).2 :=
  (State.startRequest_starts start hrow run).trans (State.carryOut_passes check run)

/-- A request that fails a check: answered with value 0, its work not done. -/
theorem State.startRequest_fails {s : State} {q : Request} {rest : List Request} {row : StartRow} {r : Result}
    (start : s.Starts q rest) (hrow : q.startRow = row) (check : s.requestCheck q = some r)
    (run : Request → State → State × Answer) :
    s.startRequest row run = s.answered rest (q.reply r 0) :=
  (State.startRequest_starts start hrow run).trans (State.carryOut_fails start.queue check run)

/-! ### Requests to the EVENT table (11.3, 13.2) -/

/-- The start of a READ has the row READ, whatever it addresses. -/
theorem Request.startRow_read {q : Request} (op : q.op = 0x01#8) : q.startRow = .read := by
  simp [Request.startRow, opOf, op]

/-- The start of a WRITE has the row of the field it addresses. -/
theorem Request.startRow_write {q : Request} (op : q.op = 0x02#8) :
    q.startRow = writeRow q.table q.row q.field := by
  simp [Request.startRow, opOf, op]

/-- Fields 0 and 1 of the EVENT table's one row are valid addresses. -/
theorem Request.validAddress_event {q : Request} (table : q.a6 = 7) (row : q.a7 = 0) (field : q.a8 = 0 ∨ q.a8 = 1) :
    validAddress q.table q.row q.field = true := by
  obtain flags | mask := field
  · simp [validAddress, Request.table, Request.row, Request.field, table, row, flags]
  · simp [validAddress, Request.table, Request.row, Request.field, table, row, mask]

/-- A READ of the EVENT table answers the flags word at field 0 and the mask at field 1, from any node. -/
theorem exec_read_event {s : State} {q : Request} {rest : List Request} (start : s.Starts q rest) (op : q.op = 0x01#8)
    (table : q.a6 = 7) (row : q.a7 = 0) (field : q.a8 = 0 ∨ q.a8 = 1) :
    exec .read s = .next (s.answered rest (q.reply .ok (if q.a8 = 0 then s.mge.flags else s.mge.mask))) := by
  have check := s.requestCheck_read op (Request.validAddress_event table row field)
  have work : State.runRead q s.popRequest =
      (s.popRequest, .ok (if q.a8 = 0 then s.mge.flags else s.mge.mask)) := by
    obtain flags | mask := field
    · simp [State.runRead, State.readAddress, Request.table, Request.field, table, flags, State.popRequest]
    · simp [State.runRead, State.readAddress, Request.table, Request.field, table, mask, State.popRequest]
  calc exec .read s
      = .next (s.startRequest .read State.runRead) := rfl
    _ = .next (s.popRequest.queueReply q (.ok (if q.a8 = 0 then s.mge.flags else s.mge.mask))) := by
        rw [State.startRequest_passes start (Request.startRow_read op) check, work]
    _ = _ := congrArg _ (State.answer_some start.queue _ _)

/-- A WRITE to FLAGS is refused with READONLY (R169). -/
theorem exec_write_flags {s : State} {q : Request} {rest : List Request} (start : s.Starts q rest) (op : q.op = 0x02#8)
    (may : s.MayCommand q) (table : q.a6 = 7) (row : q.a7 = 0) (field : q.a8 = 0) :
    exec .write s = .next (s.answered rest (q.reply .readonly 0)) := by
  have valid := Request.validAddress_event table row (.inl field)
  have hrow : q.startRow = .write := by
    rw [Request.startRow_write op]
    simp only [writeRow, valid, Bool.not_true]
    simp [Request.table, Request.field, table, field]
  have check : s.requestCheck q = some .readonly := by
    rw [State.requestCheck_write op may valid]
    simp [readOnlyAddress, Request.table, Request.field, table, field]
  exact congrArg _ (State.startRequest_fails start hrow check State.runWrite)

/-! ### The mask (R169) -/

/-- A word's set positions all name flags exactly when it is below 2^21: bits 0 to 20 name them (13.4). -/
theorem and_not_flagPositions_eq_zero_iff (v : BitVec 32) : v &&& ~~~flagPositions = 0 ↔ v.toNat < 2097152 := by
  have kept : (v &&& flagPositions).toNat = v.toNat % 2097152 := Nat.and_two_pow_sub_one_eq_mod v.toNat 21
  have positions : v &&& ~~~flagPositions = 0 ↔ v &&& flagPositions = v := by
    simp only [BitVec.eq_of_getElem_eq_iff, BitVec.getElem_and, BitVec.getElem_not]
    refine forall₂_congr fun i _ => ?_
    cases v[i] <;> simp
  calc v &&& ~~~flagPositions = 0
      ↔ v &&& flagPositions = v := positions
    _ ↔ v.toNat % 2097152 = v.toNat := by rw [← kept, BitVec.toNat_inj]
    _ ↔ v.toNat < 2097152 := Nat.mod_eq_iff_lt (by decide)

/-- The value of a WRITE is the one that the statements name (13.2). -/
theorem Request.value_eq_writeValue (q : Request) : q.value = q.writeValue :=
  BitVec.append_assoc'.trans (BitVec.cast_eq _ _)

/-- A WRITE to MASK comes down to `runMaskWrite` on the machine without the head request, in every job state. -/
theorem exec_maskWrite {s : State} {q : Request} {rest : List Request} (start : s.Starts q rest) (op : q.op = 0x02#8)
    (may : s.MayCommand q) (table : q.a6 = 7) (row : q.a7 = 0) (field : q.a8 = 1) :
    exec .maskWrite s =
      .next ((State.runMaskWrite q s.popRequest).1.queueReply q (State.runMaskWrite q s.popRequest).2) := by
  have valid := Request.validAddress_event table row (.inr field)
  have hrow : q.startRow = .maskWrite := by
    rw [Request.startRow_write op]
    simp only [writeRow, valid, Bool.not_true]
    simp [Request.table, Request.field, table, field]
  have check : s.requestCheck q = none := by
    rw [State.requestCheck_write op may valid]
    simp [readOnlyAddress, Request.table, Request.field, table, field]
  exact congrArg _ (State.startRequest_passes start hrow check State.runMaskWrite)

/-- A mask of flag positions is held, and answered. -/
theorem State.runMaskWrite_accepts {q : Request} (fits : q.writeValue.toNat < 2097152) (s : State) :
    s.runMaskWrite q = ({ s with mge := { s.mge with mask := q.writeValue } }, .ok q.writeValue) := by
  rw [State.runMaskWrite, Request.value_eq_writeValue,
    if_pos ((and_not_flagPositions_eq_zero_iff _).2 fits)]

/-- A mask with another position set is refused with RANGE, and the mask held stays. -/
theorem State.runMaskWrite_refuses {q : Request} (beyond : 2097152 ≤ q.writeValue.toNat) (s : State) :
    s.runMaskWrite q = (s, .refused .range) := by
  rw [State.runMaskWrite, Request.value_eq_writeValue,
    if_neg (fun fits => absurd ((and_not_flagPositions_eq_zero_iff _).1 fits) (Nat.not_lt.2 beyond))]

/-- Settles O50: the WRITE to MASK by its value, the WRITE to FLAGS and the READ, each by its lemma. -/
theorem maskTakesOnlyPositionsThatNameFlags : Obligations.MaskTakesOnlyPositionsThatNameFlags := by
  unfold Obligations.MaskTakesOnlyPositionsThatNameFlags
  intro s q rest start table row
  refine ⟨fun op field may fits => ?_, fun op field may beyond => ?_, fun op field may => ?_, fun op field => ?_⟩
  · rw [exec_maskWrite start op may table row field, State.runMaskWrite_accepts fits]
    exact congrArg _ (State.answer_some (s := { s with mge := { s.mge with mask := q.writeValue } }) start.queue
      .ok q.writeValue)
  · refine ⟨Config.refusalValue s.draws, ?_⟩
    rw [exec_maskWrite start op may table row field, State.runMaskWrite_refuses beyond]
    exact congrArg _ (State.answer_none start.queue .range)
  · exact exec_write_flags start op may table row field
  · rw [exec_read_event start op table row (.inr field)]
    simp [field]

/-! ### Events (R168) -/

/-- The mailbox after an event: full when it was, or when the flag was clear with its enable on. -/
theorem State.setEvent_mailbox (s : State) (e : Event) :
    (s.setEvent e).mge.mailbox = (s.mge.mailbox || (!s.flag e && s.mge.mask.getLsbD e.bit)) := rfl

/-- A full mailbox stays full through an event. -/
theorem State.setEvent_mailbox_full {s : State} (full : s.mge.mailbox = true) (e : Event) :
    (s.setEvent e).mge.mailbox = true := by
  simp [State.setEvent_mailbox, full]

/-- Settles O55: one event by its flag, the others and the mailbox; two events by the one; the READ of field 0. -/
theorem eventsSetFlagsAndFillTheMailbox : Obligations.EventsSetFlagsAndFillTheMailbox := by
  unfold Obligations.EventsSetFlagsAndFillTheMailbox
  intro s
  refine ⟨fun e => ⟨s.setEvent_flag e, fun e' other => ?_, fun clear enabled => ?_, fun quiet => ?_,
    s.setEvent_eq_withEvent e⟩, fun e e' full => ?_, fun q rest start op table row field => ?_⟩
  · simp [State.flag_setEvent, other]
  · simp [State.setEvent_mailbox, clear, enabled]
  · obtain standing | disabled := quiet
    · simp [State.setEvent_mailbox, standing]
    · simp [State.setEvent_mailbox, disabled]
  · exact State.setEvent_mailbox_full (State.setEvent_mailbox_full full e) e'
  · rw [exec_read_event start op table row (.inl field), if_pos field]

end Sys2Proof.Machine
end

section
/-! PROOF. What every step keeps: the commands by kind, the induction over them said once, and the four invariants. -/

namespace Sys2Proof.Machine

/-! ### The commands by kind -/

/-- The work of a started request of each row, past the checks of R162. -/
def rowWork : StartRow → Request → State → State × Answer
  | .read => State.runRead
  | .write => State.runWrite
  | .speedWindowWrite => State.runSpeedWindowWrite
  | .stackerNodeWrite => State.runStackerNodeWrite
  | .pocketWrite => State.runPocketWrite
  | .statusAgeLimitWrite => State.runStatusAgeLimitWrite
  | .maskWrite => State.runMaskWrite
  | .slotMapWrite => State.runSlotMapWrite
  | .appendBatch => State.runAppendBatch
  | .jobStart => State.runJobStart
  | .jobStop => State.runJobStop
  | .jobAbort => State.runJobAbort
  | .trim => State.runTrim
  | .waste => State.runWaste
  | .snapshot => State.runSnapshot
  | .clearEvents => State.runClearEvents
  | .releaseStop => State.runReleaseStop
  | .resetNode => State.runResetNode
  | .badOp => State.runBadOp

/-- The command of a row starts the head request when it is one of that row (R161). -/
theorem exec_rowCommand (row : StartRow) (s : State) :
    exec (rowCommand row) s = .next (s.startRequest row (rowWork row)) := by
  cases row <;> rfl

/-- A command that carries a cell lets it arrive, whichever row it is (log 8). -/
theorem exec_carriedCell {c : Instr} {cell : Cell} (h : carriedCell c = some cell) (s : State) :
    exec c s = .next (s.receive cell) := by
  cases c <;> simp only [carriedCell, Option.some.injEq, reduceCtorEq] at h <;> subst h <;> rfl

/-! ### The induction over the commands, once -/

/-- `P` is kept by each thing that a step can do. -/
structure KeptByParts (P : State → Prop) : Prop where
  pending : ∀ s l, P s → P { s with pending := l }
  tick : ∀ s, P s → P s.tick
  encoder : ∀ s a b o, P s → P (s.encoderChange a b o)
  mark : ∀ s, P s → P (s.markEdge true)
  speedWindow : ∀ s, P s → P s.windowEnd
  inhibit : ∀ s, P s → P s.assertInhibit
  released : ∀ s, P s → P { s with inhibitLine := false }
  pulseEnd : ∀ s, P s → P { s with ksq := s.ksq.endPulse }
  recoveryEnd : ∀ s, s.ksq.pulse = false → P s → P { s with ksq := { s.ksq with recoveryTimer := none } }
  heartbeat : ∀ s, s.jbc.hbTimer.isSome = true → P s → P s.heartbeatExpiry
  status : ∀ s i, P s → P (s.lapse i)
  link : ∀ s, P s → P s.linkExpiry
  cell : ∀ s c, P s → P (s.receive c)
  slotEnd : ∀ s, P s → P s.endOwnedSlot
  request : ∀ s row, P s → P (s.startRequest row (rowWork row))
  resetBegins : ∀ s, P s → P s.assertReset
  resetEnds : ∀ s n i a b, P s → P (s.afterReset n i a b)

/-- A command that does its work unless `g` holds keeps what its work keeps. -/
theorem keeps_unless {P : State → Prop} {g : Bool} {s u t : State} (h : P s) (hu : g = false → P u)
    (e : (Host.Outcome.next (if g then s else u) : Host.Outcome State Fault Refusal) = .next t) : P t := by
  obtain rfl := Host.Outcome.next.inj e
  cases g with
  | true => exact h
  | false => exact hu rfl

namespace KeptByParts

variable {P : State → Prop} (k : KeptByParts P) {s t : State}
include k

theorem keeps_row (row : StartRow) (h : P s) (e : exec (rowCommand row) s = .next t) : P t := by
  rw [exec_rowCommand] at e
  obtain rfl := Host.Outcome.next.inj e
  exact k.request s row h

theorem keeps_cell {c : Instr} {cell : Cell} (hc : carriedCell c = some cell) (h : P s) (e : exec c s = .next t) : P t := by
  rw [exec_carriedCell hc] at e
  obtain rfl := Host.Outcome.next.inj e
  exact k.cell s cell h

/-- Every command keeps it. -/
theorem keeps_exec (c : Instr) (h : P s) (e : exec c s = .next t) : P t := by
  cases c with
  | encoderTransition a b o => exact keeps_unless h (fun _ => k.encoder s a b o h) e
  | markEdge => exact keeps_unless h (fun _ => k.mark s h) e
  | speedWindowExpiry => exact keeps_unless h (fun _ => k.speedWindow s h) e
  | knifeInhibitAsserted => exact keeps_unless h (fun _ => k.inhibit s h) e
  | pulseTimerExpiry => exact keeps_unless h (fun _ => k.pulseEnd s h) e
  | recoveryTimerExpiry =>
    refine keeps_unless h (fun running => k.recoveryEnd s ?_ h) e
    simp only [Ksq.recoveryRunOut, Bool.or_eq_false_iff, Bool.not_eq_false', Bool.and_eq_true, Bool.not_eq_true'] at running
    exact running.2.2
  | heartbeatTimerExpiry =>
    refine keeps_unless h (fun running => k.heartbeat s ?_ h) e
    simp only [Bool.or_eq_false_iff, bne_eq_false_iff_eq] at running
    rw [running.2]
    rfl
  | statusTimerExpiry i => exact keeps_unless h (fun _ => k.status s i h) e
  | linkTimerExpiry => exact keeps_unless h (fun _ => k.link s h) e
  | slotEnd => exact keeps_unless h (fun _ => k.slotEnd s h) e
  | knifeInhibitReleased => exact keeps_unless h (fun _ => k.released s h) e
  | deviceResetAssert =>
    obtain rfl := Host.Outcome.next.inj e
    exact k.resetBegins s h
  | deviceResetEnd n i a b =>
    obtain rfl := Host.Outcome.next.inj e
    cases s.resetHeld with
    | true => exact k.resetEnds s n i a b h
    | false => exact h
  | frameHeader b => exact k.keeps_cell (c := .frameHeader b) rfl h e
  | invalidHeader c => exact k.keeps_cell (c := .invalidHeader c) rfl h e
  | badCheckCell c => exact k.keeps_cell (c := .badCheckCell c) rfl h e
  | verdict b => exact k.keeps_cell (c := .verdict b) rfl h e
  | heartbeat b => exact k.keeps_cell (c := .heartbeat b) rfl h e
  | stackerStatus b => exact k.keeps_cell (c := .stackerStatus b) rfl h e
  | mgmtRequest b => exact k.keeps_cell (c := .mgmtRequest b) rfl h e
  | cellRepeated c => exact k.keeps_cell (c := .cellRepeated c) rfl h e
  | ownedSlotStart c => exact k.keeps_cell (c := .ownedSlotStart c) rfl h e
  | read => exact k.keeps_row .read h e
  | write => exact k.keeps_row .write h e
  | speedWindowWrite => exact k.keeps_row .speedWindowWrite h e
  | stackerNodeWrite => exact k.keeps_row .stackerNodeWrite h e
  | pocketWrite => exact k.keeps_row .pocketWrite h e
  | statusAgeLimitWrite => exact k.keeps_row .statusAgeLimitWrite h e
  | maskWrite => exact k.keeps_row .maskWrite h e
  | slotMapWrite => exact k.keeps_row .slotMapWrite h e
  | appendBatch => exact k.keeps_row .appendBatch h e
  | jobStart => exact k.keeps_row .jobStart h e
  | jobStop => exact k.keeps_row .jobStop h e
  | jobAbort => exact k.keeps_row .jobAbort h e
  | trim => exact k.keeps_row .trim h e
  | waste => exact k.keeps_row .waste h e
  | snapshot => exact k.keeps_row .snapshot h e
  | clearEvents => exact k.keeps_row .clearEvents h e
  | releaseStop => exact k.keeps_row .releaseStop h e
  | resetNode => exact k.keeps_row .resetNode h e
  | badOp => exact k.keeps_row .badOp h e

/-- Every step keeps it: the front command's, or the clock period's on an empty queue (log 2). -/
theorem keeps_step (h : P s) (e : step s = .next t) : P t := by
  unfold step at e
  split at e
  · obtain rfl := Host.Outcome.next.inj e
    exact k.tick s h
  · exact k.keeps_exec _ (k.pending s _ h) e

end KeptByParts

/-! ### Capacities and coherence -/

/-- A clock period: no timer starts or stops. -/
theorem wellKept_tick {s : State} (h : WellKept s) : WellKept s.tick := by
  unfold State.tick
  split
  · exact h
  · obtain ⟨capacity, coherent⟩ := h
    refine ⟨{ capacity with batches := fun i => ?_ },
      { coherent with plans := fun i => ?_, pulseTimer := ?_, recovering := fun pulse => ?_, framed := fun up => ?_ }⟩
    · simp only [Lanes.get_ofFn]
      exact capacity.batches i
    · simp only [Lanes.get_ofFn]
      exact { coherent.plans i with timer := by simpa [LanePlan.tick, countUp] using (coherent.plans i).timer }
    · simpa [countDown] using coherent.pulseTimer
    · simpa [countDown] using coherent.recovering pulse
    · obtain ⟨timer, frame⟩ := coherent.framed up
      exact ⟨by simpa [countUp] using timer, frame⟩

theorem wellKept_heartbeatExpiry {s : State} (h : WellKept s) : WellKept s.heartbeatExpiry := by
  unfold State.heartbeatExpiry
  split
  · refine wellKept_setEvent ?_ _
    exact ⟨{ h.1 with records := h.1.records }, { h.2 with blind := by simp }⟩
  · rename_i stage
    have blind : s.jbc.blind = true := h.2.blind.2 (by simp [stage])
    refine wellKept_setEvent ?_ _
    exact ⟨{ h.1 with records := h.1.records }, { h.2 with blind := by simp [blind] }⟩
  · exact ⟨{ h.1 with records := h.1.records }, { h.2 with plans := h.2.plans }⟩

theorem wellKept_linkExpiry {s : State} (h : WellKept s) : WellKept s.linkExpiry := by
  unfold State.linkExpiry
  split
  · exact ⟨{ h.1 with records := h.1.records }, { h.2 with framed := fun up => by simp_all }⟩
  · refine wellKept_setEvent ?_ _
    exact ⟨{ h.1 with records := h.1.records }, { h.2 with framed := fun up => (nomatch up) }⟩

theorem wellKept_withJbc {s : State} (h : WellKept s) (j : Jbc) (stage : j.hbStage = s.jbc.hbStage)
    (blind : j.blind = s.jbc.blind) : WellKept { s with jbc := j } :=
  ⟨{ h.1 with records := h.1.records }, { h.2 with blind := by simpa [stage, blind] using h.2.blind }⟩

/-- Both latches released, once KNIFE_INHIBIT is (R95, R144): no pulse comes of it. -/
theorem wellKept_runReleaseStop {s : State} (h : WellKept s) (q : Request) : WellKept (s.runReleaseStop q).1 := by
  unfold State.runReleaseStop
  split
  · exact h
  · rename_i line
    exact ⟨{ h.1 with records := h.1.records },
      { h.2 with inhibit := fun x => absurd x line, noPulse := fun x => (nomatch x), blind := h.2.blind }⟩

/-- A lane's plan with its status discarded or not (R133). -/
theorem wellKept_discardUnless {s : State} (h : WellKept s) (p : Prop) [Decidable p] (i : Lane) (r : LaneRow) :
    WellKept (if p then s.setRow i r else (s.setRow i r).discardStatus i) := by
  split
  · exact wellKept_setRow h i r
  · exact wellKept_setPlan (wellKept_setRow h i r) i _ (h.1.batches i) (LanePlan.discardStatus_sound (h.2.plans i))

/-- The work of every row keeps both, and queues no reply of its own. -/
theorem wellKept_rowWork (row : StartRow) : ∀ q t, WellKept t →
    WellKept (rowWork row q t).1 ∧ (rowWork row q t).1.rif.replies = t.rif.replies := by
  intro q t h
  cases row with
  | read => simp only [rowWork, State.runRead]; split <;> exact ⟨h, rfl⟩
  | write => exact wellKept_runWrite q t h
  | speedWindowWrite =>
    simp only [rowWork, State.runSpeedWindowWrite]
    split
    · exact ⟨wellKept_beginWindow (wellKept_withJbc h _ rfl rfl), rfl⟩
    · exact ⟨h, rfl⟩
  | stackerNodeWrite =>
    simp only [rowWork, State.runStackerNodeWrite]
    split
    · exact ⟨h, rfl⟩
    · exact ⟨wellKept_discardUnless h _ _ _, by split <;> rfl⟩
  | pocketWrite =>
    simp only [rowWork, State.runPocketWrite]
    split
    · exact ⟨h, rfl⟩
    · exact ⟨wellKept_discardUnless h _ _ _, by split <;> rfl⟩
  | statusAgeLimitWrite =>
    simp only [rowWork, State.runStatusAgeLimitWrite]
    split
    · exact ⟨h, rfl⟩
    · split
      · exact ⟨wellKept_lapse (wellKept_setRow h _ _) _, by simp [State.lapse]⟩
      · exact ⟨wellKept_setRow h _ _, rfl⟩
  | maskWrite =>
    simp only [rowWork, State.runMaskWrite]
    split
    · rename_i named
      exact ⟨⟨{ h.1 with mask := named }, { h.2 with plans := h.2.plans }⟩, rfl⟩
    · exact ⟨h, rfl⟩
  | slotMapWrite =>
    simp only [rowWork, State.runSlotMapWrite]
    split
    · exact ⟨h, rfl⟩
    · exact ⟨⟨{ h.1 with records := h.1.records }, { h.2 with plans := h.2.plans }⟩, rfl⟩
  | appendBatch => exact wellKept_runAppendBatch q t h
  | jobStart =>
    simp only [rowWork, State.runJobStart]
    split
    · exact ⟨h, rfl⟩
    · split
      · exact ⟨h, rfl⟩
      · exact ⟨wellKept_startJob h, rfl⟩
  | jobStop =>
    simp only [rowWork, State.runJobStop]
    cases t.jbc.job with
    | run => exact ⟨wellKept_withJbc h _ rfl rfl, rfl⟩
    | halt => exact ⟨wellKept_abortJob h, t.abortJob_replies⟩
    | idle => exact ⟨h, rfl⟩
    | drain => exact ⟨h, rfl⟩
  | jobAbort =>
    simp only [rowWork, State.runJobAbort]
    split
    · exact ⟨h, rfl⟩
    · exact ⟨wellKept_abortJob h, t.abortJob_replies⟩
  | trim =>
    simp only [rowWork, State.runTrim]
    split
    · exact ⟨wellKept_withJbc h _ rfl rfl, rfl⟩
    · exact ⟨h, rfl⟩
  | waste =>
    simp only [rowWork, State.runWaste]
    split
    · exact ⟨h, rfl⟩
    · split
      · exact ⟨h, rfl⟩
      · exact ⟨wellKept_withJbc h _ rfl rfl, rfl⟩
  | snapshot => exact ⟨⟨{ h.1 with records := h.1.records }, { h.2 with plans := h.2.plans }⟩, rfl⟩
  | clearEvents =>
    refine ⟨⟨{ h.1 with flags := ?_ }, { h.2 with plans := h.2.plans }⟩, rfl⟩
    show t.mge.flags &&& ~~~q.argument &&& 0xFFE00000#32 = 0
    rw [BitVec.and_assoc, BitVec.and_comm (~~~q.argument), ← BitVec.and_assoc, h.1.flags]
    exact BitVec.zero_and
  | releaseStop =>
    refine ⟨wellKept_runReleaseStop h q, ?_⟩
    simp only [rowWork, State.runReleaseStop]
    split <;> rfl
  | resetNode =>
    simp only [rowWork, State.runResetNode]
    split
    · exact ⟨⟨{ h.1 with records := h.1.records }, { h.2 with plans := h.2.plans }⟩, rfl⟩
    · exact ⟨h, rfl⟩
  | badOp => exact ⟨h, rfl⟩

theorem wellKept_parts : KeptByParts WellKept where
  pending _ _ h := ⟨{ h.1 with records := h.1.records }, { h.2 with plans := h.2.plans }⟩
  tick _ h := wellKept_tick h
  encoder _ a b o h := wellKept_encoderChange h a b o
  mark _ h := wellKept_markEdge true h
  speedWindow _ h := wellKept_windowEnd h
  inhibit _ h := wellKept_assertInhibit h
  released _ h := ⟨{ h.1 with records := h.1.records }, { h.2 with inhibit := fun x => (nomatch x) }⟩
  pulseEnd _ h := wellKept_endPulse h
  recoveryEnd _ low h :=
    ⟨{ h.1 with records := h.1.records }, { h.2 with recovering := fun x => absurd (low.symm.trans x) (by decide) }⟩
  heartbeat _ _ h := wellKept_heartbeatExpiry h
  status _ i h := wellKept_lapse h i
  link _ h := wellKept_linkExpiry h
  cell _ c h := wellKept_receive h c
  slotEnd _ h := wellKept_endOwnedSlot h
  request _ row h := wellKept_startRequest h row _ (wellKept_rowWork row)
  resetBegins _ h :=
    ⟨{ h.1 with records := h.1.records }, { (wellKept_endPulse h).2 with plans := h.2.plans }⟩
  resetEnds s n i a b _ := wellKept_afterReset n i a b s

/-- Settles O57: capacities and coherence, kept by each part of a step. -/
theorem everyStepKeepsCapacitiesAndCoherence : Obligations.EveryStepKeepsCapacitiesAndCoherence := by
  unfold Obligations.EveryStepKeepsCapacitiesAndCoherence
  intro s t capacity coherent stepped
  exact wellKept_parts.keeps_step ⟨capacity, coherent⟩ stepped

end Sys2Proof.Machine
end

section
/-! PROOF. The job discipline and the account of pieces (chapter 2; R15, R20 to R25, R62, R110) through every step. -/

namespace Sys2Proof.Machine

/-! ### The requests, for a property that traffic keeps -/

theorem KeptByTraffic.linkExpiry {P : State → Prop} (k : KeptByTraffic P) {s : State} (h : P s) : P s.linkExpiry := by
  unfold State.linkExpiry
  split
  · exact k.rif _ _ h
  · exact k.setEvent (k.rif _ _ h) _

/-- A property that traffic keeps, and the requests that write more than the blocks of traffic. -/
structure KeptByWork (P : State → Prop) : Prop extends KeptByTraffic P where
  row : ∀ s i r, P s → P (s.setRow i r)
  write : ∀ q s, P s → P (State.runWrite q s).1
  speedWindow : ∀ q s, P s → P (State.runSpeedWindowWrite q s).1
  start : ∀ q s, P s → P (State.runJobStart q s).1
  stop : ∀ q s, P s → P (State.runJobStop q s).1
  abort : ∀ q s, P s → P (State.runJobAbort q s).1
  trim : ∀ q s, P s → P (State.runTrim q s).1
  waste : ∀ q s, P s → P (State.runWaste q s).1
  release : ∀ q s, P s → P (State.runReleaseStop q s).1

/-- A row of the lane table written, its status discarded or not (R133). -/
theorem KeptByWork.discardUnless {P : State → Prop} (k : KeptByWork P) {s : State} (h : P s) (p : Prop) [Decidable p]
    (i : Lane) (r : LaneRow) : P (if p then s.setRow i r else (s.setRow i r).discardStatus i) := by
  split
  · exact k.row s i r h
  · exact k.bsq _ _ (k.row s i r h)

/-- The work of every row keeps it. -/
theorem KeptByWork.keeps_rowWork {P : State → Prop} (k : KeptByWork P) (row : StartRow) :
    ∀ q t, P t → P (rowWork row q t).1 := by
  intro q t h
  cases row with
  | read => simp only [rowWork, State.runRead]; split <;> exact h
  | write => exact k.write q t h
  | speedWindowWrite => exact k.speedWindow q t h
  | stackerNodeWrite =>
    simp only [rowWork, State.runStackerNodeWrite]
    split
    · exact h
    · exact k.discardUnless h _ _ _
  | pocketWrite =>
    simp only [rowWork, State.runPocketWrite]
    split
    · exact h
    · exact k.discardUnless h _ _ _
  | statusAgeLimitWrite =>
    simp only [rowWork, State.runStatusAgeLimitWrite]
    split
    · exact h
    · split
      · exact k.lapse (k.row t _ _ h) _
      · exact k.row t _ _ h
  | maskWrite =>
    simp only [rowWork, State.runMaskWrite]
    split
    · exact k.mge _ _ h
    · exact h
  | slotMapWrite =>
    simp only [rowWork, State.runSlotMapWrite]
    split
    · exact h
    · exact k.rif _ _ h
  | appendBatch =>
    simp only [rowWork, State.runAppendBatch]
    split
    · exact h
    · split
      · exact h
      · exact k.bsq _ _ h
  | jobStart => exact k.start q t h
  | jobStop => exact k.stop q t h
  | jobAbort => exact k.abort q t h
  | trim => exact k.trim q t h
  | waste => exact k.waste q t h
  | snapshot => exact k.mge _ _ h
  | clearEvents => exact k.mge _ _ h
  | releaseStop => exact k.release q t h
  | resetNode =>
    simp only [rowWork, State.runResetNode]
    split
    · exact k.mge _ _ h
    · exact h
  | badOp => exact h

/-! ### The knife input (R92, R93) -/

/-- A truncated pulse changes KSQ, the owner's CUT and CUT_SUPPRESSED alone (R93). -/
theorem State.truncatePulse_frame (s : State) : KnifeFrame s s.truncatePulse := by
  unfold State.truncatePulse
  split
  · split
    · constructor <;> intros <;> trivial
    · split
      · constructor <;> first | trivial | exact fun f hf => Trc.setCut_map f hf _ _ _
      · constructor <;> intros <;> trivial
  · exact KnifeFrame.rfl

/-- KNIFE_INHIBIT seen asserted, and the inhibit latch set (R92). -/
def State.latchInhibit (s : State) : State := { s with inhibitLine := true, ksq := { s.ksq with inhibitLatch := true } }

theorem State.assertInhibit_eq (s : State) :
    s.assertInhibit = (s.latchInhibit.truncatePulse.setEvent .inhibit).setStopLatch := rfl

theorem State.truncatePulse_low {s : State} (low : s.ksq.pulse = false) : s.truncatePulse = s := by
  simp [State.truncatePulse, low]

/-! ### The discipline and the account through the parts of a step -/

theorem SameDiscipline.refl (s : State) : SameDiscipline s s := by
  constructor <;> first | rfl | exact ⟨rfl, rfl⟩ | exact fun h _ => h | exact fun _ _ h1 h2 => ⟨h1, h2⟩

theorem disciplined_tick {b} {s : State} (h : Disciplined b s) : Disciplined b s.tick := by
  unfold State.tick
  split
  · exact h
  · exact h.congr { SameDiscipline.refl s with hbt := by simp [countDown] }

theorem disciplined_assertInhibit {b} {s : State} (h : Disciplined b s) : Disciplined b s.assertInhibit := by
  have h0 : Disciplined b s.latchInhibit := h.congr { SameDiscipline.refl s with q := rfl }
  have h1 : Disciplined b s.latchInhibit.truncatePulse := by
    refine h0.congr (knifeFrame_sameDiscipline s.latchInhibit.truncatePulse_frame fun _ _ armed low => ?_)
    rw [State.truncatePulse_low low]
    exact ⟨armed, low⟩
  exact disciplined_withStopLatch (disciplined_setEvent h1 .inhibit) true

/-- SPEED_WINDOW is no quantity of the job (R10, R34). -/
theorem disciplined_runSpeedWindowWrite {b} (q : Request) (s : State) (h : Disciplined b s) :
    Disciplined b (State.runSpeedWindowWrite q s).1 := by
  unfold State.runSpeedWindowWrite
  split
  · exact h.congr { SameDiscipline.refl s with q := rfl }
  · exact h

theorem disciplined_runJobStart {b} (q : Request) (s : State) (h : Disciplined b s) :
    Disciplined b (State.runJobStart q s).1 := by
  unfold State.runJobStart
  split
  · exact h
  · rename_i idle
    split
    · exact h
    · exact disciplined_startJob h (not_not.1 idle)

/-- A drain begins: in RUN no entry is the tail yet (R21, R22). -/
theorem disciplined_beginDrain {b} {s : State} (h : Disciplined b s) (run : s.jbc.job = .run) :
    Disciplined b { s with jbc := { s.jbc with job := .drain, tailPending := true } } := by
  have working : s.jbc.job ≠ .idle := by simp [run]
  refine ⟨{ h.1 with
      quiet := fun stopped => by simp at stopped
      tail := fun e he tail => absurd ((h.1.tail e he tail).1.symm.trans run) (by decide)
      pending := fun _ => rfl
      held := fun _ => h.1.held working
      trim := fun _ => h.1.trim (.inl run)
      supervised := by simpa [run] using h.1.supervised }, fun hb => ?_⟩
  obtain ⟨⟨n, lanes, totals⟩, numbers⟩ := h.2 hb
  exact ⟨⟨n, fun _ => lanes working, totals⟩, fun _ => numbers working⟩

theorem disciplined_runJobStop {b} (q : Request) (s : State) (h : Disciplined b s) :
    Disciplined b (State.runJobStop q s).1 := by
  unfold State.runJobStop
  split
  · rename_i run
    exact disciplined_beginDrain h run
  · exact disciplined_abortJob h
  · exact h
  · exact h

theorem disciplined_runJobAbort {b} (q : Request) (s : State) (h : Disciplined b s) :
    Disciplined b (State.runJobAbort q s).1 := by
  unfold State.runJobAbort
  split
  · exact h
  · exact disciplined_abortJob h

/-- The clamp keeps OC_EFF within 2,000 of CUT_OFFSET (R41). -/
theorem clampTrim_bounds (cut sum : Int) : cut - 2000 ≤ clampTrim cut sum ∧ clampTrim cut sum ≤ cut + 2000 := by
  unfold clampTrim trimReach
  omega

theorem disciplined_runTrim {b} (q : Request) (s : State) (h : Disciplined b s) : Disciplined b (State.runTrim q s).1 := by
  unfold State.runTrim
  split
  · exact ⟨{ h.1 with trim := fun _ => clampTrim_bounds _ _ }, h.2⟩
  · exact h

theorem disciplined_runWaste {b} (q : Request) (s : State) (h : Disciplined b s) : Disciplined b (State.runWaste q s).1 := by
  unfold State.runWaste
  split
  · exact h
  · split
    · exact h
    · exact disciplined_withWaste h _

theorem disciplined_runReleaseStop {b} (q : Request) (s : State) (h : Disciplined b s) :
    Disciplined b (State.runReleaseStop q s).1 := by
  unfold State.runReleaseStop
  split
  · exact h
  · exact h.congr { SameDiscipline.refl s with q := rfl }

theorem disciplined_work (b : Prop) : KeptByWork (Disciplined b) where
  toKeptByTraffic := disciplined_traffic b
  row _ i r h := disciplined_setRow h i r
  write := disciplined_runWrite
  speedWindow := disciplined_runSpeedWindowWrite
  start := disciplined_runJobStart
  stop := disciplined_runJobStop
  abort := disciplined_runJobAbort
  trim := disciplined_runTrim
  waste := disciplined_runWaste
  release := disciplined_runReleaseStop

theorem disciplined_parts (b : Prop) : KeptByParts (Disciplined b) where
  pending s _ h := h.congr { SameDiscipline.refl s with q := rfl }
  tick _ h := disciplined_tick h
  encoder _ x y o h := disciplined_encoderChange h x y o
  mark _ h := disciplined_markEdge true h
  speedWindow _ h := disciplined_windowEnd h
  inhibit _ h := disciplined_assertInhibit h
  released s h := h.congr { SameDiscipline.refl s with q := rfl }
  pulseEnd s h := disciplined_withKsq h s.ksq.endPulse id fun _ => rfl
  recoveryEnd _ _ h := disciplined_withKsq h _ id id
  heartbeat _ running h := disciplined_heartbeatExpiry h running
  status _ i h := (disciplined_traffic b).lapse h i
  link _ h := (disciplined_traffic b).linkExpiry h
  cell _ c h := (disciplined_traffic b).receive h c
  slotEnd _ h := (disciplined_traffic b).endOwnedSlot h
  request _ row h := (disciplined_traffic b).startRequest h row _ ((disciplined_work b).keeps_rowWork row)
  resetBegins s h := h.congr { SameDiscipline.refl s with ksq := fun _ _ armed _ => ⟨armed, rfl⟩ }
  resetEnds s n i x y _ := disciplined_afterReset n i x y s

/-- Settles O58: the job discipline, kept by each part of a step. -/
theorem everyStepKeepsTheJobDiscipline : Obligations.EveryStepKeepsTheJobDiscipline := by
  unfold Obligations.EveryStepKeepsTheJobDiscipline
  intro s t discipline stepped
  exact ((disciplined_parts False).keeps_step ⟨discipline, False.elim⟩ stepped).1

/-- The account of pieces is the discipline with the totals. -/
theorem State.piecesAccounted_iff (s : State) : s.PiecesAccounted ↔ Disciplined True s :=
  ⟨fun h => ⟨h.job, fun _ => ⟨h.totals, h.numbers⟩⟩, fun ⟨job, tallied⟩ => ⟨job, (tallied trivial).1, (tallied trivial).2⟩⟩

/-- Settles O60: the account of pieces, kept by each part of a step with the discipline it rests on. -/
theorem everyStepAccountsForEveryPiece : Obligations.EveryStepAccountsForEveryPiece := by
  unfold Obligations.EveryStepAccountsForEveryPiece
  intro s t accounted stepped
  exact t.piecesAccounted_iff.2 ((disciplined_parts True).keeps_step (s.piecesAccounted_iff.1 accounted) stepped)

end Sys2Proof.Machine
end

section
/-! PROOF. The spacing of the track queue (R18, R62) through every step. -/

namespace Sys2Proof.Machine

theorem SameSpacing.refl (s : State) : SameSpacing s s := by
  constructor <;> first | rfl | exact id

theorem spaced_tick {s : State} (h : SpacedAt 0 0 s) : SpacedAt 0 0 s.tick := by
  refine h.congr (disciplined_tick h.disc) ?_
  unfold State.tick
  split
  · exact .refl s
  · exact { SameSpacing.refl s with place := rfl }

theorem spaced_assertInhibit {s : State} (h : SpacedAt 0 0 s) : SpacedAt 0 0 s.assertInhibit :=
  h.congr (disciplined_assertInhibit h.disc)
    { knifeFrame_sameSpacing s.latchInhibit.truncatePulse_frame with }

theorem spaced_heartbeatExpiry {s : State} (running : s.jbc.hbTimer.isSome = true) (h : SpacedAt 0 0 s) :
    SpacedAt 0 0 s.heartbeatExpiry := by
  refine h.congr (disciplined_heartbeatExpiry h.disc running) ?_
  unfold State.heartbeatExpiry
  split <;> exact { SameSpacing.refl s with place := rfl }

theorem spaced_runSpeedWindowWrite (q : Request) (s : State) (h : SpacedAt 0 0 s) :
    SpacedAt 0 0 (State.runSpeedWindowWrite q s).1 := by
  unfold State.runSpeedWindowWrite
  split
  · rename_i fits
    have fits : q.value.toNat ≤ 3 := by simpa [JobField.inRange, JobField.low, JobField.high] using fits
    exact spaced_speedWindowWrite h fits rfl rfl rfl
  · exact h

theorem spaced_runJobStart (q : Request) (s : State) (h : SpacedAt 0 0 s) : SpacedAt 0 0 (State.runJobStart q s).1 := by
  unfold State.runJobStart
  split
  · exact h
  · rename_i idle
    split
    · exact h
    · rename_i checked
      exact spaced_startJob h.disc (not_not.1 idle) (passed_of_startRefusal checked)

theorem spaced_abortJob {s : State} (h : SpacedAt 0 0 s) : SpacedAt 0 0 s.abortJob :=
  spaced_flushed (disciplined_abortJob h.disc) (.inl rfl)

theorem spaced_runJobStop (q : Request) (s : State) (h : SpacedAt 0 0 s) : SpacedAt 0 0 (State.runJobStop q s).1 := by
  unfold State.runJobStop
  split
  · rename_i run
    exact h.congr (disciplined_beginDrain h.disc run) { SameSpacing.refl s with job := fun _ => .inl run }
  · exact spaced_abortJob h
  · exact h
  · exact h

theorem spaced_runJobAbort (q : Request) (s : State) (h : SpacedAt 0 0 s) : SpacedAt 0 0 (State.runJobAbort q s).1 := by
  unfold State.runJobAbort
  split
  · exact h
  · exact spaced_abortJob h

/-- A trim moves the entries to come alone (R41): the reach of R18 counts with all of it. -/
theorem spaced_runTrim (q : Request) (s : State) (h : SpacedAt 0 0 s) : SpacedAt 0 0 (State.runTrim q s).1 := by
  refine h.congr (disciplined_runTrim q s h.disc) ?_
  unfold State.runTrim
  split
  · exact { SameSpacing.refl s with place := rfl }
  · exact .refl s

theorem spaced_runWaste (q : Request) (s : State) (h : SpacedAt 0 0 s) : SpacedAt 0 0 (State.runWaste q s).1 := by
  refine h.congr (disciplined_runWaste q s h.disc) ?_
  unfold State.runWaste
  split
  · exact .refl s
  · split
    · exact .refl s
    · exact { SameSpacing.refl s with place := rfl }

theorem spaced_runReleaseStop (q : Request) (s : State) (h : SpacedAt 0 0 s) :
    SpacedAt 0 0 (State.runReleaseStop q s).1 := by
  refine h.congr (disciplined_runReleaseStop q s h.disc) ?_
  unfold State.runReleaseStop
  split
  · exact .refl s
  · exact { SameSpacing.refl s with place := rfl }

theorem spaced_work : KeptByWork (SpacedAt 0 0) where
  toKeptByTraffic := spaced_traffic
  row _ i r h := spaced_setRow h i r
  write q _ h := spaced_runWrite q h
  speedWindow := spaced_runSpeedWindowWrite
  start := spaced_runJobStart
  stop := spaced_runJobStop
  abort := spaced_runJobAbort
  trim := spaced_runTrim
  waste := spaced_runWaste
  release := spaced_runReleaseStop

theorem spaced_parts : KeptByParts (SpacedAt 0 0) where
  pending s l h := h.congr ((disciplined_parts False).pending s l h.disc) { SameSpacing.refl s with place := rfl }
  tick _ h := spaced_tick h
  encoder _ a b o h := spaced_encoderChange h a b o
  mark _ h := spaced_markEdge true h (Nat.zero_le 1)
  speedWindow _ h := spaced_windowEnd h
  inhibit _ h := spaced_assertInhibit h
  released s h := h.congr ((disciplined_parts False).released s h.disc) { SameSpacing.refl s with place := rfl }
  pulseEnd s h := h.congr ((disciplined_parts False).pulseEnd s h.disc) { SameSpacing.refl s with place := rfl }
  recoveryEnd s low h := h.congr ((disciplined_parts False).recoveryEnd s low h.disc) { SameSpacing.refl s with place := rfl }
  heartbeat _ running h := spaced_heartbeatExpiry running h
  status _ i h := spaced_traffic.lapse h i
  link _ h := spaced_traffic.linkExpiry h
  cell _ c h := spaced_traffic.receive h c
  slotEnd _ h := spaced_traffic.endOwnedSlot h
  request _ row h := spaced_traffic.startRequest h row _ (spaced_work.keeps_rowWork row)
  resetBegins s h := h.congr ((disciplined_parts False).resetBegins s h.disc) { SameSpacing.refl s with place := rfl }
  resetEnds s n i a b h := spaced_traffic.reset s n i a b h

/-- Settles O59: a spaced queue holds at most 128 entries, and the spacing is kept by each part of a step. -/
theorem aJobCannotFillTheTrackQueue : Obligations.AJobCannotFillTheTrackQueue := by
  unfold Obligations.AJobCannotFillTheTrackQueue
  refine ⟨fun s discipline spaced => spaced.length discipline, fun s t discipline spaced stepped => ?_⟩
  have kept := spaced_parts.keeps_step ((spacedAt_iff s).2 ⟨discipline, spaced⟩) stepped
  exact ((spacedAt_iff t).1 kept).2

end Sys2Proof.Machine
end

section
/-! PROOF. Steps, the clock, resets and the output lines (chapters 0 and 13; R12, R29, R176). -/

namespace Sys2Proof.Machine

/-! ### Steps and the clock -/

/-- Settles O1. -/
theorem stepRunsTheFrontCommand : Obligations.StepRunsTheFrontCommand := by
  unfold Obligations.StepRunsTheFrontCommand
  intro c rest s
  rfl

/-- While reset is held no time passes (log 11). -/
theorem State.tick_held {s : State} (held : s.resetHeld = true) : s.tick = s := if_pos held

/-- Settles O2: a step on an empty queue is `State.tick`, which `held` decides. -/
theorem emptyQueueLetsOneClockPeriodPass : Obligations.EmptyQueueLetsOneClockPeriodPass := by
  unfold Obligations.EmptyQueueLetsOneClockPeriodPass
  intro s empty
  have stepped : step s = .next s.tick := by simp only [step, empty]
  refine ⟨fun held => ?_, fun free => ?_⟩
  · rw [stepped, State.tick_held held]
  · rw [stepped, State.tick, if_neg (by simp [free])]
    rfl

/-- No command stops the part: each arm of `exec` answers a next state (log 21). -/
theorem exec_answers (c : Instr) (s : State) : ∃ t, exec c s = .next t := by
  cases c <;> exact ⟨_, rfl⟩

/-- Settles O3: by the command in front, or the clock period of an empty queue. -/
theorem everyStepAnswersANextState : Obligations.EveryStepAnswersANextState := by
  unfold Obligations.EveryStepAnswersANextState step
  intro s
  cases s.pending with
  | nil => exact ⟨s.tick, rfl⟩
  | cons c rest => exact exec_answers c { s with pending := rest }

/-! ### After a reset -/

/-- A reset gives every block the values that the tables list. -/
theorem State.afterReset_listed (node : BitVec 5) (inhibit a b : Bool) (s : State) :
    AfterReset node inhibit a b (s.afterReset node inhibit a b) where
  psu := ⟨rfl, rfl, rfl, rfl, rfl, rfl, rfl, rfl, rfl, rfl, rfl⟩
  mru := ⟨rfl, rfl, rfl, rfl, rfl, rfl, rfl, rfl, rfl, rfl⟩
  trc := ⟨rfl, rfl, rfl, rfl, rfl, rfl⟩
  ksq := ⟨rfl, rfl, rfl, rfl, rfl, rfl, rfl⟩
  gtu i := by
    simp only [State.afterReset, gtuAtReset, Lanes.get_all]
    exact ⟨trivial, fun c => by cases c <;> rfl, rfl⟩
  bsq i := by simp only [State.afterReset, Lanes.get_all, lanePlanAtReset]
  jbc := ⟨(by decide : jobTableAtReset.IsFresh), rfl, rfl, rfl, rfl, rfl, rfl, rfl, rfl, rfl, rfl⟩
  rif := ⟨rfl, rfl, rfl, rfl, rfl, rfl, rfl, rfl, rfl, rfl, rfl, rfl, rfl, rfl, rfl, rfl⟩
  mge := by
    refine ⟨rfl, rfl, rfl, rfl, rfl, rfl, fun i => ?_⟩
    simp only [State.afterReset, mgeAtReset, Lanes.get_all]
    exact ⟨fun c => by cases c <;> rfl, rfl, rfl⟩
  inhibitLine := rfl
  resetHeld := rfl

/-- The machine right after reset is one that a reset leaves, with the pins of log 5. -/
theorem State.reset_eq : State.reset.afterReset 5#5 false false false = State.reset := rfl

/-- Settles O4. -/
theorem resetStateHoldsTheListedValues : Obligations.ResetStateHoldsTheListedValues := by
  unfold Obligations.ResetStateHoldsTheListedValues
  exact ⟨State.reset.afterReset_listed 5#5 false false false, rfl⟩

/-- Settles O5: the rising edge of RST_N when reset is held, and no such edge when it is not. -/
theorem deviceResetEndGivesTheAfterResetState : Obligations.DeviceResetEndGivesTheAfterResetState := by
  unfold Obligations.DeviceResetEndGivesTheAfterResetState
  intro straps inhibit a b s
  refine ⟨fun held => ⟨s.afterReset straps inhibit a b, ?_, s.afterReset_listed straps inhibit a b, rfl, rfl, rfl⟩,
    fun free => ?_⟩
  · simp [exec, execDeviceResetEnd, held]
  · simp [exec, execDeviceResetEnd, free]

/-- Settles O56: a reset leaves what each invariant asks. -/
theorem resetMeetsTheInvariants : Obligations.ResetMeetsTheInvariants := by
  unfold Obligations.ResetMeetsTheInvariants
  have kept : WellKept State.reset := wellKept_afterReset 5#5 false false false State.reset
  have tallied : Disciplined True State.reset := disciplined_afterReset 5#5 false false false State.reset
  have spaced : SpacedAt 0 0 State.reset :=
    spaced_flushed (disciplined_afterReset 5#5 false false false State.reset) (.inl rfl)
  exact ⟨kept.1, kept.2, tallied.1, ((spacedAt_iff _).1 spaced).2, State.reset.piecesAccounted_iff.2 tallied⟩

/-! ### The output lines -/

/-- While reset is held every output is low (R176). -/
theorem State.outputs_held {s : State} (held : s.resetHeld = true) :
    s.knifeFire = false ∧ s.stopReq = false ∧ ∀ i, s.gateLine i = false := by
  simp [State.knifeFire, State.stopReq, State.gateLine, held]

/-- Settles O6. -/
theorem deviceResetAssertDrivesTheOutputsLow : Obligations.DeviceResetAssertDrivesTheOutputsLow := by
  unfold Obligations.DeviceResetAssertDrivesTheOutputsLow
  intro s
  exact ⟨s.assertReset, rfl, rfl, State.outputs_held rfl⟩

/-- Settles O8: the forcing conditions of R112, each alone, and none of them. -/
theorem outputLinesFollowTheirBlocks : Obligations.OutputLinesFollowTheirBlocks := by
  unfold Obligations.OutputLinesFollowTheirBlocks
  intro s i
  refine ⟨fun held => ?_, fun free => ⟨by simp [State.knifeFire, free], by simp [State.stopReq, free], ?_, ?_⟩⟩
  · obtain ⟨fire, stop, gates⟩ := State.outputs_held held
    exact ⟨fire, stop, gates i⟩
  · rintro (stop | idle | halt | unused)
    · simp [State.gateLine, stop]
    · simp [State.gateLine, State.jobActive, idle, JobState.active]
    · simp [State.gateLine, State.jobActive, halt, JobState.active]
    · simp [State.gateLine, State.laneUsed, unused]
  · rintro ⟨stop, working, used⟩
    have active : s.jobActive = true := (jobActive_iff s).2 working
    simp [State.gateLine, State.laneUsed, free, stop, active, used, beq_eq_decide]

/-! ### While reset is held (R176) -/

/-- A request does not start while reset is held. -/
theorem exec_rowCommand_held (row : StartRow) {s : State} (held : s.resetHeld = true) :
    exec (rowCommand row) s = .next s := by
  rw [exec_rowCommand, State.startRequest_cannot _ _ (by simp [State.canStart, held])]

/-- A cell that arrives while reset is held is repeated alone. -/
theorem exec_carriedCell_held {c : Instr} {cell : Cell} (carried : carriedCell c = some cell) {s : State}
    (held : s.resetHeld = true) : exec c s = .next (s.repeated cell) := by
  rw [exec_carriedCell carried, State.receive, if_pos held]
  rfl

/-- A command that is not taken while reset is held. -/
theorem unless_held {s u : State} (held : s.resetHeld = true) (g : Bool) :
    (.next (if s.resetHeld || g then s else u) : Host.Outcome State Fault Refusal) = .next s := by
  simp [held]

/-- Settles O7: by the kind of the command. -/
theorem heldResetOnlyRepeatsCells : Obligations.HeldResetOnlyRepeatsCells := by
  unfold Obligations.HeldResetOnlyRepeatsCells
  intro c s held noAssert noEnd
  cases carried : carriedCell c with
  | some cell => exact exec_carriedCell_held carried held
  | none =>
    cases c with
    | deviceResetAssert => exact absurd rfl noAssert
    | deviceResetEnd p k a b => exact absurd rfl (noEnd p k a b)
    | frameHeader | invalidHeader | badCheckCell | verdict | heartbeat | stackerStatus | mgmtRequest | cellRepeated
    | ownedSlotStart => exact nomatch carried
    | encoderTransition | markEdge | speedWindowExpiry | knifeInhibitReleased | slotEnd =>
      exact congrArg Host.Outcome.next (if_pos held)
    | knifeInhibitAsserted | pulseTimerExpiry | recoveryTimerExpiry | heartbeatTimerExpiry | statusTimerExpiry
    | linkTimerExpiry => exact unless_held held _
    | read => exact exec_rowCommand_held .read held
    | write => exact exec_rowCommand_held .write held
    | speedWindowWrite => exact exec_rowCommand_held .speedWindowWrite held
    | stackerNodeWrite => exact exec_rowCommand_held .stackerNodeWrite held
    | pocketWrite => exact exec_rowCommand_held .pocketWrite held
    | statusAgeLimitWrite => exact exec_rowCommand_held .statusAgeLimitWrite held
    | maskWrite => exact exec_rowCommand_held .maskWrite held
    | slotMapWrite => exact exec_rowCommand_held .slotMapWrite held
    | appendBatch => exact exec_rowCommand_held .appendBatch held
    | jobStart => exact exec_rowCommand_held .jobStart held
    | jobStop => exact exec_rowCommand_held .jobStop held
    | jobAbort => exact exec_rowCommand_held .jobAbort held
    | trim => exact exec_rowCommand_held .trim held
    | waste => exact exec_rowCommand_held .waste held
    | snapshot => exact exec_rowCommand_held .snapshot held
    | clearEvents => exact exec_rowCommand_held .clearEvents held
    | releaseStop => exact exec_rowCommand_held .releaseStop held
    | resetNode => exact exec_rowCommand_held .resetNode held
    | badOp => exact exec_rowCommand_held .badOp held

end Sys2Proof.Machine
end

section
/-! PROOF. Requests: when one starts and what its checks answer (R161, R162), and the work of a started one as the answer it
gives. -/

namespace Sys2Proof.Machine

/-! ### A request that is started and passes its checks -/

/-- The head request gone from the queue. -/
def State.popped (s : State) (rest : List Request) : State := { s with mge := { s.mge with requests := rest } }

theorem State.Starts.popRequest_eq {s : State} {q : Request} {rest : List Request} (start : s.Starts q rest) :
    s.popRequest = s.popped rest := by
  rw [State.popRequest, start.queue]
  rfl

/-- The head request `q` is started by the command of its row and passes every check. -/
structure State.Admits (s : State) (q : Request) (rest : List Request) (row : StartRow) : Prop where
  start : s.Starts q rest
  row : q.startRow = row
  check : s.requestCheck q = none

namespace State.Admits

variable {s u : State} {q : Request} {rest : List Request} {row : StartRow} {r : Result} {v : BitVec 32}
  (admits : s.Admits q rest row)
include admits

theorem exec_eq : exec (rowCommand row) s =
    .next ((rowWork row q (s.popped rest)).1.queueReply q (rowWork row q (s.popped rest)).2) := by
  rw [exec_rowCommand, State.startRequest_passes admits.start admits.row admits.check, admits.start.popRequest_eq]

/-- Work that answers a value: its state, and the reply at the end of the reply queue. -/
theorem answers (work : rowWork row q (s.popped rest) = (u, ⟨r, some v⟩)) :
    exec (rowCommand row) s = .next { u with rif := { u.rif with replies := u.rif.replies ++ [q.reply r v] } } := by
  rw [admits.exec_eq, work]
  rfl

/-- Work that leaves the machine as it was and answers a value. -/
theorem answersAlone (work : rowWork row q (s.popped rest) = (s.popped rest, ⟨r, some v⟩)) :
    exec (rowCommand row) s = .next (s.answered rest (q.reply r v)) :=
  admits.answers work

/-- Work that refuses, by a rule that states no value (log 6). -/
theorem refusesFreely (work : rowWork row q (s.popped rest) = (s.popped rest, .refused r)) :
    RefusedFreely s q rest r (exec (rowCommand row) s) := by
  refine ⟨Config.refusalValue s.draws, ?_⟩
  rw [admits.exec_eq, work]
  rfl

end State.Admits

/-- A request of an op other than READ and WRITE, from a node that may command. -/
theorem State.admits_command {s : State} {q : Request} {rest : List Request} {row : StartRow} {op : Op}
    (start : s.Starts q rest) (may : s.MayCommand q) (code : opOf q.op = some op) (noRead : op ≠ .read)
    (noWrite : op ≠ .write) (hrow : q.startRow = row) : s.Admits q rest row :=
  ⟨start, hrow, State.requestCheck_other code noRead noWrite (.inr may)⟩

/-- A WRITE to a valid address that is not read-only, from a node that may command. -/
theorem State.admits_write {s : State} {q : Request} {rest : List Request} (start : s.Starts q rest) (may : s.MayCommand q)
    (op : q.op = 0x02#8) (valid : validAddress q.table q.row q.field = true)
    (writable : readOnlyAddress q.table q.field = false) : s.Admits q rest (writeRow q.table q.row q.field) := by
  refine ⟨start, Request.startRow_write op, ?_⟩
  rw [State.requestCheck_write op may valid]
  simp [writable]

/-! ### The checks of R162 -/

/-- The twelve op codes are those that name an operation. -/
theorem opOf_eq_none_iff (b : Byte) : opOf b = none ↔ b ∉ knownOps := by
  unfold opOf knownOps
  simp only [List.mem_cons, List.not_mem_nil, or_false, ← BitVec.toNat_inj]
  split <;> simp_all

/-- The two operations open to every node are READ and SNAPSHOT. -/
theorem opOf_open_iff (b : Byte) : (opOf b = some .read ∨ opOf b = some .snapshot) ↔ b ∈ openOps := by
  unfold opOf openOps
  simp only [List.mem_cons, List.not_mem_nil, or_false, ← BitVec.toNat_inj]
  split <;> simp_all

theorem State.requestCheck_badOp (s : State) {q : Request} (unknown : q.op ∉ knownOps) : s.requestCheck q = some .badOp := by
  simp [State.requestCheck, (opOf_eq_none_iff q.op).2 unknown]

theorem State.requestCheck_access {s : State} {q : Request} (known : q.op ∈ knownOps) (closed : q.op ∉ openOps)
    (mayNot : ¬ s.MayCommand q) : s.requestCheck q = some .access := by
  cases code : opOf q.op with
  | none => exact absurd known ((opOf_eq_none_iff q.op).1 code)
  | some op =>
    have open_ := mt (opOf_open_iff q.op).1 closed
    simp only [code, Option.some.injEq, not_or] at open_
    have barred := not_not.1 (mt (s.mayCommand_iff q).2 mayNot)
    simp only [State.requestCheck, code]
    exact if_pos ⟨open_.1, open_.2, barred⟩

theorem State.requestCheck_address {s : State} {q : Request} (op : q.op = 0x01#8 ∨ q.op = 0x02#8 ∧ s.MayCommand q)
    (invalid : ¬ ValidAddress q.a6.toNat q.a7.toNat q.a8.toNat) : s.requestCheck q = some .address := by
  have bad : validAddress q.table q.row q.field = false := Bool.eq_false_iff.2 (mt (validAddress_iff _ _ _).1 invalid)
  obtain read | ⟨write, may⟩ := op
  · have code : opOf q.op = some .read := by rw [read]; rfl
    simp [State.requestCheck, code, bad]
  · have code : opOf q.op = some .write := by rw [write]; rfl
    have passes := (s.mayCommand_iff q).1 may
    simp only [State.requestCheck, code]
    rw [if_neg fun h => passes h.2.2, if_pos (by simp [bad])]

/-- The read-only addresses: the tables 3, 4 and 5, and field 0 of the tables 6 and 7 (R162). -/
theorem Request.readOnly {q : Request} (h : q.a6 ∈ [3, 4, 5] ∨ q.a6 ∈ [6, 7] ∧ q.a8 = 0) :
    readOnlyAddress q.table q.field = true := by
  simp only [List.mem_cons, List.not_mem_nil, or_false] at h
  obtain (table | table | table) | ⟨table | table, field⟩ := h <;>
    simp [readOnlyAddress, Request.table, Request.field, *]

/-- Settles O53: each check is the first of R162 to fail, and a failed check answers with value 0. -/
theorem failedChecksAnswerInOrder : Obligations.FailedChecksAnswerInOrder := by
  unfold Obligations.FailedChecksAnswerInOrder
  intro s q rest start
  have answers : ∀ r, s.requestCheck q = some r →
      exec (rowCommand q.startRow) s = .next (s.answered rest (q.reply r 0)) := fun r failed => by
    rw [exec_rowCommand, State.startRequest_fails start rfl failed]
  refine ⟨fun unknown => ?_, fun known closed mayNot => answers _ (State.requestCheck_access known closed mayNot),
    fun op invalid => answers _ (State.requestCheck_address op invalid), fun op may valid readOnly => answers _ ?_⟩
  · have row : q.startRow = .badOp := by simp [Request.startRow, (opOf_eq_none_iff q.op).2 unknown]
    have answered := answers _ (s.requestCheck_badOp unknown)
    rw [row] at answered
    exact ⟨row, answered⟩
  · rw [State.requestCheck_write op may ((validAddress_iff _ _ _).2 valid), if_pos (Request.readOnly readOnly)]

/-- Settles O54: each condition alone keeps the head request from its start. -/
theorem requestsWaitForRoomAndTheirTurn : Obligations.RequestsWaitForRoomAndTheirTurn := by
  unfold Obligations.RequestsWaitForRoomAndTheirTurn
  intro row s waits
  have cannot : s.canStart = false → exec (rowCommand row) s = .next s := fun h => by
    rw [exec_rowCommand, State.startRequest_cannot _ _ h]
  obtain held | resetPending | full | empty | ⟨q, head, otherRow⟩ := waits
  · exact cannot (by simp [State.canStart, held])
  · exact cannot (by simp [State.canStart, resetPending])
  · exact cannot (by simp [State.canStart, replyQueueSize, Nat.not_lt.2 full])
  · rw [exec_rowCommand, State.startRequest]
    simp [empty]
  · rw [exec_rowCommand, State.startRequest]
    cases queue : s.mge.requests with
    | nil => rfl
    | cons q' rest =>
      obtain rfl : q' = q := by simpa [queue] using head
      simp [otherRow]

/-! ### SNAPSHOT, CLEAR_EVENTS, RESET_NODE (R166, R170, R172) -/

/-- Settles O52. -/
theorem snapshotClearEventsAndResetNode : Obligations.SnapshotClearEventsAndResetNode := by
  unfold Obligations.SnapshotClearEventsAndResetNode
  intro s q rest start
  refine ⟨fun op => ?_, fun op may => ?_, fun op may idle => ?_, fun op may busy => ?_⟩
  · have code : opOf q.op = some .snapshot := by rw [op]; rfl
    have admits : s.Admits q rest .snapshot :=
      ⟨start, by simp [Request.startRow, code],
        State.requestCheck_other code (by decide) (by decide) (.inl rfl)⟩
    exact admits.answers rfl
  · have code : opOf q.op = some .clearEvents := by rw [op]; rfl
    have admits : s.Admits q rest .clearEvents :=
      State.admits_command start may code (by decide) (by decide) (by simp [Request.startRow, code])
    have argument : q.argument = q.a6 ++ q.a7 ++ q.a8 ++ q.a9 := BitVec.append_assoc'.trans (BitVec.cast_eq _ _)
    rw [← argument]
    exact admits.answers rfl
  all_goals
    have code : opOf q.op = some .resetNode := by rw [op]; rfl
    have admits : s.Admits q rest .resetNode :=
      State.admits_command start may code (by decide) (by decide) (by simp [Request.startRow, code])
  · exact admits.answers (u := { s.popped rest with mge := { (s.popped rest).mge with resetPending := true } })
      (if_pos idle)
  · exact admits.refusesFreely (if_neg busy)

/-! ### APPEND_BATCH (R120, R121) -/

theorem Request.appendArgs_bounds (q : Request) : q.appendArgs.target ≤ 65535 ∧ q.appendArgs.tag ≤ 65535 :=
  ⟨Nat.le_of_lt_succ (word16 q.a7 q.a8).isLt, Nat.le_of_lt_succ (word16 q.a9 q.a10).isLt⟩

/-- The batch of in-range arguments (R119). -/
theorem Request.appendArgs_batch (q : Request) : q.appendArgs.batch =
    { target := (q.a7 ++ q.a8 : BitVec 16).toNat, mode := if q.a11 = 1 then .flag else .gap
      gap := q.a12.toNat, tag := q.a9 ++ q.a10, loop := decide (q.a13 = 1) } := by
  have one : ∀ b : Byte, b.toNat = 1 ↔ b = 1 := fun b => by rw [← BitVec.toNat_inj]; rfl
  simp [AppendArgs.batch, Request.appendArgs, word16, one, beq_eq_decide]

/-- With room for a sixteenth entry the batch joins its lane's list at the tail (R120). -/
theorem State.runAppendBatch_joins {q : Request} (inRange : q.appendArgs.firstOutOfRange = none) {s : State}
    (room : (s.bsq.get (laneOf q.a6.toNat)).batches.length < 16) : s.runAppendBatch q =
      (s.setPlan (laneOf q.a6.toNat) { s.bsq.get (laneOf q.a6.toNat) with
        batches := (s.bsq.get (laneOf q.a6.toNat)).batches ++ [q.appendArgs.batch] },
       .ok (BitVec.ofNat 32 ((s.bsq.get (laneOf q.a6.toNat)).batches.length + 1))) := by
  simp only [State.runAppendBatch, inRange]
  exact if_neg (Nat.not_le.2 room)

/-- Settles O51: the first argument out of range, else room for a sixteenth entry, else the batch at the tail. -/
theorem appendBatchJoinsTheLanesList : Obligations.AppendBatchJoinsTheLanesList := by
  unfold Obligations.AppendBatchJoinsTheLanesList
  intro s q rest start may op
  have code : opOf q.op = some .appendBatch := by rw [op]; rfl
  have admits : s.Admits q rest .appendBatch :=
    State.admits_command start may code (by decide) (by decide) (by simp [Request.startRow, code])
  obtain ⟨target, tag⟩ := q.appendArgs_bounds
  have inRange : q.AppendFits → q.appendArgs.firstOutOfRange = none :=
    (AppendArgs.firstOutOfRange_none q.appendArgs target tag).2
  refine ⟨fun k fault => ?_, fun fits full => ?_, fun fits room => ?_⟩
  · have first : q.appendArgs.firstOutOfRange = some k :=
      (AppendArgs.firstOutOfRange_some q.appendArgs k target tag).2 fault
    exact admits.answersAlone (by simp only [rowWork, State.runAppendBatch, first]; rfl)
  · refine admits.answersAlone ?_
    simp only [rowWork, State.runAppendBatch, inRange fits, batchListSize]
    exact if_pos full
  · rw [← Request.appendArgs_batch]
    exact admits.answers (State.runAppendBatch_joins (inRange fits) room)

end Sys2Proof.Machine
end

section
/-! PROOF. READ and WRITE by table (R13, R115, R123, R153, R158, R163, R165; 11.3, 11.5). -/

namespace Sys2Proof.Machine

/-! ### READ (R163, R165) -/

theorem bit32_eq_flagWord (b : Bool) : bit32 b = flagWord b := rfl

/-- The job table in the words of 2.1 is the table read field by field. -/
theorem JobTable.fields_eq (t : JobTable) : t.fields = jobFields.map fun f => BitVec.ofInt 32 (t.get f) := by
  simp [JobTable.fields, jobFields, JobTable.get]

theorem LaneRow.fields_eq (r : LaneRow) : r.fields = (List.range 5).map r.read := rfl

theorem Batch.fields_eq (b : Batch) : b.fields = (List.range 5).map b.read := rfl

theorem countFields_eq (r : SnapRow) : countFields r.tally r.count r.stacksDone = (List.range 12).map r.read := rfl

/-- The STATUS table is the machine read field by field (11.5). -/
theorem State.statusFields_eq (s : State) : s.statusFields = (List.range 24).map s.readStatus := by
  have oldest : (s.trc.queue.head?).elim s.trc.nextRsn Entry.rsn = s.trc.oldestRsn := by
    unfold Trc.oldestRsn
    cases s.trc.queue <;> rfl
  have link : bit32 (s.rif.link == .up) = BitVec.ofNat 32 s.rif.link.code := by
    cases s.rif.link <;> rfl
  rw [State.statusFields, oldest, link]
  rfl

/-- What a list read field by field holds at a field's number. -/
theorem read_of_range {n k : Nat} {read : Nat → BitVec 32} {v : BitVec 32} (h : ((List.range n).map read)[k]? = some v) :
    k < n ∧ read k = v := by
  simpa [List.getElem?_map, List.getElem?_range', List.getElem?_eq_some_iff] using h

/-- A list that is empty unless `c` holds has a value at a field only where `c` holds. -/
theorem getElem?_of_unless_nil {c : Prop} [Decidable c] {l : List (BitVec 32)} {k : Nat} {v : BitVec 32}
    (h : (if c then l else [])[k]? = some v) : c ∧ l[k]? = some v := by
  split at h
  · exact ⟨by assumption, h⟩
  · simp at h

/-- A field of an address that exists is valid, and is what READ finds there. -/
theorem State.readAddress_of_fieldsAt {s : State} {table row field : Nat} {v : BitVec 32}
    (h : (s.fieldsAt table row)[field]? = some v) :
    ValidAddress table row field ∧ s.readAddress table row field = some v := by
  unfold State.fieldsAt at h
  split at h
  · obtain ⟨row0, h⟩ := getElem?_of_unless_nil h
    rw [JobTable.fields_eq, List.getElem?_map] at h
    obtain ⟨f, hf, rfl⟩ := Option.map_eq_some_iff.1 h
    have below : field < 22 := (List.getElem?_eq_some_iff.1 hf).1
    exact ⟨.inl ⟨rfl, row0, by omega⟩, by simp [State.readAddress, hf]⟩
  · obtain ⟨rows, h⟩ := getElem?_of_unless_nil h
    obtain ⟨below, rfl⟩ := read_of_range (LaneRow.fields_eq _ ▸ h)
    exact ⟨by unfold ValidAddress; omega, rfl⟩
  · obtain ⟨rows, h⟩ := getElem?_of_unless_nil h
    split at h
    · rename_i b slot
      obtain ⟨below, rfl⟩ := read_of_range (Batch.fields_eq _ ▸ h)
      exact ⟨by unfold ValidAddress; omega, by simp [State.readAddress, State.batchAt, slot]⟩
    · simp at h
  · obtain ⟨rows, h⟩ := getElem?_of_unless_nil h
    obtain ⟨below, rfl⟩ := read_of_range (countFields_eq (s.countRow (laneOf row)) ▸ h)
    exact ⟨by unfold ValidAddress; omega, rfl⟩
  · split at h
    · rename_i row0
      obtain ⟨below, rfl⟩ := read_of_range (n := 1) (read := fun _ => s.mge.gen.zeroExtend 32) h
      exact ⟨by unfold ValidAddress; omega, by simp [State.readAddress, row0]⟩
    · rename_i later
      obtain ⟨rows, h⟩ := getElem?_of_unless_nil h
      obtain ⟨below, rfl⟩ := read_of_range (countFields_eq _ ▸ h)
      exact ⟨by unfold ValidAddress; omega, by simp [State.readAddress, later]⟩
  · obtain ⟨row0, h⟩ := getElem?_of_unless_nil h
    obtain ⟨below, rfl⟩ := read_of_range (s.statusFields_eq ▸ h)
    exact ⟨by unfold ValidAddress; omega, rfl⟩
  · obtain ⟨row0, h⟩ := getElem?_of_unless_nil h
    obtain ⟨below, rfl⟩ := read_of_range (n := 8) (read := s.rif.readRing) h
    exact ⟨by unfold ValidAddress; omega, rfl⟩
  · obtain ⟨row0, h⟩ := getElem?_of_unless_nil h
    obtain ⟨below, rfl⟩ := read_of_range (n := 2) (read := fun k => if k = 0 then s.mge.flags else s.mge.mask) h
    exact ⟨by unfold ValidAddress; omega, rfl⟩
  · simp at h

/-- A READ of a valid address is admitted, whatever node sends it. -/
theorem State.admits_read {s : State} {q : Request} {rest : List Request} (start : s.Starts q rest) (op : q.op = 0x01#8)
    (valid : ValidAddress q.a6.toNat q.a7.toNat q.a8.toNat) : s.Admits q rest .read :=
  ⟨start, Request.startRow_read op, s.requestCheck_read op ((validAddress_iff _ _ _).2 valid)⟩

/-- Settles O45: the value held where the address has one, ADDRESS for a batch slot beyond its list. -/
theorem readAnswersTheValueHeld : Obligations.ReadAnswersTheValueHeld := by
  unfold Obligations.ReadAnswersTheValueHeld
  intro s q rest start op
  refine ⟨fun v held => ?_, fun table row field beyond => ?_⟩
  · obtain ⟨valid, read⟩ := State.readAddress_of_fieldsAt held
    have found : (s.popped rest).readAddress q.table q.row q.field = some v := read
    refine (State.admits_read start op valid).answersAlone ?_
    simp only [rowWork, State.runRead, found]
    rfl
  · have valid : ValidAddress q.a6.toNat q.a7.toNat q.a8.toNat := .inr (.inr (.inl ⟨by rw [table]; rfl, row, field⟩))
    refine (State.admits_read start op valid).refusesFreely ?_
    have none : (s.popped rest).readAddress q.table q.row q.field = none := by
      have slot := List.getElem?_eq_none beyond
      simp [State.readAddress, Request.table, Request.row, table, State.batchAt, State.popped, slot]
    simp only [rowWork, State.runRead, none]

/-! ### WRITE: the row it starts (11.3, log 23) -/

/-- A WRITE to a valid, writable address is admitted under the row of the field it addresses. -/
theorem State.admits_writeRow {s : State} {q : Request} {rest : List Request} {row : StartRow} (start : s.Starts q rest)
    (may : s.MayCommand q) (op : q.op = 0x02#8) (valid : ValidAddress q.a6.toNat q.a7.toNat q.a8.toNat)
    (writable : readOnlyAddress q.a6.toNat q.a8.toNat = false) (hrow : writeRow q.a6.toNat q.a7.toNat q.a8.toNat = row) :
    s.Admits q rest row :=
  hrow ▸ State.admits_write start may op ((validAddress_iff _ _ _).2 valid) writable

/-! ### The job table (R13) -/

/-- The ranges of 2.1 are those that the fields carry. -/
theorem jobRanges_eq : jobRanges = jobFields.map fun f => (f.low, f.high) := by decide

/-- CUT_OFFSET is field 4, and no other is. -/
theorem jobFields_cutOffset {n : Nat} {f : JobField} (h : jobFields[n]? = some f) : f = .cutOffset ↔ n = 4 := by
  have distinct : jobFields.Nodup := by decide
  obtain ⟨below, -⟩ := List.getElem?_eq_some_iff.1 h
  constructor
  · rintro rfl
    exact (List.getElem?_inj below distinct).1 (h.trans (by decide : some JobField.cutOffset = jobFields[4]?))
  · rintro rfl
    exact (Option.some.inj h).symm

theorem JobTable.get_set_other (t : JobTable) (v : Int) {f f' : JobField} (other : f' ≠ f) :
    (t.set v f).get f' = t.get f' := by
  cases f <;> cases f' <;> first | rfl | exact absurd rfl other

/-- A field other than CUT_OFFSET holds no negative value. -/
theorem JobTable.get_set_same (t : JobTable) {v : Int} {f : JobField} (h : f = .cutOffset ∨ 0 ≤ v) :
    (t.set v f).get f = v := by
  obtain rfl | nonneg := h
  · rfl
  · cases f <;> first | rfl | exact Int.toNat_of_nonneg nonneg

theorem JobField.valueOf_nonneg (f : JobField) (v : BitVec 32) : f = .cutOffset ∨ 0 ≤ f.valueOf v := by
  unfold JobField.valueOf
  split
  · exact .inl (by assumption)
  · exact .inr (Int.natCast_nonneg _)

/-- A WRITE to the job table but SPEED_WINDOW is the work of the row WRITE. -/
theorem Request.runWrite_job {q : Request} {f : JobField} (table : q.a6 = 0) (field : jobFields[q.a8.toNat]? = some f)
    (s : State) : s.runWrite q = s.writeJob f q.writeValue := by
  simp [State.runWrite, Request.table, Request.field, table, field, Request.value_eq_writeValue]

/-- R13: outside IDLE the field is not written. -/
theorem State.writeJob_busy {s : State} {f : JobField} {v : BitVec 32} (busy : s.jbc.job ≠ .idle) :
    s.writeJob f v = (s, .refused .state) :=
  if_pos busy

theorem State.writeJob_beyond {s : State} {f : JobField} {v : BitVec 32} (idle : s.jbc.job = .idle)
    (beyond : ¬ f.inRange (f.valueOf v) = true) : s.writeJob f v = (s, .refused .range) := by
  simp [State.writeJob, idle, beyond]

theorem State.writeJob_stores {s : State} {f : JobField} {v : BitVec 32} (idle : s.jbc.job = .idle)
    (inside : f.inRange (f.valueOf v) = true) :
    s.writeJob f v = ({ s with jbc := { s.jbc with table := s.jbc.table.set (f.valueOf v) f } }, .ok v) := by
  simp [State.writeJob, idle, inside]

/-- The four lengths of a speed window are the powers of 2. -/
theorem windowMsOf_eq {n : Nat} (h : n ≤ 3) : windowMsOf n = 2 ^ n := by
  interval_cases n <;> rfl

/-- R10: SPEED_WINDOW is stored in every job state, and a new window of the written length begins. -/
theorem State.runSpeedWindowWrite_stores {s : State} {q : Request} (inside : q.value.toNat ≤ 3) :
    s.runSpeedWindowWrite q =
      ({ s with jbc := { s.jbc with table := { s.jbc.table with speedWindow := q.value.toNat } }
                psu := { s.psu with windowCount := 0, windowMs := 2 ^ q.value.toNat, windowAge := 0 } }, .ok q.value) := by
  rw [← windowMsOf_eq inside]
  exact if_pos (by simp [JobField.inRange, JobField.low, JobField.high, inside])

/-- Settles O46: field by field, and SPEED_WINDOW by its own row. -/
theorem jobTableIsWrittenInIdle : Obligations.JobTableIsWrittenInIdle := by
  unfold Obligations.JobTableIsWrittenInIdle
  intro s q rest f range start may op table row field hrange
  have below : q.a8.toNat < 22 := (List.getElem?_eq_some_iff.1 field).1
  have zero6 : q.a6.toNat = 0 := by rw [table]; rfl
  have zero7 : q.a7.toNat = 0 := by rw [row]; rfl
  have valid : ValidAddress q.a6.toNat q.a7.toNat q.a8.toNat := .inl ⟨zero6, zero7, by omega⟩
  have writable : readOnlyAddress q.a6.toNat q.a8.toNat = false := by rw [zero6]; rfl
  refine ⟨fun notWindow => ?_, fun window => ?_⟩
  · have number : q.a8.toNat ≠ 15 := fun h => notWindow (BitVec.eq_of_toNat_eq h)
    have admits : s.Admits q rest .write :=
      State.admits_writeRow start may op valid writable (by simp [writeRow, zero6, number])
    have work : ∀ u : State, rowWork .write q u = u.writeJob f q.writeValue := Request.runWrite_job table field
    have value : f.valueOf q.writeValue = q.jobValue := by
      have cut : f = .cutOffset ↔ q.a8 = 4 := (jobFields_cutOffset field).trans
        ⟨fun h => BitVec.eq_of_toNat_eq (h : q.a8.toNat = (4 : Byte).toNat), fun h => by rw [h]; rfl⟩
      simp [JobField.valueOf, Request.jobValue, cut]
    have limits : range = (f.low, f.high) := by
      rw [jobRanges_eq, List.getElem?_map, field] at hrange
      exact (Option.some.inj hrange).symm
    have inRange : f.inRange (f.valueOf q.writeValue) = true ↔ range.1 ≤ q.jobValue ∧ q.jobValue ≤ range.2 := by
      simp [JobField.inRange, value, limits]
    refine ⟨fun busy => ?_, fun idle beyond => ?_, fun idle low high => ?_⟩
    · exact admits.refusesFreely ((work _).trans (State.writeJob_busy busy))
    · exact admits.refusesFreely ((work _).trans (State.writeJob_beyond idle (mt inRange.1 beyond)))
    · refine ⟨s.jbc.table.set q.jobValue f, ?_, ?_, fun f' other => JobTable.get_set_other _ _ other⟩
      · rw [← value]
        exact admits.answers ((work _).trans (State.writeJob_stores idle (inRange.2 ⟨low, high⟩)))
      · exact JobTable.get_set_same _ (value ▸ f.valueOf_nonneg q.writeValue)
  · have number : q.a8.toNat = 15 := by rw [window]; rfl
    have admits : s.Admits q rest .speedWindowWrite := State.admits_writeRow start may op valid writable (by
      rw [zero6, zero7, number]; rfl)
    rw [← Request.value_eq_writeValue]
    refine ⟨fun beyond => ?_, fun inside => ?_⟩
    · refine admits.refusesFreely (if_neg ?_)
      simpa [JobField.inRange, JobField.low, JobField.high] using beyond
    · exact admits.answers (State.runSpeedWindowWrite_stores inside)

end Sys2Proof.Machine
end

section
/-! PROOF. WRITE to the lane table, the batch table and the ring table (R115, R116, R123, R131, R133, R153, R158). -/

namespace Sys2Proof.Machine

/-- A byte is known by its number. -/
theorem byte_toNat_eq_iff (b : Byte) {n : Nat} (small : n < 256) : b.toNat = n ↔ b = BitVec.ofNat 8 n := by
  rw [← BitVec.toNat_inj, BitVec.toNat_ofNat, Nat.mod_eq_of_lt small]

/-! ### ENABLE and NI_POLICY (R115) -/

theorem Request.runWrite_lane {q : Request} (table : q.a6 = 1) (s : State) :
    s.runWrite q = s.writeLane (laneOf q.a7.toNat) q.a8.toNat q.writeValue := by
  simp [State.runWrite, Request.table, Request.field, Request.row, table, Request.value_eq_writeValue]

theorem State.writeLane_beyond {s : State} {i : Lane} {field : Nat} {v : BitVec 32} (beyond : 1 < v.toNat) :
    s.writeLane i field v = (s, .refused .range) :=
  if_pos beyond

theorem State.writeLane_stores {s : State} {i : Lane} {field : Nat} {v : BitVec 32} (inside : v.toNat ≤ 1) :
    s.writeLane i field v =
      (s.setRow i (if field = 0 then { s.gtu.table.get i with enable := decide (v = 1) }
        else { s.gtu.table.get i with niPolicy := if v = 1 then .reject else .accept }), .ok v) := by
  unfold State.writeLane
  rw [if_neg (Nat.not_lt.2 inside)]
  split <;> simp [beq_eq_decide]

/-! ### A batch entry (R123) -/

theorem Request.runWrite_batch {q : Request} (table : q.a6 = 2) (s : State) :
    s.runWrite q = s.writeBatch q.a7.toNat q.a8.toNat q.writeValue.toNat := by
  simp [State.runWrite, Request.table, Request.field, Request.row, table, Request.value_eq_writeValue]

theorem State.writeBatch_busy {s : State} {row field v : Nat} (busy : s.jbc.job ≠ .idle) :
    s.writeBatch row field v = (s, .refused .state) :=
  if_pos busy

theorem State.writeBatch_noSlot {s : State} {row field v : Nat} (idle : s.jbc.job = .idle)
    (noSlot : (s.bsq.get (laneOf (row / 16))).batches[row % 16]? = none) :
    s.writeBatch row field v = (s, .refused .address) := by
  simp [State.writeBatch, idle, noSlot]

/-- A value fits a batch field: in the field's range, and a TARGET of slot 0 above BATCH_COUNT (R119, R123). -/
def LanePlan.fits (plan : LanePlan) (slot field v : Nat) : Bool :=
  batchInRange field v && !(field == 0 && slot == 0 && decide (v ≤ plan.count))

theorem State.writeBatch_unfit {s : State} {row field v : Nat} {b : Batch} (idle : s.jbc.job = .idle)
    (slot : (s.bsq.get (laneOf (row / 16))).batches[row % 16]? = some b)
    (unfit : (s.bsq.get (laneOf (row / 16))).fits (row % 16) field v = false) :
    s.writeBatch row field v = (s, .refused .range) := by
  have bad : (!batchInRange field v || (field == 0 && row % 16 == 0 &&
      decide (v ≤ (s.bsq.get (laneOf (row / 16))).count))) = true := by
    rw [← Bool.not_not (field == 0 && _ && _), ← Bool.not_and]
    exact congrArg (!·) unfit
  simp only [State.writeBatch, idle, slot]
  exact (if_neg (by simp)).trans (if_pos bad)

/-- A field of a batch entry as `writtenBatch` writes it. -/
theorem Batch.write_eq (b : Batch) {field v : Nat} (known : field ≤ 4) : b.write field v = writtenBatch b field v := by
  interval_cases field <;> simp [Batch.write, writtenBatch, beq_eq_decide]

theorem State.writeBatch_stores {s : State} {row field v : Nat} {b : Batch} (idle : s.jbc.job = .idle) (known : field ≤ 4)
    (slot : (s.bsq.get (laneOf (row / 16))).batches[row % 16]? = some b)
    (fits : (s.bsq.get (laneOf (row / 16))).fits (row % 16) field v = true) :
    s.writeBatch row field v =
      (s.setPlan (laneOf (row / 16)) { s.bsq.get (laneOf (row / 16)) with
          batches := (s.bsq.get (laneOf (row / 16))).batches.set (row % 16) (writtenBatch b field v) },
        .ok (BitVec.ofNat 32 v)) := by
  have good : ¬ (!batchInRange field v || (field == 0 && row % 16 == 0 &&
      decide (v ≤ (s.bsq.get (laneOf (row / 16))).count))) = true := by
    simp only [LanePlan.fits, Bool.and_eq_true, Bool.not_eq_true'] at fits
    simp [fits]
  simp only [State.writeBatch, idle, slot, ← b.write_eq known]
  exact (if_neg (by simp)).trans (if_neg good)

/-- The model's test of a batch value is that of R119 and R123. -/
theorem State.batchValueFits_iff (s : State) {q : Request} (known : q.a8.toNat ≤ 4) :
    s.BatchValueFits q ↔ (s.batchPlan q).fits (q.a7.toNat % 16) q.a8.toNat q.writeValue.toNat = true := by
  have number : ∀ n < 256, q.a8 = BitVec.ofNat 8 n ↔ q.a8.toNat = n := fun n small => (byte_toNat_eq_iff q.a8 small).symm
  have zero := number 0 (by decide)
  have one := number 1 (by decide)
  have two := number 2 (by decide)
  have three := number 3 (by decide)
  have four := number 4 (by decide)
  unfold State.BatchValueFits
  generalize q.a8.toNat = field at *
  interval_cases field <;> simp_all [LanePlan.fits, batchInRange, and_assoc, imp_iff_not_or]

/-! ### MANAGER_NODE, RECORD_DEST and NOTICE_DEST (R158) -/

theorem Request.runWrite_ring {q : Request} (table : q.a6 = 6) (s : State) :
    s.runWrite q = s.writeRing q.a8.toNat q.writeValue := by
  simp [State.runWrite, Request.table, Request.field, table, Request.value_eq_writeValue]

theorem destInRange_iff (v : Nat) : destInRange v = true ↔ v ≤ 31 ∨ v = 255 := by
  simp [destInRange]

theorem State.writeRing_manager {s : State} {v : BitVec 32} (inside : v.toNat ≤ 31) :
    s.writeRing 5 v = ({ s with rif := { s.rif with managerNode := v.setWidth 5 } }, .ok v) :=
  if_pos inside

theorem State.writeRing_manager_beyond {s : State} {v : BitVec 32} (beyond : 31 < v.toNat) :
    s.writeRing 5 v = (s, .refused .range) :=
  if_neg (Nat.not_le.2 beyond)

theorem State.writeRing_dest {s : State} {field : Nat} {v : BitVec 32} (dest : field = 6 ∨ field = 7)
    (inside : destInRange v.toNat = true) :
    s.writeRing field v = ({ s with rif := { s.rif with
      recordDest := if field = 6 then v.setWidth 8 else s.rif.recordDest
      noticeDest := if field = 7 then v.setWidth 8 else s.rif.noticeDest } }, .ok v) := by
  obtain rfl | rfl := dest <;> simp [State.writeRing, inside]

theorem State.writeRing_dest_beyond {s : State} {field : Nat} {v : BitVec 32} (dest : field = 6 ∨ field = 7)
    (beyond : ¬ destInRange v.toNat = true) : s.writeRing field v = (s, .refused .range) := by
  obtain rfl | rfl := dest <;> simp [State.writeRing, beyond]

/-- Settles O47, table by table. -/
theorem otherTablesAreWrittenUnderTheirRules : Obligations.OtherTablesAreWrittenUnderTheirRules := by
  unfold Obligations.OtherTablesAreWrittenUnderTheirRules
  intro s q rest start may op
  refine ⟨fun table row field => ?_, fun table row field => ?_, fun table row field => ?_, fun table row field => ?_⟩
  · have number : q.a6.toNat = 1 := by rw [table]; rfl
    have admits : s.Admits q rest .write := State.admits_writeRow start may op
      (by unfold ValidAddress; omega) (by rw [number]; rfl) (by
        have other : ∀ n, 2 ≤ n → q.a8.toNat ≠ n := fun n _ => by omega
        simp [writeRow, number, other])
    have work : ∀ u : State, rowWork .write q u = u.writeLane (laneOf q.a7.toNat) q.a8.toNat q.writeValue :=
      Request.runWrite_lane table
    refine ⟨fun beyond => admits.refusesFreely ((work _).trans (State.writeLane_beyond beyond)), fun inside => ?_⟩
    refine (admits.answers ((work _).trans (State.writeLane_stores inside))).trans ?_
    simp only [byte_toNat_eq_iff q.a8 (n := 0) (by decide)]
    rfl
  · have number : q.a6.toNat = 2 := by rw [table]; rfl
    have admits : s.Admits q rest .write := State.admits_writeRow start may op
      (by unfold ValidAddress; omega) (by rw [number]; rfl) (by simp [writeRow, number])
    have work : ∀ u : State, rowWork .write q u = u.writeBatch q.a7.toNat q.a8.toNat q.writeValue.toNat :=
      Request.runWrite_batch table
    refine ⟨fun busy => ?_, fun idle noSlot => ?_, fun b idle slot unfit => ?_, fun b idle slot fits => ?_⟩
    · exact admits.refusesFreely ((work _).trans (State.writeBatch_busy busy))
    · exact admits.refusesFreely ((work _).trans (State.writeBatch_noSlot idle noSlot))
    · exact admits.refusesFreely ((work _).trans (State.writeBatch_unfit idle slot
        (Bool.eq_false_iff.2 (mt (s.batchValueFits_iff field).2 unfit))))
    · refine (admits.answers ((work _).trans (State.writeBatch_stores idle field slot
        ((s.batchValueFits_iff field).1 fits)))).trans ?_
      rw [BitVec.ofNat_toNat, BitVec.setWidth_eq]
      rfl
  · have number : q.a6.toNat = 6 := by rw [table]; rfl
    have numbers : q.a7.toNat = 0 ∧ q.a8.toNat = 5 := by rw [row, field]; exact ⟨rfl, rfl⟩
    have admits : s.Admits q rest .write := State.admits_writeRow start may op
      (by unfold ValidAddress; omega) (by rw [number, numbers.2]; rfl) (by rw [number, numbers.1, numbers.2]; rfl)
    have work : ∀ u : State, rowWork .write q u = u.writeRing 5 q.writeValue := fun u =>
      numbers.2 ▸ Request.runWrite_ring table u
    exact ⟨fun beyond => admits.refusesFreely ((work _).trans (State.writeRing_manager_beyond beyond)),
      fun inside => admits.answers ((work _).trans (State.writeRing_manager inside))⟩
  · have number : q.a6.toNat = 6 := by rw [table]; rfl
    have zero : q.a7.toNat = 0 := by rw [row]; rfl
    have dest : q.a8.toNat = 6 ∨ q.a8.toNat = 7 := by
      obtain six | seven := field
      · exact .inl (by rw [six]; rfl)
      · exact .inr (by rw [seven]; rfl)
    have admits : s.Admits q rest .write := State.admits_writeRow start may op
      (by unfold ValidAddress; omega) (by obtain h | h := dest <;> rw [number, h] <;> rfl)
      (by obtain h | h := dest <;> rw [number, zero, h] <;> rfl)
    have work : ∀ u : State, rowWork .write q u = u.writeRing q.a8.toNat q.writeValue := Request.runWrite_ring table
    refine ⟨fun high no255 => ?_, fun inside => ?_⟩
    · refine admits.refusesFreely ((work _).trans (State.writeRing_dest_beyond dest ?_))
      rw [destInRange_iff]
      omega
    · refine (admits.answers ((work _).trans (State.writeRing_dest dest ((destInRange_iff _).2 inside)))).trans ?_
      simp only [byte_toNat_eq_iff q.a8 (n := 6) (by decide), byte_toNat_eq_iff q.a8 (n := 7) (by decide)]
      rfl

/-! ### STACKER_NODE, POCKET and STATUS_AGE_LIMIT (R115, R116, R131, R133) -/

theorem discardStatus_eq_discarded (p : LanePlan) : p.discardStatus = discarded p := rfl

/-- A plan set to what it is changes nothing. -/
theorem Lanes.set_get {α : Type} (x : Lanes α) (i : Lane) : x.set i (x.get i) = x :=
  Lanes.ext_get fun j => by rw [Lanes.get_set]; split <;> simp_all

/-- The lane `i` with row `r` and plan `p`. -/
def State.setLane (s : State) (i : Lane) (r : LaneRow) (p : LanePlan) : State := (s.setRow i r).setPlan i p

theorem State.withRow_eq_setLane (s : State) (q : Request) (r : LaneRow) (p : LanePlan) :
    s.withRow q r p = s.setLane (laneOf q.a7.toNat) r p := rfl

/-- A row written alone leaves the lane's plan. -/
theorem State.setRow_eq_setLane (s : State) (i : Lane) (r : LaneRow) : s.setRow i r = s.setLane i r (s.bsq.get i) := by
  simp only [State.setLane, State.setPlan, State.setRow, Lanes.set_get]

/-- A row written, and the lane's status discarded unless `same`. -/
theorem State.setRow_discardUnless (s : State) (i : Lane) (r : LaneRow) (same : Prop) [Decidable same] :
    (if same then s.setRow i r else (s.setRow i r).discardStatus i) =
      s.setLane i r (if same then s.bsq.get i else discarded (s.bsq.get i)) := by
  split
  · exact s.setRow_eq_setLane i r
  · rfl

theorem State.runStackerNodeWrite_stores {s : State} {q : Request} (inside : q.value.toNat ≤ 31) :
    s.runStackerNodeWrite q = (s.withRow q { s.laneRow q with stackerNode := q.value.setWidth 5 }
      (if (s.laneRow q).stackerNode.toNat = q.value.toNat then s.lanePlan q else discarded (s.lanePlan q)),
        .ok q.value) :=
  (if_neg (Nat.not_lt.2 inside)).trans (congrArg (·, _) (s.setRow_discardUnless _ _ _))

theorem State.runPocketWrite_stores {s : State} {q : Request} {k : Fin 8} (value : q.value.toNat = k.val) :
    s.runPocketWrite q = (s.withRow q { s.laneRow q with pocket := k }
      (if (s.laneRow q).pocket = k then s.lanePlan q else discarded (s.lanePlan q)), .ok q.value) := by
  have pocket : Fin.ofNat 8 q.value.toNat = k := by rw [value, Fin.ofNat_val_eq_self]
  simp only [← Fin.val_inj, ← value]
  rw [← pocket]
  exact (if_neg (by omega)).trans (congrArg (·, _) (s.setRow_discardUnless _ _ _))

theorem LanePlan.olderThan_iff (p : LanePlan) (limit : Nat) : p.olderThan limit = true ↔ OlderThan p limit := by
  unfold LanePlan.olderThan OlderThan
  cases p.statusAge with
  | none => simp
  | some age => exact decide_eq_true_iff.trans (by simp [clockPerMs])

/-- A lapse makes the lane stale, and sets STACKER_STALE where R132 asks for it. -/
theorem State.lapse_eq (s : State) (i : Lane) :
    s.lapse i = if StaleEvent s i then (s.madeStale i).withEvent .stackerStale else s.madeStale i := by
  have test : (s.jobActive && (s.gtu.table.get i).stackerNode != 0 && s.laneUsed i) = decide (StaleEvent s i) := by
    rw [Bool.eq_iff_iff]
    simp [jobActive_iff, State.laneUsed, and_assoc]
  unfold State.lapse
  rw [test]
  by_cases event : StaleEvent s i
  · rw [if_pos event, decide_eq_true event, ← State.setEvent_eq_withEvent]
    rfl
  · rw [if_neg event, decide_eq_false event]
    rfl

theorem State.runStatusAgeLimitWrite_fresh {s : State} {q : Request} (low : 1 ≤ q.value.toNat) (high : q.value.toNat ≤ 255)
    (fresh : ¬ OlderThan (s.lanePlan q) q.value.toNat) :
    s.runStatusAgeLimitWrite q =
      (s.withRow q { s.laneRow q with ageLimit := q.value.toNat } (s.lanePlan q), .ok q.value) := by
  have young : ¬ (s.lanePlan q).olderThan q.value.toNat = true := mt (LanePlan.olderThan_iff _ _).1 fresh
  exact (if_neg (by omega)).trans (congrArg (·, _) ((if_neg young).trans (s.setRow_eq_setLane _ _)))

/-- R132 does not look at the age limit. -/
theorem staleEvent_ageLimit (s : State) (i : Lane) (n : Nat) :
    StaleEvent (s.setRow i { s.gtu.table.get i with ageLimit := n }) i ↔ StaleEvent s i := by
  simp only [StaleEvent, State.setRow, Lanes.get_set_same]

/-- An older renewal lapses at the write. -/
theorem State.runStatusAgeLimitWrite_lapses {s : State} {q : Request} (low : 1 ≤ q.value.toNat) (high : q.value.toNat ≤ 255)
    (older : OlderThan (s.lanePlan q) q.value.toNat) :
    s.runStatusAgeLimitWrite q =
      ((s.setRow (laneOf q.a7.toNat) { s.laneRow q with ageLimit := q.value.toNat }).lapse (laneOf q.a7.toNat),
        .ok q.value) := by
  have old : (s.lanePlan q).olderThan q.value.toNat = true := (LanePlan.olderThan_iff _ _).2 older
  exact (if_neg (by omega)).trans (congrArg (·, _) (if_pos old))

theorem State.lapse_ageLimit_quiet {s : State} {i : Lane} {n : Nat} (quiet : ¬ StaleEvent s i) :
    (s.setRow i { s.gtu.table.get i with ageLimit := n }).lapse i =
      s.setLane i { s.gtu.table.get i with ageLimit := n } { s.bsq.get i with stale := true, statusAge := none } :=
  (State.lapse_eq _ i).trans (if_neg (mt (staleEvent_ageLimit s i n).1 quiet))

theorem State.lapse_ageLimit_stale {s : State} {i : Lane} {n : Nat} (stale : StaleEvent s i) :
    (s.setRow i { s.gtu.table.get i with ageLimit := n }).lapse i =
      (s.setLane i { s.gtu.table.get i with ageLimit := n }
        { s.bsq.get i with stale := true, statusAge := none }).withEvent .stackerStale :=
  (State.lapse_eq _ i).trans (if_pos ((staleEvent_ageLimit s i n).2 stale))

/-- Settles O48, field by field. -/
theorem stackerFieldsAreWrittenWithTheirEffects : Obligations.StackerFieldsAreWrittenWithTheirEffects := by
  unfold Obligations.StackerFieldsAreWrittenWithTheirEffects
  intro s q rest start may op table lane
  have number : q.a6.toNat = 1 := by rw [table]; rfl
  have admits : ∀ n, 2 ≤ n → n ≤ 4 → q.a8.toNat = n → s.Admits q rest (writeRow 1 q.a7.toNat n) := fun n low high field =>
    State.admits_writeRow start may op (by unfold ValidAddress; omega) (by rw [number]; rfl) (by rw [number, field])
  have row : ∀ n, n ≤ 4 → validAddress 1 q.a7.toNat n = true := fun n high =>
    (validAddress_iff _ _ _).2 (by unfold ValidAddress; omega)
  rw [← Request.value_eq_writeValue]
  refine ⟨fun field => ?_, fun field => ?_, fun field => ?_⟩
  · have admits : s.Admits q rest .stackerNodeWrite := by
      simpa [writeRow, row] using admits 2 (by omega) (by omega) (by rw [field]; rfl)
    exact ⟨fun beyond => admits.refusesFreely (if_pos beyond),
      fun inside => admits.answers (State.runStackerNodeWrite_stores (s := s.popped rest) inside)⟩
  · have admits : s.Admits q rest .pocketWrite := by
      simpa [writeRow, row] using admits 3 (by omega) (by omega) (by rw [field]; rfl)
    exact ⟨fun beyond => admits.refusesFreely (if_pos beyond),
      fun k value => admits.answers (State.runPocketWrite_stores (s := s.popped rest) value)⟩
  · have admits : s.Admits q rest .statusAgeLimitWrite := by
      simpa [writeRow, row] using admits 4 (by omega) (by omega) (by rw [field]; rfl)
    refine ⟨fun beyond => admits.refusesFreely (if_pos (by omega)), fun low high =>
      ⟨fun fresh => ?_, fun older quiet => ?_, fun older stale => ?_⟩⟩
    · exact admits.answers (State.runStatusAgeLimitWrite_fresh (s := s.popped rest) low high fresh)
    · exact admits.answers ((State.runStatusAgeLimitWrite_lapses (s := s.popped rest) low high older).trans
        (congrArg (·, _) (State.lapse_ageLimit_quiet quiet)))
    · exact admits.answers ((State.runStatusAgeLimitWrite_lapses (s := s.popped rest) low high older).trans
        (congrArg (·, _) (State.lapse_ageLimit_stale stale)))

/-! ### The slot map (R153) -/

theorem SlotMap.empty_iff (m : SlotMap) : m.empty = true ↔ m = ⟨0, 0, 0, 0⟩ := by
  cases m
  simp [SlotMap.empty, and_assoc]

/-- The entry written, SLOT_0 to SLOT_3 by the fields 1 to 4. -/
theorem State.set_eq_mapWith (s : State) {q : Request} (low : 1 ≤ q.a8.toNat) (high : q.a8.toNat ≤ 4) :
    s.rif.written.set q.a8.toNat (q.writeValue.setWidth 5) = s.mapWith q := by
  have number : ∀ n < 256, q.a8 = BitVec.ofNat 8 n ↔ q.a8.toNat = n := fun n small => (byte_toNat_eq_iff q.a8 small).symm
  have one := number 1 (by decide)
  have two := number 2 (by decide)
  have three := number 3 (by decide)
  have four := number 4 (by decide)
  unfold State.mapWith
  generalize q.a8.toNat = field at *
  interval_cases field <;> simp_all [SlotMap.set]

/-- Settles O49. -/
theorem slotMapKeepsOneSlot : Obligations.SlotMapKeepsOneSlot := by
  unfold Obligations.SlotMapKeepsOneSlot
  intro s q rest start may op table row low high
  have number : q.a6.toNat = 6 := by rw [table]; rfl
  have zero : q.a7.toNat = 0 := by rw [row]; rfl
  have admits : s.Admits q rest .slotMapWrite := by
    have valid : ValidAddress 6 0 q.a8.toNat := by unfold ValidAddress; omega
    refine State.admits_writeRow start may op (by rwa [number, zero]) ?_ ?_
    · rw [number]
      exact beq_eq_false_iff_ne.2 (by omega)
    · rw [number, zero]
      generalize q.a8.toNat = field at *
      interval_cases field <;> rfl
  have map : (s.popped rest).rif.written.set q.field (q.value.setWidth 5) = s.mapWith q := by
    rw [Request.value_eq_writeValue]
    exact s.set_eq_mapWith low high
  rw [← Request.value_eq_writeValue]
  refine ⟨fun bad => admits.refusesFreely (if_pos ?_), fun inside some => ?_⟩
  · rwa [map, SlotMap.empty_iff]
  · have good : ¬ (31 < q.value.toNat ∨ (s.mapWith q).empty = true) := by
      rw [SlotMap.empty_iff]
      exact not_or.2 ⟨Nat.not_lt.2 inside, some⟩
    rw [← map] at good ⊢
    exact admits.answers (if_neg good)

end Sys2Proof.Machine
end

section
/-! PROOF. The job commands: JOB_START and its checks (R16 to R20), JOB_STOP and JOB_ABORT (R21, R24), TRIM (R27), WASTE (R28)
and RELEASE_STOP (R144). -/

namespace Sys2Proof.Machine

/-! ### The checks of JOB_START (R16 to R19) -/

theorem derivedOf_eq_quantitiesOf (t : JobTable) : derivedOf t = quantitiesOf t := rfl

theorem capacityNeeded_eq_capacityOf (t : JobTable) : capacityNeeded t = capacityOf t := rfl

theorem State.latchValue_eq_latches (s : State) : s.latchValue = s.latches := by
  unfold State.latchValue State.latches
  cases s.jbc.stopLatch <;> cases s.ksq.inhibitLatch <;> rfl

theorem JobTable.unset_iff (t : JobTable) (f : JobField) : t.unset f = true ↔ ¬ (f.low ≤ t.get f ∧ t.get f ≤ f.high) := by
  simp [JobTable.unset, JobField.inRange, imp_iff_not_or]

theorem JobTable.firstUnset_eq_none_iff (t : JobTable) : t.firstUnset = none ↔ t.Complete := by
  unfold JobTable.firstUnset JobTable.Complete
  simp [List.findIdx?_eq_none_iff, JobTable.unset, JobField.inRange]

theorem JobTable.firstUnset_eq_some {t : JobTable} {n : Nat} (h : t.LowestUnset n) : t.firstUnset = some n := by
  obtain ⟨f, field, bad, before⟩ := h
  obtain ⟨below, rfl⟩ := List.getElem?_eq_some_iff.1 field
  refine List.findIdx?_eq_some_iff_getElem.2 ⟨below, (t.unset_iff _).2 bad, fun j earlier => ?_⟩
  rw [t.unset_iff, not_not]
  exact before _ (List.mem_take_iff_getElem.2 ⟨j, by omega, rfl⟩)

/-- The conditions of R17 in their order, 1 to 7. -/
theorem geometryConditions_getElem (t : JobTable) {j : Nat} (h : j < (geometryConditions t).length) :
    (geometryConditions t)[j] = true ↔ GeometryCondition t (j + 1) := by
  have h : j < 7 := h
  interval_cases j <;> exact decide_eq_true_iff

theorem geometryFailure_eq_none {t : JobTable} (h : ∀ k, 1 ≤ k → k ≤ 7 → GeometryCondition t k) : geometryFailure t = none := by
  simp only [geometryFailure, Option.map_eq_none_iff, List.findIdx?_eq_none_iff, Bool.not_eq_false']
  intro b member
  obtain ⟨j, below, rfl⟩ := List.getElem_of_mem member
  exact (geometryConditions_getElem t below).2 (h _ (by omega) below)

theorem geometryFailure_eq_some {t : JobTable} {k : Nat} (low : 1 ≤ k) (high : k ≤ 7) (fails : ¬ GeometryCondition t k)
    (first : ∀ j, 1 ≤ j → j < k → GeometryCondition t j) : geometryFailure t = some k := by
  obtain ⟨n, rfl⟩ := Nat.exists_eq_add_of_le' low
  have below : n < (geometryConditions t).length := high
  refine Option.map_eq_some_iff.2 ⟨n, List.findIdx?_eq_some_iff_getElem.2 ⟨below, ?_, fun j earlier => ?_⟩, rfl⟩
  · rwa [Bool.not_eq_true', ← Bool.not_eq_true, geometryConditions_getElem]
  · rw [Bool.not_eq_true', Bool.not_eq_false, geometryConditions_getElem]
    exact first _ (by omega) (by omega)

/-- A lane below LANES is enabled and holds a batch (R19). -/
theorem State.hasWork_iff (s : State) : s.hasWork = true ↔
    ∃ i : Lane, i.val < s.jbc.table.lanes ∧ (s.gtu.table.get i).enable = true ∧ (s.bsq.get i).batches ≠ [] := by
  rw [State.hasWork, Lanes.any_toList]
  simp [State.laneUsed, and_assoc]

/-- The outcome of JOB_START in IDLE once the latches are clear and no field is unset (R17 to R19). -/
theorem State.startRefusal_complete {s : State} (clear : s.latches = 0) (complete : s.jbc.table.Complete) :
    s.startRefusal =
      match geometryFailure s.jbc.table with
      | some n => some (.refusedWith .geometry n)
      | none =>
        if trackQueueSize < capacityOf s.jbc.table then some (.refusedWith .capacity (capacityOf s.jbc.table))
        else if !s.hasWork then some (.refusedWith .noWork 0)
        else none := by
  have unlatched : ¬ s.latchValue ≠ 0 := by simpa [s.latchValue_eq_latches] using clear
  simp only [State.startRefusal, (JobTable.firstUnset_eq_none_iff _).2 complete]
  exact if_neg unlatched

theorem State.startRefusal_passed {s : State} (clear : s.latches = 0) (complete : s.jbc.table.Complete)
    (geometry : ∀ k, 1 ≤ k → k ≤ 7 → GeometryCondition s.jbc.table k) :
    s.startRefusal =
      if 128 < capacityNeeded s.jbc.table then some (.refusedWith .capacity (capacityNeeded s.jbc.table))
      else if !s.hasWork then some (.refusedWith .noWork 0)
      else none := by
  rw [State.startRefusal_complete clear complete, geometryFailure_eq_none geometry]
  rfl

theorem State.startRefusal_noWork {s : State} (clear : s.latches = 0) (complete : s.jbc.table.Complete)
    (geometry : ∀ k, 1 ≤ k → k ≤ 7 → GeometryCondition s.jbc.table k) (fits : capacityNeeded s.jbc.table ≤ 128)
    (noWork : s.hasWork = false) : s.startRefusal = some (.refusedWith .noWork 0) := by
  rw [State.startRefusal_passed clear complete geometry, if_neg (Nat.not_lt.2 fits), noWork]
  rfl

theorem State.startRefusal_none {s : State} (clear : s.latches = 0) (complete : s.jbc.table.Complete)
    (geometry : ∀ k, 1 ≤ k → k ≤ 7 → GeometryCondition s.jbc.table k) (fits : capacityNeeded s.jbc.table ≤ 128)
    (work : s.hasWork = true) : s.startRefusal = none := by
  rw [State.startRefusal_passed clear complete geometry, if_neg (Nat.not_lt.2 fits), work]
  rfl

theorem State.runJobStart_refuses {s : State} (q : Request) {a : Answer} (idle : s.jbc.job = .idle)
    (refusal : s.startRefusal = some a) : s.runJobStart q = (s, a) := by
  simp only [State.runJobStart, refusal]
  exact if_neg (not_not.2 idle)

theorem State.runJobStart_starts {s : State} (q : Request) (idle : s.jbc.job = .idle) (refusal : s.startRefusal = none) :
    s.runJobStart q = (s.startJob, .ok ((BitVec.ofNat 16 s.jbc.table.firstRsn).zeroExtend 32)) := by
  simp only [State.runJobStart, refusal]
  exact if_neg (not_not.2 idle)

/-- JOB_START is admitted from a node that may command. -/
theorem State.admits_jobStart {s : State} {q : Request} {rest : List Request} (start : s.Starts q rest)
    (may : s.MayCommand q) (op : q.op = 0x10#8) : s.Admits q rest .jobStart := by
  have code : opOf q.op = some .jobStart := by rw [op]; rfl
  exact State.admits_command start may code (by decide) (by decide) (by simp [Request.startRow, code])

/-- Settles O30: with every check passed, the eight steps of R20. -/
theorem acceptedJobStartEntersRun : Obligations.AcceptedJobStartEntersRun := by
  unfold Obligations.AcceptedJobStartEntersRun
  intro s q rest start may op idle noStop noInhibit complete geometry capacity work
  have clear : s.latches = 0 := by simp [State.latches, noStop, noInhibit]
  have passes : (s.popped rest).startRefusal = none :=
    State.startRefusal_none (s := s.popped rest) clear complete geometry capacity ((s.popped rest).hasWork_iff.2 work)
  exact (State.admits_jobStart start may op).answers (State.runJobStart_starts (s := s.popped rest) q idle passes)

/-- Settles O31: each check is the first of R16 to R19 to fail. -/
theorem refusedJobStartNamesTheFirstFailedCheck : Obligations.RefusedJobStartNamesTheFirstFailedCheck := by
  unfold Obligations.RefusedJobStartNamesTheFirstFailedCheck
  intro s q rest start may op
  have admits := State.admits_jobStart start may op
  refine ⟨fun busy => admits.refusesFreely (if_pos busy), fun idle => ?_⟩
  have refuses : ∀ r n, (s.popped rest).startRefusal = some (.refusedWith r n) →
      exec .jobStart s = .next (s.answered rest (q.reply r (BitVec.ofNat 32 n))) := fun r n refusal =>
    admits.answersAlone (State.runJobStart_refuses (s := s.popped rest) q idle refusal)
  refine ⟨fun latched => refuses _ _ ?_, fun clear => ⟨fun n unset => refuses _ _ ?_, fun complete =>
    ⟨fun k low high fails first => refuses _ _ ?_, fun geometry => ⟨fun beyond => refuses _ _ ?_, fun fits noWork =>
      refuses _ 0 ?_⟩⟩⟩⟩
  · rw [← s.latchValue_eq_latches] at latched ⊢
    exact if_pos latched
  · have unlatched : ¬ s.latchValue ≠ 0 := by simpa [s.latchValue_eq_latches] using clear
    have first : (s.popped rest).jbc.table.firstUnset = some n := JobTable.firstUnset_eq_some unset
    simp only [State.startRefusal, first]
    exact if_neg unlatched
  · have first : geometryFailure (s.popped rest).jbc.table = some k := geometryFailure_eq_some low high fails first
    rw [State.startRefusal_complete (s := s.popped rest) clear complete, first]
  · rw [State.startRefusal_passed (s := s.popped rest) clear complete geometry]
    exact if_pos beyond
  · have idleLanes : (s.popped rest).hasWork = false := by
      refine Bool.eq_false_iff.2 (mt (s.popped rest).hasWork_iff.1 ?_)
      rintro ⟨i, used, enabled, batches⟩
      exact batches (noWork i used enabled)
    exact State.startRefusal_noWork (s := s.popped rest) clear complete geometry fits idleLanes

/-! ### Flushes (R67) and the ends of a job (R15, R24, R25) -/

/-- A flush with more entries than the record queue has room for sets RECORD_DROP. -/
theorem State.flushQueue_recordDrop (s : State) : s.flushQueue.flag .recordDrop =
    (s.flag .recordDrop || decide (32 - s.rif.records.length < s.trc.queue.length)) := by
  have dropped : s.flushQueue.mge =
      if 32 - s.rif.records.length < s.trc.queue.length then s.mge.setEvent .recordDrop else s.mge :=
    s.flushQueue_frame.dropped
  unfold State.flag
  rw [dropped]
  split <;> rename_i room
  · rw [decide_eq_true room]
    exact (s.flag_setEvent .recordDrop .recordDrop).trans (by simp [State.flag])
  · rw [decide_eq_false room, Bool.or_false]

/-- A machine that keeps what a flush and the emptying of the window and the splice list left. -/
theorem flushed_of_flushQueue {s t : State} (trc : t.trc = s.flushQueue.emptyWindowAndSplices.trc)
    (gtu : t.gtu = s.flushQueue.gtu) (bsq : t.bsq = s.flushQueue.bsq)
    (records : t.rif.records = s.flushQueue.rif.records)
    (dropped : t.flag .recordDrop = s.flushQueue.flag .recordDrop) : Flushed s t := by
  have frame := s.flushQueue_frame
  have queue := s.flushQueue_trc
  refine { queue := ?_, decided := ?_, decisions := ?_, held := fun i used => ?_, gaps := fun i used => ?_
           unused := fun i unused => ?_, gateWord := by rw [gtu]; exact frame.gateWord
           table := by rw [gtu]; exact frame.table, records := records.trans frame.records, dropped := ?_ }
  · rw [trc, State.emptyWindowAndSplices, queue]
    exact ⟨rfl, rfl, rfl, rfl, rfl⟩
  · rw [trc]
    exact frame.decided
  · rw [trc, State.emptyWindowAndSplices, queue]
  · rw [gtu]
    exact frame.held i (decide_eq_true used)
  · rw [bsq]
    exact frame.gaps i (decide_eq_true used)
  · rw [gtu, bsq]
    exact frame.unused i (decide_eq_false (Nat.not_lt.2 unused))
  · rw [dropped, s.flushQueue_recordDrop]

/-- From `s` to `t` a flush ended or halted the job with the event `e` (R15, R24, R25): everything but JBC. -/
structure JobFlushed (s : State) (e : Event) (t : State) : Prop where
  flushed : Flushed s t
  event : t.flag e = true
  psu : t.psu = s.psu
  mru : t.mru = { s.mru with reg := .idle, watch := false }
  ksq : t.ksq = { s.ksq with armed := none, fireWatch := none, pulse := false, pulseTimer := none, owner := none }
  rif : t.rif = { s.rif with records := t.rif.records }
  mge : t.mge = { s.mge with flags := t.mge.flags, mailbox := t.mge.mailbox }
  outside : t.inhibitLine = s.inhibitLine ∧ t.resetHeld = s.resetHeld ∧ t.draws = s.draws ∧ t.pending = s.pending

theorem jobFlushed_enterStopped (s : State) {e : Event} (other : e ≠ .recordDrop) (jbc : Jbc) (j : JobState) :
    JobFlushed s e (({ s.flushQueue.emptyWindowAndSplices.setEvent e with jbc := jbc } : State).enterStopped j) := by
  have frame := s.flushQueue_frame
  have dropped := s.flushQueue.flag_setEvent e .recordDrop
  have event := s.flushQueue.flag_setEvent e e
  refine { flushed := flushed_of_flushQueue rfl rfl rfl rfl (dropped.trans (by simp [other.symm]))
           event := event.trans (by simp), psu := frame.psu, mru := ?_, ksq := ?_, rif := frame.rif, mge := ?_
           outside := ⟨frame.inhibitLine, frame.resetHeld, frame.draws, frame.pending⟩ }
  · show { s.flushQueue.mru with reg := .idle, watch := false } = _
    rw [frame.mru]
  · show { s.flushQueue.ksq with armed := none, fireWatch := none, pulse := false, pulseTimer := none, owner := none } = _
    rw [frame.ksq]
  · show s.flushQueue.mge.setEvent e = { s.mge with
      flags := (s.flushQueue.mge.setEvent e).flags, mailbox := (s.flushQueue.mge.setEvent e).mailbox }
    rw [frame.mge]
    rfl

theorem State.abortJob_jobFlushed (s : State) : JobFlushed s .jobEnded s.abortJob :=
  jobFlushed_enterStopped s (by decide) _ .idle

theorem State.abortJob_jbc (s : State) :
    s.abortJob.jbc = { s.jbc with job := .idle, tailPending := false, hbTimer := none } := by
  show { s.flushQueue.jbc with job := .idle, tailPending := false, hbTimer := none } = _
  rw [s.flushQueue_frame.jbc]

/-- The answer to the abort is the number of entries flushed; the head request is no part of what a flush reads (R24). -/
theorem aborted_queueReply (s : State) (q : Request) (rest : List Request) :
    Aborted s q rest ((s.popped rest).abortJob.queueReply q (.ok (s.popped rest).flushedCount)) := by
  obtain ⟨f, event, psu, mru, ksq, rif, mge, outside⟩ := (s.popped rest).abortJob_jobFlushed
  refine { flushed := ⟨f.queue, f.decided, f.decisions, f.held, f.gaps, f.unused, f.gateWord, f.table, f.records, f.dropped⟩
           ended := event, jbc := (s.popped rest).abortJob_jbc, mru := mru, ksq := ksq, psu := psu, rif := ?_
           mge := mge, outside := outside }
  show { (s.popped rest).abortJob.rif with
    replies := (s.popped rest).abortJob.rif.replies ++ [q.reply .ok (s.popped rest).flushedCount] } = _
  rw [rif]
  rfl

theorem State.runJobStop_run {s : State} (q : Request) (run : s.jbc.job = .run) :
    s.runJobStop q = ({ s with jbc := { s.jbc with job := .drain, tailPending := true } }, .ok 0) := by
  simp only [State.runJobStop, run]

theorem State.runJobStop_halt {s : State} (q : Request) (halt : s.jbc.job = .halt) :
    s.runJobStop q = (s.abortJob, .ok s.flushedCount) := by
  simp only [State.runJobStop, halt]

theorem State.runJobStop_still {s : State} (q : Request) (still : s.jbc.job = .idle ∨ s.jbc.job = .drain) :
    s.runJobStop q = (s, .refused .state) := by
  obtain idle | drain := still
  · simp only [State.runJobStop, idle]
  · simp only [State.runJobStop, drain]

/-- Settles O32: by the job state. -/
theorem stopDrainsAndAbortFlushes : Obligations.StopDrainsAndAbortFlushes := by
  unfold Obligations.StopDrainsAndAbortFlushes
  intro s q rest start may
  have stop : q.op = 0x11#8 → s.Admits q rest .jobStop := fun op => by
    have code : opOf q.op = some .jobStop := by rw [op]; rfl
    exact State.admits_command start may code (by decide) (by decide) (by simp [Request.startRow, code])
  have abort : q.op = 0x12#8 → s.Admits q rest .jobAbort := fun op => by
    have code : opOf q.op = some .jobAbort := by rw [op]; rfl
    exact State.admits_command start may code (by decide) (by decide) (by simp [Request.startRow, code])
  refine ⟨fun op run => ?_, fun op halt => ?_, fun op still => ?_, fun op busy => ?_, fun op idle => ?_⟩
  · exact (stop op).answers (State.runJobStop_run (s := s.popped rest) q run)
  · refine ⟨_, (stop op).exec_eq, ?_⟩
    rw [show rowWork .jobStop q (s.popped rest) = _ from State.runJobStop_halt (s := s.popped rest) q halt]
    exact aborted_queueReply s q rest
  · exact (stop op).refusesFreely (State.runJobStop_still (s := s.popped rest) q still)
  · refine ⟨_, (abort op).exec_eq, ?_⟩
    rw [show rowWork .jobAbort q (s.popped rest) = _ from if_neg busy]
    exact aborted_queueReply s q rest
  · exact (abort op).refusesFreely (if_pos idle)

/-! ### TRIM, WASTE and RELEASE_STOP -/

theorem Request.argument_toInt (q : Request) : q.argument.toInt = q.delta :=
  congrArg BitVec.toInt (BitVec.append_assoc'.trans (BitVec.cast_eq _ _))

/-- TRIM in RUN and DRAIN (R27). -/
theorem State.runTrim_active {s : State} {q : Request} (active : s.jbc.job = .run ∨ s.jbc.job = .drain) {new : Int}
    {r : Result} (clamped : clampTrim s.jbc.table.cutOffset (s.jbc.ocEff + q.delta) = new)
    (result : (if new = s.jbc.ocEff + q.delta then .ok else .clamped) = r) :
    s.runTrim q = ({ s with jbc := { s.jbc with ocEff := new } }, ⟨r, some (BitVec.ofInt 32 new)⟩) := by
  rw [← result, ← clamped, ← q.argument_toInt]
  exact if_pos ((jobActive_iff s).2 active)

theorem not_jobActive {s : State} (still : s.jbc.job = .idle ∨ s.jbc.job = .halt) : s.jobActive = false := by
  obtain idle | halt := still
  · simp [State.jobActive, JobState.active, idle]
  · simp [State.jobActive, JobState.active, halt]

/-- Settles O33: the sum within the reach, below it, above it. -/
theorem trimClampsTheCutOffset : Obligations.TrimClampsTheCutOffset := by
  unfold Obligations.TrimClampsTheCutOffset
  intro s q rest start may op
  have code : opOf q.op = some .trim := by rw [op]; rfl
  have admits : s.Admits q rest .trim :=
    State.admits_command start may code (by decide) (by decide) (by simp [Request.startRow, code])
  refine ⟨fun active => ⟨fun ⟨low, high⟩ => ?_, fun below => ?_, fun above => ?_⟩, fun still => ?_⟩
  · have kept : clampTrim s.jbc.table.cutOffset (s.jbc.ocEff + q.delta) = s.jbc.ocEff + q.delta := by
      simp only [clampTrim, trimReach]; omega
    exact admits.answers (State.runTrim_active (s := s.popped rest) active kept (if_pos rfl))
  · have floor : clampTrim s.jbc.table.cutOffset (s.jbc.ocEff + q.delta) = s.jbc.table.cutOffset - 2000 := by
      simp only [clampTrim, trimReach]; omega
    exact admits.answers (State.runTrim_active (s := s.popped rest) active floor (if_neg (ne_of_gt below)))
  · have ceiling : clampTrim s.jbc.table.cutOffset (s.jbc.ocEff + q.delta) = s.jbc.table.cutOffset + 2000 := by
      simp only [clampTrim, trimReach]; omega
    exact admits.answers (State.runTrim_active (s := s.popped rest) active ceiling (if_neg (ne_of_lt above)))
  · exact admits.refusesFreely (if_neg (Bool.eq_false_iff.1 (not_jobActive (s := s.popped rest) still)))

theorem State.runWaste_still {s : State} {q : Request} (still : s.jbc.job = .idle ∨ s.jbc.job = .halt) :
    s.runWaste q = (s, .refused .state) := by
  simp [State.runWaste, not_jobActive still]

theorem State.runWaste_beyond {s : State} {q : Request} (active : s.jbc.job = .run ∨ s.jbc.job = .drain)
    (beyond : 1 < q.a6.toNat) : s.runWaste q = (s, .refused .range) := by
  simp [State.runWaste, (jobActive_iff s).2 active, beyond]

theorem State.runWaste_stores {s : State} {q : Request} (active : s.jbc.job = .run ∨ s.jbc.job = .drain)
    (inside : q.a6.toNat ≤ 1) :
    s.runWaste q =
      ({ s with jbc := { s.jbc with waste := decide (q.a6 = 1) } }, .ok (q.a6.zeroExtend 32)) := by
  simp [State.runWaste, (jobActive_iff s).2 active, Nat.not_lt.2 inside, beq_eq_decide]

/-- Settles O34. -/
theorem wasteAndReleaseStopFollowTheirTables : Obligations.WasteAndReleaseStopFollowTheirTables := by
  unfold Obligations.WasteAndReleaseStopFollowTheirTables
  intro s q rest start may
  have waste : q.op = 0x14#8 → s.Admits q rest .waste := fun op => by
    have code : opOf q.op = some .waste := by rw [op]; rfl
    exact State.admits_command start may code (by decide) (by decide) (by simp [Request.startRow, code])
  have release : q.op = 0x15#8 → s.Admits q rest .releaseStop := fun op => by
    have code : opOf q.op = some .releaseStop := by rw [op]; rfl
    exact State.admits_command start may code (by decide) (by decide) (by simp [Request.startRow, code])
  rw [← s.latchValue_eq_latches]
  refine ⟨fun op still => ?_, fun op active beyond => ?_, fun op active inside => ?_, fun op line => ?_,
    fun op line => ?_⟩
  · exact (waste op).refusesFreely (State.runWaste_still (s := s.popped rest) still)
  · exact (waste op).refusesFreely (State.runWaste_beyond (s := s.popped rest) active beyond)
  · exact (waste op).answers (State.runWaste_stores (s := s.popped rest) active inside)
  · exact (release op).answersAlone (if_pos line)
  · exact (release op).answers (u := { s.popped rest with
      jbc := { s.jbc with stopLatch := false }, ksq := { s.ksq with inhibitLatch := false } })
      (if_neg (Bool.eq_false_iff.1 line))

end Sys2Proof.Machine
end

section
/-! PROOF. Cells that arrive (R147 to R151): frames, cells passed on, heartbeats (R137, R138), stacker status (R130, R131) and
management requests (R160); and the end of an owned slot (R151, R172). -/

namespace Sys2Proof.Machine

/-! ### A cell that passes -/

theorem State.passed_jbc (s : State) (p : Nat) (c : Cell) : (s.passed p c).jbc = s.jbc := by rw [State.passed_frame]

theorem State.passed_gtu (s : State) (p : Nat) (c : Cell) : (s.passed p c).gtu = s.gtu := by rw [State.passed_frame]

theorem State.passed_bsq (s : State) (p : Nat) (c : Cell) : (s.passed p c).bsq = s.bsq := by rw [State.passed_frame]

theorem State.passed_mge (s : State) (p : Nat) (c : Cell) : (s.passed p c).mge = s.mge := by rw [State.passed_frame]

theorem State.passed_resetHeld (s : State) (p : Nat) (c : Cell) : (s.passed p c).resetHeld = s.resetHeld := by
  rw [State.passed_frame]

theorem State.passed_nodeId (s : State) (p : Nat) (c : Cell) : (s.passed p c).rif.nodeId = s.rif.nodeId := by
  rw [State.passed_frame]

/-- A good cell that is no valid header is handed on by its type from where the part does not own the slot (R150). -/
theorem exec_passes_good {c : Instr} {cell : Cell} (carried : carriedCell c = some cell) {s : State} {p : Nat}
    (passes : s.Passes p) (good : checkGood cell = true) (noHeader : validHeader cell = false) :
    exec c s = .next ((s.passed p cell).route cell) := by
  rw [exec_carriedCell carried, State.receive_passes passes noHeader, State.passCell_good s p good]

theorem exec_passes_bad {c : Instr} {cell : Cell} (carried : carriedCell c = some cell) {s : State} {p : Nat}
    (passes : s.Passes p) (bad : checkGood cell = false) :
    exec c s = .next { s.passed p cell with
      rif := { (s.passed p cell).rif with crcErrors := oneMore s.rif.crcErrors } } := by
  rw [exec_carriedCell carried, State.receive_passes passes (not_validHeader_of_check bad), State.passCell_bad s p bad]

theorem sourceIsNode_iff (c : Cell) : sourceIsNode c = true ↔ c.body.source.toNat ≤ 31 := decide_eq_true_iff

/-! ### Where a cell goes (R150) -/

/-- The part reads its node ID alone, which a passing cell leaves. -/
theorem State.Addressed.passed {s : State} {c c' : Cell} {p : Nat} (h : s.Addressed c) : (s.passed p c').Addressed c := by
  unfold State.Addressed
  rw [State.passed_nodeId]
  exact h

theorem State.route_verdict {s : State} {b : CellBody} (h : s.Addressed ⟨0x21#8, b⟩) :
    s.route ⟨0x21#8, b⟩ = s.takeVerdict b.source b.payload := by
  obtain ⟨-, source, dest⟩ := h
  simp [State.route, (sourceIsNode_iff _).2 source, (s.addressed_iff _).2 dest, kindVerdict]

theorem State.route_heartbeat {s : State} {b : CellBody} (h : s.Addressed ⟨0x22#8, b⟩) :
    s.route ⟨0x22#8, b⟩ = s.takeHeartbeat b.source b.payload := by
  obtain ⟨-, source, dest⟩ := h
  simp [State.route, (sourceIsNode_iff _).2 source, (s.addressed_iff _).2 dest, kindVerdict, kindHeartbeat]

theorem State.route_stackerStatus {s : State} {b : CellBody} (h : s.Addressed ⟨0x23#8, b⟩) :
    s.route ⟨0x23#8, b⟩ = s.takeStackerStatus b.source b.payload := by
  obtain ⟨-, source, dest⟩ := h
  simp [State.route, (sourceIsNode_iff _).2 source, (s.addressed_iff _).2 dest, kindVerdict, kindHeartbeat,
    kindStackerStatus]

theorem State.route_mgmtRequest (s : State) {b : CellBody} (source : b.source.toNat ≤ 31) :
    s.route ⟨0x30#8, b⟩ = if s.addressedAlone ⟨0x30#8, b⟩ then s.enqueueRequest (requestOf b) else s := by
  simp [State.route, (sourceIsNode_iff ⟨0x30#8, b⟩).2 source, kindVerdict, kindHeartbeat, kindStackerStatus,
    kindMgmtRequest]

/-- A cell of a consumed type for the part is handed to its block in the machine that has passed it. -/
theorem exec_consumed {c : Instr} {kind : Byte} {b : CellBody} (carried : carriedCell c = some ⟨kind, b⟩)
    (consumed : kind ≠ 0x10#8) {s : State} {p : Nat} (passes : s.Passes p) (addressed : s.Addressed ⟨kind, b⟩) :
    exec c s = .next ((s.passed p ⟨kind, b⟩).route ⟨kind, b⟩) :=
  exec_passes_good carried passes addressed.1 (not_validHeader_of_kind consumed)

/-! ### Heartbeats (R137 to R139) -/

theorem tokenOf_eq_iff (b : Byte) (t : Token) : tokenOf b = some t ↔ b.toNat = if t = .one then 1 else 2 := by
  unfold tokenOf
  cases t <;> split <;> simp_all

/-- The test of R137, in the words of the statements. -/
theorem takesHeartbeat_iff (s : State) (b : CellBody) :
    (s.jobActive && b.source.toNat == s.jbc.table.verdictNode && tokenOf b.payload.b4 == some s.jbc.expected) = true ↔
      ExpectedHeartbeat s b := by
  simp [ExpectedHeartbeat, jobActive_iff, tokenOf_eq_iff, and_assoc]

theorem State.takeHeartbeat_expected {s : State} {b : CellBody} (h : ExpectedHeartbeat s b) :
    s.takeHeartbeat b.source b.payload = { s with jbc := { s.jbc with
      hbTimer := some (s.jbc.table.hbPeriod * 25000), hbStage := .alive, blind := false
      expected := if s.jbc.expected = .one then .two else .one } } := by
  have other : s.jbc.expected.other = if s.jbc.expected = .one then .two else .one := by
    cases s.jbc.expected <;> rfl
  rw [← other]
  exact if_pos ((takesHeartbeat_iff s b).2 h)

theorem State.takeHeartbeat_other {s : State} {b : CellBody} (h : ¬ ExpectedHeartbeat s b) :
    s.takeHeartbeat b.source b.payload = s :=
  if_neg (mt (takesHeartbeat_iff s b).1 h)

theorem exec_heartbeatTimerExpiry_early {s : State} (timer : s.jbc.hbTimer ≠ some 0) :
    exec .heartbeatTimerExpiry s = .next s :=
  congrArg _ (if_pos (by simp [timer]))

theorem exec_heartbeatTimerExpiry_due {s : State} (free : s.resetHeld = false) (timer : s.jbc.hbTimer = some 0) :
    exec .heartbeatTimerExpiry s = .next s.heartbeatExpiry :=
  congrArg _ (if_neg (by simp [free, timer]))

/-- Settles O35: the cell by R137, the timer by its stage. -/
theorem heartbeatsAreSupervised : Obligations.HeartbeatsAreSupervised := by
  unfold Obligations.HeartbeatsAreSupervised
  refine ⟨fun b s p passes addressed => ?_, fun s free => ⟨exec_heartbeatTimerExpiry_early, fun timer stage => ?_,
    fun timer stage => ?_⟩⟩
  · have arrives : exec (.heartbeat b) s = .next ((s.passed p ⟨0x22#8, b⟩).takeHeartbeat b.source b.payload) := by
      rw [exec_consumed rfl (by decide) passes addressed, State.route_heartbeat addressed.passed]
    have same : ExpectedHeartbeat (s.passed p ⟨0x22#8, b⟩) b ↔ ExpectedHeartbeat s b := by
      simp only [ExpectedHeartbeat, State.passed_jbc]
    rw [arrives]
    refine ⟨fun expected => ⟨_, rfl, ?_, fun period => exec_heartbeatTimerExpiry_early ?_⟩, fun other => ?_⟩
    · rw [State.takeHeartbeat_expected (same.2 expected), State.passed_jbc]
    · rw [State.takeHeartbeat_expected (same.2 expected), State.passed_jbc]
      simp only [ne_eq, Option.some.injEq]
      omega
    · rw [State.takeHeartbeat_other (mt same.1 other)]
  · rw [exec_heartbeatTimerExpiry_due free timer, ← State.setEvent_eq_withEvent]
    simp only [State.heartbeatExpiry, stage]
    rfl
  · rw [exec_heartbeatTimerExpiry_due free timer, ← State.setEvent_eq_withEvent]
    simp only [State.heartbeatExpiry, stage]

/-! ### Stacker status (R130, R131) -/

theorem LaneRow.suppliedBy_iff (r : LaneRow) (n : Byte) :
    r.suppliedBy n = true ↔ r.stackerNode ≠ 0 ∧ r.stackerNode.toNat = n.toNat := by
  simp [LaneRow.suppliedBy]

/-- Bytes 4 to 11 report the pockets 0 to 7. -/
theorem pocketBytes_getD (p : Payload) (k : Fin 8) : (pocketBytes p).getD k.val 3 = (pocketByte p k).toNat := by
  fin_cases k <;> rfl

theorem State.statusRunOut_iff {s : State} {i : Lane} {age : Nat} (running : (s.bsq.get i).statusAge = some age) :
    s.statusRunOut i = true ↔ (s.gtu.table.get i).ageLimit * 25000 ≤ age := by
  rw [State.statusRunOut, running]
  exact decide_eq_true_iff

theorem exec_statusTimerExpiry_early {s : State} {i : Lane} (timer : s.statusRunOut i = false) :
    exec (.statusTimerExpiry i) s = .next s :=
  congrArg _ (if_pos (by simp [timer]))

/-- Settles O29: the cell by R130, the timer by R131. -/
theorem stackerStatusRenewsAndItsTimerLapses : Obligations.StackerStatusRenewsAndItsTimerLapses := by
  unfold Obligations.StackerStatusRenewsAndItsTimerLapses
  refine ⟨fun b s p passes addressed => ?_, fun i s free => ⟨fun stopped => ?_, fun age running =>
    ⟨fun young => ?_, fun old => ?_⟩⟩⟩
  · refine ⟨_, exec_consumed rfl (by decide) passes addressed, ?_, fun i => ⟨fun supplied => ?_, fun other => ?_⟩⟩
    all_goals rw [State.route_stackerStatus addressed.passed]
    · rfl
    · rw [pocketBytes_getD]
      simp only [State.takeStackerStatus, Lanes.get_ofFn, State.passed_gtu, State.passed_bsq,
        (LaneRow.suppliedBy_iff _ _).2 supplied]
      rfl
    · simp only [State.takeStackerStatus, Lanes.get_ofFn, State.passed_gtu, State.passed_bsq,
        Bool.eq_false_iff.2 (mt (LaneRow.suppliedBy_iff _ _).1 other)]
      rfl
  · exact exec_statusTimerExpiry_early (by simp [State.statusRunOut, stopped])
  · exact exec_statusTimerExpiry_early 
      (Bool.eq_false_iff.2 (mt (State.statusRunOut_iff running).1 (Nat.not_le.2 young)))
  · rw [← State.lapse_eq]
    exact congrArg _ (if_neg (by simp [free, (State.statusRunOut_iff running).2 old]))

/-! ### Management requests (R160) -/

theorem State.addressedAlone_iff (s : State) (c : Cell) :
    s.addressedAlone c = true ↔ c.body.dest.toNat = s.rif.nodeId.toNat ∧ s.rif.nodeId ≠ 0 := by
  have hlt : s.rif.nodeId.toNat < 256 := by omega
  simp [State.addressedAlone, BitVec.toNat_eq, Nat.mod_eq_of_lt hlt]

theorem State.enqueueRequest_joins {s : State} {q : Request} (room : s.mge.requests.length < 4) :
    s.enqueueRequest q = { s with mge := { s.mge with requests := s.mge.requests ++ [q] } } :=
  if_pos room

theorem State.enqueueRequest_drops {s : State} {q : Request} (full : 4 ≤ s.mge.requests.length) :
    s.enqueueRequest q = s.withEvent .requestDrop := by
  rw [← State.setEvent_eq_withEvent]
  exact if_neg (Nat.not_lt.2 full)

/-- Settles O41. -/
theorem managementRequestIsQueuedOrDropped : Obligations.ManagementRequestIsQueuedOrDropped := by
  unfold Obligations.ManagementRequestIsQueuedOrDropped
  intro b s p passes good source
  have arrives := exec_passes_good (c := .mgmtRequest b) rfl passes good
    (not_validHeader_of_kind (show 0x30#8 ≠ 0x10#8 by decide))
  have alone : (s.passed p ⟨0x30#8, b⟩).addressedAlone ⟨0x30#8, b⟩ = true ↔
      b.dest.toNat = s.rif.nodeId.toNat ∧ s.rif.nodeId ≠ 0 := by
    rw [State.addressedAlone_iff, State.passed_nodeId]
  rw [arrives, State.route_mgmtRequest _ source]
  refine ⟨fun dest node room => ?_, fun dest node full => ?_, fun other => ?_⟩
  · rw [if_pos (alone.2 ⟨dest, node⟩), State.enqueueRequest_joins (by rwa [State.passed_mge]), State.passed_mge]
    rfl
  · rw [if_pos (alone.2 ⟨dest, node⟩), State.enqueueRequest_drops (by rwa [State.passed_mge])]
  · rw [if_neg fun h => ?_]
    obtain ⟨dest, node⟩ := alone.1 h
    exact other.elim (· dest) node

/-! ### Frames and the link (R147, R148) -/

/-- The frame start of a valid header, written out. -/
theorem State.startFrame_eq (s : State) (c : Cell) :
    s.startFrame c = { s with rif := { s.rif with
      link := .up, linkTimer := some 0, slot := some 0, slots := some c.body.payload.b6.toNat
      frameNo := c.body.payload.b4 ++ c.body.payload.b5, active := s.rif.written, frameStatus := some s.summary } } := by
  rw [← summary_eq]
  rfl

/-- A valid header is taken in any slot the part does not own (R147, R148). -/
theorem State.receive_header {s : State} {c : Cell} (free : s.resetHeld = false) (noSlot : s.rif.sending = none)
    (header : IsHeader c) (notOwned : s.rif.link = .up → s.rif.owns s.rif.nextPosition = false) :
    s.receive c = (s.repeated c).startFrame c := by
  have valid := (validHeader_iff c).2 header
  rw [State.receive_idle free noSlot, State.takeCell]
  cases link : s.rif.link with
  | down => exact if_pos valid
  | up => exact (if_neg (by simp [notOwned link])).trans (if_pos valid)

theorem exec_linkTimerExpiry_early {s : State} (timer : s.rif.linkRunOut = false) : exec .linkTimerExpiry s = .next s :=
  congrArg _ (if_pos (by simp [timer]))

theorem exec_linkTimerExpiry_due {s : State} (free : s.resetHeld = false) (timer : s.rif.linkRunOut = true) :
    exec .linkTimerExpiry s = .next s.linkExpiry :=
  congrArg _ (if_neg (by simp [free, timer]))

/-- Settles O36. -/
theorem linkFollowsHeadersAndItsTimer : Obligations.LinkFollowsHeadersAndItsTimer := by
  unfold Obligations.LinkFollowsHeadersAndItsTimer
  intro s free
  have runOut : ∀ n, s.rif.linkTimer = some n → (s.rif.linkRunOut = true ↔ 50000 ≤ n) := fun n timer => by
    rw [Rif.linkRunOut, timer]
    exact decide_eq_true_iff
  refine ⟨fun b noSlot header notOwned => ?_, fun stopped => ?_, fun n timer young => ?_, fun n timer old up => ?_,
    fun n timer old down => ?_⟩
  · rw [exec_carriedCell rfl, State.receive_header free noSlot header notOwned, State.startFrame_eq]
    rfl
  · exact exec_linkTimerExpiry_early (by simp [Rif.linkRunOut, stopped])
  · exact exec_linkTimerExpiry_early (Bool.eq_false_iff.2 (mt (runOut n timer).1 (Nat.not_le.2 young)))
  · rw [exec_linkTimerExpiry_due free ((runOut n timer).2 old), State.linkExpiry, up, ← State.setEvent_eq_withEvent]
  · rw [exec_linkTimerExpiry_due free ((runOut n timer).2 old), State.linkExpiry, down]

/-! ### Cells passed on (R149, R150) -/

/-- With the link DOWN a cell that is no valid header is repeated, and its check counted (R148, log 26). -/
theorem State.receive_down {s : State} {c : Cell} (free : s.resetHeld = false) (noSlot : s.rif.sending = none)
    (down : s.rif.link = .down) (noHeader : ¬ IsHeader c) : s.receive c = (s.repeated c).countCheck c := by
  rw [State.receive_idle free noSlot, State.takeCell, down]
  exact if_neg (mt (validHeader_iff c).1 noHeader)

theorem State.countCheck_good (s : State) {c : Cell} (good : checkGood c = true) : s.countCheck c = s :=
  if_pos good

theorem State.countCheck_bad (s : State) {c : Cell} (bad : checkGood c = false) :
    s.countCheck c = { s with rif := { s.rif with crcErrors := oneMore s.rif.crcErrors } } := by
  rw [← satIncrement_eq_oneMore]
  exact if_neg (Bool.eq_false_iff.1 bad)

/-- Nothing is taken from the cell in the machine that has passed it either. -/
theorem NotTaken.passed {s : State} {c : Cell} {p : Nat} (h : NotTaken s c) : NotTaken (s.passed p c) c := by
  unfold NotTaken
  rw [State.passed_nodeId]
  exact h

/-- Settles O37. -/
theorem cellsThePartDoesNotTakeAreRepeated : Obligations.CellsThePartDoesNotTakeAreRepeated := by
  unfold Obligations.CellsThePartDoesNotTakeAreRepeated
  intro c s
  have noHeader : ¬ IsHeader c → validHeader c = false := fun h => Bool.eq_false_iff.2 (mt (validHeader_iff c).1 h)
  refine ⟨fun p passes _ bad => exec_passes_bad rfl passes bad, fun p passes _ good notTaken => ?_,
    fun passes bad => exec_passes_bad rfl passes bad, fun passes good none notTaken => ?_,
    fun free noSlot down none => ⟨fun good => ?_, fun bad => ?_⟩⟩
  · rw [exec_passes_good rfl passes good (noHeader notTaken.1), State.route_notTaken notTaken.passed]
  · rw [exec_passes_good rfl passes good (noHeader none), State.route_notTaken notTaken.passed]
    rfl
  · rw [exec_carriedCell rfl, State.receive_down free noSlot down none, State.countCheck_good _ good]
  · rw [exec_carriedCell rfl, State.receive_down free noSlot down none, State.countCheck_bad _ bad]
    rfl

/-! ### The end of an owned slot (R151, R172) -/

theorem exec_slotEnd {s : State} (free : s.resetHeld = false) : exec .slotEnd s = .next s.endOwnedSlot :=
  congrArg _ (if_neg (by simp [free]))

/-- The consumed cell's check counted and its frame begun: the slot is over (R149, R151). -/
def State.slotClosed (s : State) (arriving : Cell) : State :=
  (({ s with rif := { s.rif with sending := none } } : State).countCheck arriving).frameStartIfHeader arriving

theorem State.endOwnedSlot_some {s : State} {o : OwnedSlot} (slot : s.rif.sending = some o) :
    s.endOwnedSlot =
      if o.reply.any Reply.ofReset then (s.slotClosed o.arriving).nodeReset else s.slotClosed o.arriving := by
  simp only [State.endOwnedSlot, slot]
  rfl

/-- The end of a slot concerns the ring interface alone, and there neither the node ID nor RING_TX. -/
theorem State.slotClosed_frame (s : State) (c : Cell) :
    s.slotClosed c = { s with rif := { (s.slotClosed c).rif with
      sending := none, nodeId := s.rif.nodeId, ringTx := s.rif.ringTx } } := by
  unfold State.slotClosed State.countCheck State.frameStartIfHeader
  split <;> split <;> rfl

theorem State.slotClosed_bad (s : State) {c : Cell} (bad : checkGood c = false) :
    s.slotClosed c = { s with rif := { s.rif with sending := none, crcErrors := oneMore s.rif.crcErrors } } := by
  rw [State.slotClosed, State.countCheck_bad _ bad]
  exact if_neg (Bool.eq_false_iff.1 (not_validHeader_of_check bad))

theorem State.slotClosed_good (s : State) {c : Cell} (good : checkGood c = true) (noHeader : ¬ IsHeader c) :
    s.slotClosed c = { s with rif := { s.rif with sending := none } } := by
  rw [State.slotClosed, State.countCheck_good _ good]
  exact if_neg (mt (validHeader_iff c).1 noHeader)

theorem State.slotClosed_header (s : State) {c : Cell} (header : IsHeader c) :
    s.slotClosed c = ({ s with rif := { s.rif with sending := none } } : State).startFrame c := by
  rw [State.slotClosed, State.countCheck_good _ header.1]
  exact if_pos ((validHeader_iff c).2 header)

/-- Once a slot has ended none is in progress, and reset is not held. -/
theorem State.endOwnedSlot_idle {s : State} (free : s.resetHeld = false) :
    s.endOwnedSlot.resetHeld = false ∧ s.endOwnedSlot.rif.sending = none := by
  cases slot : s.rif.sending with
  | none => simp [State.endOwnedSlot, slot, free]
  | some o =>
    rw [State.endOwnedSlot_some slot]
    split
    · exact ⟨rfl, rfl⟩
    · rw [State.slotClosed_frame]
      exact ⟨free, rfl⟩

/-- Settles O38: what arrives is taken by the machine whose slot has ended. -/
theorem arrivingCellEndsTheOwnedSlotFirst : Obligations.ArrivingCellEndsTheOwnedSlotFirst := by
  unfold Obligations.ArrivingCellEndsTheOwnedSlotFirst
  intro c s free carries
  obtain ⟨cell, carried⟩ := Option.isSome_iff_exists.1 carries
  obtain ⟨stillFree, ended⟩ := State.endOwnedSlot_idle free
  refine ⟨s.endOwnedSlot, s.endOwnedSlot.takeCell cell, exec_slotEnd free, ended, ?_, ?_⟩
  · rw [exec_carriedCell carried, State.receive_idle stillFree ended]
  · rw [exec_carriedCell carried, State.receive, free]
    rfl

theorem Reply.ofReset_iff (r : Reply) : r.ofReset = true ↔ r.op = 0x2F#8 ∧ r.result = .ok := by
  have code : opOf r.op = some .resetNode ↔ r.op = 0x2F#8 := by
    rw [← BitVec.toNat_inj]
    unfold opOf
    split <;> simp_all
  simp [Reply.ofReset, code]

/-- Settles O44: no slot, the slot of a RESET_NODE's reply, and any other by the cell consumed in it. -/
theorem slotEndCountsFramesAndResets : Obligations.SlotEndCountsFramesAndResets := by
  unfold Obligations.SlotEndCountsFramesAndResets
  intro s free
  rw [exec_slotEnd free]
  refine ⟨fun noSlot => ?_, fun o r slot reply op ok => ?_, fun o slot noReset => ?_⟩
  · simp only [State.endOwnedSlot, noSlot]
  · have resets : o.reply.any Reply.ofReset = true := by simp [reply, (Reply.ofReset_iff r).2 ⟨op, ok⟩]
    rw [State.endOwnedSlot_some slot, if_pos resets, State.slotClosed_frame]
    exact ⟨_, rfl, State.afterReset_listed _ _ _ _ _, rfl, rfl, rfl⟩
  · have keeps : ¬ o.reply.any Reply.ofReset = true := by
      rw [Option.any_eq_true]
      rintro ⟨r, reply, reset⟩
      obtain ⟨op, ok⟩ := (Reply.ofReset_iff r).1 reset
      exact (noReset r reply).elim (· op) (· ok)
    rw [State.endOwnedSlot_some slot, if_neg keeps]
    refine ⟨fun bad => ?_, fun good none => ?_, fun header => ?_⟩
    · rw [s.slotClosed_bad bad]
    · rw [s.slotClosed_good good none]
    · rw [s.slotClosed_header header, State.startFrame_eq]
      rfl

/-! ### What an owned slot carries (R154) -/

theorem State.ownCell_eq_sent (s : State) (kind dest : Byte) (p : Payload) : s.ownCell kind dest p = s.sent kind dest p := rfl

/-- At an active owned slot the arriving cell is consumed and the part's own is placed (R151). -/
theorem exec_ownedSlotStart {s : State} (free : s.resetHeld = false) (noSlot : s.rif.sending = none) (up : s.rif.link = .up)
    (owned : s.rif.owns s.rif.nextPosition = true) (c : Cell) :
    exec (.ownedSlotStart c) s = .next (s.startOwnedSlot s.rif.nextPosition c) := by
  rw [exec_carriedCell rfl, State.receive_idle free noSlot, State.takeCell, up]
  exact congrArg _ (if_pos owned)

theorem State.placement_record {s : State} {r : Record} {rest : List Record} (records : s.rif.records = r :: rest) :
    s.placement = ⟨{ s with rif := { s.rif with records := rest } }, s.sent r.kind s.rif.recordDest r.payload, none⟩ := by
  simp only [State.placement, records, State.ownCell_eq_sent]

theorem State.placement_reply {s : State} {q : Reply} {rest : List Reply} (records : s.rif.records = [])
    (replies : s.rif.replies = q :: rest) :
    s.placement = ⟨{ s with rif := { s.rif with replies := rest } }, s.sent 0x31#8 q.dest q.payload, some q⟩ := by
  simp only [State.placement, records, replies, State.ownCell_eq_sent, kindMgmtReply]

theorem State.placement_notice {s : State} (records : s.rif.records = []) (replies : s.rif.replies = [])
    (full : s.mge.mailbox = true) :
    s.placement =
      ⟨{ s with mge := { s.mge with mailbox := false } }, s.sent 0x4A#8 s.rif.noticeDest s.noticePayload, none⟩ := by
  simp only [State.placement, records, replies]
  exact if_pos full

theorem State.placement_idle {s : State} (records : s.rif.records = []) (replies : s.rif.replies = [])
    (empty : s.mge.mailbox = false) :
    s.placement = ⟨s, s.sent 0x00#8 0xFF#8 ⟨0, 0, 0, 0, 0, 0, 0, 0, 0, 0⟩, none⟩ := by
  simp only [State.placement, records, replies]
  exact if_neg (Bool.eq_false_iff.1 empty)

/-- Settles O42, by the first of the three kinds that waits. -/
theorem ownedSlotCarriesTheOldestOfTheFirstKind : Obligations.OwnedSlotCarriesTheOldestOfTheFirstKind := by
  unfold Obligations.OwnedSlotCarriesTheOldestOfTheFirstKind
  intro c s free noSlot up owned
  rw [exec_ownedSlotStart free noSlot up owned c, State.startOwnedSlot]
  refine ⟨fun r rest records => ?_, fun q rest records replies => ?_, fun records replies full => ?_,
    fun records replies empty => ?_⟩
  · rw [State.placement_record records]
  · rw [State.placement_reply records replies]
  · rw [State.placement_notice records replies full]
  · rw [State.placement_idle records replies empty]

/-! ### The layouts of the cells sent (13.3, R174) -/

/-- A cell of the part's own carries the check over its own bytes. -/
theorem checkGood_sent (s : State) (kind dest : Byte) (p : Payload) : checkGood (s.sent kind dest p) = true :=
  beq_self_eq_true _

theorem hiByte_append_loByte (w : BitVec 16) : hiByte w ++ loByte w = w :=
  (BitVec.extractLsb'_append_extractLsb'_eq_extractLsb' (x := w) (start₁ := 0) (len₁ := 8) rfl).trans
    BitVec.extractLsb'_eq_self

theorem byteOf_append (w : BitVec 32) : byteOf w 3 ++ byteOf w 2 ++ byteOf w 1 ++ byteOf w 0 = w := by
  have upper : byteOf w 3 ++ byteOf w 2 = w.extractLsb' 16 16 :=
    BitVec.extractLsb'_append_extractLsb'_eq_extractLsb' (x := w) (start₁ := 16) (len₁ := 8) rfl
  have three : w.extractLsb' 16 16 ++ byteOf w 1 = w.extractLsb' 8 24 :=
    BitVec.extractLsb'_append_extractLsb'_eq_extractLsb' (x := w) (start₁ := 8) (len₁ := 8) rfl
  rw [upper, three]
  exact (BitVec.extractLsb'_append_extractLsb'_eq_extractLsb' (x := w) (start₁ := 0) (len₁ := 8) rfl).trans
    BitVec.extractLsb'_eq_self

theorem codePair_toNat (hi lo : Code) : (codePair hi lo).toNat = 16 * hi.value + lo.value := by
  cases hi <;> cases lo <;> rfl

theorem threeBits_toNat (a b c : Bool) : (bitAt 0 a ||| bitAt 1 b ||| bitAt 2 c).toNat =
    (if a then 1 else 0) + (if b then 2 else 0) + (if c then 4 else 0) := by
  cases a <;> cases b <;> cases c <;> rfl

/-- Byte 6 of a STACK_CHANGE: lane, mode and gap. -/
theorem laneModeGap_toNat (lane : Lane) (flag : Bool) {gap : Nat} (small : gap ≤ 15) :
    (BitVec.ofNat 8 lane.val ||| bitAt 3 flag ||| BitVec.ofNat 8 (16 * gap)).toNat =
      lane.val + (if flag then 8 else 0) + 16 * gap := by
  revert lane
  interval_cases gap <;> cases flag <;> decide

theorem loByte_toNat (w : BitVec 16) : (loByte w).toNat = w.toNat % 256 := by
  simp [loByte]

/-- Settles O43, layout by layout. -/
theorem sentCellsHaveTheirLayout : Obligations.SentCellsHaveTheirLayout := by
  unfold Obligations.SentCellsHaveTheirLayout
  refine ⟨checkGood_sent, fun r => ⟨rfl, rfl, rfl, byteOf_append _, rfl, rfl, rfl⟩, fun d => ?_, fun c gap count => ?_,
    fun s => ?_⟩
  · refine ⟨hiByte_append_loByte _, codePair_toNat _ _, codePair_toNat _ _, codePair_toNat _ _, ?_, fun low high => ?_,
      rfl, rfl⟩
    · refine (threeBits_toNat _ _ _).trans ?_
      simp
    · refine (congrArg BitVec.toInt (hiByte_append_loByte (BitVec.ofInt 16 d.regErr))).trans ?_
      rw [BitVec.toInt_ofInt]
      exact Int.bmod_eq_of_le (by omega) (by omega)
  · refine ⟨hiByte_append_loByte _, ?_, hiByte_append_loByte _, ?_, hiByte_append_loByte _, loByte_toNat _, ?_⟩
    · refine (laneModeGap_toNat c.lane _ gap).trans ?_
      simp
    · refine (congrArg BitVec.toNat (hiByte_append_loByte (BitVec.ofNat 16 c.count))).trans ?_
      rw [BitVec.toNat_ofNat]
      omega
    · cases next : c.nextTag <;> simp [Record.kind, next, kindStackChangeNext, kindStackChangeEmptied]
  · refine ⟨byteOf_append _, ?_, ?_, hiByte_append_loByte _, rfl, rfl⟩
    · show (BitVec.ofNat 8 s.jbc.job.code).toNat = _
      cases s.jbc.job <;> rfl
    · show (BitVec.ofNat 8 s.mru.reg.code).toNat = _
      cases s.mru.reg <;> rfl

end Sys2Proof.Machine
end

section
/-! PROOF. Verdicts (R69 to R75) and the splice list (R77 to R82). -/

namespace Sys2Proof.Machine

/-! ### The record a cell carries, and records merged (R69, R72) -/

theorem laneVerdictOf_eq (b : Byte) : laneVerdictOf b = laneVerdict b := by
  unfold laneVerdictOf laneVerdict
  simp only [← BitVec.toNat_inj]
  split <;> simp_all

theorem verdictOf_eq_cellVerdict (b : CellBody) : verdictOf b.payload = cellVerdict b := by
  simp only [verdictOf, cellVerdict, laneVerdictOf_eq]

theorem merge_eq_merged (v v' : VerdictRecord) : v.merge v' = merged v v' := by
  have lane : ∀ l l' : LaneVerdict, l.merge l' =
      if l = .fail ∨ l' = .fail then .fail else if l = .pass ∨ l' = .pass then .pass else .notInspected := by
    intro l l'
    cases l <;> cases l' <;> rfl
  simp only [VerdictRecord.merge, merged, lane]

theorem mergeVerdict_eq_mergedWith (held : Option VerdictRecord) (v : VerdictRecord) :
    mergeVerdict held v = mergedWith held v := by
  cases held with
  | none => rfl
  | some h => exact merge_eq_merged h v

theorem conflicts_iff (v v' : VerdictRecord) : v.conflicts v' = true ↔ Conflict v v' := by
  have lane : ∀ l l' : LaneVerdict, l.conflicts l' = true ↔ (l = .pass ∧ l' = .fail) ∨ (l = .fail ∧ l' = .pass) := by
    intro l l'
    cases l <;> cases l' <;> decide
  rw [VerdictRecord.conflicts, Lanes.any_toList]
  simp only [Lanes.get_ofFn, id_eq, lane]

/-- A conditional event concerns MGE alone. -/
theorem State.setEventIf_eq (s : State) (b : Bool) (e : Event) :
    s.setEventIf b e = { s with mge := (s.setEventIf b e).mge } := by
  cases b <;> rfl

/-- The event of a merge (R72): VERDICT_CONFLICT where what is held and the record conflict. -/
theorem State.conflictEvent_mge (s : State) (held : Option VerdictRecord) (v : VerdictRecord) :
    (∀ h, held = some h → Conflict h v →
      (s.setEventIf (verdictConflict held v) .verdictConflict).mge = (s.withEvent .verdictConflict).mge) ∧
    ((∀ h, held = some h → ¬ Conflict h v) →
      (s.setEventIf (verdictConflict held v) .verdictConflict).mge = s.mge) := by
  refine ⟨fun h some conflict => ?_, fun agree => ?_⟩
  · have meets : verdictConflict held v = true := by rw [some]; exact (conflicts_iff h v).2 conflict
    rw [meets, ← State.setEvent_eq_withEvent]
    rfl
  · have none : verdictConflict held v = false := by
      cases held with
      | none => rfl
      | some h => exact Bool.eq_false_iff.2 (mt (conflicts_iff h v).1 (agree h rfl))
    rw [none]
    rfl

/-! ### The verdict window (R71) -/

theorem State.heldVerdict?_eq_heldIn (s : State) (r : Rsn) : s.trc.heldVerdict? r = s.heldIn r := rfl

theorem putVerdict_absent {r : Rsn} {v : VerdictRecord} {l : List HeldVerdict} (absent : ∀ h ∈ l, h.rsn ≠ r) :
    putVerdict r v l = l ++ [⟨r, v⟩] := by
  induction l with
  | nil => rfl
  | cons h rest ih =>
    rw [putVerdict, if_neg (absent h (by simp)), ih fun x hx => absent x (List.mem_cons_of_mem h hx)]
    rfl

/-- The window holds the record put under its RSN, and under any other what it held. -/
theorem find?_putVerdict (r r' : Rsn) (v : VerdictRecord) (l : List HeldVerdict) :
    (putVerdict r v l).find? (fun h => h.rsn == r') =
      if r' = r then some ⟨r, v⟩ else l.find? (fun h => h.rsn == r') := by
  induction l with
  | nil =>
    rw [putVerdict]
    by_cases h : r' = r
    · simp [h]
    · simp [h, Ne.symm h]
  | cons h rest ih =>
    rw [putVerdict]
    by_cases same : h.rsn = r
    · rw [if_pos same]
      by_cases here : r' = r
      · simp [here]
      · simp [here, same, Ne.symm here]
    · rw [if_neg same, List.find?_cons, List.find?_cons, ih]
      by_cases here : r' = r
      · rw [if_pos here, if_pos here, here, beq_false_of_ne same]
      · simp [here]

theorem absent_of_heldIn {s : State} {r : Rsn} (none : s.heldIn r = none) : ∀ h ∈ s.trc.window, h.rsn ≠ r := by
  simpa [State.heldIn] using none

theorem present_of_heldIn {s : State} {r : Rsn} {v : VerdictRecord} (held : s.heldIn r = some v) :
    r ∈ s.trc.window.map HeldVerdict.rsn := by
  obtain ⟨h, found, -⟩ := Option.map_eq_some_iff.1 held
  exact List.mem_map.2 ⟨h, List.mem_of_find?_eq_some found, by simpa using List.find?_some found⟩

/-! ### A VERDICT cell taken (R69, R70) -/

theorem State.passed_trc (s : State) (p : Nat) (c : Cell) : (s.passed p c).trc = s.trc := by rw [State.passed_frame]

/-- A VERDICT cell reaches TRC in the machine that has passed it. -/
theorem exec_verdict {s : State} {b : CellBody} {p : Nat} (passes : s.Passes p) (addressed : s.Addressed ⟨0x21#8, b⟩) :
    exec (.verdict b) s = .next (if TakesVerdicts s b then
        (s.passed p ⟨0x21#8, b⟩).classifyVerdict (cellRsn b) (cellVerdict b)
      else s.passed p ⟨0x21#8, b⟩) := by
  have test : ((s.passed p ⟨0x21#8, b⟩).jobActive && (s.passed p ⟨0x21#8, b⟩).fromVerdictNode b.source) = true ↔
      TakesVerdicts s b := by
    simp [jobActive_iff, State.fromVerdictNode, State.passed_jbc]
  rw [exec_consumed rfl (by decide) passes addressed, State.route_verdict addressed.passed, ← verdictOf_eq_cellVerdict]
  refine congrArg _ ?_
  by_cases takes : TakesVerdicts s b
  · rw [if_pos takes]
    exact if_pos (test.2 takes)
  · rw [if_neg takes]
    exact if_neg (mt test.1 takes)

theorem State.classifyVerdict_ahead {s : State} {r : Rsn} {v : VerdictRecord} (ahead : 63 < (r - s.trc.nextRsn).toInt) :
    s.classifyVerdict r v = s.withEvent .verdictAhead := by
  rw [← State.setEvent_eq_withEvent]
  exact if_pos ahead

theorem State.classifyVerdict_window {s : State} {r : Rsn} {v : VerdictRecord} (low : 0 ≤ (r - s.trc.nextRsn).toInt)
    (high : (r - s.trc.nextRsn).toInt ≤ 63) : s.classifyVerdict r v = (s.storeVerdict r v).spliced r v.splice := by
  rw [← State.processSplice_eq_spliced]
  exact (if_neg (not_lt.2 high)).trans (if_pos low)

theorem State.classifyVerdict_entry {s : State} {r : Rsn} {v : VerdictRecord} (before : (r - s.trc.nextRsn).toInt < 0)
    (tracked : 0 ≤ (r - s.trc.oldestRsn).toInt) : s.classifyVerdict r v = (s.mergeIntoEntry r v).spliced r v.splice := by
  rw [← State.processSplice_eq_spliced]
  exact (if_neg (by unfold windowReach rsnOffset; omega)).trans ((if_neg (not_le.2 before)).trans (if_pos tracked))

theorem State.classifyVerdict_late {s : State} {r : Rsn} {v : VerdictRecord} (before : (r - s.trc.nextRsn).toInt < 0)
    (late : (r - s.trc.oldestRsn).toInt < 0) :
    s.classifyVerdict r v = (s.withEvent .verdictLate).spliced r v.splice := by
  rw [← State.processSplice_eq_spliced, ← State.setEvent_eq_withEvent]
  exact (if_neg (by unfold windowReach rsnOffset; omega)).trans ((if_neg (not_le.2 before)).trans (if_neg (not_le.2 late)))

theorem State.storeVerdict_eq (s : State) (r : Rsn) (v : VerdictRecord) :
    s.storeVerdict r v = { s with
      trc := { s.trc with window := putVerdict r (mergedWith (s.heldIn r) v) s.trc.window }
      mge := (s.setEventIf (verdictConflict (s.heldIn r) v) .verdictConflict).mge } := by
  rw [State.storeVerdict, State.setEventIf_eq, mergeVerdict_eq_mergedWith, State.heldVerdict?_eq_heldIn]

theorem State.mergeIntoEntry_eq {s : State} {r : Rsn} {e : Entry} (v : VerdictRecord)
    (found : s.trc.queue.find? (fun x => x.rsn == r) = some e) :
    s.mergeIntoEntry r v = { s with
      trc := { s.trc with queue := s.trc.queue.map (mergedAt r (mergedWith e.verdict v)) }
      mge := (s.setEventIf (verdictConflict e.verdict v) .verdictConflict).mge } := by
  have held : (s.trc.entry? r).bind Entry.verdict = e.verdict := by rw [Trc.entry?, found]; rfl
  rw [State.mergeIntoEntry, State.setEventIf_eq, held, mergeVerdict_eq_mergedWith]
  rfl

/-- Settles O39, row by row of R70. -/
theorem verdictIsStoredMergedOrDiscarded : Obligations.VerdictIsStoredMergedOrDiscarded := by
  unfold Obligations.VerdictIsStoredMergedOrDiscarded
  intro b s p passes addressed
  have arrives := exec_verdict passes addressed
  have trc := s.passed_trc p ⟨0x21#8, b⟩
  have held : ∀ r, (s.passed p ⟨0x21#8, b⟩).heldIn r = s.heldIn r := fun r => by rw [State.heldIn, trc, State.heldIn]
  refine ⟨fun ignored => arrives.trans (by rw [if_neg ignored]), fun takes => ?_⟩
  rw [if_pos takes] at arrives
  have event := fun held v => (s.passed p ⟨0x21#8, b⟩).conflictEvent_mge held v
  have mge : (s.passed p ⟨0x21#8, b⟩).mge = s.mge := s.passed_mge p _
  have conflictMge : ((s.passed p ⟨0x21#8, b⟩).withEvent .verdictConflict).mge = (s.withEvent .verdictConflict).mge := by
    simp only [State.withEvent, mge]
  rw [mge, conflictMge] at event
  rw [arrives]
  refine ⟨fun ahead => ?_, fun low high => ?_, fun before late => ?_, fun e before tracked found => ?_⟩
  · rw [State.classifyVerdict_ahead (by rwa [trc])]
  · refine ⟨_, congrArg _ (State.classifyVerdict_window (by rwa [trc]) (by rwa [trc])), ?_, ?_, ?_⟩
    all_goals rw [State.storeVerdict_eq, held, trc]
    · intro empty
      rw [empty]
      exact ⟨putVerdict_absent (absent_of_heldIn empty), (event none _).2 fun _ h => nomatch h⟩
    · intro v some
      rw [some]
      refine ⟨?_, ?_, fun r other => ?_, fun conflict => (event _ _).1 v rfl conflict, fun agree =>
        (event _ _).2 fun h same => Option.some.inj same ▸ agree⟩
      · exact (putVerdict_rsns _ _ _).trans (if_pos (present_of_heldIn some))
      · simp only [State.heldIn, find?_putVerdict]
        rfl
      · simp only [State.heldIn, find?_putVerdict, if_neg other]
  · rw [State.classifyVerdict_late (by rwa [trc]) (by rwa [trc])]
  · refine ⟨_, congrArg _ (State.classifyVerdict_entry (by rwa [trc]) (by rwa [trc])), ?_, ?_, ?_⟩
    all_goals rw [State.mergeIntoEntry_eq _ (by rwa [trc])]
    · rw [trc]
    · exact fun v some conflict => (event _ _).1 v some conflict
    · exact fun agree => (event _ _).2 agree

/-! ### The list of condemned ranges (R79 to R81) -/

/-- What a placed range and the ranges of the list cover. -/
theorem covers_placeRange (x : OffsetRange) (l : List OffsetRange) (k : Int) : Covers (placeRange x l) k ↔ Covers (x :: l) k := by
  simp only [Covers, mem_placeRange, List.mem_cons]

theorem covers_cons (x : OffsetRange) (l : List OffsetRange) (k : Int) :
    Covers (x :: l) k ↔ (x.first ≤ k ∧ k ≤ x.last) ∨ Covers l k := by
  simp [Covers]

theorem insertRange_eq (x : OffsetRange) (rs : List OffsetRange) : insertRange x rs =
    if (rs.filter fun y => !x.joins y).length < 4 then
      placeRange ((rs.filter fun y => x.joins y).foldl OffsetRange.hull x) (rs.filter fun y => !x.joins y)
    else coverNearest ((rs.filter fun y => x.joins y).foldl OffsetRange.hull x) (rs.filter fun y => !x.joins y) := rfl

theorem OffsetRange.joins_iff (x y : OffsetRange) : x.joins y = true ↔ x.first ≤ y.last + 1 ∧ y.first ≤ x.last + 1 := by
  simp [OffsetRange.joins]

/-- A range that does not join another lies on one side of it, and not next to it. -/
theorem OffsetRange.apart_of_not_joins {x y : OffsetRange} (h : x.joins y = false) :
    x.last + 1 < y.first ∨ y.last + 1 < x.first := by
  have := mt (OffsetRange.joins_iff x y).2 (Bool.eq_false_iff.1 h)
  omega

section Insert

variable {x : OffsetRange} {rs : List OffsetRange} (ends : x.first ≤ x.last) (order : RangesInOrder rs)

/-- Of four ranges that `x` does not join it joins none of the list. -/
theorem filter_joins_of_full (few : rs.length ≤ 4) (full : 4 ≤ (rs.filter fun y => !x.joins y).length) :
    (rs.filter fun y => !x.joins y) = rs ∧ (rs.filter fun y => x.joins y) = [] := by
  have all : (rs.filter fun y => !x.joins y) = rs :=
    List.filter_eq_self.2 (List.length_filter_eq_length_iff.1 (le_antisymm (List.length_filter_le _ _) (few.trans full)))
  refine ⟨all, List.filter_eq_nil_iff.2 fun y member => ?_⟩
  have apart := List.filter_eq_self.1 all y member
  simpa using apart

/-- With no room the range is joined to the nearest (R80). -/
theorem insertRange_full (order : RangesInOrder rs) (few : rs.length ≤ 4)
    (full : 4 ≤ (rs.filter fun y => !x.joins y).length) :
    ∃ near, Nearest x rs near ∧ insertRange x rs = placeRange (x.hull near) (rs.filter fun r => r != near) := by
  obtain ⟨all, none⟩ := filter_joins_of_full few full
  have some : rs ≠ [] := by
    rintro rfl
    simp at full
  rw [insertRange_eq, if_neg (not_lt.2 full), all, none]
  exact coverNearest_nearest x rs some order

include ends order in
/-- With room the list stays in order: the united range is as far from the others as its parts (R79). -/
theorem insertRange_order_room (room : (rs.filter fun y => !x.joins y).length < 4) : RangesInOrder (insertRange x rs) := by
  rw [insertRange_eq, if_pos room]
  have each := ((rangesInOrder_iff rs).1 order).1
  refine placeRange_order _ _ (order.filter _) (foldHull_ordered _ _ ends) fun y member => ?_
  obtain ⟨listed, apart⟩ := List.mem_filter.1 member
  have apart : x.joins y = false := by simpa using apart
  refine (foldHull_apart _ x y ends (each y listed) (fun r joined => ?_) (OffsetRange.apart_of_not_joins apart)).2
  obtain ⟨listed', joins⟩ := List.mem_filter.1 joined
  have touch := (OffsetRange.joins_iff x r).1 joins
  have other : r ≠ y := fun same => by simp [same, apart] at joins
  exact ⟨each r listed', touch.2, touch.1, RangesInOrder.apart order listed' listed other⟩

include ends order in
/-- With no room it stays in order, for no range lies between `x` and the nearest (R80). -/
theorem insertRange_order_full (few : rs.length ≤ 4) (full : 4 ≤ (rs.filter fun y => !x.joins y).length) :
    RangesInOrder (insertRange x rs) := by
  obtain ⟨near, nearest, joined⟩ := insertRange_full order few full
  obtain ⟨listed, least⟩ := nearest
  have each := ((rangesInOrder_iff rs).1 order).1
  have apartFromX : ∀ y ∈ rs, x.last + 1 < y.first ∨ y.last + 1 < x.first := fun y member =>
    OffsetRange.apart_of_not_joins (by
      have := List.filter_eq_self.1 (filter_joins_of_full few full).1 y member
      simpa using this)
  rw [joined]
  refine placeRange_order _ _ (order.filter _) ?_ fun y member => ?_
  · have := each near listed
    simp only [OffsetRange.hull]
    omega
  · obtain ⟨listed', other⟩ := List.mem_filter.1 member
    have fromNear := RangesInOrder.apart order listed' listed (by simpa using other)
    have fromX := apartFromX y listed'
    have nearFromX := apartFromX near listed
    have closer := (least y listed').1
    have := each y listed'
    have := each near listed
    simp only [gapBetween] at closer
    simp only [OffsetRange.hull]
    split at closer <;> split at closer <;> omega

/-- What was covered stays covered; in the hull of `x` and the nearest range so is the gap between them. -/
theorem covers_insertRange_full {near : OffsetRange} (order : RangesInOrder rs) (few : rs.length ≤ 4)
    (full : 4 ≤ (rs.filter fun y => !x.joins y).length) (nearest : Nearest x rs near) (k : Int) :
    Covers (insertRange x rs) k ↔ Covers rs k ∨ (min x.first near.first ≤ k ∧ k ≤ max x.last near.last) := by
  obtain ⟨near', nearest', joined⟩ := insertRange_full order few full
  obtain rfl := Nearest.unique order nearest nearest'
  rw [joined, covers_placeRange, covers_cons, or_comm]
  simp only [Covers, List.mem_filter, bne_iff_ne]
  constructor
  · rintro (⟨y, ⟨listed, -⟩, inside⟩ | hull)
    · exact .inl ⟨y, listed, inside⟩
    · exact .inr hull
  · rintro (⟨y, listed, inside⟩ | hull)
    · by_cases same : y = near
      · refine .inr (OffsetRange.hull_contains x near k (.inr ?_))
        rwa [same] at inside
      · exact .inl ⟨y, ⟨listed, same⟩, inside⟩
    · exact .inr hull

/-- With room the list covers what it covered and the new range, and nothing more. -/
theorem covers_insertRange_room (order : RangesInOrder rs) (room : (rs.filter fun y => !x.joins y).length < 4) (k : Int) :
    Covers (insertRange x rs) k ↔ Covers (x :: rs) k := by
  have each := ((rangesInOrder_iff rs).1 order).1
  have exact_ := foldHull_exact (rs.filter fun y => x.joins y) x x ⟨le_refl _, le_refl _⟩
    (fun y member => ⟨(List.mem_filter.1 member).2, each y (List.mem_filter.1 member).1⟩) k
  have covers := foldHull_covers (rs.filter fun y => x.joins y) x k
  have hull : _ ↔ Covers (x :: rs.filter fun y => x.joins y) k := ⟨exact_, covers⟩
  rw [insertRange_eq, if_pos room, covers_placeRange, covers_cons, hull, covers_cons, covers_cons, or_assoc]
  refine or_congr_right ⟨?_, ?_⟩
  · rintro (⟨y, member, inside⟩ | ⟨y, member, inside⟩)
    · exact ⟨y, (List.mem_filter.1 member).1, inside⟩
    · exact ⟨y, (List.mem_filter.1 member).1, inside⟩
  · rintro ⟨y, member, inside⟩
    cases joins : x.joins y with
    | true => exact .inl ⟨y, List.mem_filter.2 ⟨member, joins⟩, inside⟩
    | false => exact .inr ⟨y, List.mem_filter.2 ⟨member, by simp [joins]⟩, inside⟩

end Insert

/-- The flag SPLICE_ESCAPE after a SPLICE flag was processed (R78). -/
theorem State.spliced_escape (s : State) (r : Rsn) :
    (s.spliced r true).flag .spliceEscape = (s.flag .spliceEscape || decide (SpliceEscapes s r)) := by
  unfold State.spliced
  rw [if_pos rfl]
  by_cases escapes : SpliceEscapes s r
  · rw [if_pos escapes, decide_eq_true escapes, ← State.setEvent_eq_withEvent]
    exact (s.flag_setEvent .spliceEscape .spliceEscape).trans (by simp)
  · rw [if_neg escapes, decide_eq_false escapes, Bool.or_false]
    rfl

/-- Settles O40: the flag processed after any row but AHEAD, and the joining with and without room for the range. -/
theorem spliceFlagCondemnsItsRange : Obligations.SpliceFlagCondemnsItsRange := by
  unfold Obligations.SpliceFlagCondemnsItsRange
  refine ⟨fun b s p passes addressed takes near flag => ?_, fun x rs ends order few => ?_⟩
  · obtain ⟨u, processed, splices, oldest, decided, jbc, escape⟩ :=
      (s.passed p ⟨0x21#8, b⟩).classifyVerdict_near (cellRsn b) (cellVerdict b) (by rwa [State.passed_trc])
    have flag : (cellVerdict b).splice = true := flag
    rw [State.passed_trc] at splices oldest decided
    rw [State.passed_jbc] at jbc
    have range : u.spliceRange (cellRsn b) = s.spliceRange (cellRsn b) := by simp only [State.spliceRange, oldest, jbc]
    refine ⟨u.spliced (cellRsn b) true, ?_, ?_, ?_⟩
    · rw [exec_verdict passes addressed, if_pos takes, processed, State.processSplice_eq_spliced, flag]
    · simp only [State.spliced, if_true, State.spliceListWith, oldest, splices, range]
    · rw [State.spliced_escape, escape]
      simp only [SpliceEscapes, range, decided, State.flag, State.passed_mge]
  · refine ⟨insertRange_length x rs few, ?_, fun k covered => ?_, fun room k => ?_, fun near full nearest k => ?_⟩
    · by_cases room : (rs.filter fun y => !x.joins y).length < 4
      · exact insertRange_order_room ends order room
      · exact insertRange_order_full ends order few (not_lt.1 room)
    · by_cases room : (rs.filter fun y => !x.joins y).length < 4
      · exact (covers_insertRange_room order room k).2 covered
      · obtain ⟨near, nearest, -⟩ := insertRange_full order few (not_lt.1 room)
        rw [covers_insertRange_full order few (not_lt.1 room) nearest]
        rw [covers_cons] at covered
        obtain inside | listed := covered
        · exact .inr (OffsetRange.hull_contains x near k (.inl inside))
        · exact .inl listed
    · exact (covers_insertRange_room order room k).1
    · exact covers_insertRange_full order few full nearest k

end Sys2Proof.Machine
end

section
/-! PROOF. The web (chapter 1): a change of the encoder lines, what falls together with a count (R54, R87), the reverse
excursion (R6, R25), and the speed window (R8, R9). -/

namespace Sys2Proof.Machine

/-! ### A change of the lines (R1 to R3) -/

theorem decodeTransition_same (a b : Bool) : decodeTransition a b a b = .none := by
  cases a <;> cases b <;> rfl

theorem decodeTransition_both {a b a' b' : Bool} (ha : a' ≠ a) (hb : b' ≠ b) : decodeTransition a b a' b' = .illegal := by
  obtain rfl : a' = !a := Bool.eq_not_of_ne ha
  obtain rfl : b' = !b := Bool.eq_not_of_ne hb
  cases a <;> cases b <;> rfl

/-- A forward count behind HW moves WPOS alone, and ends the excursion where it comes back to HW (R3, R6). -/
theorem Psu.forward_behind {p : Psu} (behind : p.wpos ≠ p.hw) :
    p.forward = { p with
      wpos := p.wpos + 1, windowCount := p.windowCount + 1
      reported := p.reported && decide (p.wpos + 1 ≠ p.hw) } := by
  by_cases back : p.wpos + 1 = p.hw
  · rw [decide_eq_false (not_not.2 back), Bool.and_false]
    exact (if_neg behind).trans (if_pos back)
  · rw [decide_eq_true back, Bool.and_true]
    exact (if_neg behind).trans (if_neg back)

theorem State.forwardCount_behind {s : State} (behind : s.psu.wpos ≠ s.psu.hw) (o : CrossingOrder) :
    s.forwardCount o.alone = { s with psu := s.psu.forward } :=
  if_neg behind

/-- Settles O9: the four kinds of transition, the forward one behind HW and at it. -/
theorem encoderChangesMoveTheWeb : Obligations.EncoderChangesMoveTheWeb := by
  unfold Obligations.EncoderChangesMoveTheWeb
  intro a b o s free
  refine ⟨fun ⟨ha, hb⟩ => ?_, fun ha hb => ?_, fun forward behind => ?_, fun forward front noMiss noFire noDecision => ?_,
    fun reverse tracked => ?_⟩
  · subst ha hb
    rw [exec_encoderTransition _ _ _ free, State.encoderChange, decodeTransition_same]
    rfl
  · rw [exec_encoderTransition _ _ _ free, State.encoderChange, decodeTransition_both ha hb,
      ← State.setEvent_eq_withEvent]
    simp only [State.meetAll_alone, Psu.illegal, satIncrement_eq_oneMore]
    rfl
  · rw [exec_encoderTransition _ _ _ free, State.encoderChange, decodeTransition_forward forward]
    have taken := State.forwardCount_behind (s := { s with psu := s.psu.observe a b }) behind o
    rw [Psu.forward_behind (p := s.psu.observe a b) behind] at taken
    exact congrArg _ taken
  · rw [exec_encoderTransition_advance _ ⟨free, forward, front⟩,
      State.crossings_none o (s := s.advanced a b) noMiss noFire noDecision, State.advanced_forgetLastMark]
  · rw [exec_encoderTransition_reverse o free reverse, if_neg tracked]

/-! ### What falls together with a count (R54, R87) -/

theorem State.meet_append (now : Bool) (ms ms' : List Meeting) (s : State) :
    s.meet now (ms ++ ms') = (s.meet now ms).meet now ms' :=
  List.foldl_append

theorem State.meetAll_eq_meet (o : Turns) (s : State) : s.meetAll o = s.meet true (o.first ++ o.second ++ o.third) := by
  rw [State.meet_append, State.meet_append]
  rfl

theorem State.loseTracking_resetHeld (s : State) : s.loseTracking.resetHeld = s.resetHeld :=
  s.flushQueue_frame.resetHeld

/-- A change of the lines that advances nothing leaves reset as it was. -/
theorem State.encoderChange_resetHeld {s : State} {a b : Bool} (o : CrossingOrder)
    (still : ¬ (forwardStep s.psu.encA s.psu.encB a b ∧ s.psu.wpos = s.psu.hw)) :
    (s.encoderChange a b o.alone).resetHeld = s.resetHeld := by
  unfold State.encoderChange
  cases kind : decodeTransition s.psu.encA s.psu.encB a b with
  | none => rfl
  | forward =>
    have behind : s.psu.wpos ≠ s.psu.hw := fun h => still ⟨decodeTransition_forward_iff.1 kind, h⟩
    have taken := congrArg State.resetHeld
      (State.forwardCount_behind (s := { s with psu := s.psu.observe a b }) behind o)
    exact taken
  | reverse =>
    simp only [State.reverseCount, State.meetAll_alone]
    split
    · rw [State.loseTracking_resetHeld]
    · rfl
  | illegal => rfl

/-- Settles O11: an advance without a decision due and with one, and a count that does not advance HW. -/
theorem meetingsAreTakenInTheirTurn : Obligations.MeetingsAreTakenInTheirTurn := by
  unfold Obligations.MeetingsAreTakenInTheirTurn
  intro a b o s free
  refine ⟨fun front noDecision => ?_, fun front due => ?_, fun still => ?_⟩
  · rw [exec_encoderTransition_advance o front, State.crossings_undecided o (s := s.advanced a b) noDecision]
    have free₁ : (s.advanced a b).resetHeld = false := free
    rw [State.afterMeetings_eq_meet free₁]
    have kept₁ := (State.meet_outside true o.first (s.advanced a b)).trans
      (State.cross_outside true (blocksOf o.order).1 _)
    rw [State.afterMeetings_eq_meet (kept₁.resetHeld.trans free₁)]
    have kept₂ := kept₁.trans ((State.meet_outside true o.second _).trans
      (State.cross_outside true (blocksOf o.order).2.1 _))
    rw [State.afterMeetings_eq_meet (kept₂.resetHeld.trans free₁)]
    rfl
  · intro t
    rw [exec_encoderTransition_advance o front,
      State.crossings_due o ((State.decisionDue_iff (s.advanced a b)).2 due)]
    rfl
  · have still : ¬ (forwardStep s.psu.encA s.psu.encB a b ∧ s.psu.wpos = s.psu.hw) := fun h => still ⟨free, h⟩
    refine ⟨_, exec_encoderTransition a b _ free, ?_⟩
    rw [exec_encoderTransition a b o free, State.encoderChange_behind o still, State.meetAll_eq_meet,
      State.afterMeetings_eq_meet ((State.encoderChange_resetHeld o.order still).trans free)]

/-! ### The reverse excursion (R6, R25) -/

theorem State.loseTracking_jobFlushed (s : State) : JobFlushed s .trackLost s.loseTracking :=
  jobFlushed_enterStopped s (by decide) _ .halt

theorem State.loseTracking_jbc (s : State) :
    s.loseTracking.jbc = { s.jbc with job := .halt, tailPending := false, hbTimer := none, stopLatch := true } := by
  show { s.flushQueue.jbc with job := .halt, tailPending := false, hbTimer := none, stopLatch := true } = _
  rw [s.flushQueue_frame.jbc]

/-- Settles O12: the position unit, of which a flush reads nothing, and the loss of tracking. -/
theorem reverseExcursionHaltsTheJob : Obligations.ReverseExcursionHaltsTheJob := by
  unfold Obligations.ReverseExcursionHaltsTheJob
  intro a b o s free reverse lost
  let u : State := { s with psu := { afterReverse s.psu a b with reported := true } }
  obtain ⟨f, event, psu, mru, ksq, rif, mge, inhibitLine, resetHeld, draws, pending⟩ := u.loseTracking_jobFlushed
  refine ⟨u.loseTracking, ?_, ?_, event, psu, u.loseTracking_jbc, mru, ksq, rif, mge, inhibitLine, resetHeld.trans free,
    draws, pending⟩
  · rw [exec_encoderTransition_reverse o free reverse, if_pos lost]
  · exact ⟨f.queue, f.decided, f.decisions, f.held, f.gaps, f.unused, f.gateWord, f.table, f.records, f.dropped⟩

/-! ### The speed window (R8, R9, R87) -/

theorem spdOf_eq_speedOf (count : Int) (windowMs : Nat) : speedOf count windowMs = spdOf count windowMs := by
  unfold speedOf spdOf
  split
  · rw [Int.toNat_of_nonpos (by assumption), Nat.zero_mul, Nat.zero_min]
  · rfl

theorem windowMsOf_eq_ite (n : Nat) :
    windowMsOf n = if n = 0 then 1 else if n = 1 then 2 else if n = 2 then 4 else 8 := by
  unfold windowMsOf
  split <;> simp_all

/-- The expiry of a window that has run its length: the position unit, and then KSQ's F computed anew. -/
theorem State.windowEnd_due {s : State} (due : s.WindowRunOut) :
    s.windowEnd = ({ s with psu := afterWindow s } : State).recomputeFire := by
  have runOut : s.psu.windowRunOut = true := decide_eq_true due
  rw [State.windowEnd, if_pos runOut]
  simp only [State.windowExpiry, State.beginWindow, spdOf_eq_speedOf, windowMsOf_eq_ite]
  rfl

theorem exec_speedWindowExpiry {s : State} (free : s.resetHeld = false) : exec .speedWindowExpiry s = .next s.windowEnd :=
  congrArg _ (if_neg (by simp [free]))

/-- Settles O13. -/
theorem speedWindowExpiryMeasuresTheSpeed : Obligations.SpeedWindowExpiryMeasuresTheSpeed := by
  unfold Obligations.SpeedWindowExpiryMeasuresTheSpeed
  intro s free
  rw [exec_speedWindowExpiry free]
  refine ⟨fun early => ?_, fun due unarmed => ?_, fun r e due armed found ahead => ?_⟩
  · have running : ¬ s.psu.windowRunOut = true := mt of_decide_eq_true early
    rw [State.windowEnd, if_neg running]
  · rw [State.windowEnd_due due, State.recomputeFire]
    simp only [unarmed]
  · rw [State.windowEnd_due due,
      State.recomputeFire_ahead (s := { s with psu := afterWindow s }) armed found ahead]
    rfl

end Sys2Proof.Machine
end

section
/-! PROOF. Marks and misses (chapter 4): what MARK_EDGE takes of a mark, and the miss at the armed window end. -/

namespace Sys2Proof.Machine

/-! ### MARK_EDGE (R5, R44 to R48) -/

theorem exec_markEdge {s : State} (free : s.resetHeld = false) : exec .markEdge s = .next (s.markEdge true) :=
  congrArg _ (if_neg (by simp [free]))

theorem State.markEdge_front {s : State} (now : Bool) (front : s.psu.wpos = s.psu.hw) :
    s.markEdge now = s.takeMark now s.psu.wpos :=
  if_pos front

theorem State.markEdge_replay {s : State} (now : Bool) (behind : s.psu.wpos ≠ s.psu.hw) : s.markEdge now = s :=
  if_neg behind

theorem State.takeMark_idle {s : State} (idle : s.mru.reg = .idle) (now : Bool) (c : Position) : s.takeMark now c = s := by
  simp only [State.takeMark, idle]

theorem State.takeMark_search {s : State} {c : Position} (search : s.mru.reg = .search) (far : ¬ s.TooNear c) (now : Bool) :
    s.takeMark now c = s.acceptInSearch now c := by
  simp only [State.takeMark, search]
  exact if_pos ((s.spacingPasses_iff c).2 far)

theorem State.takeMark_near {s : State} {c : Position} (search : s.mru.reg = .search) (near : s.TooNear c) (now : Bool) :
    s.takeMark now c = s.strayMark := by
  simp only [State.takeMark, search]
  exact if_neg fun passes => (s.spacingPasses_iff c).1 passes near

theorem State.takeMark_tracking {s : State} (tracking : s.mru.reg = .capture ∨ s.mru.reg = .locked) (now : Bool)
    (c : Position) : s.takeMark now c = s.markAgainstWindow now c := by
  obtain capture | locked := tracking
  · simp only [State.takeMark, capture]
  · simp only [State.takeMark, locked]

theorem State.takeMark_window {s : State} {c : Position} {win : MarkWindow}
    (tracking : s.mru.reg = .capture ∨ s.mru.reg = .locked) (window : s.mru.window = some win)
    (inside : ¬ s.BeforeWindow c) (now : Bool) : s.takeMark now c = s.acceptInWindow now win c := by
  have opened : ¬ isBehind c win.opening = true := fun behind =>
    inside ((s.beforeWindow_iff c).1 fun win' window' => by
      rw [Option.some.inj (window'.symm.trans window)]
      exact behind)
  rw [State.takeMark_tracking tracking, State.markAgainstWindow, window]
  exact if_neg opened

theorem State.takeMark_before {s : State} {c : Position} (tracking : s.mru.reg = .capture ∨ s.mru.reg = .locked)
    (before : s.BeforeWindow c) (now : Bool) : s.takeMark now c = s.strayMark := by
  rw [State.takeMark_tracking tracking, State.markAgainstWindow]
  cases window : s.mru.window with
  | none => rfl
  | some win => exact if_pos ((s.beforeWindow_iff c).2 before win window)

/-- Settles O15: a replay, a mark in IDLE, and the two strays. -/
theorem marksThatCreateNoEntry : Obligations.MarksThatCreateNoEntry := by
  unfold Obligations.MarksThatCreateNoEntry
  intro s free
  rw [exec_markEdge free]
  refine ⟨fun ignored => ?_, fun stray => ?_⟩
  · obtain behind | idle := ignored
    · rw [State.markEdge_replay true behind]
    · by_cases front : s.psu.wpos = s.psu.hw
      · rw [State.markEdge_front true front, State.takeMark_idle idle]
      · rw [State.markEdge_replay true front]
  · have counted : s.strayMark = { s with mru := { s.mru with
        strayMarks := if s.mru.strayMarks = 65535#16 then 65535#16 else s.mru.strayMarks + 1 } } := by
      rw [State.strayMark, satIncrement_eq_oneMore]
      rfl
    rw [← counted]
    obtain ⟨front, search, near⟩ | ⟨front, tracking, before⟩ := stray
    · rw [State.markEdge_front true front, State.takeMark_near search near]
    · rw [State.markEdge_front true front, State.takeMark_before tracking before]

/-- A mark that SEARCH accepts (R46, R47). -/
theorem exec_markEdge_search {s : State} (free : s.resetHeld = false) (front : s.psu.wpos = s.psu.hw)
    (search : s.mru.reg = .search) (far : ¬ s.TooNear s.psu.wpos) :
    ∃ t, exec .markEdge s = .next t ∧ SearchMark s s.psu.wpos t := by
  refine ⟨_, exec_markEdge free, ?_⟩
  rw [State.markEdge_front true front, State.takeMark_search search far]
  exact s.acceptInSearch_spec s.psu.wpos

/-- A mark accepted in a window (R48, R49). -/
theorem exec_markEdge_window {s : State} {win : MarkWindow} (free : s.resetHeld = false) (front : s.psu.wpos = s.psu.hw)
    (tracking : s.mru.reg = .capture ∨ s.mru.reg = .locked) (window : s.mru.window = some win)
    (inside : ¬ s.BeforeWindow s.psu.wpos) : ∃ t, exec .markEdge s = .next t ∧ WindowMark s win s.psu.wpos t := by
  refine ⟨_, exec_markEdge free, ?_⟩
  rw [State.markEdge_front true front, State.takeMark_window tracking window inside]
  exact State.acceptInWindow_spec win s.psu.wpos tracking

/-- Settles O16. -/
theorem markInSearchCreatesAFaultEntry : Obligations.MarkInSearchCreatesAFaultEntry := by
  unfold Obligations.MarkInSearchCreatesAFaultEntry
  intro s free front search far
  obtain ⟨t, taken, mark⟩ := exec_markEdge_search free front search far
  refine ⟨t, taken, mark.created, mark.created.psu, fun goesOn => ?_, fun tail => ?_⟩
  · rw [mark.mru, goesOn]
    rfl
  · rw [mark.mru, tail]
    rfl

/-- Settles O10: the last mark forgotten, and then a mark that nothing is too near to. -/
theorem searchForgetsADistantMark : Obligations.SearchForgetsADistantMark := by
  unfold Obligations.SearchForgetsADistantMark
  intro a b o s m front search last noMiss noFire noDecision
  refine ⟨s.forwarded a b, ?_, fun distant => ?_, fun near => ?_⟩
  · rw [exec_encoderTransition_advance _ front,
      State.crossings_none o (s := s.advanced a b) noMiss noFire noDecision, State.advanced_forgetLastMark]
  · have mru : (s.forwarded a b).mru = { s.mru with lastMark := none } := if_pos ⟨search, m, last, distant⟩
    refine ⟨mru, ?_⟩
    have position : (s.forwarded a b).psu.wpos = s.psu.hw + 1 := congrArg (· + 1) front.2.2
    obtain ⟨u, taken, mark⟩ := exec_markEdge_search (s := s.forwarded a b) front.1 position
      (by rw [mru]; exact search) (by simp [State.TooNear, mru])
    rw [position] at mark
    exact ⟨u, taken, mark.created⟩
  · refine if_neg ?_
    rintro ⟨-, m', last', distant⟩
    rw [Option.mem_def, last, Option.some.injEq] at last'
    exact near (last' ▸ distant)

/-! ### A mark in a window (R49 to R51) -/

theorem State.quantities_advanced (s : State) (a b : Bool) : (s.advanced a b).quantities = s.quantities := rfl

/-- The lock count of R50: the run of an accepted mark, and nothing else but the registration state. -/
theorem Mru.countTowardsLock_eq (m : Mru) (n : Nat) :
    m.countTowardsLock n = { m with
      run := if m.reg = .capture then m.run + 1 else m.run, reg := (m.countTowardsLock n).reg } := by
  unfold Mru.countTowardsLock
  split <;> rfl

/-- The registration state after an accepted mark (R50). -/
theorem State.countTowardsLock_reg_eq {s : State} (tracking : s.mru.reg = .capture ∨ s.mru.reg = .locked) :
    (s.mru.countTowardsLock s.jbc.table.lockCount).reg = if s.lockedAfterMark then .locked else .capture := by
  obtain ⟨locked, captured⟩ := Mru.countTowardsLock_reg s tracking
  cases lock : s.lockedAfterMark with
  | true => exact locked.2 lock
  | false => exact captured lock

/-- MRU after a mark in a window that is not the tail's (R49, R53). -/
theorem WindowMark.mru_open {s t : State} {win : MarkWindow} {c : Position} (h : WindowMark s win c t)
    (tracking : s.mru.reg = .capture ∨ s.mru.reg = .locked) (goesOn : s.jbc.tailPending = false) :
    t.mru = { s.anchoredAt c with
      lastRegErr := (c - win.centre).toInt, lastMark := some c, missRun := 0
      run := if s.mru.reg = .capture then s.mru.run + 1 else s.mru.run
      reg := if s.lockedAfterMark then .locked else .capture, watch := true } := by
  rw [h.mru, goesOn, Mru.countTowardsLock_eq, State.countTowardsLock_reg_eq tracking]
  rfl

/-- MRU after the tail's mark: E stands, and MRU is in IDLE (R56). -/
theorem WindowMark.mru_tail {s t : State} {win : MarkWindow} {c : Position} (h : WindowMark s win c t)
    (tail : s.jbc.tailPending = true) :
    t.mru = { s.mru with
      lastRegErr := (c - win.centre).toInt, lastMark := some c, missRun := 0
      run := if s.mru.reg = .capture then s.mru.run + 1 else s.mru.run, reg := .idle, watch := false } := by
  rw [h.mru, tail, Mru.countTowardsLock_eq]
  rfl

/-- What a mark in a window leaves of MRU whether or not it is the tail's. -/
theorem WindowMark.mru_common {s t : State} {win : MarkWindow} {c : Position} (h : WindowMark s win c t)
    (tracking : s.mru.reg = .capture ∨ s.mru.reg = .locked) :
    t.mru.lastRegErr = (c - win.centre).toInt ∧ t.mru.lastMark = some c ∧ t.mru.missRun = 0 ∧
      t.mru.run = (if s.mru.reg = .capture then s.mru.run + 1 else s.mru.run) ∧
      t.mru.strayMarks = s.mru.strayMarks ∧ t.mru.reg ≠ .search := by
  cases tail : s.jbc.tailPending with
  | true =>
    rw [h.mru_tail tail]
    exact ⟨rfl, rfl, rfl, rfl, rfl, nofun⟩
  | false =>
    rw [h.mru_open tracking tail]
    refine ⟨rfl, rfl, rfl, rfl, rfl, ?_⟩
    cases s.lockedAfterMark <;> nofun

/-- Settles O17. -/
theorem markInWindowCreatesAJudgedEntry : Obligations.MarkInWindowCreatesAJudgedEntry := by
  unfold Obligations.MarkInWindowCreatesAJudgedEntry
  intro s win free front tracking window inside
  obtain ⟨t, taken, mark⟩ := exec_markEdge_window free front tracking window inside
  obtain ⟨regErr, last, missRun, run, strays, -⟩ := mark.mru_common tracking
  refine ⟨t, taken, mark.created.psu, mark.created, mark.gained, regErr, last, missRun, run, strays, fun goesOn => ?_,
    fun tail => ?_⟩
  · rw [mark.mru_open tracking goesOn]
    exact ⟨rfl, rfl, rfl, rfl, rfl⟩
  · rw [mark.mru_tail tail]
    exact ⟨rfl, rfl, rfl, rfl, rfl⟩

/-! ### An advance at which no decision is due -/

theorem State.forgetLastMark_of_not_search {s : State} (h : s.mru.reg ≠ .search) : s.forgetLastMark = s := by
  rw [State.forgetLastMark_eq, if_neg fun forgets => h forgets.1]

/-- No fire changes what MRU and TRC have armed. -/
theorem KnifeFrame.noMiss {s t : State} {h : Position} (hf : KnifeFrame s t) (hn : s.NoMissAt h) : t.NoMissAt h := by
  rw [State.NoMissAt, hf.mru]
  exact hn

/-- Without a miss or a decision an advance is the fire, and the forgetting of R46 before it or after it. -/
theorem State.crossings_fire (o : CrossingOrder) {s : State} (noMiss : s.NoMissAt s.psu.hw)
    (noDecision : s.NoDecisionAt s.psu.hw) :
    s.crossings o.alone = s.forgetLastMark.fireCrossing ∨ s.crossings o.alone = s.fireCrossing.forgetLastMark := by
  have fire := s.fireCrossing_frame
  have forget := s.forgetLastMark_eq
  have hw : s.fireCrossing.psu.hw = s.psu.hw := congrArg Psu.hw fire.psu
  have noMiss' : s.fireCrossing.NoMissAt s.fireCrossing.psu.hw := hw ▸ fire.noMiss noMiss
  have noDecision₁ : s.fireCrossing.NoDecisionAt s.fireCrossing.psu.hw := hw ▸ fire.noDecision noDecision
  have noDecision₂ : s.forgetLastMark.NoDecisionAt s.forgetLastMark.psu.hw := by rw [forget]; exact noDecision
  have noDecision₃ : s.fireCrossing.forgetLastMark.NoDecisionAt s.fireCrossing.forgetLastMark.psu.hw := by
    rw [State.forgetLastMark_eq]
    exact noDecision₁
  have noDecision₄ : s.forgetLastMark.fireCrossing.NoDecisionAt s.forgetLastMark.fireCrossing.psu.hw := by
    have fire' := s.forgetLastMark.fireCrossing_frame
    rw [congrArg Psu.hw fire'.psu]
    exact fire'.noDecision noDecision₂
  rw [State.crossings_alone o noDecision]
  cases o <;> simp only [State.registrationCrossing_none true noMiss, State.registrationCrossing_none true noMiss',
    State.decisionCrossing_none noDecision, State.decisionCrossing_none noDecision₁,
    State.decisionCrossing_none noDecision₂, State.decisionCrossing_none noDecision₃,
    State.decisionCrossing_none noDecision₄, true_or, or_true]

/-- Outside SEARCH it is the fire alone. -/
theorem State.crossings_fire_of_not_search (o : CrossingOrder) {s : State} (noMiss : s.NoMissAt s.psu.hw)
    (noDecision : s.NoDecisionAt s.psu.hw) (h : s.mru.reg ≠ .search) : s.crossings o.alone = s.fireCrossing := by
  have before := State.forgetLastMark_of_not_search h
  have after : s.fireCrossing.forgetLastMark = s.fireCrossing :=
    State.forgetLastMark_of_not_search (by rw [s.fireCrossing_frame.mru]; exact h)
  obtain first | last := State.crossings_fire o noMiss noDecision
  · rw [first, before]
  · rw [last, after]

/-! ### The miss at the armed window end (R52 to R54) -/

/-- MRU's window end is armed at HW, in CAPTURE or LOCKED. -/
structure State.MissDue (s : State) (win : MarkWindow) : Prop where
  tracking : s.mru.reg = .capture ∨ s.mru.reg = .locked
  watch : s.mru.watch = true
  window : s.mru.window = some win
  reached : win.ending = s.psu.hw

theorem KnifeFrame.missDue {s t : State} {win : MarkWindow} (hf : KnifeFrame s t) (h : s.MissDue win) : t.MissDue win := by
  obtain ⟨tracking, watch, window, reached⟩ := h
  exact ⟨by rwa [hf.mru], by rwa [hf.mru], by rwa [hf.mru], by rwa [hf.psu]⟩

/-- An advance that reaches the window end alone, or with a fire: the miss, before the fire or after it. -/
theorem State.crossings_miss (o : CrossingOrder) {s : State} {win : MarkWindow} (due : s.MissDue win)
    (noDecision : s.NoDecisionAt s.psu.hw)
    (alone : s.trc.queue = [] → (placed s.jbc.table s.jbc.ocEff win.centre).2 ≠ s.psu.hw) :
    s.crossings o.alone = (s.takeMiss true win).fireCrossing ∨
      s.crossings o.alone = s.fireCrossing.takeMiss true win := by
  have fire := s.fireCrossing_frame
  have hw : s.fireCrossing.psu.hw = s.psu.hw := congrArg Psu.hw fire.psu
  have due' := fire.missDue due
  have created := (s.takeMiss_spec win).created
  have created' := EntryCreated.before_knife fire (s.fireCrossing.takeMiss_spec win).created
  have r₁ := State.registrationCrossing_reached true due.tracking due.watch due.window due.reached
  have r₂ := State.registrationCrossing_reached true due'.tracking due'.watch due'.window due'.reached
  have n₁ : (s.takeMiss true win).NoDecisionAt (s.takeMiss true win).psu.hw := by
    rw [congrArg Psu.hw created.psu]
    exact created.noDecision noDecision alone
  have n₂ : s.fireCrossing.NoDecisionAt s.fireCrossing.psu.hw := hw ▸ fire.noDecision noDecision
  have n₃ : (s.fireCrossing.takeMiss true win).NoDecisionAt (s.fireCrossing.takeMiss true win).psu.hw := by
    rw [congrArg Psu.hw created'.psu]
    exact created'.noDecision noDecision alone
  have n₄ : (s.takeMiss true win).fireCrossing.NoDecisionAt (s.takeMiss true win).fireCrossing.psu.hw := by
    have fire' := (s.takeMiss true win).fireCrossing_frame
    rw [congrArg Psu.hw fire'.psu]
    exact fire'.noDecision n₁
  rw [State.crossings_alone o noDecision]
  cases o <;> simp only [r₁, r₂, State.decisionCrossing_none noDecision, State.decisionCrossing_none n₁,
    State.decisionCrossing_none n₂, State.decisionCrossing_none n₃, State.decisionCrossing_none n₄, true_or, or_true]

/-- What such an advance leaves: the miss, with the knife as it was where no fire falls at the advance. -/
structure MissAdvance (win : MarkWindow) (s t : State) : Prop where
  created : EntryCreated s t .synth win.centre none s.missFlag
  missed : t.flag .markMiss = true
  lost : s.mru.reg = .locked → s.mru.missRun + 1 = s.jbc.table.missLimit → t.flag .lockLost = true
  mru : t.mru = (if s.jbc.tailPending then { s.mru.countMiss with reg := .idle, watch := false }
    else s.mru.countMiss).afterMiss s.quantities win.centre s.jbc.tailPending s.missReachesLimit
  ksq : s.ksq.armed.isSome = true → s.NoFireAt s.psu.hw → t.ksq = s.ksq

theorem State.crossings_missAdvance (o : CrossingOrder) {s : State} {win : MarkWindow} (due : s.MissDue win)
    (noDecision : s.NoDecisionAt s.psu.hw)
    (alone : s.trc.queue = [] → (placed s.jbc.table s.jbc.ocEff win.centre).2 ≠ s.psu.hw) :
    MissAdvance win s (s.crossings o.alone) := by
  obtain missFirst | fireFirst := State.crossings_miss o due noDecision alone
  · have miss := s.takeMiss_spec win
    have fire := (s.takeMiss true win).fireCrossing_frame
    rw [missFirst]
    refine ⟨EntryCreated.after_knife fire miss.created, State.fireCrossing_flags _ _ miss.missed,
      fun locked limit => State.fireCrossing_flags _ _ (miss.lost locked limit), fire.mru.trans miss.mru,
      fun armed noFire => ?_⟩
    have kept := miss.ksq armed
    rw [State.fireCrossing_none, kept]
    rw [State.NoFireAt, kept, congrArg Psu.hw miss.created.psu]
    exact noFire
  · have fire := s.fireCrossing_frame
    obtain ⟨created, missed, lost, mru, ksq, -⟩ := s.fireCrossing.takeMiss_spec win
    rw [State.missFlag, fire.mru, fire.jbc] at created
    rw [fire.mru, fire.jbc] at lost
    rw [State.quantities, State.missReachesLimit, fire.mru, fire.jbc] at mru
    rw [fireFirst]
    refine ⟨EntryCreated.before_knife fire created, missed, lost, mru, fun armed noFire => ?_⟩
    rw [State.fireCrossing_none noFire] at ksq ⊢
    exact ksq armed

/-- E advanced by one repeat, in the words of the statements (R35). -/
theorem Mru.stepE_eq (s : State) (m : Mru) (eInt : m.eInt = s.mru.eInt) (eFrac : m.eFrac = s.mru.eFrac) :
    m.stepE s.quantities =
      { m with eInt := s.steppedMru.eInt, eFrac := s.steppedMru.eFrac, window := s.steppedMru.window } := by
  have below : s.mru.eFrac.toNat + s.quantities.repFx % 65536 < 65536 * 2 := by
    have := s.mru.eFrac.isLt
    omega
  have carry : (s.mru.eFrac.toNat + s.quantities.repFx % 65536) / 65536 =
      if 65536 ≤ s.mru.eFrac.toNat + s.quantities.repFx % 65536 then 1 else 0 := by
    split <;> omega
  have rest : (s.mru.eFrac.toNat + s.quantities.repFx % 65536) % 65536 =
      if 65536 ≤ s.mru.eFrac.toNat + s.quantities.repFx % 65536 then
        s.mru.eFrac.toNat + s.quantities.repFx % 65536 - 65536
      else s.mru.eFrac.toNat + s.quantities.repFx % 65536 := by
    split <;> omega
  unfold Mru.stepE
  rw [eInt, eFrac]
  simp only [Quantities.repFrac, carry, rest]
  rfl

/-- MRU after the tail's miss: E stands, and MRU is in IDLE (R56). -/
theorem MissAdvance.mru_tail {s t : State} {win : MarkWindow} (h : MissAdvance win s t) (tail : s.jbc.tailPending = true) :
    t.mru = { s.mru with
      missRun := s.mru.missRun + 1, run := if s.mru.reg = .capture then 0 else s.mru.run
      lastMark := some win.centre, reg := .idle, watch := false } := by
  rw [h.mru, tail]
  rfl

/-- MRU after a miss that is not the tail's: E one repeat on, and at MISS_LIMIT back in SEARCH. -/
theorem MissAdvance.mru_open {s t : State} {win : MarkWindow} (h : MissAdvance win s t)
    (goesOn : s.jbc.tailPending = false) :
    t.mru = { s.mru with
      missRun := s.mru.missRun + 1, run := if s.mru.reg = .capture then 0 else s.mru.run
      lastMark := some win.centre
      eInt := s.steppedMru.eInt, eFrac := s.steppedMru.eFrac, window := s.steppedMru.window
      reg := if s.mru.missRun + 1 = s.jbc.table.missLimit then .search else s.mru.reg
      watch := decide (s.mru.missRun + 1 ≠ s.jbc.table.missLimit) } := by
  have step := Mru.stepE_eq s { s.mru.countMiss with lastMark := some win.centre } rfl rfl
  rw [h.mru, goesOn]
  simp only [Mru.afterMiss, State.missReachesLimit, Bool.false_eq_true, if_false, step, beq_iff_eq]
  by_cases limit : s.mru.missRun + 1 = s.jbc.table.missLimit
  · rw [if_pos limit, if_pos limit, decide_eq_false (not_not.2 limit)]
    rfl
  · rw [if_neg limit, if_neg limit, decide_eq_true limit]
    rfl

/-- What a miss leaves of MRU whether or not it is the tail's. -/
theorem MissAdvance.mru_common {s t : State} {win : MarkWindow} (h : MissAdvance win s t) :
    t.mru.missRun = s.mru.missRun + 1 ∧ t.mru.lastMark = some win.centre ∧ t.mru.lastRegErr = s.mru.lastRegErr ∧
      t.mru.run = (if s.mru.reg = .capture then 0 else s.mru.run) ∧ t.mru.strayMarks = s.mru.strayMarks := by
  cases tail : s.jbc.tailPending with
  | true =>
    rw [h.mru_tail tail]
    exact ⟨rfl, rfl, rfl, rfl, rfl⟩
  | false =>
    rw [h.mru_open tail]
    exact ⟨rfl, rfl, rfl, rfl, rfl⟩

/-- Settles O18. -/
theorem missSynthesizesAMark : Obligations.MissSynthesizesAMark := by
  unfold Obligations.MissSynthesizesAMark
  intro a b o s win front tracking watch window reached noDecision alone
  have due : (s.advanced a b).MissDue win := ⟨tracking, watch, window, reached⟩
  have miss := State.crossings_missAdvance o due noDecision alone
  obtain ⟨missRun, last, regErr, run, strays⟩ := miss.mru_common
  refine ⟨_, exec_encoderTransition_advance _ front, miss.ksq, miss.created, miss.missed,
    fun locked limit => miss.lost locked limit, missRun, last, regErr, run, strays, fun goesOn => ?_, fun tail => ?_⟩
  · rw [miss.mru_open goesOn]
    refine ⟨rfl, rfl, rfl, fun limit => ⟨if_pos limit, decide_eq_false (not_not.2 limit)⟩,
      fun below => ⟨if_neg below, decide_eq_true below⟩⟩
  · rw [miss.mru_tail tail]
    exact ⟨rfl, rfl, rfl, rfl, rfl⟩

/-! ### A mark at the window end, taken first (R54) -/

/-- The distance from a window's centre to its end is its half-width. -/
theorem toInt_halfWidth {centre ending : Position} {w : Nat} (h : ending = centre + BitVec.ofNat 32 w)
    (small : w < 2147483648) : (ending - centre).toInt = w := by
  have number : (BitVec.ofNat 32 w).toNat = w := (BitVec.toNat_ofNat _ _).trans (Nat.mod_eq_of_lt (by omega))
  rw [h, BitVec.add_comm, BitVec.add_sub_cancel, BitVec.toInt_eq_toNat_of_lt (by omega), number]

/-- Settles O19: the mark accepted, and then an advance that reaches no window end. -/
theorem markFirstAtTheWindowEndTakesNoMiss : Obligations.MarkFirstAtTheWindowEndTakesNoMiss := by
  unfold Obligations.MarkFirstAtTheWindowEndTakesNoMiss
  intro a b o s win front tracking watch window reached width small inside moved noFire noDecision alone
  have position : (s.advanced a b).psu.wpos = win.ending := (congrArg (· + 1) front.2.2).trans reached.symm
  have atFront : (s.advanced a b).psu.wpos = (s.advanced a b).psu.hw := position.trans reached
  have first : (s.advanced a b).meet true [.mark] = (s.advanced a b).acceptInWindow true win win.ending := by
    show (s.advanced a b).markEdge true = _
    rw [State.markEdge_front true atFront, position]
    exact State.takeMark_window (s := s.advanced a b) tracking window inside true
  have mark : WindowMark (s.advanced a b) win win.ending ((s.advanced a b).acceptInWindow true win win.ending) :=
    State.acceptInWindow_spec win win.ending tracking
  obtain ⟨regErr, last, missRun, -, strays, notSearch⟩ := mark.mru_common tracking
  generalize (s.advanced a b).acceptInWindow true win win.ending = x at *
  have hw : x.psu.hw = s.psu.hw + 1 := congrArg Psu.hw mark.created.psu
  have noDecision' : x.NoDecisionAt x.psu.hw := by
    rw [hw]
    exact mark.created.noDecision noDecision (by rwa [← reached] at alone ⊢)
  have noMiss : x.NoMissAt x.psu.hw := by
    rw [hw, ← reached]
    cases tail : s.jbc.tailPending with
    | true => simp [State.NoMissAt, mark.mru_tail tail]
    | false =>
      rw [State.NoMissAt, mark.mru_open tracking tail]
      exact fun _ => moved
  have whole : (s.advanced a b).crossings { o.alone with first := [.mark] } = x.fireCrossing := by
    rw [State.crossings_first o [.mark] (s := s.advanced a b) noDecision (by rwa [first]), first]
    exact State.crossings_fire_of_not_search o noMiss noDecision' notSearch
  have fire := x.fireCrossing_frame
  have error := toInt_halfWidth width small
  have created := mark.created
  rw [error, Int.natAbs_natCast] at created
  refine ⟨x.fireCrossing, (exec_encoderTransition_advance _ front).trans (congrArg _ whole),
    EntryCreated.after_knife fire created,
    (State.fireCrossing_knifeFlags x _ (by decide) (by decide)).trans mark.noMiss, ?_⟩
  rw [fire.mru]
  refine ⟨missRun, last, regErr.trans error, strays, fun goesOn => ?_⟩
  rw [mark.mru_open tracking goesOn]
  exact ⟨rfl, rfl⟩

end Sys2Proof.Machine
end

section
/-! PROOF. The knife (chapter 6): the offer of a new entry (R85), the fire point reached (R86, R88) or computed anew (R87), the
knife input and timers (R90 to R93). -/

namespace Sys2Proof.Machine

/-! ### Fires -/

/-- A fire leaves what the forgetting of R46 looks at. -/
theorem State.fired_forgetLastMark {s : State} {r : Rsn} {c : CutState} (frame : KnifeFrame s (s.fired r c)) :
    (s.fired r c).forgetLastMark = s.forgetLastMark.fired r c := by
  have same : (s.fired r c).ForgetsLastMarkAt (s.fired r c).psu.hw ↔ s.ForgetsLastMarkAt s.psu.hw := by
    simp only [State.ForgetsLastMarkAt, frame.mru, frame.psu]
  rw [State.forgetLastMark_eq, s.forgetLastMark_eq]
  by_cases forgets : s.ForgetsLastMarkAt s.psu.hw
  · rw [if_pos (same.2 forgets), if_pos forgets, s.fired_withMru { s.mru with lastMark := none }, frame.mru]
  · rw [if_neg (mt same.1 forgets), if_neg forgets]

/-- Settles O21: the fire, before the forgetting of R46 or after it. -/
theorem crossingTheFirePointFiresTheKnife : Obligations.CrossingTheFirePointFiresTheKnife := by
  unfold Obligations.CrossingTheFirePointFiresTheKnife
  intro a b o s r front noMiss noDecision armed watch distinct
  rw [exec_encoderTransition_advance _ front]
  have reached := State.fireCrossing_reached (s := s.advanced a b) armed watch distinct
  have frame : KnifeFrame (s.advanced a b) ((s.advanced a b).fired r (if s.Blocked then .suppressed else .done)) :=
    reached ▸ (s.advanced a b).fireCrossing_frame
  obtain forgetFirst | fireFirst := State.crossings_fire o (s := s.advanced a b) noMiss noDecision
  · rw [forgetFirst, State.advanced_forgetLastMark]
    exact congrArg _ (State.fireCrossing_reached (s := s.forwarded a b) armed watch distinct)
  · rw [fireFirst, reached, ← State.advanced_forgetLastMark]
    exact congrArg _ (State.fired_forgetLastMark frame)

/-! ### The speed window end at the advance (R87) -/

/-- An F ahead of HW is not at HW. -/
theorem not_reached_of_ahead {hw f : Position} (ahead : (hw - f).toInt < 0) : f ≠ hw := by
  rintro rfl
  rw [BitVec.sub_self] at ahead
  exact absurd ahead (by decide)

/-- The window end taken first at an advance that reaches neither a window end of MRU nor a decision point. -/
theorem State.crossings_windowEnd (o : CrossingOrder) {s : State} (due : s.WindowRunOut) (noMiss : s.NoMissAt s.psu.hw)
    (noDecision : s.NoDecisionAt s.psu.hw)
    (noFire : ({ s with psu := afterWindow s } : State).recomputeFire.NoFireAt s.psu.hw) :
    s.crossings { o.alone with first := [.windowEnd] } =
      ({ s with psu := afterWindow s } : State).recomputeFire.forgetLastMark := by
  have first : s.meet true [.windowEnd] = ({ s with psu := afterWindow s } : State).recomputeFire :=
    State.windowEnd_due due
  have frame := ({ s with psu := afterWindow s } : State).recomputeFire_frame
  have hw : ({ s with psu := afterWindow s } : State).recomputeFire.psu.hw = s.psu.hw :=
    (congrArg Psu.hw frame.psu).trans rfl
  have noDecision' := frame.noDecision (h := s.psu.hw) noDecision
  rw [State.crossings_first o [.windowEnd] noDecision (by rwa [first, hw]), first]
  exact State.crossings_none o (by rw [hw]; exact frame.noMiss noMiss) (by rwa [hw]) (by rwa [hw])

/-- Settles O14: the expiry by itself, and the window end taken first at an advance. -/
theorem recomputedFirePointReachedIsALateFire : Obligations.RecomputedFirePointReachedIsALateFire := by
  unfold Obligations.RecomputedFirePointReachedIsALateFire
  intro s r e due armed found distinct
  refine ⟨fun u free same reached => ?_, fun a b o u front watch noMiss noDecision same => ?_⟩
  · subst same
    rw [exec_speedWindowExpiry free, State.windowEnd_due due]
    exact congrArg _ (State.recomputeFire_reached (s := { s with psu := afterWindow s }) armed found reached distinct)
  · subst same
    let w : State := { s.advanced a b with psu := afterWindow (s.advanced a b) }
    have forgets : w.forgetLastMark = { s.forwarded a b with psu := afterWindow (s.advanced a b) } := by
      rw [State.forgetLastMark_eq]
      rfl
    rw [exec_encoderTransition_advance _ front]
    refine ⟨fun ahead => congrArg _ ?_, fun reached => congrArg _ ?_⟩
    · have moved := State.recomputeFire_ahead (s := w) armed found ahead
      rw [State.crossings_windowEnd o (s := s.advanced a b) due noMiss noDecision, moved, State.forgetLastMark_eq]
      · rfl
      · rw [moved]
        exact fun _ same => not_reached_of_ahead ahead (Option.some.inj same)
    · have taken := State.recomputeFire_reached (s := w) armed found reached distinct
      have frame : KnifeFrame w (w.fired r (w.lateCut (w.lateness e))) := taken ▸ w.recomputeFire_frame
      rw [State.crossings_windowEnd o (s := s.advanced a b) due noMiss noDecision, taken,
        State.fired_forgetLastMark frame, forgets]
      · rfl
      · rw [taken]
        exact w.fired_noFire r _

/-! ### Offers (R61 step 9, R85) -/

/-- What an offer arms lies ahead of HW. -/
theorem Offered.noFire {s t : State} {before after : List Event} {e : Entry} (h : Offered s t before e after)
    (noFire : s.NoFireAt s.psu.hw) : t.NoFireAt s.psu.hw := by
  rw [State.NoFireAt, h.ksq, State.offered, State.withEvents_eq]
  dsimp only
  split
  · exact State.settled_noFire _
  · exact noFire

/-- Settles O20: the mark in SEARCH, the mark in a window, and the miss with no fire at its advance. -/
theorem newEntryIsOfferedToTheKnife : Obligations.NewEntryIsOfferedToTheKnife := by
  unfold Obligations.NewEntryIsOfferedToTheKnife
  refine ⟨fun s e free front search far he distinct => ?_,
    fun s win e free front tracking window inside he distinct => ?_,
    fun a b o s win e front tracking watch window reached noFire noDecision alone he distinct => ?_⟩
  · obtain ⟨t, taken, mark⟩ := exec_markEdge_search free front search far
    subst he
    exact ⟨t, taken, mark.offered distinct⟩
  · obtain ⟨t, taken, mark⟩ := exec_markEdge_window free front tracking window inside
    exact ⟨t, taken, mark.offered e he distinct⟩
  · have due : (s.advanced a b).MissDue win := ⟨tracking, watch, window, reached⟩
    have miss := ((s.advanced a b).takeMiss_spec win).offered e he distinct
    refine ⟨_, exec_encoderTransition_advance _ front, ?_⟩
    obtain missFirst | fireFirst := State.crossings_miss o due noDecision alone
    · have created := ((s.advanced a b).takeMiss_spec win).created
      rw [missFirst, State.fireCrossing_none]
      · exact miss
      · rw [congrArg Psu.hw created.psu]
        exact miss.noFire noFire
    · rw [fireFirst, State.fireCrossing_none noFire]
      exact miss

/-! ### The knife input and the timers (R90 to R93) -/

theorem exec_pulseTimerExpiry {s : State} (free : s.resetHeld = false) :
    exec .pulseTimerExpiry s = .next (if s.ksq.pulseRunOut then { s with ksq := s.ksq.endPulse } else s) := by
  show Host.Outcome.next (if s.resetHeld || !s.ksq.pulseRunOut then _ else _) = _
  rw [free]
  cases s.ksq.pulseRunOut <;> rfl

theorem exec_recoveryTimerExpiry {s : State} (free : s.resetHeld = false) :
    exec .recoveryTimerExpiry s =
      .next (if s.ksq.recoveryRunOut then { s with ksq := { s.ksq with recoveryTimer := none } } else s) := by
  show Host.Outcome.next (if s.resetHeld || !s.ksq.recoveryRunOut then _ else _) = _
  rw [free]
  cases s.ksq.recoveryRunOut <;> rfl

theorem exec_knifeInhibitAsserted_seen {s : State} (seen : s.inhibitLine = true) :
    exec .knifeInhibitAsserted s = .next s :=
  congrArg _ (if_pos (by simp [seen]))

theorem exec_knifeInhibitAsserted_new {s : State} (free : s.resetHeld = false) (new : s.inhibitLine = false) :
    exec .knifeInhibitAsserted s = .next s.assertInhibit :=
  congrArg _ (if_neg (by simp [free, new]))

/-- A pulse whose owner has left the queue ends, and no CUT changes (R93). -/
theorem State.truncatePulse_untracked {s : State} (high : s.ksq.pulse = true)
    (gone : ∀ r, s.ksq.owner = some r → ∀ e ∈ s.trc.queue, e.rsn ≠ r) :
    s.truncatePulse = { s with ksq := s.ksq.endPulse } := by
  rw [State.truncatePulse, if_pos high]
  cases owner : s.ksq.owner with
  | none => rfl
  | some r =>
    have absent : s.trc.entry? r = none := by simpa [Trc.entry?] using gone r owner
    simp [absent]

/-- A pulse whose owner is tracked ends, and the owner's cut is suppressed (R93). -/
theorem State.truncatePulse_tracked {s : State} {r : Rsn} {e : Entry} (high : s.ksq.pulse = true)
    (owner : s.ksq.owner = some r) (member : e ∈ s.trc.queue) (number : e.rsn = r) :
    s.truncatePulse =
      ({ s with ksq := s.ksq.endPulse, trc := s.trc.setCut r .suppressed } : State).setEvent .cutSuppressed := by
  have present : (s.trc.entry? r).isSome = true := by
    simpa [Trc.entry?] using ⟨e, member, number⟩
  rw [State.truncatePulse, if_pos high]
  simp only [owner, present, if_true]
  rfl

/-- Settles O22: the timers, the release, and the assertion by what becomes of a running pulse. -/
theorem knifeInputAndTimersFollowTheirRules : Obligations.KnifeInputAndTimersFollowTheirRules := by
  unfold Obligations.KnifeInputAndTimersFollowTheirRules
  intro s free
  simp only [← State.setEvent_eq_withEvent]
  refine ⟨fun high timer => ?_, fun early => ?_, fun timer low => ?_, fun early => ?_, ?_, exec_knifeInhibitAsserted_seen,
    fun new low => ?_, fun new high gone => ?_, fun r e new high owner member number => ?_⟩
  · rw [exec_pulseTimerExpiry free, if_pos (by simp [Ksq.pulseRunOut, high, timer])]
    rfl
  · rw [exec_pulseTimerExpiry free, if_neg]
    simpa [Ksq.pulseRunOut, imp_iff_not_or] using early
  · rw [exec_recoveryTimerExpiry free, if_pos (by simp [Ksq.recoveryRunOut, low, timer])]
  · rw [exec_recoveryTimerExpiry free, if_neg]
    simpa [Ksq.recoveryRunOut, imp_iff_not_or] using early
  · exact congrArg _ (if_neg (by simp [free]))
  · rw [exec_knifeInhibitAsserted_new free new, State.assertInhibit_eq, State.truncatePulse_low (s := s.latchInhibit) low]
    rfl
  · rw [exec_knifeInhibitAsserted_new free new, State.assertInhibit_eq,
      State.truncatePulse_untracked (s := s.latchInhibit) high gone]
    rfl
  · rw [exec_knifeInhibitAsserted_new free new, State.assertInhibit_eq,
      State.truncatePulse_tracked (s := s.latchInhibit) high owner member number]
    rfl

end Sys2Proof.Machine
end

section
/-! PROOF. Decisions (chapter 7): what one decision does, and the decisions of an advance that reaches a decision point, in
either order with the forgetting of R46. -/

namespace Sys2Proof.Machine

/-! ### One decision -/

/-- Settles O26. -/
theorem everyDecisionCountsOnePieceForEachLane : Obligations.EveryDecisionCountsOnePieceForEachLane := by
  unfold Obligations.EveryDecisionCountsOnePieceForEachLane
  intro s h
  refine ⟨s.takeDecision_taken h, fun i => ⟨fun used => ?_, (s.takeDecision_taken h).unused i⟩⟩
  rw [State.takeDecision_counters, if_pos (by simpa [State.laneUsed_eq] using used), Tally.total_bump]

theorem State.planAfter_unused {s : State} {i : Lane} (h : Handover) (unused : s.jbc.table.lanes ≤ i.val) :
    s.planAfter h i = s.bsq.get i :=
  if_pos unused

theorem State.planAfter_rejected {s : State} {h : Handover} {i : Lane} (used : i.val < s.jbc.table.lanes)
    (code : s.laneCode h i ≠ .stacked) :
    s.planAfter h i = { s.bsq.get i with gap := (s.bsq.get i).gap - 1 } := by
  simp only [State.planAfter, if_neg (Nat.not_le.2 used), if_pos code]

theorem State.planAfter_counted {s : State} {h : Handover} {i : Lane} {head : Batch} {later : List Batch}
    (used : i.val < s.jbc.table.lanes) (code : s.laneCode h i = .stacked) (list : (s.bsq.get i).batches = head :: later)
    (below : (s.bsq.get i).count + 1 < head.target) :
    s.planAfter h i = { s.bsq.get i with count := (s.bsq.get i).count + 1, gap := 0 } := by
  simp only [State.planAfter, if_neg (Nat.not_le.2 used), if_neg (not_not.2 code), list, if_pos below]

theorem State.planAfter_completed {s : State} {h : Handover} {i : Lane} {head : Batch} {later : List Batch}
    (completes : s.Completes h i head later) :
    s.planAfter h i = { s.bsq.get i with
      batches := if head.loop = true ∧ later = [] then [head] else later
      count := 0, stacksDone := (s.bsq.get i).stacksDone + 1
      gap := if head.mode = .gap then head.gap else 0 } := by
  obtain ⟨used, code, list, full⟩ := completes
  simp only [State.planAfter, if_neg (Nat.not_le.2 used), if_neg (not_not.2 code), list, if_neg (Nat.not_lt.2 full)]

theorem State.completion_of_completes {s : State} {h : Handover} {i : Lane} {head : Batch} {later : List Batch}
    (completes : s.Completes h i head later) :
    s.completion h i = some
      { rsn := h.entry.rsn, lane := i, tag := head.tag, count := (s.bsq.get i).count + 1, mode := head.mode
        gap := if head.mode = .gap then head.gap else 0
        nextTag := if head.loop = true ∧ later = [] then some head.tag else later.head?.map Batch.tag
        stacksDone := (s.bsq.get i).stacksDone + 1 } := by
  have list := completes.2.2.1
  simp only [State.completion, list]
  exact if_pos completes

/-- Only a STACKED piece completes a batch. -/
theorem State.code_of_completion {s : State} {h : Handover} {i : Lane} (some : (s.completion h i).isSome = true) :
    s.laneCode h i = .stacked := by
  unfold State.completion at some
  cases list : (s.bsq.get i).batches with
  | nil => simp [list] at some
  | cons head later =>
    by_cases completes : s.Completes h i head later
    · exact completes.2.1
    · simp only [list, if_neg completes] at some
      cases some

/-- After a decision a lane's list is empty where it was, and where the decision completed its last batch without LOOP. -/
theorem State.planAfter_batches_eq_nil_iff (s : State) (h : Handover) (i : Lane) : (s.planAfter h i).batches = [] ↔
    (s.bsq.get i).batches = [] ∨ ∃ head, s.Completes h i head [] ∧ head.loop = false := by
  by_cases used : i.val < s.jbc.table.lanes
  · by_cases code : s.laneCode h i = .stacked
    · cases list : (s.bsq.get i).batches with
      | nil => exact absurd list (State.stacked_plan code).1
      | cons head later =>
        by_cases below : (s.bsq.get i).count + 1 < head.target
        · rw [State.planAfter_counted used code list below]
          simp [State.Completes, list, below]
        · have completes : s.Completes h i head later := ⟨used, code, list, Nat.not_lt.1 below⟩
          rw [State.planAfter_completed completes]
          cases later with
          | nil => cases loop : head.loop <;> simp [State.Completes, used, code, list, loop, Nat.not_lt.1 below]
          | cons next more => simp [State.Completes, list]
    · rw [State.planAfter_rejected used code]
      simp [State.Completes, code]
  · rw [State.planAfter_unused h (Nat.not_lt.1 used)]
    simp [State.Completes, used]

theorem State.flag_withEvents (s : State) (es : List Event) (e : Event) :
    (s.withEvents es).flag e = (s.flag e || decide (e ∈ es)) := by
  induction es generalizing s with
  | nil => simp [State.withEvents]
  | cons first later ih =>
    show ((s.withEvent first).withEvents later).flag e = _
    rw [ih, ← State.setEvent_eq_withEvent, State.flag_setEvent]
    by_cases same : e = first <;> simp [same]

/-- A decision sets the flags of its events. -/
theorem DecisionTaken.flag {s t : State} {h : Handover} (taken : DecisionTaken s h t) {e : Event}
    (event : e ∈ s.decisionEvents h) : t.flag e = true := by
  have flags := s.flag_withEvents (s.decisionEvents h) e
  rw [decide_eq_true event, Bool.or_true] at flags
  rw [State.flag, taken.events]
  exact flags

theorem State.length_decisionRecords_le (s : State) (h : Handover) : (s.decisionRecords h).length ≤ 7 :=
  Nat.succ_le_succ (List.length_filterMap_le _ _)

/-- Where the record queue has room, a decision's records are all taken. -/
theorem DecisionTaken.records_room {s t : State} {h : Handover} (taken : DecisionTaken s h t)
    (room : s.rif.records.length + 7 ≤ 32) : t.rif.records = s.rif.records ++ s.decisionRecords h := by
  have few := s.length_decisionRecords_le h
  rw [taken.records, List.take_of_length_le (by omega)]

theorem State.stackDone_mem {s : State} {h : Handover} (done : ∃ i, (s.completion h i).isSome = true) :
    Event.stackDone ∈ s.decisionEvents h :=
  List.mem_append_left _ (List.mem_append_left _ (by rw [if_pos done]; exact List.mem_singleton_self _))

theorem State.laneDone_mem {s : State} {h : Handover} (done : ∃ i, s.Empties h i) : Event.laneDone ∈ s.decisionEvents h :=
  List.mem_append_left _ (List.mem_append_right _ (by rw [if_pos done]; exact List.mem_singleton_self _))

/-- The last batch completed without LOOP empties the lane's list. -/
theorem State.empties_of_completes {s : State} {h : Handover} {i : Lane} {head : Batch} (completes : s.Completes h i head [])
    (loop : head.loop = false) : s.Empties h i :=
  ⟨Option.isSome_iff_exists.2 ⟨_, State.completion_of_completes completes⟩,
    (s.planAfter_batches_eq_nil_iff h i).2 (.inr ⟨head, completes, loop⟩)⟩

/-- A completion has its record. -/
theorem State.stackChange_mem {s : State} {h : Handover} {i : Lane} {c : StackChange} (completion : s.completion h i = some c) :
    Record.stackChange c ∈ s.decisionRecords h := by
  have every : ∀ i : Lane, i ∈ ([0, 1, 2, 3, 4, 5] : List Lane) := by decide
  refine List.mem_cons_of_mem _ (List.mem_filterMap.2 ⟨i, every i, ?_⟩)
  rw [completion]
  rfl

/-! ### The decisions of an advance -/

/-- TRC's crossing reads MRU, and writes it, only at the tail's decision. -/
theorem State.decisionCrossing_withMru {s : State} (noTail : ∀ x ∈ s.trc.queue, x.tail = false) (m : Mru) :
    ({ s with mru := m } : State).decisionCrossing = { s.decisionCrossing with mru := m } := by
  show (if s.decisionDue then State.armDecisionFrom s.trc.queue { s with mru := m } else { s with mru := m }) = _
  rw [State.decisionCrossing]
  split
  · exact State.armDecisionFrom_withMru s.trc.queue noTail s m
  · rfl

theorem State.decisionCrossing_psu (s : State) : s.decisionCrossing.psu = s.psu := by
  rw [State.decisionCrossing]
  split
  · exact (State.armDecisionFrom_kept s.trc.queue s).1
  · rfl

/-- MRU in IDLE stays there through TRC's crossing. -/
theorem State.decisionCrossing_idle {s : State} (idle : s.mru.reg = .idle) : s.decisionCrossing.mru.reg = .idle := by
  rw [State.decisionCrossing]
  split
  · obtain same | ended := (State.armDecisionFrom_kept s.trc.queue s).2.1
    · rw [same, idle]
    · rw [ended]
  · exact idle

/-- TRC's crossing and the forgetting of R46 do not meet: a tail is in the queue only with MRU in IDLE (R22). -/
theorem State.decisionCrossing_forgetLastMark {s : State} (tails : ∀ x ∈ s.trc.queue, x.tail = true → s.mru.reg = .idle) :
    s.decisionCrossing.forgetLastMark = s.forgetLastMark.decisionCrossing := by
  by_cases idle : s.mru.reg = .idle
  · rw [State.forgetLastMark_of_not_search (s := s) (by rw [idle]; nofun),
      State.forgetLastMark_of_not_search (by rw [State.decisionCrossing_idle idle]; nofun)]
  · have noTail : ∀ x ∈ s.trc.queue, x.tail = false := fun x member =>
      Bool.eq_false_iff.2 fun tail => idle (tails x member tail)
    have mru : s.decisionCrossing.mru = s.mru :=
      (congrArg State.mru (State.decisionCrossing_withMru noTail s.mru) :)
    rw [State.forgetLastMark_congr mru s.decisionCrossing_psu, State.forgetLastMark_congr (v := s) (x := s) rfl rfl]
    exact (State.decisionCrossing_withMru noTail _).symm

/-- An advance that reaches a decision point alone is TRC's crossing of the machine that has advanced and forgotten. -/
theorem exec_encoderTransition_decision {s : State} {a b : Bool} (o : CrossingOrder) {e : Entry} {rest : List Entry}
    (front : s.AtFront a b) (noMiss : s.NoMissAt (s.psu.hw + 1)) (noFire : s.NoFireAt (s.psu.hw + 1))
    (watch : s.trc.watch = true) (queue : s.trc.queue = e :: rest) (reached : e.decisionPoint = s.psu.hw + 1)
    (tails : ∀ x ∈ s.trc.queue, x.tail = true → s.mru.reg = .idle) :
    exec (.encoderTransition a b o.alone) s = .next (s.forwarded a b).decisionCrossing := by
  rw [exec_encoderTransition_advance _ front]
  obtain forgotten | forgets := State.crossings_decision (a := a) (b := b) o noMiss noFire watch queue reached
  · rw [forgotten]
  · rw [forgets, State.decisionCrossing_forgetLastMark (s := s.advanced a b) tails, State.advanced_forgetLastMark]

/-- Settles O25. -/
theorem headsAlreadyReachedAreDecidedAtOnce : Obligations.HeadsAlreadyReachedAreDecidedAtOnce := by
  unfold Obligations.HeadsAlreadyReachedAreDecidedAtOnce
  intro a b o s e rest front noMiss noFire watch queue reached last tails
  exact ⟨_, State.decisionCrossing_run (s := s.forwarded a b) queue watch reached last,
    exec_encoderTransition_decision o front noMiss noFire watch queue reached tails⟩

/-- An advance that reaches the head's decision point, the next head's ahead, is the decision of the head. -/
theorem exec_encoderTransition_oneDecision {s : State} {a b : Bool} (o : CrossingOrder) {e : Entry} {rest : List Entry}
    (front : s.AtFront a b) (noMiss : s.NoMissAt (s.psu.hw + 1)) (noFire : s.NoFireAt (s.psu.hw + 1))
    (watch : s.trc.watch = true) (queue : s.trc.queue = e :: rest) (reached : e.decisionPoint = s.psu.hw + 1)
    (piece : e.tail = false) (ahead : ∀ x, rest.head? = some x → (s.psu.hw + 1 - x.decisionPoint).toInt < 0) :
    exec (.encoderTransition a b o.alone) s =
      .next (((s.forwarded a b).takeDecision (s.handover e rest)).headLeft e rest) := by
  rw [exec_encoderTransition_advance _ front]
  obtain forgotten | forgets := State.crossings_decision (a := a) (b := b) o noMiss noFire watch queue reached
  · rw [forgotten, State.decisionCrossing_one (x := s.forwarded a b) queue watch reached ahead piece]
    rfl
  · have frame := (s.advanced a b).takeDecision_frame (s.handover e rest)
    rw [forgets, State.decisionCrossing_one (x := s.advanced a b) queue watch reached ahead piece]
    show Host.Outcome.next
      (State.headLeft ((s.advanced a b).takeDecision (s.handover e rest)) e rest).forgetLastMark = _
    rw [State.forgetLastMark_congr (v := s.advanced a b)
        (x := State.headLeft ((s.advanced a b).takeDecision (s.handover e rest)) e rest) frame.mru frame.psu,
      State.advanced_forgetLastMark]
    exact congrArg (fun u => Host.Outcome.next (State.headLeft u e rest))
      (State.takeDecision_withMru (s.advanced a b) (s.forwarded a b).mru (s.handover e rest)).symm

/-- Settles O27. -/
theorem stackedPiecesFillBatchesAndEmptyingTheLastListEndsTheJob :
    Obligations.StackedPiecesFillBatchesAndEmptyingTheLastListEndsTheJob := by
  unfold Obligations.StackedPiecesFillBatchesAndEmptyingTheLastListEndsTheJob
  intro a b o s e rest front noMiss noFire watch queue reached piece ahead
  refine ⟨_, exec_encoderTransition_oneDecision o front noMiss noFire watch queue reached piece ahead, ?_⟩
  have taken : DecisionTaken (s.forwarded a b) (s.handover e rest)
      ((s.forwarded a b).takeDecision (s.handover e rest)) := State.takeDecision_taken _ _
  generalize (s.forwarded a b).takeDecision (s.handover e rest) = u at taken ⊢
  have plan : ∀ i, (u.headLeft e rest).bsq.get i = s.planAfter (s.handover e rest) i := taken.plans
  refine ⟨fun i => ⟨fun unused => ?_, fun used => ⟨fun code => ?_, fun head later code list =>
    ⟨fun below => ?_, fun full => ?_⟩⟩⟩, ?_⟩
  · rw [plan, State.planAfter_unused _ unused]
  · rw [plan, State.planAfter_rejected used code]
  · rw [plan, State.planAfter_counted used code list below]
  · have completes : s.Completes (s.handover e rest) i head later := ⟨used, code, list, full⟩
    have completion := State.completion_of_completes completes
    refine ⟨by rw [plan, State.planAfter_completed completes],
      taken.flag (State.stackDone_mem (s := s.forwarded a b) ⟨i, Option.isSome_iff_exists.2 ⟨_, completion⟩⟩),
      fun none loop => taken.flag (State.laneDone_mem (s := s.forwarded a b) ⟨i, ?_⟩), fun room => ?_⟩
    · subst none
      exact State.empties_of_completes completes loop
    · show _ ∈ u.rif.records
      rw [taken.records_room room]
      exact List.mem_append_right _ (State.stackChange_mem (s := s.forwarded a b) completion)
  · rintro ⟨i, head, completes, loop⟩
    have empties : s.Empties (s.handover e rest) i := State.empties_of_completes completes loop
    refine ⟨fun every => ?_, fun ⟨j, used, enabled, list, loops⟩ => ?_⟩
    · have ended : u.jbc = s.jbc.afterAutomaticEnd := taken.ends ⟨⟨i, empties⟩, fun j used enabled =>
        (s.planAfter_batches_eq_nil_iff _ j).2 (every j used enabled)⟩
      refine ⟨fun job => ended.trans ?_, fun job => ended.trans ?_⟩ <;> simp only [Jbc.afterAutomaticEnd, job]
    · refine taken.goesOn fun ends => ?_
      obtain empty | ⟨head', completes', loop'⟩ :=
        (s.planAfter_batches_eq_nil_iff (s.handover e rest) j).1 (ends.2 j used enabled)
      · exact list empty
      · rw [loops head' completes'] at loop'
        cases loop'

/-! ### The tail's decision (R22) -/

theorem Tally.ext_get {t t' : Tally} (h : ∀ c, t.get c = t'.get c) : t = t' := by
  obtain ⟨_, _, _, _, _, _, _, _, _, _⟩ := t
  obtain ⟨_, _, _, _, _, _, _, _, _, _⟩ := t'
  simp only [Tally.mk.injEq]
  exact ⟨h .stacked, h .rejInspect, h .rejUnknown, h .rejSplice, h .rejRegister, h .rejCut, h .rejLane, h .rejGap,
    h .rejStacker, h .rejHold⟩

/-- A held decision (R102): REJ_HOLD counted in each lane below LANES, every gate on reject, and the job goes on. -/
structure HeldDecision (s t : State) : Prop where
  counted : ∀ i : Lane, i.val < s.jbc.table.lanes → t.gtu.counters.get i =
    { s.gtu.counters.get i with rejHold := (s.gtu.counters.get i).rejHold + 1 }
  gateWord : t.gtu.gateWord = Lanes.all .reject
  jbc : t.jbc = s.jbc

theorem DecisionTaken.held {s t : State} {h : Handover} (taken : DecisionTaken s h t) (holds : s.holds h = true) :
    HeldDecision s t := by
  have code : ∀ i, s.laneCode h i = .rejHold := State.laneCode_of_holds holds
  refine ⟨fun i used => Tally.ext_get fun c => ?_, Lanes.ext_get fun i => ?_, taken.goesOn ?_⟩
  · rw [taken.counted i used, code]
    cases c <;> simp [Tally.get]
  · rw [taken.gates, if_neg (by simp [code]), Lanes.get_all]
  · rintro ⟨⟨i, completed, -⟩, -⟩
    exact absurd ((code i).symm.trans (State.code_of_completion completed)) (by decide)

/-- TRC's crossing of a queue that is the tail alone is the tail's decision and the end of the job. -/
theorem State.decisionCrossing_tail {s : State} {e : Entry} (queue : s.trc.queue = [e]) (watch : s.trc.watch = true)
    (reached : e.decisionPoint = s.psu.hw) (tail : e.tail = true) :
    ∃ u, DecisionTaken s (s.handover e []) u ∧ s.decisionCrossing = (u.headLeft e []).jobOver := by
  have run := State.decisionCrossing_run queue watch reached (by simp [queue])
  rw [queue] at run
  generalize s.decisionCrossing = t at run
  cases run with
  | ahead _ _ _ ahead =>
    rw [reached, BitVec.sub_self] at ahead
    exact absurd ahead (by decide)
  | decided _ _ _ _ _ _ piece => exact absurd (tail.symm.trans piece) (by decide)
  | last _ u _ _ _ taken => exact ⟨u, taken, rfl⟩

/-- The end of the job leaves MRU in IDLE, with nothing to forget. -/
theorem State.jobOver_forgetLastMark (s : State) : s.jobOver.forgetLastMark = s.jobOver :=
  State.forgetLastMark_of_not_search (s := s.jobOver) (show RegState.idle ≠ .search by decide)

/-- A machine with its last mark replaced. -/
def State.withLastMark (s : State) (last : Option Position) : State := { s with mru := { s.mru with lastMark := last } }

/-- What an advance forgets (R46) is the last mark at most, and only in SEARCH. -/
theorem State.forwarded_eq_withLastMark (s : State) (a b : Bool) :
    ∃ last, (s.mru.reg ≠ .search → last = s.mru.lastMark) ∧ s.forwarded a b = (s.advanced a b).withLastMark last := by
  by_cases far : s.ForgetsLastMarkAt (s.psu.hw + 1)
  · refine ⟨none, fun notSearch => absurd far.1 notSearch, ?_⟩
    rw [State.forwarded, if_pos far]
    rfl
  · refine ⟨s.mru.lastMark, fun _ => rfl, ?_⟩
    rw [State.forwarded, if_neg far]
    rfl

/-- The advance that reaches the tail's decision point: its decision, whether or not SEARCH has first forgotten a mark. -/
theorem exec_encoderTransition_tail {s : State} {a b : Bool} (o : CrossingOrder) {e : Entry} (front : s.AtFront a b)
    (noMiss : s.NoMissAt (s.psu.hw + 1)) (noFire : s.NoFireAt (s.psu.hw + 1)) (watch : s.trc.watch = true)
    (queue : s.trc.queue = [e]) (reached : e.decisionPoint = s.psu.hw + 1) (tail : e.tail = true) :
    ∃ last u, (s.mru.reg ≠ .search → last = s.mru.lastMark) ∧
      DecisionTaken ((s.advanced a b).withLastMark last) (s.handover e []) u ∧
      exec (.encoderTransition a b o.alone) s = .next (u.headLeft e []).jobOver := by
  rw [exec_encoderTransition_advance _ front]
  obtain forgotten | forgets := State.crossings_decision (a := a) (b := b) o noMiss noFire watch queue reached
  · obtain ⟨u, taken, crossed⟩ := State.decisionCrossing_tail (s := s.forwarded a b) queue watch reached tail
    obtain ⟨last, unforgotten, forwarded⟩ := s.forwarded_eq_withLastMark a b
    rw [forgotten, crossed]
    exact ⟨last, u, unforgotten, forwarded ▸ taken, rfl⟩
  · obtain ⟨u, taken, crossed⟩ := State.decisionCrossing_tail (s := s.advanced a b) queue watch reached tail
    rw [forgets, crossed, State.jobOver_forgetLastMark]
    exact ⟨s.mru.lastMark, u, fun _ => rfl, taken, rfl⟩

theorem DecisionTaken.kept {s t : State} {h : Handover} (taken : DecisionTaken s h t) :
    t.psu = s.psu ∧ t.mru = s.mru ∧ t.trc = s.trc ∧ t.ksq = s.ksq := by
  rw [taken.frame]
  exact ⟨rfl, rfl, rfl, rfl⟩

/-- Settles O28. -/
theorem tailDecisionEndsTheJob : Obligations.TailDecisionEndsTheJob := by
  unfold Obligations.TailDecisionEndsTheJob
  intro a b o s e front noMiss noFire watch queue reached tail drain
  obtain ⟨last, u, unforgotten, taken, next⟩ := exec_encoderTransition_tail o front noMiss noFire watch queue reached tail
  have held := taken.held (by simp [State.holds, State.handover, tail])
  have jbc : u.jbc = s.jbc := held.jbc
  obtain ⟨psu, mru, trc, ksq⟩ := taken.kept
  have lastMark : (u.headLeft e []).jobOver.mru.lastMark = last := (congrArg Mru.lastMark mru :)
  have ended : (u.headLeft e []).jobOver.flag .jobEnded = true := by
    rw [State.jobOver, ← State.setEvent_eq_withEvent]
    exact State.setEvent_flag _ _
  refine ⟨_, next, psu, rfl, rfl, rfl, (congrArg Trc.nextRsn trc :), ended, ?_, ?_, fun notSearch => ?_, ?_, held.counted,
    held.gateWord⟩
  · show ({ u.jbc with job := .idle, tailPending := false, hbTimer := none } : Jbc) = _
    rw [jbc]
  · show ({ u.mru with reg := .idle, watch := false } : Mru) = _
    rw [mru]
    exact congrArg (fun last => ({ s.mru with reg := .idle, watch := false, lastMark := last } : Mru)) lastMark.symm
  · exact lastMark.trans (unforgotten notSearch)
  · show ({ u.ksq with armed := none, fireWatch := none, pulse := false, pulseTimer := none, owner := none } : Ksq) = _
    rw [ksq]
    rfl

end Sys2Proof.Machine
end

section
/-! PROOF. The decision of a head with no successor (chapter 7; R65, log 29): whatever the advance takes before it leaves the
head its successors with CUT PENDING, and whatever it takes after it leaves the decision's record. -/

namespace Sys2Proof.Machine

/-! ### What MRU can do: a change of its own, an event, a creation -/

section Keeps

variable {P : State → Prop} {now : Bool} (mru : ∀ s m, P s → P { s with mru := m })
  (event : ∀ s e, P s → P (s.setEvent e)) (create : ∀ s q, P s → P (s.createEntry now q))

include event in
theorem State.setEventIf_keeps (b : Bool) (e : Event) {s : State} (h : P s) : P (s.setEventIf b e) := by
  cases b
  · exact h
  · exact event s e h

include mru event create

theorem State.markAgainstWindow_keeps (c : Position) {s : State} (h : P s) : P (s.markAgainstWindow now c) := by
  unfold State.markAgainstWindow
  split
  · exact mru _ _ h
  · split
    · exact mru _ _ h
    · exact mru _ _ (create _ _ (State.setEventIf_keeps event _ _ (mru _ _ h)))

theorem State.markEdge_keeps {s : State} (h : P s) : P (s.markEdge now) := by
  unfold State.markEdge State.takeMark
  split
  · split
    · exact h
    · split
      · exact mru _ _ (create _ _ h)
      · exact mru _ _ h
    · exact State.markAgainstWindow_keeps mru event create _ h
    · exact State.markAgainstWindow_keeps mru event create _ h
  · exact h

theorem State.registrationCrossing_keeps {s : State} (h : P s) : P (s.registrationCrossing now) := by
  have forgotten : P s.forgetLastMark := by
    rw [State.forgetLastMark_eq]
    exact mru _ _ h
  unfold State.registrationCrossing
  simp only
  split
  · exact forgotten
  · split
    · exact State.setEventIf_keeps event _ _ (event _ _ (mru _ _ (create _ _ (mru _ _ forgotten))))
    · exact forgotten

end Keeps

/-! ### Before the decision -/

/-- In `t`, which an advance has come to from `s`, the decision of the head `e` is due: the entries behind it are PENDING, no
entry is armed, and what the decision reads of JBC and the record queue are as in `s`. -/
structure AwaitsDecision (s : State) (e : Entry) (t : State) : Prop where
  queue : ∃ later, t.trc.queue = e :: later ∧ ∀ x ∈ later, x.cut = .pending
  watch : t.trc.watch = true
  reached : e.decisionPoint = t.psu.hw
  armed : t.ksq.armed = none
  records : t.rif.records = s.rif.records
  jbc : t.jbc = { s.jbc with tailPending := t.jbc.tailPending }

theorem AwaitsDecision.congr {s t u : State} {e : Entry} (h : AwaitsDecision s e t) (trc : u.trc = t.trc)
    (psu : u.psu.hw = t.psu.hw) (ksq : u.ksq = t.ksq) (rif : u.rif = t.rif) (jbc : u.jbc = t.jbc) :
    AwaitsDecision s e u := by
  obtain ⟨queue, watch, reached, armed, records, job⟩ := h
  exact ⟨trc ▸ queue, trc ▸ watch, psu ▸ reached, ksq ▸ armed, rif ▸ records, by rw [jbc]; exact job⟩

theorem AwaitsDecision.createEntry {s t : State} {e : Entry} (h : AwaitsDecision s e t) (q : Creation) :
    AwaitsDecision s e (t.createEntry false q) := by
  obtain ⟨trc, ksq⟩ := t.createEntry_unoffered q
  have created := (t.createEntry_creates false q).ent
  obtain ⟨later, queue, pending⟩ := h.queue
  refine ⟨⟨later ++ [t.newEntry q], ?_, ?_⟩, ?_, ?_, ?_, ?_, ?_⟩
  · rw [trc]
    show t.trc.queue ++ _ = _
    rw [queue]
    rfl
  · rintro x member
    obtain old | new := List.mem_append.1 member
    · exact pending x old
    · rw [List.mem_singleton.1 new]
      rfl
  · rw [trc]
    show (t.trc.watch || _) = true
    rw [h.watch]
    rfl
  · rw [created.psu]
    exact h.reached
  · rw [ksq]
    exact h.armed
  · rw [created.rif]
    exact h.records
  · rw [created.jbc, h.jbc]

theorem AwaitsDecision.markEdge {s t : State} {e : Entry} (h : AwaitsDecision s e t) :
    AwaitsDecision s e (t.markEdge false) :=
  State.markEdge_keeps (fun _ _ k => k.congr rfl rfl rfl rfl rfl) (fun _ _ k => k.congr rfl rfl rfl rfl rfl)
    (fun _ q k => k.createEntry q) h

theorem AwaitsDecision.registrationCrossing {s t : State} {e : Entry} (h : AwaitsDecision s e t) :
    AwaitsDecision s e (t.registrationCrossing false) :=
  State.registrationCrossing_keeps (fun _ _ k => k.congr rfl rfl rfl rfl rfl) (fun _ _ k => k.congr rfl rfl rfl rfl rfl)
    (fun _ q k => k.createEntry q) h

theorem AwaitsDecision.fireCrossing {s t : State} {e : Entry} (h : AwaitsDecision s e t) :
    AwaitsDecision s e t.fireCrossing := by
  rw [State.fireCrossing_none (by simp [State.NoFireAt, h.armed])]
  exact h

theorem State.recomputeFire_unarmed {s : State} (armed : s.ksq.armed = none) : s.recomputeFire = s := by
  rw [State.recomputeFire, armed]

theorem AwaitsDecision.recomputeFire {s t : State} {e : Entry} (h : AwaitsDecision s e t) :
    AwaitsDecision s e t.recomputeFire := by
  rw [State.recomputeFire_unarmed h.armed]
  exact h

theorem AwaitsDecision.windowEnd {s t : State} {e : Entry} (h : AwaitsDecision s e t) : AwaitsDecision s e t.windowEnd := by
  unfold State.windowEnd
  split
  · exact AwaitsDecision.recomputeFire (h.congr rfl rfl rfl rfl rfl)
  · exact h

theorem AwaitsDecision.meet {s t : State} {e : Entry} (h : AwaitsDecision s e t) (ms : List Meeting) :
    AwaitsDecision s e (t.meet false ms) :=
  State.meet_keeps (P := AwaitsDecision s e) (fun _ => AwaitsDecision.markEdge) (fun _ => AwaitsDecision.windowEnd) ms h

/-! ### After the decision: records are only added -/

/-- The record queue of `t` is that of `s` with records added at its end, or none. -/
def RecordsGrow (s t : State) : Prop := s.rif.records <+: t.rif.records

theorem RecordsGrow.of_rif {s t : State} (h : t.rif = s.rif) : RecordsGrow s t := by
  rw [RecordsGrow, h]

theorem RecordsGrow.trans {s t u : State} (h : RecordsGrow s t) (k : RecordsGrow t u) : RecordsGrow s u :=
  List.IsPrefix.trans h k

theorem State.createEntry_rif (now : Bool) (s : State) (q : Creation) : (s.createEntry now q).rif = s.rif :=
  (s.createEntry_creates now q).ent.rif

theorem RecordsGrow.markEdge (now : Bool) {s t : State} (h : RecordsGrow s t) : RecordsGrow s (t.markEdge now) :=
  State.markEdge_keeps (fun _ _ k => k) (fun _ _ k => k) (fun u q k => k.trans (.of_rif (u.createEntry_rif now q))) h

theorem RecordsGrow.registrationCrossing (now : Bool) {s t : State} (h : RecordsGrow s t) :
    RecordsGrow s (t.registrationCrossing now) :=
  State.registrationCrossing_keeps (fun _ _ k => k) (fun _ _ k => k)
    (fun u q k => k.trans (.of_rif (u.createEntry_rif now q))) h

theorem RecordsGrow.windowEnd {s t : State} (h : RecordsGrow s t) : RecordsGrow s t.windowEnd := by
  unfold State.windowEnd
  split
  · exact h.trans (.of_rif (State.recomputeFire_frame _).rif)
  · exact h

theorem RecordsGrow.fireCrossing {s t : State} (h : RecordsGrow s t) : RecordsGrow s t.fireCrossing :=
  h.trans (.of_rif t.fireCrossing_frame.rif)

theorem RecordsGrow.offerCreated {s t : State} (h : RecordsGrow s t) (before : Rsn) :
    RecordsGrow s (t.offerCreated before) :=
  h.trans (.of_rif (State.offerCreated_frame before t).rif)

theorem RecordsGrow.meet (now : Bool) {s t : State} (h : RecordsGrow s t) (ms : List Meeting) :
    RecordsGrow s (t.meet now ms) :=
  State.meet_keeps (P := RecordsGrow s) (fun _ => RecordsGrow.markEdge now) (fun _ => RecordsGrow.windowEnd) ms h

theorem State.completeDecision_rif (s : State) (e : Entry) : (s.completeDecision e).rif = s.rif := by
  unfold State.completeDecision
  simp only
  split <;> rfl

theorem RecordsGrow.takeDecision (s : State) (h : Handover) : RecordsGrow s (s.takeDecision h) := by
  rw [RecordsGrow, State.takeDecision_records]
  exact List.prefix_append _ _

theorem RecordsGrow.armDecisionFrom (l : List Entry) (s : State) : RecordsGrow s (State.armDecisionFrom l s) := by
  induction l generalizing s with
  | nil => exact .of_rif rfl
  | cons e rest ih =>
    unfold State.armDecisionFrom
    split
    · exact .of_rif rfl
    · exact ((RecordsGrow.takeDecision s _).trans (.of_rif (State.completeDecision_rif _ e))).trans (ih _)

theorem RecordsGrow.decisionCrossing {s t : State} (h : RecordsGrow s t) : RecordsGrow s t.decisionCrossing := by
  unfold State.decisionCrossing
  split
  · exact h.trans (.armDecisionFrom t.trc.queue t)
  · exact h

/-! ### The decision itself -/

/-- From `s` to `t` the head `e` was decided: its record follows those of `s`, REJ_HOLD or REJ_CUT in every lane below LANES. -/
def HeadRejected (s : State) (e : Entry) (t : State) : Prop :=
  ∃ d : Disposition, d.rsn = e.rsn ∧
    (∀ i : Lane, i.val < s.jbc.table.lanes → d.codes.get i = if Hold s (s.handover e []) then .rejHold else .rejCut) ∧
    s.rif.records ++ [.disposition d] <+: t.rif.records

theorem HeadRejected.grow {s t u : State} {e : Entry} (h : HeadRejected s e t) (k : RecordsGrow t u) : HeadRejected s e u := by
  obtain ⟨d, rsn, codes, records⟩ := h
  exact ⟨d, rsn, codes, records.trans k⟩

/-- A head whose successor, if any, has CUT PENDING is held, or rejected for its cut (R102, R103). -/
theorem AwaitsDecision.laneCode {s t : State} {e : Entry} {later : List Entry} (h : AwaitsDecision s e t)
    (pending : ∀ x ∈ later, x.cut = .pending) (i : Lane) :
    t.laneCode (t.handover e later) i = if Hold s (s.handover e []) then .rejHold else .rejCut := by
  obtain ⟨hold, cut, -⟩ := codesFollowTheCauseOrder t (t.handover e later) i
  have same : Hold t (t.handover e later) ↔ Hold s (s.handover e []) := by
    rw [Hold, h.jbc]
    rfl
  have missing : CutMissing (t.handover e later) := by
    cases later with
    | nil => exact .inr (.inl rfl)
    | cons x xs => exact .inr (.inr ⟨x.cut, rfl, .inl (pending x (List.mem_cons_self ..))⟩)
  by_cases held : Hold s (s.handover e [])
  · rw [if_pos held]
    exact hold.2 (same.2 held)
  · rw [if_neg held]
    exact cut.2 ⟨mt same.1 held, missing⟩

/-- TRC's crossing decides the head; the decision is the first to add records. -/
theorem AwaitsDecision.decisionCrossing {s t : State} {e : Entry} (h : AwaitsDecision s e t)
    (room : s.rif.records.length < 32) : HeadRejected s e t.decisionCrossing := by
  obtain ⟨later, queue, pending⟩ := h.queue
  have decided : HeadRejected s e (t.takeDecision (t.handover e later)) := by
    refine ⟨t.recordOf (t.handover e later), rfl, fun i used => ?_, ?_⟩
    · have used' : i.val < t.jbc.table.lanes := by rwa [h.jbc]
      rw [← h.laneCode pending i, State.recordOf, Lanes.get_ofFn, if_pos used']
    · obtain ⟨n, left⟩ : ∃ n, 32 - s.rif.records.length = n + 1 := ⟨31 - s.rif.records.length, by omega⟩
      rw [(t.takeDecision_taken _).records, h.records, left, State.decisionRecords, List.take_succ_cons]
      exact (List.prefix_append_right_inj _).2 (List.prefix_append [_] _)
  rw [State.decisionCrossing_eq queue h.watch h.reached, State.armDecisionFrom, if_neg (by simp [isBehind, distance, h.reached])]
  exact decided.grow ((RecordsGrow.of_rif (State.completeDecision_rif _ e)).trans (.armDecisionFrom later _))

theorem HeadRejected.meet {s t : State} {e : Entry} (h : HeadRejected s e t) (ms : List Meeting) :
    HeadRejected s e (t.meet false ms) :=
  h.grow (RecordsGrow.meet false (.of_rif rfl) ms)

theorem HeadRejected.registrationCrossing {s t : State} {e : Entry} (h : HeadRejected s e t) :
    HeadRejected s e (t.registrationCrossing false) :=
  h.grow (RecordsGrow.registrationCrossing false (.of_rif rfl))

theorem HeadRejected.fireCrossing {s t : State} {e : Entry} (h : HeadRejected s e t) : HeadRejected s e t.fireCrossing :=
  h.grow (RecordsGrow.fireCrossing (.of_rif rfl))

/-- The turns of an advance decide the head in every order of them. -/
theorem AwaitsDecision.takeTurns {s t : State} {e : Entry} (h : AwaitsDecision s e t)
    (room : s.rif.records.length < 32) (o : Turns) : HeadRejected s e (t.takeTurns false o) := by
  obtain ⟨order, first, second, third⟩ := o
  cases order with
  | mruKsqTrc =>
    exact ((((h.meet first).registrationCrossing.meet second).fireCrossing.meet third).decisionCrossing room :)
  | mruTrcKsq =>
    exact (((((h.meet first).registrationCrossing.meet second).decisionCrossing room).meet third).fireCrossing :)
  | ksqMruTrc =>
    exact ((((h.meet first).fireCrossing.meet second).registrationCrossing.meet third).decisionCrossing room :)
  | ksqTrcMru =>
    exact (((((h.meet first).fireCrossing.meet second).decisionCrossing room).meet third).registrationCrossing :)
  | trcMruKsq =>
    exact (((((h.meet first).decisionCrossing room).meet second).registrationCrossing.meet third).fireCrossing :)
  | trcKsqMru =>
    exact (((((h.meet first).decisionCrossing room).meet second).fireCrossing.meet third).registrationCrossing :)

/-- Settles O24: the head's crossing alone, and a head with no successor under every order of the turns. -/
theorem crossingTheDecisionPointDecidesTheHead : Obligations.CrossingTheDecisionPointDecidesTheHead := by
  unfold Obligations.CrossingTheDecisionPointDecidesTheHead
  refine ⟨fun a b o s e rest front noMiss noFire watch queue reached piece ahead => ?_,
    fun a b o s e front watch queue reached armed room => ?_⟩
  · exact ⟨_, State.takeDecision_taken _ _,
      exec_encoderTransition_oneDecision o front noMiss noFire watch queue reached piece ahead⟩
  · have awaits : AwaitsDecision s e (s.advanced a b) :=
      ⟨⟨[], queue, fun _ member => absurd member List.not_mem_nil⟩, watch, reached, armed, rfl, rfl⟩
    have decided := (awaits.takeTurns room o).grow (RecordsGrow.offerCreated (.of_rif rfl) s.trc.nextRsn)
    obtain ⟨d, rsn, codes, more, records⟩ := decided
    have due : (s.advanced a b).decisionDue = true := State.decisionDue_true (s := s.advanced a b) queue watch reached
    refine ⟨_, d, more, exec_encoderTransition_advance o front, ?_, rsn, codes⟩
    rw [State.crossings_due o due]
    exact records.symm.trans (List.append_assoc _ _ _)

end Sys2Proof.Machine
end
